-- ==== Sys2Proof/Word.lean ====
section
/-! DEFINITION. The word types of the machine and nothing else. The spec's XLEN is a launch parameter
(R7 of 00_scope.md), so integer registers, pc and addresses are stored in cells of 128 bits, the widest
XLEN the spec names, and are read and written at XLEN bits (`notes/assumptions/10.md`). -/

namespace Sys2Proof

/-- A cell that holds an integer register, the pc or an `info` value: the low XLEN bits are live (R21, R26). -/
abbrev Word := BitVec 128

/-- One byte of memory (R60). -/
abbrev Byte := BitVec 8

/-- A cell that holds a floating-point register: the low FLEN bits are live (R30). -/
abbrev FWord := BitVec 64

/-- The bits of a single-precision value (R451). -/
abbrev Single := BitVec 32

/-- The bits of a double-precision value (R501). -/
abbrev Double := BitVec 64

/-- A 5-bit register field: it names x0 to x31 or f0 to f31 (R300, R450). -/
abbrev Reg := BitVec 5

/-- A 3-bit primed register field (R23). -/
abbrev CReg := BitVec 3

/-- A 12-bit CSR number (R36). -/
abbrev CsrNum := BitVec 12

/-- The `rm` field of a floating-point instruction, reserved values included (R452). -/
abbrev RmField := BitVec 3

end Sys2Proof
end

