-- ==== Sys2Proof/Config.lean ====
section
/-! DEFINITION. The launch parameters of R7 of 00_scope.md as one record of plain data, one field for each row of
its table, and the free values the spec leaves to the environment, as constants without a body. The type of a field
holds exactly the values the spec admits: a parameter that the spec fixes has a type of one value, so that a
configuration that is no machine of the spec in it cannot be written. -/

namespace Sys2Proof

/-- XLEN: 32 or 64 for a machine that runs; 128 is admitted by the decoder only (R7, D1). -/
inductive Xlen where
  | rv32
  | rv64
  | rv128
  deriving DecidableEq, Repr

/-- The width in bits of the integer registers and of pc (R7, R21). -/
def Xlen.bits : Xlen → Nat
  | .rv32 => 32
  | .rv64 => 64
  | .rv128 => 128

/-- The kind of an access, as `MemMap.valid` distinguishes them (R61). -/
inductive Access where
  | fetch
  | load
  | store
  | amo
  deriving DecidableEq, Repr

/-- `ext_C`: RVC is present, "the hardware's identity" (R1, R7). -/
inductive ExtC where
  | present
  deriving DecidableEq, Repr

/-- FLEN: 64 when D is present, else 32 (R7, R30, D20). -/
inductive Flen where
  | f32
  | f64
  deriving DecidableEq, Repr

/-- The width in bits of the f registers (R30). -/
def Flen.bits : Flen → Nat
  | .f32 => 32
  | .f64 => 64

/-- IALIGN: 16 because C is present (R7, R62). -/
inductive Ialign where
  | i16
  deriving DecidableEq, Repr

/-- IALIGN in bytes: every instruction starts at a multiple of it (R62). -/
def Ialign.bytes : Ialign → Nat
  | .i16 => 2

/-- ILEN: the longest supported instruction has 32 bits (R7, R118). -/
inductive Ilen where
  | i32
  deriving DecidableEq, Repr

/-- ILEN in bits (R7). -/
def Ilen.bits : Ilen → Nat
  | .i32 => 32

/-- The widths in bytes of the accesses of this hardware (R70). -/
def accessWidths : List Nat := [1, 2, 4, 8, 16]

/-- A run of addresses that exist, with the widths in bytes that each kind of access may have inside it (R61,
`notes/assumptions/7.md`). A fetch is made of accesses of 2 bytes (R63). -/
structure Region where
  base : Nat
  size : Nat
  fetch : List Nat
  load : List Nat
  store : List Nat
  amo : List Nat
  deriving DecidableEq, Repr

/-- The region that allows every access of every width inside it. -/
def Region.ofSize (base size : Nat) : Region where
  base := base
  size := size
  fetch := accessWidths
  load := accessWidths
  store := accessWidths
  amo := accessWidths

/-- `misaligned_policy` (R67, D4). -/
inductive MisalignedPolicy where
  | trap
  | emulate
  deriving DecidableEq, Repr

/-- `reserved_policy`: RES, NSE, Reserved, unlisted and custom encodings raise IllegalInstruction (R7, R118, R132,
D8). -/
inductive ReservedPolicy where
  | illegal
  deriving DecidableEq, Repr

/-- `q1_rd0_nzimm_policy` (R137, D10). -/
inductive UnlistedPolicy where
  | illegal
  | nop
  deriving DecidableEq, Repr

/-- `fminmax_edition` (R474, D21). -/
inductive FminmaxEdition where
  | v22
  | ieee201x
  deriving DecidableEq, Repr

/-- `counter_read`: "a draw, monotone non-decreasing" (R7, R41, D17). The oracle that draws is the constant
`Config.counterAdvance`. -/
inductive CounterRead where
  | monotoneDraw
  deriving DecidableEq, Repr

/-- NHARTS: 1 (R7, D14). -/
inductive Nharts where
  | one
  deriving DecidableEq, Repr

/-- "exception cause numbers": "privileged-spec numbering, informative" (R7, R601, D7). -/
inductive CauseNumbers where
  | privileged
  deriving DecidableEq, Repr

/-- The configuration record of R7: fixed for a run, changed by no step (`notes/assumptions/1.md`). -/
structure Config where
  /-- XLEN (D1). -/
  xlen : Xlen
  /-- ext_C (R1). -/
  extC : ExtC
  /-- The M extension is present (D2). -/
  extM : Bool
  /-- The A extension is present (D2). -/
  extA : Bool
  /-- The F extension is present (D2). -/
  extF : Bool
  /-- The D extension is present; it requires F (D2, `Config.hasD`). -/
  extD : Bool
  /-- FLEN (D20). -/
  flen : Flen
  /-- IALIGN (R62). -/
  ialign : Ialign
  /-- ILEN (R118). -/
  ilen : Ilen
  /-- RESET_PC (D13). -/
  resetPc : Word
  /-- MemMap (R61, D5). -/
  memMap : List Region
  /-- misaligned_policy (R67, D4). -/
  misaligned : MisalignedPolicy
  /-- reserved_policy (R118, R132, D8). -/
  reserved : ReservedPolicy
  /-- q1_rd0_nzimm_policy (R137, D10). -/
  unlisted : UnlistedPolicy
  /-- sc_may_fail_spuriously (R413, D18). -/
  scMayFail : Bool
  /-- reservation_granule (R413, D19): a parameter of the spec that its exact-match rule never reads. -/
  reservationGranule : Nat
  /-- fminmax_edition (R474, D21). -/
  fminmax : FminmaxEdition
  /-- counter_read (R41, D17). -/
  counterRead : CounterRead
  /-- NHARTS (D14). -/
  nharts : Nharts
  /-- exception cause numbers (R601, D7). -/
  causeNumbers : CauseNumbers
  deriving DecidableEq, Repr

/-- D is present only beside F, "ext_D requires ext_F" (D2), in f registers of 64 bits (R7, R502;
`notes/assumptions/22.md`). -/
def Config.hasD (c : Config) : Bool := c.extF && c.extD && c.flen == .f64

/-- The value of a byte of valid memory that nothing has written since reset: unspecified, one unknown
value for each address (R50, D32, `notes/assumptions/6.md`). -/
opaque Config.unwrittenByte : Nat → Byte

/-- How far a counter has advanced when the draw of this index reads it (R41, D17, `notes/assumptions/8.md`). -/
opaque Config.counterAdvance : Nat → BitVec 64

/-- Whether the SC of this draw index fails although its reservation matches (R413, D18, `notes/assumptions/9.md`). -/
opaque Config.scSpurious : Nat → Bool

end Sys2Proof
end

