-- ==== Sys2Proof/Syntax.lean ====
section
/-! DEFINITION. The instructions: one constructor for each of the 213 rows of spec/opcode_table.json, in the
table's order. An operand is the row's field. An immediate is the string of the encoded immediate bits in order of
significance, the highest first: sign extension and the scaling by the bits that are always zero are done where the
instruction is executed. Each constructor carries every bit its row leaves free, so that an instruction has one
encoding. -/

namespace Sys2Proof

/-- The instructions of Tables 12.4, 12.5, 12.6 and 19.2. -/
inductive Instr where
  -- Quadrant 0 (Table 12.4; 40_rvc_quadrant0.md)
  /-- `ILLEGAL` (R200): the all-zero parcel. -/
  | illegal
  /-- `C.ADDI4SPN` (R201): `nzuimm` holds immediate bits 9:2. -/
  | cAddi4spn (rd : CReg) (nzuimm : BitVec 8)
  /-- `C.FLD` (R202): `uimm` holds offset bits 7:3. -/
  | cFld (rd rs1 : CReg) (uimm : BitVec 5)
  /-- `C.LQ` (R203): `uimm` holds offset bits 8:4. -/
  | cLq (rd rs1 : CReg) (uimm : BitVec 5)
  /-- `C.LW` (R204): `uimm` holds offset bits 6:2. -/
  | cLw (rd rs1 : CReg) (uimm : BitVec 5)
  /-- `C.FLW` (R205): `uimm` holds offset bits 6:2. -/
  | cFlw (rd rs1 : CReg) (uimm : BitVec 5)
  /-- `C.LD` (R206): `uimm` holds offset bits 7:3. -/
  | cLd (rd rs1 : CReg) (uimm : BitVec 5)
  /-- `RESERVED` (R207): quadrant 0, funct3 = 100; `payload` is inst[12:2]. -/
  | reservedQ0 (payload : BitVec 11)
  /-- `C.FSD` (R208): `uimm` holds offset bits 7:3. -/
  | cFsd (rs2 rs1 : CReg) (uimm : BitVec 5)
  /-- `C.SQ` (R209): `uimm` holds offset bits 8:4. -/
  | cSq (rs2 rs1 : CReg) (uimm : BitVec 5)
  /-- `C.SW` (R210): `uimm` holds offset bits 6:2. -/
  | cSw (rs2 rs1 : CReg) (uimm : BitVec 5)
  /-- `C.FSW` (R211): `uimm` holds offset bits 6:2. -/
  | cFsw (rs2 rs1 : CReg) (uimm : BitVec 5)
  /-- `C.SD` (R212): `uimm` holds offset bits 7:3. -/
  | cSd (rs2 rs1 : CReg) (uimm : BitVec 5)
  -- Quadrant 1 (Table 12.5; 41_rvc_quadrant1.md)
  /-- `C.NOP` (R220): no operation. -/
  | cNop
  /-- `C.ADDI` (R221): `nzimm` = 0 is the HINT form. -/
  | cAddi (rd : Reg) (nzimm : BitVec 6)
  /-- `UNLISTED` (R243): quadrant 1, funct3 = 000, rd = 0, immediate not zero: no row of the source. -/
  | unlisted (imm6 : BitVec 6)
  /-- `C.JAL` (R222): `offset` holds bits 11:1. -/
  | cJal (offset : BitVec 11)
  /-- `C.ADDIW` (R223). -/
  | cAddiw (rd : Reg) (imm : BitVec 6)
  /-- `C.LI` (R224): rd = 0 is the HINT form. -/
  | cLi (rd : Reg) (imm : BitVec 6)
  /-- `C.ADDI16SP` (R225): `nzimm` holds immediate bits 9:4. -/
  | cAddi16sp (nzimm : BitVec 6)
  /-- `C.LUI` (R226): `nzimm` holds immediate bits 17:12; rd = 0 is the HINT form. -/
  | cLui (rd : Reg) (nzimm : BitVec 6)
  /-- `C.SRLI` (R227). -/
  | cSrli (rd : CReg) (shamt : BitVec 6)
  /-- `C.SRLI64` (R228): a HINT at XLEN 32 and 64. -/
  | cSrli64 (rd : CReg)
  /-- `C.SRAI` (R229). -/
  | cSrai (rd : CReg) (shamt : BitVec 6)
  /-- `C.SRAI64` (R230): a HINT at XLEN 32 and 64. -/
  | cSrai64 (rd : CReg)
  /-- `C.ANDI` (R231). -/
  | cAndi (rd : CReg) (imm : BitVec 6)
  /-- `C.SUB` (R232). -/
  | cSub (rd rs2 : CReg)
  /-- `C.XOR` (R233). -/
  | cXor (rd rs2 : CReg)
  /-- `C.OR` (R234). -/
  | cOr (rd rs2 : CReg)
  /-- `C.AND` (R235). -/
  | cAnd (rd rs2 : CReg)
  /-- `C.SUBW` (R236). -/
  | cSubw (rd rs2 : CReg)
  /-- `C.ADDW` (R237). -/
  | cAddw (rd rs2 : CReg)
  /-- `RESERVED` (R238): inst[15:10] = 100111, inst[6:5] = 10; `hi` is inst[9:7], `lo` is inst[4:2]. -/
  | reservedQ1a (hi lo : BitVec 3)
  /-- `RESERVED` (R239): inst[15:10] = 100111, inst[6:5] = 11; `hi` is inst[9:7], `lo` is inst[4:2]. -/
  | reservedQ1b (hi lo : BitVec 3)
  /-- `C.J` (R240): `offset` holds bits 11:1. -/
  | cJ (offset : BitVec 11)
  /-- `C.BEQZ` (R241): `offset` holds bits 8:1. -/
  | cBeqz (rs1 : CReg) (offset : BitVec 8)
  /-- `C.BNEZ` (R242): `offset` holds bits 8:1. -/
  | cBnez (rs1 : CReg) (offset : BitVec 8)
  -- Quadrant 2 (Table 12.6; 42_rvc_quadrant2.md)
  /-- `C.SLLI` (R260): rd = 0 is the HINT form. -/
  | cSlli (rd : Reg) (shamt : BitVec 6)
  /-- `C.SLLI64` (R261): a HINT at XLEN 32 and 64, and at every XLEN when rd = 0. -/
  | cSlli64 (rd : Reg)
  /-- `C.FLDSP` (R262): `uimm` holds offset bits 8:3. -/
  | cFldsp (rd : Reg) (uimm : BitVec 6)
  /-- `C.LQSP` (R263): `uimm` holds offset bits 9:4. -/
  | cLqsp (rd : Reg) (uimm : BitVec 6)
  /-- `C.LWSP` (R264): `uimm` holds offset bits 7:2. -/
  | cLwsp (rd : Reg) (uimm : BitVec 6)
  /-- `C.FLWSP` (R265): `uimm` holds offset bits 7:2. -/
  | cFlwsp (rd : Reg) (uimm : BitVec 6)
  /-- `C.LDSP` (R266): `uimm` holds offset bits 8:3. -/
  | cLdsp (rd : Reg) (uimm : BitVec 6)
  /-- `C.JR` (R267). -/
  | cJr (rs1 : Reg)
  /-- `C.MV` (R268): rd = 0 is the HINT form. -/
  | cMv (rd rs2 : Reg)
  /-- `C.EBREAK` (R269). -/
  | cEbreak
  /-- `C.JALR` (R270). -/
  | cJalr (rs1 : Reg)
  /-- `C.ADD` (R271): rd = 0 is the HINT form. -/
  | cAdd (rd rs2 : Reg)
  /-- `C.FSDSP` (R272): `uimm` holds offset bits 8:3. -/
  | cFsdsp (rs2 : Reg) (uimm : BitVec 6)
  /-- `C.SQSP` (R273): `uimm` holds offset bits 9:4. -/
  | cSqsp (rs2 : Reg) (uimm : BitVec 6)
  /-- `C.SWSP` (R274): `uimm` holds offset bits 7:2. -/
  | cSwsp (rs2 : Reg) (uimm : BitVec 6)
  /-- `C.FSWSP` (R275): `uimm` holds offset bits 7:2. -/
  | cFswsp (rs2 : Reg) (uimm : BitVec 6)
  /-- `C.SDSP` (R276): `uimm` holds offset bits 8:3. -/
  | cSdsp (rs2 : Reg) (uimm : BitVec 6)
  -- RV32I (43_rv32i_base.md)
  /-- `LUI` (R310): `imm` is inst[31:12]. -/
  | lui (rd : Reg) (imm : BitVec 20)
  /-- `AUIPC` (R311): `imm` is inst[31:12]. -/
  | auipc (rd : Reg) (imm : BitVec 20)
  /-- `JAL` (R312): `offset` holds bits 20:1. -/
  | jal (rd : Reg) (offset : BitVec 20)
  /-- `JALR` (R313). -/
  | jalr (rd rs1 : Reg) (imm : BitVec 12)
  /-- `BEQ` (R314): `offset` holds bits 12:1. -/
  | beq (rs1 rs2 : Reg) (offset : BitVec 12)
  /-- `BNE` (R315): `offset` holds bits 12:1. -/
  | bne (rs1 rs2 : Reg) (offset : BitVec 12)
  /-- `BLT` (R316): `offset` holds bits 12:1. -/
  | blt (rs1 rs2 : Reg) (offset : BitVec 12)
  /-- `BGE` (R317): `offset` holds bits 12:1. -/
  | bge (rs1 rs2 : Reg) (offset : BitVec 12)
  /-- `BLTU` (R318): `offset` holds bits 12:1. -/
  | bltu (rs1 rs2 : Reg) (offset : BitVec 12)
  /-- `BGEU` (R319): `offset` holds bits 12:1. -/
  | bgeu (rs1 rs2 : Reg) (offset : BitVec 12)
  /-- `LB` (R320). -/
  | lb (rd rs1 : Reg) (imm : BitVec 12)
  /-- `LH` (R321). -/
  | lh (rd rs1 : Reg) (imm : BitVec 12)
  /-- `LW` (R322). -/
  | lw (rd rs1 : Reg) (imm : BitVec 12)
  /-- `LBU` (R323). -/
  | lbu (rd rs1 : Reg) (imm : BitVec 12)
  /-- `LHU` (R324). -/
  | lhu (rd rs1 : Reg) (imm : BitVec 12)
  /-- `SB` (R325). -/
  | sb (rs2 rs1 : Reg) (imm : BitVec 12)
  /-- `SH` (R326). -/
  | sh (rs2 rs1 : Reg) (imm : BitVec 12)
  /-- `SW` (R327). -/
  | sw (rs2 rs1 : Reg) (imm : BitVec 12)
  /-- `ADDI` (R328). -/
  | addi (rd rs1 : Reg) (imm : BitVec 12)
  /-- `SLTI` (R329). -/
  | slti (rd rs1 : Reg) (imm : BitVec 12)
  /-- `SLTIU` (R330). -/
  | sltiu (rd rs1 : Reg) (imm : BitVec 12)
  /-- `XORI` (R331). -/
  | xori (rd rs1 : Reg) (imm : BitVec 12)
  /-- `ORI` (R332). -/
  | ori (rd rs1 : Reg) (imm : BitVec 12)
  /-- `ANDI` (R333). -/
  | andi (rd rs1 : Reg) (imm : BitVec 12)
  /-- `SLLI` (R334): the RV32 row. -/
  | slliRv32 (rd rs1 : Reg) (shamt : BitVec 5)
  /-- `SRLI` (R335): the RV32 row. -/
  | srliRv32 (rd rs1 : Reg) (shamt : BitVec 5)
  /-- `SRAI` (R336): the RV32 row. -/
  | sraiRv32 (rd rs1 : Reg) (shamt : BitVec 5)
  /-- `ADD` (R337). -/
  | add (rd rs1 rs2 : Reg)
  /-- `SUB` (R338). -/
  | sub (rd rs1 rs2 : Reg)
  /-- `SLL` (R339). -/
  | sll (rd rs1 rs2 : Reg)
  /-- `SLT` (R340). -/
  | slt (rd rs1 rs2 : Reg)
  /-- `SLTU` (R341). -/
  | sltu (rd rs1 rs2 : Reg)
  /-- `XOR` (R342). -/
  | xor (rd rs1 rs2 : Reg)
  /-- `SRL` (R343). -/
  | srl (rd rs1 rs2 : Reg)
  /-- `SRA` (R344). -/
  | sra (rd rs1 rs2 : Reg)
  /-- `OR` (R345). -/
  | or (rd rs1 rs2 : Reg)
  /-- `AND` (R346). -/
  | and (rd rs1 rs2 : Reg)
  /-- `FENCE` (R347). -/
  | fence (pred succ : BitVec 4)
  /-- `FENCE.I` (R348). -/
  | fenceI
  /-- `ECALL` (R349). -/
  | ecall
  /-- `EBREAK` (R350). -/
  | ebreak
  /-- `CSRRW` (R351). -/
  | csrrw (rd rs1 : Reg) (csr : CsrNum)
  /-- `CSRRS` (R352). -/
  | csrrs (rd rs1 : Reg) (csr : CsrNum)
  /-- `CSRRC` (R353). -/
  | csrrc (rd rs1 : Reg) (csr : CsrNum)
  /-- `CSRRWI` (R354). -/
  | csrrwi (rd : Reg) (zimm : BitVec 5) (csr : CsrNum)
  /-- `CSRRSI` (R355). -/
  | csrrsi (rd : Reg) (zimm : BitVec 5) (csr : CsrNum)
  /-- `CSRRCI` (R356). -/
  | csrrci (rd : Reg) (zimm : BitVec 5) (csr : CsrNum)
  -- RV64I (44_rv64i_base.md)
  /-- `LWU` (R362). -/
  | lwu (rd rs1 : Reg) (imm : BitVec 12)
  /-- `LD` (R363). -/
  | ld (rd rs1 : Reg) (imm : BitVec 12)
  /-- `SD` (R364). -/
  | sd (rs2 rs1 : Reg) (imm : BitVec 12)
  /-- `SLLI` (R365): the RV64 row. -/
  | slliRv64 (rd rs1 : Reg) (shamt : BitVec 6)
  /-- `SRLI` (R366): the RV64 row. -/
  | srliRv64 (rd rs1 : Reg) (shamt : BitVec 6)
  /-- `SRAI` (R367): the RV64 row. -/
  | sraiRv64 (rd rs1 : Reg) (shamt : BitVec 6)
  /-- `ADDIW` (R368). -/
  | addiw (rd rs1 : Reg) (imm : BitVec 12)
  /-- `SLLIW` (R369). -/
  | slliw (rd rs1 : Reg) (shamt : BitVec 5)
  /-- `SRLIW` (R370). -/
  | srliw (rd rs1 : Reg) (shamt : BitVec 5)
  /-- `SRAIW` (R371). -/
  | sraiw (rd rs1 : Reg) (shamt : BitVec 5)
  /-- `ADDW` (R372). -/
  | addw (rd rs1 rs2 : Reg)
  /-- `SUBW` (R373). -/
  | subw (rd rs1 rs2 : Reg)
  /-- `SLLW` (R374). -/
  | sllw (rd rs1 rs2 : Reg)
  /-- `SRLW` (R375). -/
  | srlw (rd rs1 rs2 : Reg)
  /-- `SRAW` (R376). -/
  | sraw (rd rs1 rs2 : Reg)
  -- M (45_rv_m.md)
  /-- `MUL` (R392). -/
  | mul (rd rs1 rs2 : Reg)
  /-- `MULH` (R393). -/
  | mulh (rd rs1 rs2 : Reg)
  /-- `MULHSU` (R394). -/
  | mulhsu (rd rs1 rs2 : Reg)
  /-- `MULHU` (R395). -/
  | mulhu (rd rs1 rs2 : Reg)
  /-- `DIV` (R396). -/
  | div (rd rs1 rs2 : Reg)
  /-- `DIVU` (R397). -/
  | divu (rd rs1 rs2 : Reg)
  /-- `REM` (R398). -/
  | rem (rd rs1 rs2 : Reg)
  /-- `REMU` (R399). -/
  | remu (rd rs1 rs2 : Reg)
  /-- `MULW` (R400). -/
  | mulw (rd rs1 rs2 : Reg)
  /-- `DIVW` (R401). -/
  | divw (rd rs1 rs2 : Reg)
  /-- `DIVUW` (R402). -/
  | divuw (rd rs1 rs2 : Reg)
  /-- `REMW` (R403). -/
  | remw (rd rs1 rs2 : Reg)
  /-- `REMUW` (R404). -/
  | remuw (rd rs1 rs2 : Reg)
  -- A (46_rv_a.md)
  /-- `LR.W` (R420). -/
  | lrW (rd rs1 : Reg) (aq rl : Bool)
  /-- `SC.W` (R421). -/
  | scW (rd rs1 rs2 : Reg) (aq rl : Bool)
  /-- `AMOSWAP.W` (R422). -/
  | amoswapW (rd rs1 rs2 : Reg) (aq rl : Bool)
  /-- `AMOADD.W` (R423). -/
  | amoaddW (rd rs1 rs2 : Reg) (aq rl : Bool)
  /-- `AMOXOR.W` (R424). -/
  | amoxorW (rd rs1 rs2 : Reg) (aq rl : Bool)
  /-- `AMOAND.W` (R425). -/
  | amoandW (rd rs1 rs2 : Reg) (aq rl : Bool)
  /-- `AMOOR.W` (R426). -/
  | amoorW (rd rs1 rs2 : Reg) (aq rl : Bool)
  /-- `AMOMIN.W` (R427). -/
  | amominW (rd rs1 rs2 : Reg) (aq rl : Bool)
  /-- `AMOMAX.W` (R428). -/
  | amomaxW (rd rs1 rs2 : Reg) (aq rl : Bool)
  /-- `AMOMINU.W` (R429). -/
  | amominuW (rd rs1 rs2 : Reg) (aq rl : Bool)
  /-- `AMOMAXU.W` (R430). -/
  | amomaxuW (rd rs1 rs2 : Reg) (aq rl : Bool)
  /-- `LR.D` (R431). -/
  | lrD (rd rs1 : Reg) (aq rl : Bool)
  /-- `SC.D` (R432). -/
  | scD (rd rs1 rs2 : Reg) (aq rl : Bool)
  /-- `AMOSWAP.D` (R433). -/
  | amoswapD (rd rs1 rs2 : Reg) (aq rl : Bool)
  /-- `AMOADD.D` (R434). -/
  | amoaddD (rd rs1 rs2 : Reg) (aq rl : Bool)
  /-- `AMOXOR.D` (R435). -/
  | amoxorD (rd rs1 rs2 : Reg) (aq rl : Bool)
  /-- `AMOAND.D` (R436). -/
  | amoandD (rd rs1 rs2 : Reg) (aq rl : Bool)
  /-- `AMOOR.D` (R437). -/
  | amoorD (rd rs1 rs2 : Reg) (aq rl : Bool)
  /-- `AMOMIN.D` (R438). -/
  | amominD (rd rs1 rs2 : Reg) (aq rl : Bool)
  /-- `AMOMAX.D` (R439). -/
  | amomaxD (rd rs1 rs2 : Reg) (aq rl : Bool)
  /-- `AMOMINU.D` (R440). -/
  | amominuD (rd rs1 rs2 : Reg) (aq rl : Bool)
  /-- `AMOMAXU.D` (R441). -/
  | amomaxuD (rd rs1 rs2 : Reg) (aq rl : Bool)
  -- F (47_rv_f.md)
  /-- `FLW` (R460). -/
  | flw (rd rs1 : Reg) (imm : BitVec 12)
  /-- `FSW` (R461). -/
  | fsw (rs2 rs1 : Reg) (imm : BitVec 12)
  /-- `FMADD.S` (R462). -/
  | fmaddS (rd rs1 rs2 rs3 : Reg) (rm : RmField)
  /-- `FMSUB.S` (R463). -/
  | fmsubS (rd rs1 rs2 rs3 : Reg) (rm : RmField)
  /-- `FNMSUB.S` (R464). -/
  | fnmsubS (rd rs1 rs2 rs3 : Reg) (rm : RmField)
  /-- `FNMADD.S` (R465). -/
  | fnmaddS (rd rs1 rs2 rs3 : Reg) (rm : RmField)
  /-- `FADD.S` (R466). -/
  | faddS (rd rs1 rs2 : Reg) (rm : RmField)
  /-- `FSUB.S` (R467). -/
  | fsubS (rd rs1 rs2 : Reg) (rm : RmField)
  /-- `FMUL.S` (R468). -/
  | fmulS (rd rs1 rs2 : Reg) (rm : RmField)
  /-- `FDIV.S` (R469). -/
  | fdivS (rd rs1 rs2 : Reg) (rm : RmField)
  /-- `FSQRT.S` (R470). -/
  | fsqrtS (rd rs1 : Reg) (rm : RmField)
  /-- `FSGNJ.S` (R471). -/
  | fsgnjS (rd rs1 rs2 : Reg)
  /-- `FSGNJN.S` (R472). -/
  | fsgnjnS (rd rs1 rs2 : Reg)
  /-- `FSGNJX.S` (R473). -/
  | fsgnjxS (rd rs1 rs2 : Reg)
  /-- `FMIN.S` (R474). -/
  | fminS (rd rs1 rs2 : Reg)
  /-- `FMAX.S` (R475). -/
  | fmaxS (rd rs1 rs2 : Reg)
  /-- `FCVT.W.S` (R476). -/
  | fcvtWS (rd rs1 : Reg) (rm : RmField)
  /-- `FCVT.WU.S` (R477). -/
  | fcvtWuS (rd rs1 : Reg) (rm : RmField)
  /-- `FMV.X.W` (R478). -/
  | fmvXW (rd rs1 : Reg)
  /-- `FEQ.S` (R479). -/
  | feqS (rd rs1 rs2 : Reg)
  /-- `FLT.S` (R480). -/
  | fltS (rd rs1 rs2 : Reg)
  /-- `FLE.S` (R481). -/
  | fleS (rd rs1 rs2 : Reg)
  /-- `FCLASS.S` (R482). -/
  | fclassS (rd rs1 : Reg)
  /-- `FCVT.S.W` (R483). -/
  | fcvtSW (rd rs1 : Reg) (rm : RmField)
  /-- `FCVT.S.WU` (R484). -/
  | fcvtSWu (rd rs1 : Reg) (rm : RmField)
  /-- `FMV.W.X` (R485). -/
  | fmvWX (rd rs1 : Reg)
  /-- `FCVT.L.S` (R486). -/
  | fcvtLS (rd rs1 : Reg) (rm : RmField)
  /-- `FCVT.LU.S` (R487). -/
  | fcvtLuS (rd rs1 : Reg) (rm : RmField)
  /-- `FCVT.S.L` (R488). -/
  | fcvtSL (rd rs1 : Reg) (rm : RmField)
  /-- `FCVT.S.LU` (R489). -/
  | fcvtSLu (rd rs1 : Reg) (rm : RmField)
  -- D (48_rv_d.md)
  /-- `FLD` (R510). -/
  | fld (rd rs1 : Reg) (imm : BitVec 12)
  /-- `FSD` (R511). -/
  | fsd (rs2 rs1 : Reg) (imm : BitVec 12)
  /-- `FMADD.D` (R512). -/
  | fmaddD (rd rs1 rs2 rs3 : Reg) (rm : RmField)
  /-- `FMSUB.D` (R513). -/
  | fmsubD (rd rs1 rs2 rs3 : Reg) (rm : RmField)
  /-- `FNMSUB.D` (R514). -/
  | fnmsubD (rd rs1 rs2 rs3 : Reg) (rm : RmField)
  /-- `FNMADD.D` (R515). -/
  | fnmaddD (rd rs1 rs2 rs3 : Reg) (rm : RmField)
  /-- `FADD.D` (R516). -/
  | faddD (rd rs1 rs2 : Reg) (rm : RmField)
  /-- `FSUB.D` (R517). -/
  | fsubD (rd rs1 rs2 : Reg) (rm : RmField)
  /-- `FMUL.D` (R518). -/
  | fmulD (rd rs1 rs2 : Reg) (rm : RmField)
  /-- `FDIV.D` (R519). -/
  | fdivD (rd rs1 rs2 : Reg) (rm : RmField)
  /-- `FSQRT.D` (R520). -/
  | fsqrtD (rd rs1 : Reg) (rm : RmField)
  /-- `FSGNJ.D` (R521). -/
  | fsgnjD (rd rs1 rs2 : Reg)
  /-- `FSGNJN.D` (R522). -/
  | fsgnjnD (rd rs1 rs2 : Reg)
  /-- `FSGNJX.D` (R523). -/
  | fsgnjxD (rd rs1 rs2 : Reg)
  /-- `FMIN.D` (R524). -/
  | fminD (rd rs1 rs2 : Reg)
  /-- `FMAX.D` (R525). -/
  | fmaxD (rd rs1 rs2 : Reg)
  /-- `FCVT.S.D` (R526). -/
  | fcvtSD (rd rs1 : Reg) (rm : RmField)
  /-- `FCVT.D.S` (R527). -/
  | fcvtDS (rd rs1 : Reg) (rm : RmField)
  /-- `FEQ.D` (R528). -/
  | feqD (rd rs1 rs2 : Reg)
  /-- `FLT.D` (R529). -/
  | fltD (rd rs1 rs2 : Reg)
  /-- `FLE.D` (R530). -/
  | fleD (rd rs1 rs2 : Reg)
  /-- `FCLASS.D` (R531). -/
  | fclassD (rd rs1 : Reg)
  /-- `FCVT.W.D` (R532). -/
  | fcvtWD (rd rs1 : Reg) (rm : RmField)
  /-- `FCVT.WU.D` (R533). -/
  | fcvtWuD (rd rs1 : Reg) (rm : RmField)
  /-- `FCVT.D.W` (R534). -/
  | fcvtDW (rd rs1 : Reg) (rm : RmField)
  /-- `FCVT.D.WU` (R535). -/
  | fcvtDWu (rd rs1 : Reg) (rm : RmField)
  /-- `FCVT.L.D` (R536). -/
  | fcvtLD (rd rs1 : Reg) (rm : RmField)
  /-- `FCVT.LU.D` (R537). -/
  | fcvtLuD (rd rs1 : Reg) (rm : RmField)
  /-- `FMV.X.D` (R538). -/
  | fmvXD (rd rs1 : Reg)
  /-- `FCVT.D.L` (R539). -/
  | fcvtDL (rd rs1 : Reg) (rm : RmField)
  /-- `FCVT.D.LU` (R540). -/
  | fcvtDLu (rd rs1 : Reg) (rm : RmField)
  /-- `FMV.D.X` (R541). -/
  | fmvDX (rd rs1 : Reg)
  deriving DecidableEq, Repr

end Sys2Proof
end

