-- ==== Sys2Proof/WellFormed.lean ====
section
/-! DEFINITION. Which instructions exist in a configuration: the `xlen` and `ext` columns of
spec/opcode_table.json with the operand restrictions of the rows (R130-R137 of 30_encoding.md, R118, R126). HINT
forms are well-formed: they are encodings that execute as no-operations (R132). -/

namespace Sys2Proof

/-- XLEN is one of the two widths of Table 19.2. -/
def Config.is32or64 (c : Config) : Bool := c.xlen == .rv32 || c.xlen == .rv64

/-- A 6-bit shift amount of C.SLLI, C.SRLI or C.SRAI is valid: not zero, and below 32 when XLEN = 32 (R114, R134). -/
def Config.shamtOk (c : Config) (shamt : BitVec 6) : Bool :=
  shamt != 0 && (c.xlen != .rv32 || shamt < 32)

/-- `i` is an instruction, a HINT, or one of the named stopping rows (ILLEGAL, RESERVED, UNLISTED) under `c`. -/
def Instr.wellFormed (c : Config) : Instr → Bool
  -- quadrant 0
  | .illegal | .reservedQ0 _ | .cLw .. | .cSw .. => true
  | .cAddi4spn _ nzuimm => nzuimm != 0
  | .cFld .. | .cFsd .. => c.is32or64 && c.hasD
  | .cLq .. | .cSq .. => c.xlen == .rv128
  | .cFlw .. | .cFsw .. => c.xlen == .rv32 && c.extF
  | .cLd .. | .cSd .. => c.xlen != .rv32
  -- quadrant 1
  | .cNop | .reservedQ1a .. | .reservedQ1b .. | .cJ _ | .cBeqz .. | .cBnez .. => true
  | .cLi .. | .cAndi .. | .cSub .. | .cXor .. | .cOr .. | .cAnd .. => true
  | .cSrli64 _ | .cSrai64 _ => true
  | .cAddi rd _ => rd != 0
  | .unlisted imm6 => imm6 != 0
  | .cJal _ => c.xlen == .rv32
  | .cAddiw rd _ => c.xlen != .rv32 && rd != 0
  | .cAddi16sp nzimm => nzimm != 0
  | .cLui rd nzimm => rd != 2 && nzimm != 0
  | .cSrli _ shamt | .cSrai _ shamt => c.shamtOk shamt
  | .cSubw .. | .cAddw .. => c.xlen != .rv32
  -- quadrant 2
  | .cSlli rd shamt => if rd = 0 then shamt != 0 else c.shamtOk shamt
  | .cSlli64 _ | .cSwsp .. | .cEbreak => true
  | .cFldsp .. | .cFsdsp .. => c.is32or64 && c.hasD
  | .cLqsp rd _ => c.xlen == .rv128 && rd != 0
  | .cSqsp .. => c.xlen == .rv128
  | .cLwsp rd _ => rd != 0
  | .cFlwsp .. | .cFswsp .. => c.xlen == .rv32 && c.extF
  | .cLdsp rd _ => c.xlen != .rv32 && rd != 0
  | .cSdsp .. => c.xlen != .rv32
  | .cJr rs1 | .cJalr rs1 => rs1 != 0
  | .cMv _ rs2 | .cAdd _ rs2 => rs2 != 0
  -- RV32I, common to XLEN 32 and 64
  | .lui .. | .auipc .. | .jal .. | .jalr .. | .beq .. | .bne .. | .blt .. | .bge .. | .bltu .. | .bgeu ..
  | .lb .. | .lh .. | .lw .. | .lbu .. | .lhu .. | .sb .. | .sh .. | .sw .. | .addi .. | .slti ..
  | .sltiu .. | .xori .. | .ori .. | .andi .. | .add .. | .sub .. | .sll .. | .slt .. | .sltu .. | .xor ..
  | .srl .. | .sra .. | .or .. | .and .. | .fence .. | .fenceI | .ecall | .ebreak | .csrrw .. | .csrrs ..
  | .csrrc .. | .csrrwi .. | .csrrsi .. | .csrrci .. =>
    c.is32or64
  -- the RV32 shift-immediate rows (R334-R336)
  | .slliRv32 .. | .srliRv32 .. | .sraiRv32 .. =>
    c.xlen == .rv32
  -- RV64I
  | .lwu .. | .ld .. | .sd .. | .slliRv64 .. | .srliRv64 .. | .sraiRv64 .. | .addiw .. | .slliw ..
  | .srliw .. | .sraiw .. | .addw .. | .subw .. | .sllw .. | .srlw .. | .sraw .. =>
    c.xlen == .rv64
  -- RV32M
  | .mul .. | .mulh .. | .mulhsu .. | .mulhu .. | .div .. | .divu .. | .rem .. | .remu .. =>
    c.is32or64 && c.extM
  -- RV64M
  | .mulw .. | .divw .. | .divuw .. | .remw .. | .remuw .. =>
    c.xlen == .rv64 && c.extM
  -- RV32A
  | .lrW .. | .scW .. | .amoswapW .. | .amoaddW .. | .amoxorW .. | .amoandW .. | .amoorW .. | .amominW ..
  | .amomaxW .. | .amominuW .. | .amomaxuW .. =>
    c.is32or64 && c.extA
  -- RV64A
  | .lrD .. | .scD .. | .amoswapD .. | .amoaddD .. | .amoxorD .. | .amoandD .. | .amoorD .. | .amominD ..
  | .amomaxD .. | .amominuD .. | .amomaxuD .. =>
    c.xlen == .rv64 && c.extA
  -- RV32F
  | .flw .. | .fsw .. | .fmaddS .. | .fmsubS .. | .fnmsubS .. | .fnmaddS .. | .faddS .. | .fsubS ..
  | .fmulS .. | .fdivS .. | .fsqrtS .. | .fsgnjS .. | .fsgnjnS .. | .fsgnjxS .. | .fminS .. | .fmaxS ..
  | .fcvtWS .. | .fcvtWuS .. | .fmvXW .. | .feqS .. | .fltS .. | .fleS .. | .fclassS .. | .fcvtSW ..
  | .fcvtSWu .. | .fmvWX .. =>
    c.is32or64 && c.extF
  -- RV64F
  | .fcvtLS .. | .fcvtLuS .. | .fcvtSL .. | .fcvtSLu .. =>
    c.xlen == .rv64 && c.extF
  -- RV32D
  | .fld .. | .fsd .. | .fmaddD .. | .fmsubD .. | .fnmsubD .. | .fnmaddD .. | .faddD .. | .fsubD ..
  | .fmulD .. | .fdivD .. | .fsqrtD .. | .fsgnjD .. | .fsgnjnD .. | .fsgnjxD .. | .fminD .. | .fmaxD ..
  | .fcvtSD .. | .fcvtDS .. | .feqD .. | .fltD .. | .fleD .. | .fclassD .. | .fcvtWD .. | .fcvtWuD ..
  | .fcvtDW .. | .fcvtDWu .. =>
    c.is32or64 && c.hasD
  -- RV64D
  | .fcvtLD .. | .fcvtLuD .. | .fmvXD .. | .fcvtDL .. | .fcvtDLu .. | .fmvDX .. =>
    c.xlen == .rv64 && c.hasD

/-- The HINT encodings (R135): they execute as no-operations. -/
def Instr.isHint (c : Config) : Instr → Bool
  | .cAddi rd nzimm => rd != 0 && nzimm == 0
  | .cLi rd _ => rd == 0
  | .cLui rd nzimm => rd == 0 && nzimm != 0
  | .cSrli64 _ | .cSrai64 _ => c.xlen != .rv128
  | .cSlli rd _ => rd == 0
  | .cSlli64 rd => c.xlen != .rv128 || rd == 0
  | .cMv rd rs2 | .cAdd rd rs2 => rd == 0 && rs2 != 0
  | _ => false

end Sys2Proof
end

