-- ==== Sys2Proof/Decode.lean ====
section
/-! DEFINITION. From bits to instructions and back. The decoder is total: it answers an instruction or a named
reason. The 16-bit tree is R131 of 30_encoding.md, the 32-bit tables are the rows of opcode_table.json under the
major opcodes of R117. The encoder is written from the same formats (R104-R112, R115, R119). -/

namespace Sys2Proof

/-- Why bits are no instruction. -/
inductive DecodeError where
  /-- A RES code point: reserved for future standard extensions (R133). -/
  | reserved
  /-- An NSE code point: reserved for non-standard extensions (R134). -/
  | nonStandard
  /-- No row of the tables under this XLEN and these extensions (R114, R118, R126). -/
  | noRow
  /-- The first parcel announces more than ILEN bits (R101, R118). -/
  | tooLong
  /-- Fewer bytes than the instruction has; the fetch procedure never hands over so few. -/
  | truncated
  deriving DecidableEq, Repr

/-- What decoding answers. -/
inductive Decoded where
  | instr (i : Instr)
  | bad (e : DecodeError)
  deriving DecidableEq, Repr

/-! ### The immediates of 16-bit instructions (R113), most significant bit first -/

/-- C.ADDI4SPN: nzuimm bits 9:2. -/
def immCiw (inst : BitVec 16) : BitVec 8 :=
  inst.extractLsb 10 7 ++ inst.extractLsb 12 11 ++ inst.extractLsb 5 5 ++ inst.extractLsb 6 6

/-- C.LW group: uimm bits 6:2. -/
def immLw (inst : BitVec 16) : BitVec 5 :=
  inst.extractLsb 5 5 ++ inst.extractLsb 12 10 ++ inst.extractLsb 6 6

/-- C.LD group: uimm bits 7:3. -/
def immLd (inst : BitVec 16) : BitVec 5 := inst.extractLsb 6 5 ++ inst.extractLsb 12 10

/-- C.LQ group: uimm bits 8:4. -/
def immLq (inst : BitVec 16) : BitVec 5 :=
  inst.extractLsb 10 10 ++ inst.extractLsb 6 5 ++ inst.extractLsb 12 11

/-- The 6-bit immediate or shift amount of format CI and CB: bits 5:0. -/
def imm6 (inst : BitVec 16) : BitVec 6 := inst.extractLsb 12 12 ++ inst.extractLsb 6 2

/-- C.J and C.JAL: offset bits 11:1. -/
def immCj (inst : BitVec 16) : BitVec 11 :=
  inst.extractLsb 12 12 ++ inst.extractLsb 8 8 ++ inst.extractLsb 10 9 ++ inst.extractLsb 6 6 ++
  inst.extractLsb 7 7 ++ inst.extractLsb 2 2 ++ inst.extractLsb 11 11 ++ inst.extractLsb 5 3

/-- C.ADDI16SP: nzimm bits 9:4. -/
def immSp16 (inst : BitVec 16) : BitVec 6 :=
  inst.extractLsb 12 12 ++ inst.extractLsb 4 3 ++ inst.extractLsb 5 5 ++ inst.extractLsb 2 2 ++
  inst.extractLsb 6 6

/-- C.BEQZ and C.BNEZ: offset bits 8:1. -/
def immCb (inst : BitVec 16) : BitVec 8 :=
  inst.extractLsb 12 12 ++ inst.extractLsb 6 5 ++ inst.extractLsb 2 2 ++ inst.extractLsb 11 10 ++
  inst.extractLsb 4 3

/-- C.LWSP group: uimm bits 7:2. -/
def immLwsp (inst : BitVec 16) : BitVec 6 :=
  inst.extractLsb 3 2 ++ inst.extractLsb 12 12 ++ inst.extractLsb 6 4

/-- C.LDSP group: uimm bits 8:3. -/
def immLdsp (inst : BitVec 16) : BitVec 6 :=
  inst.extractLsb 4 2 ++ inst.extractLsb 12 12 ++ inst.extractLsb 6 5

/-- C.LQSP: uimm bits 9:4. -/
def immLqsp (inst : BitVec 16) : BitVec 6 :=
  inst.extractLsb 5 2 ++ inst.extractLsb 12 12 ++ inst.extractLsb 6 6

/-- C.SWSP group: uimm bits 7:2. -/
def immSwsp (inst : BitVec 16) : BitVec 6 := inst.extractLsb 8 7 ++ inst.extractLsb 12 9

/-- C.SDSP group: uimm bits 8:3. -/
def immSdsp (inst : BitVec 16) : BitVec 6 := inst.extractLsb 9 7 ++ inst.extractLsb 12 10

/-- C.SQSP: uimm bits 9:4. -/
def immSqsp (inst : BitVec 16) : BitVec 6 := inst.extractLsb 10 7 ++ inst.extractLsb 12 11

/-! ### 16-bit parcels (R131) -/

/-- The row is there, or else the bits have no row under this configuration (R114). -/
def Config.gate (present : Bool) (i : Instr) : Decoded := if present then .instr i else .bad .noRow

/-- Quadrant 0 of R131. -/
def quadrant0 (c : Config) (inst : BitVec 16) : Decoded :=
  let rd : CReg := inst.extractLsb 4 2
  let rs1 : CReg := inst.extractLsb 9 7
  match inst.extractLsb 15 13 with
  | 0b000 =>
    if inst = 0 then .instr .illegal
    else if immCiw inst = 0 then .bad .reserved
    else .instr (.cAddi4spn rd (immCiw inst))
  | 0b001 =>
    if c.xlen = .rv128 then .instr (.cLq rd rs1 (immLq inst))
    else Config.gate c.hasD (.cFld rd rs1 (immLd inst))
  | 0b010 => .instr (.cLw rd rs1 (immLw inst))
  | 0b011 =>
    if c.xlen = .rv32 then Config.gate c.extF (.cFlw rd rs1 (immLw inst))
    else .instr (.cLd rd rs1 (immLd inst))
  | 0b100 => .instr (.reservedQ0 (inst.extractLsb 12 2))
  | 0b101 =>
    if c.xlen = .rv128 then .instr (.cSq rd rs1 (immLq inst))
    else Config.gate c.hasD (.cFsd rd rs1 (immLd inst))
  | 0b110 => .instr (.cSw rd rs1 (immLw inst))
  | _ =>
    if c.xlen = .rv32 then Config.gate c.extF (.cFsw rd rs1 (immLw inst))
    else .instr (.cSd rd rs1 (immLd inst))

/-- C.SRLI or C.SRAI, their shift-by-64 rows, or NSE (R131, quadrant 1, f3 = 100). -/
def shiftRow (c : Config) (shamt : BitVec 6) (shift shift64 : Instr) : Decoded :=
  if shamt = 0 then .instr shift64
  else if c.xlen = .rv32 ∧ shamt.extractLsb 5 5 = 1 then .bad .nonStandard
  else .instr shift

/-- The MISC-ALU group of quadrant 1 (R131, f3 = 100). -/
def miscAlu (c : Config) (inst : BitVec 16) : Decoded :=
  let rd : CReg := inst.extractLsb 9 7
  let rs2 : CReg := inst.extractLsb 4 2
  match inst.extractLsb 11 10 with
  | 0b00 => shiftRow c (imm6 inst) (.cSrli rd (imm6 inst)) (.cSrli64 rd)
  | 0b01 => shiftRow c (imm6 inst) (.cSrai rd (imm6 inst)) (.cSrai64 rd)
  | 0b10 => .instr (.cAndi rd (imm6 inst))
  | _ =>
    match inst.extractLsb 12 12, inst.extractLsb 6 5 with
    | 0b0, 0b00 => .instr (.cSub rd rs2)
    | 0b0, 0b01 => .instr (.cXor rd rs2)
    | 0b0, 0b10 => .instr (.cOr rd rs2)
    | 0b0, _ => .instr (.cAnd rd rs2)
    | _, 0b00 => if c.xlen = .rv32 then .bad .reserved else .instr (.cSubw rd rs2)
    | _, 0b01 => if c.xlen = .rv32 then .bad .reserved else .instr (.cAddw rd rs2)
    | _, 0b10 => .instr (.reservedQ1a rd rs2)
    | _, _ => .instr (.reservedQ1b rd rs2)

/-- Quadrant 1 of R131. -/
def quadrant1 (c : Config) (inst : BitVec 16) : Decoded :=
  let r : Reg := inst.extractLsb 11 7
  let rs1 : CReg := inst.extractLsb 9 7
  let imm := imm6 inst
  match inst.extractLsb 15 13 with
  | 0b000 =>
    if r = 0 then (if imm = 0 then .instr .cNop else .instr (.unlisted imm))
    else .instr (.cAddi r imm)
  | 0b001 =>
    if c.xlen = .rv32 then .instr (.cJal (immCj inst))
    else if r = 0 then .bad .reserved
    else .instr (.cAddiw r imm)
  | 0b010 => .instr (.cLi r imm)
  | 0b011 =>
    if imm = 0 then .bad .reserved
    else if r = 2 then .instr (.cAddi16sp (immSp16 inst))
    else .instr (.cLui r imm)
  | 0b100 => miscAlu c inst
  | 0b101 => .instr (.cJ (immCj inst))
  | 0b110 => .instr (.cBeqz rs1 (immCb inst))
  | _ => .instr (.cBnez rs1 (immCb inst))

/-- The J[AL]R/MV/ADD group of quadrant 2 (R131, f3 = 100). -/
def jumpMoveAdd (inst : BitVec 16) : Decoded :=
  let r : Reg := inst.extractLsb 11 7
  let s : Reg := inst.extractLsb 6 2
  if inst.extractLsb 12 12 = 0 then
    if s = 0 then (if r = 0 then .bad .reserved else .instr (.cJr r)) else .instr (.cMv r s)
  else
    if s = 0 then (if r = 0 then .instr .cEbreak else .instr (.cJalr r)) else .instr (.cAdd r s)

/-- Quadrant 2 of R131. -/
def quadrant2 (c : Config) (inst : BitVec 16) : Decoded :=
  let r : Reg := inst.extractLsb 11 7
  let s : Reg := inst.extractLsb 6 2
  match inst.extractLsb 15 13 with
  | 0b000 =>
    if imm6 inst = 0 then .instr (.cSlli64 r)
    else if r = 0 then .instr (.cSlli r (imm6 inst))
    else if c.xlen = .rv32 ∧ inst.extractLsb 12 12 = 1 then .bad .nonStandard
    else .instr (.cSlli r (imm6 inst))
  | 0b001 =>
    if c.xlen = .rv128 then (if r = 0 then .bad .reserved else .instr (.cLqsp r (immLqsp inst)))
    else Config.gate c.hasD (.cFldsp r (immLdsp inst))
  | 0b010 => if r = 0 then .bad .reserved else .instr (.cLwsp r (immLwsp inst))
  | 0b011 =>
    if c.xlen = .rv32 then Config.gate c.extF (.cFlwsp r (immLwsp inst))
    else if r = 0 then .bad .reserved
    else .instr (.cLdsp r (immLdsp inst))
  | 0b100 => jumpMoveAdd inst
  | 0b101 =>
    if c.xlen = .rv128 then .instr (.cSqsp s (immSqsp inst))
    else Config.gate c.hasD (.cFsdsp s (immSdsp inst))
  | 0b110 => .instr (.cSwsp s (immSwsp inst))
  | _ =>
    if c.xlen = .rv32 then Config.gate c.extF (.cFswsp s (immSwsp inst))
    else .instr (.cSdsp s (immSdsp inst))

/-- A 16-bit parcel, with RVC present (R1, R131); inst[1:0] = 11 is no 16-bit instruction (R101). -/
def decode16 (c : Config) (inst : BitVec 16) : Decoded :=
  match c.extC, inst.extractLsb 1 0 with
  | .present, 0b00 => quadrant0 c inst
  | .present, 0b01 => quadrant1 c inst
  | .present, 0b10 => quadrant2 c inst
  | .present, _ => .bad .noRow

/-! ### 32-bit words (R117, R127) -/

/-- Rows of major opcode LOAD (R302, R320-R324, R362, R363). -/
def loadRow (f3 : BitVec 3) (imm : BitVec 12) (rs1 rd : Reg) : Option Instr :=
  match f3 with
  | 0b000 => some (.lb rd rs1 imm)
  | 0b001 => some (.lh rd rs1 imm)
  | 0b010 => some (.lw rd rs1 imm)
  | 0b100 => some (.lbu rd rs1 imm)
  | 0b101 => some (.lhu rd rs1 imm)
  | 0b110 => some (.lwu rd rs1 imm)
  | 0b011 => some (.ld rd rs1 imm)
  | _ => none

/-- Rows of major opcode STORE (R303, R325-R327, R364). -/
def storeRow (f3 : BitVec 3) (imm : BitVec 12) (rs2 rs1 : Reg) : Option Instr :=
  match f3 with
  | 0b000 => some (.sb rs2 rs1 imm)
  | 0b001 => some (.sh rs2 rs1 imm)
  | 0b010 => some (.sw rs2 rs1 imm)
  | 0b011 => some (.sd rs2 rs1 imm)
  | _ => none

/-- Rows of major opcode BRANCH (R314-R319). -/
def branchRow (f3 : BitVec 3) (offset : BitVec 12) (rs2 rs1 : Reg) : Option Instr :=
  match f3 with
  | 0b000 => some (.beq rs1 rs2 offset)
  | 0b001 => some (.bne rs1 rs2 offset)
  | 0b100 => some (.blt rs1 rs2 offset)
  | 0b101 => some (.bge rs1 rs2 offset)
  | 0b110 => some (.bltu rs1 rs2 offset)
  | 0b111 => some (.bgeu rs1 rs2 offset)
  | _ => none

/-- Rows of major opcode LOAD-FP (R460, R510). -/
def loadFpRow (f3 : BitVec 3) (imm : BitVec 12) (rs1 rd : Reg) : Option Instr :=
  match f3 with
  | 0b010 => some (.flw rd rs1 imm)
  | 0b011 => some (.fld rd rs1 imm)
  | _ => none

/-- Rows of major opcode STORE-FP (R461, R511). -/
def storeFpRow (f3 : BitVec 3) (imm : BitVec 12) (rs2 rs1 : Reg) : Option Instr :=
  match f3 with
  | 0b010 => some (.fsw rs2 rs1 imm)
  | 0b011 => some (.fsd rs2 rs1 imm)
  | _ => none

/-- Rows of major opcode OP (R337-R346, R392-R399). -/
def opRow (f7 : BitVec 7) (f3 : BitVec 3) (rs2 rs1 rd : Reg) : Option Instr :=
  match f7, f3 with
  | 0b0000000, 0b000 => some (.add rd rs1 rs2)
  | 0b0100000, 0b000 => some (.sub rd rs1 rs2)
  | 0b0000000, 0b001 => some (.sll rd rs1 rs2)
  | 0b0000000, 0b010 => some (.slt rd rs1 rs2)
  | 0b0000000, 0b011 => some (.sltu rd rs1 rs2)
  | 0b0000000, 0b100 => some (.xor rd rs1 rs2)
  | 0b0000000, 0b101 => some (.srl rd rs1 rs2)
  | 0b0100000, 0b101 => some (.sra rd rs1 rs2)
  | 0b0000000, 0b110 => some (.or rd rs1 rs2)
  | 0b0000000, 0b111 => some (.and rd rs1 rs2)
  | 0b0000001, 0b000 => some (.mul rd rs1 rs2)
  | 0b0000001, 0b001 => some (.mulh rd rs1 rs2)
  | 0b0000001, 0b010 => some (.mulhsu rd rs1 rs2)
  | 0b0000001, 0b011 => some (.mulhu rd rs1 rs2)
  | 0b0000001, 0b100 => some (.div rd rs1 rs2)
  | 0b0000001, 0b101 => some (.divu rd rs1 rs2)
  | 0b0000001, 0b110 => some (.rem rd rs1 rs2)
  | 0b0000001, 0b111 => some (.remu rd rs1 rs2)
  | _, _ => none

/-- Rows of major opcode OP-32 (R372-R376, R400-R404). -/
def op32Row (f7 : BitVec 7) (f3 : BitVec 3) (rs2 rs1 rd : Reg) : Option Instr :=
  match f7, f3 with
  | 0b0000000, 0b000 => some (.addw rd rs1 rs2)
  | 0b0100000, 0b000 => some (.subw rd rs1 rs2)
  | 0b0000000, 0b001 => some (.sllw rd rs1 rs2)
  | 0b0000000, 0b101 => some (.srlw rd rs1 rs2)
  | 0b0100000, 0b101 => some (.sraw rd rs1 rs2)
  | 0b0000001, 0b000 => some (.mulw rd rs1 rs2)
  | 0b0000001, 0b100 => some (.divw rd rs1 rs2)
  | 0b0000001, 0b101 => some (.divuw rd rs1 rs2)
  | 0b0000001, 0b110 => some (.remw rd rs1 rs2)
  | 0b0000001, 0b111 => some (.remuw rd rs1 rs2)
  | _, _ => none

/-- Rows of major opcode AMO (R410): LR also needs the rs2 field to be zero. -/
def amoRow (f5 : BitVec 5) (aq rl : Bool) (f3 : BitVec 3) (rs2 rs1 rd : Reg) : Option Instr :=
  match f5, f3 with
  | 0b00010, 0b010 => if rs2 = 0 then some (.lrW rd rs1 aq rl) else none
  | 0b00011, 0b010 => some (.scW rd rs1 rs2 aq rl)
  | 0b00001, 0b010 => some (.amoswapW rd rs1 rs2 aq rl)
  | 0b00000, 0b010 => some (.amoaddW rd rs1 rs2 aq rl)
  | 0b00100, 0b010 => some (.amoxorW rd rs1 rs2 aq rl)
  | 0b01100, 0b010 => some (.amoandW rd rs1 rs2 aq rl)
  | 0b01000, 0b010 => some (.amoorW rd rs1 rs2 aq rl)
  | 0b10000, 0b010 => some (.amominW rd rs1 rs2 aq rl)
  | 0b10100, 0b010 => some (.amomaxW rd rs1 rs2 aq rl)
  | 0b11000, 0b010 => some (.amominuW rd rs1 rs2 aq rl)
  | 0b11100, 0b010 => some (.amomaxuW rd rs1 rs2 aq rl)
  | 0b00010, 0b011 => if rs2 = 0 then some (.lrD rd rs1 aq rl) else none
  | 0b00011, 0b011 => some (.scD rd rs1 rs2 aq rl)
  | 0b00001, 0b011 => some (.amoswapD rd rs1 rs2 aq rl)
  | 0b00000, 0b011 => some (.amoaddD rd rs1 rs2 aq rl)
  | 0b00100, 0b011 => some (.amoxorD rd rs1 rs2 aq rl)
  | 0b01100, 0b011 => some (.amoandD rd rs1 rs2 aq rl)
  | 0b01000, 0b011 => some (.amoorD rd rs1 rs2 aq rl)
  | 0b10000, 0b011 => some (.amominD rd rs1 rs2 aq rl)
  | 0b10100, 0b011 => some (.amomaxD rd rs1 rs2 aq rl)
  | 0b11000, 0b011 => some (.amominuD rd rs1 rs2 aq rl)
  | 0b11100, 0b011 => some (.amomaxuD rd rs1 rs2 aq rl)
  | _, _ => none

/-- Rows of the four fused multiply-add opcodes, by inst[3:2] and fmt (R450, R462-R465, R512-R515). -/
def fmaRow (op : BitVec 7) (fmt : BitVec 2) (rs3 rs2 rs1 : Reg) (rm : RmField) (rd : Reg) : Option Instr :=
  match op, fmt with
  | 0b1000011, 0b00 => some (.fmaddS rd rs1 rs2 rs3 rm)
  | 0b1000111, 0b00 => some (.fmsubS rd rs1 rs2 rs3 rm)
  | 0b1001011, 0b00 => some (.fnmsubS rd rs1 rs2 rs3 rm)
  | 0b1001111, 0b00 => some (.fnmaddS rd rs1 rs2 rs3 rm)
  | 0b1000011, 0b01 => some (.fmaddD rd rs1 rs2 rs3 rm)
  | 0b1000111, 0b01 => some (.fmsubD rd rs1 rs2 rs3 rm)
  | 0b1001011, 0b01 => some (.fnmsubD rd rs1 rs2 rs3 rm)
  | 0b1001111, 0b01 => some (.fnmaddD rd rs1 rs2 rs3 rm)
  | _, _ => none

/-- OP-FP rows with two sources and an `rm` field (R450, R466-R469, R516-R519). -/
def fpArithRow (f7 : BitVec 7) (rs2 rs1 : Reg) (rm : RmField) (rd : Reg) : Option Instr :=
  match f7 with
  | 0b0000000 => some (.faddS rd rs1 rs2 rm)
  | 0b0000100 => some (.fsubS rd rs1 rs2 rm)
  | 0b0001000 => some (.fmulS rd rs1 rs2 rm)
  | 0b0001100 => some (.fdivS rd rs1 rs2 rm)
  | 0b0000001 => some (.faddD rd rs1 rs2 rm)
  | 0b0000101 => some (.fsubD rd rs1 rs2 rm)
  | 0b0001001 => some (.fmulD rd rs1 rs2 rm)
  | 0b0001101 => some (.fdivD rd rs1 rs2 rm)
  | _ => none

/-- OP-FP rows with one source, a constant in the rs2 position and an `rm` field (R450, R500). -/
def fpUnaryRow (f7 : BitVec 7) (sub : BitVec 5) (rs1 : Reg) (rm : RmField) (rd : Reg) : Option Instr :=
  match f7, sub with
  | 0b0101100, 0b00000 => some (.fsqrtS rd rs1 rm)
  | 0b1100000, 0b00000 => some (.fcvtWS rd rs1 rm)
  | 0b1100000, 0b00001 => some (.fcvtWuS rd rs1 rm)
  | 0b1101000, 0b00000 => some (.fcvtSW rd rs1 rm)
  | 0b1101000, 0b00001 => some (.fcvtSWu rd rs1 rm)
  | 0b1100000, 0b00010 => some (.fcvtLS rd rs1 rm)
  | 0b1100000, 0b00011 => some (.fcvtLuS rd rs1 rm)
  | 0b1101000, 0b00010 => some (.fcvtSL rd rs1 rm)
  | 0b1101000, 0b00011 => some (.fcvtSLu rd rs1 rm)
  | 0b0101101, 0b00000 => some (.fsqrtD rd rs1 rm)
  | 0b0100000, 0b00001 => some (.fcvtSD rd rs1 rm)
  | 0b0100001, 0b00000 => some (.fcvtDS rd rs1 rm)
  | 0b1100001, 0b00000 => some (.fcvtWD rd rs1 rm)
  | 0b1100001, 0b00001 => some (.fcvtWuD rd rs1 rm)
  | 0b1101001, 0b00000 => some (.fcvtDW rd rs1 rm)
  | 0b1101001, 0b00001 => some (.fcvtDWu rd rs1 rm)
  | 0b1100001, 0b00010 => some (.fcvtLD rd rs1 rm)
  | 0b1100001, 0b00011 => some (.fcvtLuD rd rs1 rm)
  | 0b1101001, 0b00010 => some (.fcvtDL rd rs1 rm)
  | 0b1101001, 0b00011 => some (.fcvtDLu rd rs1 rm)
  | _, _ => none

/-- OP-FP rows with two sources and a fixed funct3 (R471-R475, R479-R481 and their D forms). -/
def fpCompareRow (f7 : BitVec 7) (f3 : BitVec 3) (rs2 rs1 rd : Reg) : Option Instr :=
  match f7, f3 with
  | 0b0010000, 0b000 => some (.fsgnjS rd rs1 rs2)
  | 0b0010000, 0b001 => some (.fsgnjnS rd rs1 rs2)
  | 0b0010000, 0b010 => some (.fsgnjxS rd rs1 rs2)
  | 0b0010100, 0b000 => some (.fminS rd rs1 rs2)
  | 0b0010100, 0b001 => some (.fmaxS rd rs1 rs2)
  | 0b1010000, 0b010 => some (.feqS rd rs1 rs2)
  | 0b1010000, 0b001 => some (.fltS rd rs1 rs2)
  | 0b1010000, 0b000 => some (.fleS rd rs1 rs2)
  | 0b0010001, 0b000 => some (.fsgnjD rd rs1 rs2)
  | 0b0010001, 0b001 => some (.fsgnjnD rd rs1 rs2)
  | 0b0010001, 0b010 => some (.fsgnjxD rd rs1 rs2)
  | 0b0010101, 0b000 => some (.fminD rd rs1 rs2)
  | 0b0010101, 0b001 => some (.fmaxD rd rs1 rs2)
  | 0b1010001, 0b010 => some (.feqD rd rs1 rs2)
  | 0b1010001, 0b001 => some (.fltD rd rs1 rs2)
  | 0b1010001, 0b000 => some (.fleD rd rs1 rs2)
  | _, _ => none

/-- OP-FP rows with one source, a constant in the rs2 position and a fixed funct3 (FMV, FCLASS). -/
def fpMoveRow (f7 : BitVec 7) (sub : BitVec 5) (f3 : BitVec 3) (rs1 rd : Reg) : Option Instr :=
  match f7, sub, f3 with
  | 0b1110000, 0b00000, 0b000 => some (.fmvXW rd rs1)
  | 0b1110000, 0b00000, 0b001 => some (.fclassS rd rs1)
  | 0b1111000, 0b00000, 0b000 => some (.fmvWX rd rs1)
  | 0b1110001, 0b00000, 0b001 => some (.fclassD rd rs1)
  | 0b1110001, 0b00000, 0b000 => some (.fmvXD rd rs1)
  | 0b1111001, 0b00000, 0b000 => some (.fmvDX rd rs1)
  | _, _, _ => none

/-- Rows of major opcode OP-IMM (R328-R336, R365-R367): XLEN selects between the two shift layouts (R119, C13). -/
def opImmRow (c : Config) (f3 : BitVec 3) (imm : BitVec 12) (rs1 rd : Reg) : Option Instr :=
  match f3 with
  | 0b000 => some (.addi rd rs1 imm)
  | 0b010 => some (.slti rd rs1 imm)
  | 0b011 => some (.sltiu rd rs1 imm)
  | 0b100 => some (.xori rd rs1 imm)
  | 0b110 => some (.ori rd rs1 imm)
  | 0b111 => some (.andi rd rs1 imm)
  | 0b001 =>
    if c.xlen = .rv32 then
      if imm.extractLsb 11 5 = 0 then some (.slliRv32 rd rs1 (imm.extractLsb 4 0)) else none
    else if imm.extractLsb 11 6 = 0 then some (.slliRv64 rd rs1 (imm.extractLsb 5 0)) else none
  | _ =>
    if c.xlen = .rv32 then
      if imm.extractLsb 11 5 = 0 then some (.srliRv32 rd rs1 (imm.extractLsb 4 0))
      else if imm.extractLsb 11 5 = 0b0100000 then some (.sraiRv32 rd rs1 (imm.extractLsb 4 0))
      else none
    else if imm.extractLsb 11 6 = 0 then some (.srliRv64 rd rs1 (imm.extractLsb 5 0))
    else if imm.extractLsb 11 6 = 0b010000 then some (.sraiRv64 rd rs1 (imm.extractLsb 5 0))
    else none

/-- Rows of major opcode OP-IMM-32 (R368-R371). -/
def opImm32Row (f3 : BitVec 3) (imm : BitVec 12) (rs1 rd : Reg) : Option Instr :=
  match f3 with
  | 0b000 => some (.addiw rd rs1 imm)
  | 0b001 => if imm.extractLsb 11 5 = 0 then some (.slliw rd rs1 (imm.extractLsb 4 0)) else none
  | 0b101 =>
    if imm.extractLsb 11 5 = 0 then some (.srliw rd rs1 (imm.extractLsb 4 0))
    else if imm.extractLsb 11 5 = 0b0100000 then some (.sraiw rd rs1 (imm.extractLsb 4 0))
    else none
  | _ => none

/-- Rows of major opcode SYSTEM (R349-R356, R615). -/
def systemRow (f3 : BitVec 3) (imm : BitVec 12) (rs1 rd : Reg) : Option Instr :=
  match f3 with
  | 0b000 =>
    if rs1 = 0 ∧ rd = 0 then
      (if imm = 0 then some .ecall else if imm = 1 then some .ebreak else none)
    else none
  | 0b001 => some (.csrrw rd rs1 imm)
  | 0b010 => some (.csrrs rd rs1 imm)
  | 0b011 => some (.csrrc rd rs1 imm)
  | 0b101 => some (.csrrwi rd rs1 imm)
  | 0b110 => some (.csrrsi rd rs1 imm)
  | 0b111 => some (.csrrci rd rs1 imm)
  | _ => none

/-- Rows of major opcode MISC-MEM (R347, R348): the constant cells must match exactly (D8). -/
def miscMemRow (f3 : BitVec 3) (imm : BitVec 12) (rs1 rd : Reg) : Option Instr :=
  match f3 with
  | 0b000 =>
    if imm.extractLsb 11 8 = 0 ∧ rs1 = 0 ∧ rd = 0 then
      some (.fence (imm.extractLsb 7 4) (imm.extractLsb 3 0))
    else none
  | 0b001 => if imm = 0 ∧ rs1 = 0 ∧ rd = 0 then some .fenceI else none
  | _ => none

/-- The first of four candidate rows that is there. -/
def firstRow (a b c d : Option Instr) : Option Instr :=
  match a with
  | some i => some i
  | none =>
    match b with
    | some i => some i
    | none =>
      match c with
      | some i => some i
      | none => d

/-- The row of Table 19.2 that the bits of `inst` match, by major opcode (R117), before XLEN and the
extensions are consulted; the fields are those of R115 and R116. -/
def wordRow (c : Config) (inst : BitVec 32) : Option Instr :=
  let rd : Reg := inst.extractLsb 11 7
  let f3 : BitVec 3 := inst.extractLsb 14 12
  let rs1 : Reg := inst.extractLsb 19 15
  let rs2 : Reg := inst.extractLsb 24 20
  let f7 : BitVec 7 := inst.extractLsb 31 25
  let immI : BitVec 12 := inst.extractLsb 31 20
  let immS : BitVec 12 := inst.extractLsb 31 25 ++ inst.extractLsb 11 7
  let immB : BitVec 12 :=
    inst.extractLsb 31 31 ++ inst.extractLsb 7 7 ++ inst.extractLsb 30 25 ++ inst.extractLsb 11 8
  let immU : BitVec 20 := inst.extractLsb 31 12
  let immJ : BitVec 20 :=
    inst.extractLsb 31 31 ++ inst.extractLsb 19 12 ++ inst.extractLsb 20 20 ++ inst.extractLsb 30 21
  let op : BitVec 7 := inst.extractLsb 6 0
  match op with
  | 0b0000011 => loadRow f3 immI rs1 rd
  | 0b0000111 => loadFpRow f3 immI rs1 rd
  | 0b0001111 => miscMemRow f3 immI rs1 rd
  | 0b0010011 => opImmRow c f3 immI rs1 rd
  | 0b0010111 => some (.auipc rd immU)
  | 0b0011011 => opImm32Row f3 immI rs1 rd
  | 0b0100011 => storeRow f3 immS rs2 rs1
  | 0b0100111 => storeFpRow f3 immS rs2 rs1
  | 0b0101111 =>
    amoRow (inst.extractLsb 31 27) (inst.getLsbD 26) (inst.getLsbD 25) f3 rs2 rs1 rd
  | 0b0110011 => opRow f7 f3 rs2 rs1 rd
  | 0b0110111 => some (.lui rd immU)
  | 0b0111011 => op32Row f7 f3 rs2 rs1 rd
  | 0b1000011 | 0b1000111 | 0b1001011 | 0b1001111 =>
    fmaRow op (inst.extractLsb 26 25) (inst.extractLsb 31 27) rs2 rs1 f3 rd
  | 0b1010011 =>
    firstRow (fpArithRow f7 rs2 rs1 f3 rd) (fpUnaryRow f7 rs2 rs1 f3 rd)
      (fpCompareRow f7 f3 rs2 rs1 rd) (fpMoveRow f7 rs2 f3 rs1 rd)
  | 0b1100011 => branchRow f3 immB rs2 rs1
  | 0b1100111 => if f3 = 0 then some (.jalr rd rs1 immI) else none
  | 0b1101111 => some (.jal rd immJ)
  | 0b1110011 => systemRow f3 immI rs1 rd
  | _ => none

/-- A 32-bit word (R127): the matching row, if it exists under this XLEN and these extensions (R118). -/
def decode32 (c : Config) (inst : BitVec 32) : Decoded :=
  match wordRow c inst with
  | some i => Config.gate (i.wellFormed c) i
  | none => .bad .noRow

/-! ### Whole instructions -/

/-- The first parcel of an instruction longer than 16 bits (R101). -/
def isWide (lo : BitVec 16) : Bool := lo.extractLsb 1 0 == 0b11

/-- The length in bits that a first parcel announces; 80 stands for "80 or more" (R101). -/
def announcedBits (lo : BitVec 16) : Nat :=
  if isWide lo then
    if lo.extractLsb 4 2 = 0b111 then
      match lo.extractLsb 6 5 with
      | 0b01 => 64
      | 0b11 => 80
      | _ => 48
    else 32
  else 16

/-- The first parcel of an instruction longer than ILEN (R101, R118). -/
def isTooLong (c : Config) (lo : BitVec 16) : Bool := decide (c.ilen.bits < announcedBits lo)

/-- The instruction at the head of a list of bytes, lowest address first (R63, R64, R101). -/
def decode (c : Config) : List Byte → Decoded
  | b0 :: b1 :: rest =>
    if isTooLong c (b1 ++ b0) then .bad .tooLong
    else if isWide (b1 ++ b0) then
      match rest with
      | b2 :: b3 :: _ => decode32 c (b3 ++ b2 ++ b1 ++ b0)
      | _ => .bad .truncated
    else decode16 c (b1 ++ b0)
  | _ => .bad .truncated

/-! ### The encoder -/

/-- The bits of one instruction: a parcel of 16 bits or a word of 32 (R100). -/
inductive Encoding where
  | parcel (bits : BitVec 16)
  | word (bits : BitVec 32)
  deriving DecidableEq, Repr

/-- The length of an instruction in bytes, `ilen` (R101). -/
def Encoding.length : Encoding → Nat
  | .parcel _ => 2
  | .word _ => 4

/-- The instruction bits zero-extended: the `info` of an IllegalInstruction exception (R601). -/
def Encoding.info : Encoding → Word
  | .parcel b => b.setWidth 128
  | .word b => b.setWidth 128

/-- The bytes as they lie in memory, lowest address first (R63, R64). -/
def Encoding.bytes : Encoding → List Byte
  | .parcel b => [b.extractLsb 7 0, b.extractLsb 15 8]
  | .word b => [b.extractLsb 7 0, b.extractLsb 15 8, b.extractLsb 23 16, b.extractLsb 31 24]

/-- nzuimm bits 9:2 into inst[12:5] = nzuimm[5:4|9:6|2|3] (R113). -/
def scatterCiw (i : BitVec 8) : BitVec 8 :=
  i.extractLsb 3 2 ++ i.extractLsb 7 4 ++ i.extractLsb 0 0 ++ i.extractLsb 1 1

/-- uimm bits 6:2 into inst[12:10] = uimm[5:3], inst[6:5] = uimm[2|6] (R113). -/
def scatterLw (i : BitVec 5) : BitVec 5 := i.extractLsb 3 1 ++ i.extractLsb 0 0 ++ i.extractLsb 4 4

/-- uimm bits 7:3 into inst[12:10] = uimm[5:3], inst[6:5] = uimm[7:6] (R113). -/
def scatterLd (i : BitVec 5) : BitVec 5 := i.extractLsb 2 0 ++ i.extractLsb 4 3

/-- uimm bits 8:4 into inst[12:10] = uimm[5:4|8], inst[6:5] = uimm[7:6] (R113). -/
def scatterLq (i : BitVec 5) : BitVec 5 := i.extractLsb 1 0 ++ i.extractLsb 4 4 ++ i.extractLsb 3 2

/-- nzimm bits 9:4 into inst[12] = nzimm[9], inst[6:2] = nzimm[4|6|8:7|5] (R113). -/
def scatterSp16 (i : BitVec 6) : BitVec 6 :=
  i.extractLsb 5 5 ++ i.extractLsb 0 0 ++ i.extractLsb 2 2 ++ i.extractLsb 4 3 ++ i.extractLsb 1 1

/-- offset bits 11:1 into inst[12:2] = imm[11|4|9:8|10|6|7|3:1|5] (R113). -/
def scatterCj (i : BitVec 11) : BitVec 11 :=
  i.extractLsb 10 10 ++ i.extractLsb 3 3 ++ i.extractLsb 8 7 ++ i.extractLsb 9 9 ++ i.extractLsb 5 5 ++
  i.extractLsb 6 6 ++ i.extractLsb 2 0 ++ i.extractLsb 4 4

/-- offset bits 8:1 into inst[12:10] = imm[8|4:3], inst[6:2] = imm[7:6|2:1|5] (R113). -/
def scatterCb (i : BitVec 8) : BitVec 8 :=
  i.extractLsb 7 7 ++ i.extractLsb 3 2 ++ i.extractLsb 6 5 ++ i.extractLsb 1 0 ++ i.extractLsb 4 4

/-- uimm bits 7:2 into inst[12] = uimm[5], inst[6:2] = uimm[4:2|7:6] (R113). -/
def scatterLwsp (i : BitVec 6) : BitVec 6 := i.extractLsb 3 3 ++ i.extractLsb 2 0 ++ i.extractLsb 5 4

/-- uimm bits 8:3 into inst[12] = uimm[5], inst[6:2] = uimm[4:3|8:6] (R113). -/
def scatterLdsp (i : BitVec 6) : BitVec 6 := i.extractLsb 2 2 ++ i.extractLsb 1 0 ++ i.extractLsb 5 3

/-- uimm bits 9:4 into inst[12] = uimm[5], inst[6:2] = uimm[4|9:6] (R113). -/
def scatterLqsp (i : BitVec 6) : BitVec 6 := i.extractLsb 1 1 ++ i.extractLsb 0 0 ++ i.extractLsb 5 2

/-- uimm bits 7:2 into inst[12:7] = uimm[5:2|7:6] (R113). -/
def scatterSwsp (i : BitVec 6) : BitVec 6 := i.extractLsb 3 0 ++ i.extractLsb 5 4

/-- uimm bits 8:3 into inst[12:7] = uimm[5:3|8:6] (R113). -/
def scatterSdsp (i : BitVec 6) : BitVec 6 := i.extractLsb 2 0 ++ i.extractLsb 5 3

/-- uimm bits 9:4 into inst[12:7] = uimm[5:4|9:6] (R113). -/
def scatterSqsp (i : BitVec 6) : BitVec 6 := i.extractLsb 1 0 ++ i.extractLsb 5 2

/-- Format CR (R104). -/
def crType (f1 : BitVec 1) (r s : Reg) : Encoding := .parcel (0b100#3 ++ f1 ++ r ++ s ++ 0b10#2)

/-- Format CI (R105). -/
def ciType (f3 : BitVec 3) (imm : BitVec 6) (rd : Reg) (op : BitVec 2) : Encoding :=
  .parcel (f3 ++ imm.extractLsb 5 5 ++ rd ++ imm.extractLsb 4 0 ++ op)

/-- Format CSS (R106). -/
def cssType (f3 : BitVec 3) (imm : BitVec 6) (rs2 : Reg) : Encoding := .parcel (f3 ++ imm ++ rs2 ++ 0b10#2)

/-- Format CIW (R107). -/
def ciwType (f3 : BitVec 3) (imm : BitVec 8) (rd : CReg) (op : BitVec 2) : Encoding :=
  .parcel (f3 ++ imm ++ rd ++ op)

/-- Formats CL and CS (R108, R109). -/
def clType (f3 : BitVec 3) (imm : BitVec 5) (rs1 rd : CReg) : Encoding :=
  .parcel (f3 ++ imm.extractLsb 4 2 ++ rs1 ++ imm.extractLsb 1 0 ++ rd ++ 0b00#2)

/-- Format CA (R110). -/
def caType (b12 : BitVec 1) (rd : CReg) (f2 : BitVec 2) (rs2 : CReg) : Encoding :=
  .parcel (0b100#3 ++ b12 ++ 0b11#2 ++ rd ++ f2 ++ rs2 ++ 0b01#2)

/-- Format CB, shifts and C.ANDI (R111 b). -/
def cbType (f2 : BitVec 2) (imm : BitVec 6) (rd : CReg) : Encoding :=
  .parcel (0b100#3 ++ imm.extractLsb 5 5 ++ f2 ++ rd ++ imm.extractLsb 4 0 ++ 0b01#2)

/-- Format CB, branches (R111 a). -/
def cbBranch (f3 : BitVec 3) (offset : BitVec 8) (rs1 : CReg) : Encoding :=
  .parcel (f3 ++ (scatterCb offset).extractLsb 7 5 ++ rs1 ++ (scatterCb offset).extractLsb 4 0 ++ 0b01#2)

/-- Format CJ (R112). -/
def cjType (f3 : BitVec 3) (offset : BitVec 11) : Encoding := .parcel (f3 ++ scatterCj offset ++ 0b01#2)

/-- R-type (R115), also the shift-immediate and fp R-type layouts (R119). -/
def rType (f7 : BitVec 7) (rs2 rs1 : Reg) (f3 : BitVec 3) (rd : Reg) (op : BitVec 7) : Encoding :=
  .word (f7 ++ rs2 ++ rs1 ++ f3 ++ rd ++ op)

/-- R4-type (R115). -/
def r4Type (rs3 : Reg) (fmt : BitVec 2) (rs2 rs1 : Reg) (f3 : BitVec 3) (rd : Reg) (op : BitVec 7) : Encoding :=
  .word (rs3 ++ fmt ++ rs2 ++ rs1 ++ f3 ++ rd ++ op)

/-- The atomic layout (R119). -/
def amoType (f5 : BitVec 5) (aq rl : Bool) (rs2 rs1 : Reg) (f3 : BitVec 3) (rd : Reg) (op : BitVec 7) : Encoding :=
  .word (f5 ++ BitVec.ofBool aq ++ BitVec.ofBool rl ++ rs2 ++ rs1 ++ f3 ++ rd ++ op)

/-- I-type (R115), also the csr and system layouts (R119). -/
def iType (imm : BitVec 12) (rs1 : Reg) (f3 : BitVec 3) (rd : Reg) (op : BitVec 7) : Encoding :=
  .word (imm ++ rs1 ++ f3 ++ rd ++ op)

/-- S-type (R115). -/
def sType (imm : BitVec 12) (rs2 rs1 : Reg) (f3 : BitVec 3) (op : BitVec 7) : Encoding :=
  .word (imm.extractLsb 11 5 ++ rs2 ++ rs1 ++ f3 ++ imm.extractLsb 4 0 ++ op)

/-- B-type (R115): imm[12|10:5] and imm[4:1|11]; `offset` holds bits 12:1. -/
def bType (offset : BitVec 12) (rs2 rs1 : Reg) (f3 : BitVec 3) (op : BitVec 7) : Encoding :=
  .word (offset.extractLsb 11 11 ++ offset.extractLsb 9 4 ++ rs2 ++ rs1 ++ f3 ++
    offset.extractLsb 3 0 ++ offset.extractLsb 10 10 ++ op)

/-- U-type (R115). -/
def uType (imm : BitVec 20) (rd : Reg) (op : BitVec 7) : Encoding := .word (imm ++ rd ++ op)

/-- J-type (R115): imm[20|10:1|11|19:12]; `offset` holds bits 20:1. -/
def jType (offset : BitVec 20) (rd : Reg) (op : BitVec 7) : Encoding :=
  .word (offset.extractLsb 19 19 ++ offset.extractLsb 9 0 ++ offset.extractLsb 10 10 ++
    offset.extractLsb 18 11 ++ rd ++ op)

/-- The bits of an instruction: the `match` constant of its row with the operands in their fields. -/
def Instr.encode : Instr → Encoding
  | .illegal => .parcel 0#16
  | .cAddi4spn rd nzuimm => ciwType 0b000 (scatterCiw nzuimm) rd 0b00
  | .cFld rd rs1 uimm => clType 0b001 (scatterLd uimm) rs1 rd
  | .cLq rd rs1 uimm => clType 0b001 (scatterLq uimm) rs1 rd
  | .cLw rd rs1 uimm => clType 0b010 (scatterLw uimm) rs1 rd
  | .cFlw rd rs1 uimm => clType 0b011 (scatterLw uimm) rs1 rd
  | .cLd rd rs1 uimm => clType 0b011 (scatterLd uimm) rs1 rd
  | .reservedQ0 payload => .parcel (0b100#3 ++ payload ++ 0b00#2)
  | .cFsd rs2 rs1 uimm => clType 0b101 (scatterLd uimm) rs1 rs2
  | .cSq rs2 rs1 uimm => clType 0b101 (scatterLq uimm) rs1 rs2
  | .cSw rs2 rs1 uimm => clType 0b110 (scatterLw uimm) rs1 rs2
  | .cFsw rs2 rs1 uimm => clType 0b111 (scatterLw uimm) rs1 rs2
  | .cSd rs2 rs1 uimm => clType 0b111 (scatterLd uimm) rs1 rs2
  | .cNop => ciType 0b000 0 0 0b01
  | .cAddi rd nzimm => ciType 0b000 nzimm rd 0b01
  | .unlisted imm6 => ciType 0b000 imm6 0 0b01
  | .cJal offset => cjType 0b001 offset
  | .cAddiw rd imm => ciType 0b001 imm rd 0b01
  | .cLi rd imm => ciType 0b010 imm rd 0b01
  | .cAddi16sp nzimm => ciType 0b011 (scatterSp16 nzimm) 2 0b01
  | .cLui rd nzimm => ciType 0b011 nzimm rd 0b01
  | .cSrli rd shamt => cbType 0b00 shamt rd
  | .cSrli64 rd => cbType 0b00 0 rd
  | .cSrai rd shamt => cbType 0b01 shamt rd
  | .cSrai64 rd => cbType 0b01 0 rd
  | .cAndi rd imm => cbType 0b10 imm rd
  | .cSub rd rs2 => caType 0b0 rd 0b00 rs2
  | .cXor rd rs2 => caType 0b0 rd 0b01 rs2
  | .cOr rd rs2 => caType 0b0 rd 0b10 rs2
  | .cAnd rd rs2 => caType 0b0 rd 0b11 rs2
  | .cSubw rd rs2 => caType 0b1 rd 0b00 rs2
  | .cAddw rd rs2 => caType 0b1 rd 0b01 rs2
  | .reservedQ1a hi lo => caType 0b1 hi 0b10 lo
  | .reservedQ1b hi lo => caType 0b1 hi 0b11 lo
  | .cJ offset => cjType 0b101 offset
  | .cBeqz rs1 offset => cbBranch 0b110 offset rs1
  | .cBnez rs1 offset => cbBranch 0b111 offset rs1
  | .cSlli rd shamt => ciType 0b000 shamt rd 0b10
  | .cSlli64 rd => ciType 0b000 0 rd 0b10
  | .cFldsp rd uimm => ciType 0b001 (scatterLdsp uimm) rd 0b10
  | .cLqsp rd uimm => ciType 0b001 (scatterLqsp uimm) rd 0b10
  | .cLwsp rd uimm => ciType 0b010 (scatterLwsp uimm) rd 0b10
  | .cFlwsp rd uimm => ciType 0b011 (scatterLwsp uimm) rd 0b10
  | .cLdsp rd uimm => ciType 0b011 (scatterLdsp uimm) rd 0b10
  | .cJr rs1 => crType 0b0 rs1 0
  | .cMv rd rs2 => crType 0b0 rd rs2
  | .cEbreak => crType 0b1 0 0
  | .cJalr rs1 => crType 0b1 rs1 0
  | .cAdd rd rs2 => crType 0b1 rd rs2
  | .cFsdsp rs2 uimm => cssType 0b101 (scatterSdsp uimm) rs2
  | .cSqsp rs2 uimm => cssType 0b101 (scatterSqsp uimm) rs2
  | .cSwsp rs2 uimm => cssType 0b110 (scatterSwsp uimm) rs2
  | .cFswsp rs2 uimm => cssType 0b111 (scatterSwsp uimm) rs2
  | .cSdsp rs2 uimm => cssType 0b111 (scatterSdsp uimm) rs2
  | .lui rd imm => uType imm rd 0b0110111
  | .auipc rd imm => uType imm rd 0b0010111
  | .jal rd offset => jType offset rd 0b1101111
  | .jalr rd rs1 imm => iType imm rs1 0b000 rd 0b1100111
  | .beq rs1 rs2 offset => bType offset rs2 rs1 0b000 0b1100011
  | .bne rs1 rs2 offset => bType offset rs2 rs1 0b001 0b1100011
  | .blt rs1 rs2 offset => bType offset rs2 rs1 0b100 0b1100011
  | .bge rs1 rs2 offset => bType offset rs2 rs1 0b101 0b1100011
  | .bltu rs1 rs2 offset => bType offset rs2 rs1 0b110 0b1100011
  | .bgeu rs1 rs2 offset => bType offset rs2 rs1 0b111 0b1100011
  | .lb rd rs1 imm => iType imm rs1 0b000 rd 0b0000011
  | .lh rd rs1 imm => iType imm rs1 0b001 rd 0b0000011
  | .lw rd rs1 imm => iType imm rs1 0b010 rd 0b0000011
  | .lbu rd rs1 imm => iType imm rs1 0b100 rd 0b0000011
  | .lhu rd rs1 imm => iType imm rs1 0b101 rd 0b0000011
  | .sb rs2 rs1 imm => sType imm rs2 rs1 0b000 0b0100011
  | .sh rs2 rs1 imm => sType imm rs2 rs1 0b001 0b0100011
  | .sw rs2 rs1 imm => sType imm rs2 rs1 0b010 0b0100011
  | .addi rd rs1 imm => iType imm rs1 0b000 rd 0b0010011
  | .slti rd rs1 imm => iType imm rs1 0b010 rd 0b0010011
  | .sltiu rd rs1 imm => iType imm rs1 0b011 rd 0b0010011
  | .xori rd rs1 imm => iType imm rs1 0b100 rd 0b0010011
  | .ori rd rs1 imm => iType imm rs1 0b110 rd 0b0010011
  | .andi rd rs1 imm => iType imm rs1 0b111 rd 0b0010011
  | .slliRv32 rd rs1 shamt => rType 0b0000000 shamt rs1 0b001 rd 0b0010011
  | .srliRv32 rd rs1 shamt => rType 0b0000000 shamt rs1 0b101 rd 0b0010011
  | .sraiRv32 rd rs1 shamt => rType 0b0100000 shamt rs1 0b101 rd 0b0010011
  | .add rd rs1 rs2 => rType 0b0000000 rs2 rs1 0b000 rd 0b0110011
  | .sub rd rs1 rs2 => rType 0b0100000 rs2 rs1 0b000 rd 0b0110011
  | .sll rd rs1 rs2 => rType 0b0000000 rs2 rs1 0b001 rd 0b0110011
  | .slt rd rs1 rs2 => rType 0b0000000 rs2 rs1 0b010 rd 0b0110011
  | .sltu rd rs1 rs2 => rType 0b0000000 rs2 rs1 0b011 rd 0b0110011
  | .xor rd rs1 rs2 => rType 0b0000000 rs2 rs1 0b100 rd 0b0110011
  | .srl rd rs1 rs2 => rType 0b0000000 rs2 rs1 0b101 rd 0b0110011
  | .sra rd rs1 rs2 => rType 0b0100000 rs2 rs1 0b101 rd 0b0110011
  | .or rd rs1 rs2 => rType 0b0000000 rs2 rs1 0b110 rd 0b0110011
  | .and rd rs1 rs2 => rType 0b0000000 rs2 rs1 0b111 rd 0b0110011
  | .fence pred succ => .word (0b0000#4 ++ pred ++ succ ++ 0#5 ++ 0b000#3 ++ 0#5 ++ 0b0001111#7)
  | .fenceI => .word 0x0000100f
  | .ecall => .word 0x00000073
  | .ebreak => .word 0x00100073
  | .csrrw rd rs1 csr => iType csr rs1 0b001 rd 0b1110011
  | .csrrs rd rs1 csr => iType csr rs1 0b010 rd 0b1110011
  | .csrrc rd rs1 csr => iType csr rs1 0b011 rd 0b1110011
  | .csrrwi rd zimm csr => iType csr zimm 0b101 rd 0b1110011
  | .csrrsi rd zimm csr => iType csr zimm 0b110 rd 0b1110011
  | .csrrci rd zimm csr => iType csr zimm 0b111 rd 0b1110011
  | .lwu rd rs1 imm => iType imm rs1 0b110 rd 0b0000011
  | .ld rd rs1 imm => iType imm rs1 0b011 rd 0b0000011
  | .sd rs2 rs1 imm => sType imm rs2 rs1 0b011 0b0100011
  | .slliRv64 rd rs1 shamt => iType (0b000000#6 ++ shamt) rs1 0b001 rd 0b0010011
  | .srliRv64 rd rs1 shamt => iType (0b000000#6 ++ shamt) rs1 0b101 rd 0b0010011
  | .sraiRv64 rd rs1 shamt => iType (0b010000#6 ++ shamt) rs1 0b101 rd 0b0010011
  | .addiw rd rs1 imm => iType imm rs1 0b000 rd 0b0011011
  | .slliw rd rs1 shamt => rType 0b0000000 shamt rs1 0b001 rd 0b0011011
  | .srliw rd rs1 shamt => rType 0b0000000 shamt rs1 0b101 rd 0b0011011
  | .sraiw rd rs1 shamt => rType 0b0100000 shamt rs1 0b101 rd 0b0011011
  | .addw rd rs1 rs2 => rType 0b0000000 rs2 rs1 0b000 rd 0b0111011
  | .subw rd rs1 rs2 => rType 0b0100000 rs2 rs1 0b000 rd 0b0111011
  | .sllw rd rs1 rs2 => rType 0b0000000 rs2 rs1 0b001 rd 0b0111011
  | .srlw rd rs1 rs2 => rType 0b0000000 rs2 rs1 0b101 rd 0b0111011
  | .sraw rd rs1 rs2 => rType 0b0100000 rs2 rs1 0b101 rd 0b0111011
  | .mul rd rs1 rs2 => rType 0b0000001 rs2 rs1 0b000 rd 0b0110011
  | .mulh rd rs1 rs2 => rType 0b0000001 rs2 rs1 0b001 rd 0b0110011
  | .mulhsu rd rs1 rs2 => rType 0b0000001 rs2 rs1 0b010 rd 0b0110011
  | .mulhu rd rs1 rs2 => rType 0b0000001 rs2 rs1 0b011 rd 0b0110011
  | .div rd rs1 rs2 => rType 0b0000001 rs2 rs1 0b100 rd 0b0110011
  | .divu rd rs1 rs2 => rType 0b0000001 rs2 rs1 0b101 rd 0b0110011
  | .rem rd rs1 rs2 => rType 0b0000001 rs2 rs1 0b110 rd 0b0110011
  | .remu rd rs1 rs2 => rType 0b0000001 rs2 rs1 0b111 rd 0b0110011
  | .mulw rd rs1 rs2 => rType 0b0000001 rs2 rs1 0b000 rd 0b0111011
  | .divw rd rs1 rs2 => rType 0b0000001 rs2 rs1 0b100 rd 0b0111011
  | .divuw rd rs1 rs2 => rType 0b0000001 rs2 rs1 0b101 rd 0b0111011
  | .remw rd rs1 rs2 => rType 0b0000001 rs2 rs1 0b110 rd 0b0111011
  | .remuw rd rs1 rs2 => rType 0b0000001 rs2 rs1 0b111 rd 0b0111011
  | .lrW rd rs1 aq rl => amoType 0b00010 aq rl 0 rs1 0b010 rd 0b0101111
  | .scW rd rs1 rs2 aq rl => amoType 0b00011 aq rl rs2 rs1 0b010 rd 0b0101111
  | .amoswapW rd rs1 rs2 aq rl => amoType 0b00001 aq rl rs2 rs1 0b010 rd 0b0101111
  | .amoaddW rd rs1 rs2 aq rl => amoType 0b00000 aq rl rs2 rs1 0b010 rd 0b0101111
  | .amoxorW rd rs1 rs2 aq rl => amoType 0b00100 aq rl rs2 rs1 0b010 rd 0b0101111
  | .amoandW rd rs1 rs2 aq rl => amoType 0b01100 aq rl rs2 rs1 0b010 rd 0b0101111
  | .amoorW rd rs1 rs2 aq rl => amoType 0b01000 aq rl rs2 rs1 0b010 rd 0b0101111
  | .amominW rd rs1 rs2 aq rl => amoType 0b10000 aq rl rs2 rs1 0b010 rd 0b0101111
  | .amomaxW rd rs1 rs2 aq rl => amoType 0b10100 aq rl rs2 rs1 0b010 rd 0b0101111
  | .amominuW rd rs1 rs2 aq rl => amoType 0b11000 aq rl rs2 rs1 0b010 rd 0b0101111
  | .amomaxuW rd rs1 rs2 aq rl => amoType 0b11100 aq rl rs2 rs1 0b010 rd 0b0101111
  | .lrD rd rs1 aq rl => amoType 0b00010 aq rl 0 rs1 0b011 rd 0b0101111
  | .scD rd rs1 rs2 aq rl => amoType 0b00011 aq rl rs2 rs1 0b011 rd 0b0101111
  | .amoswapD rd rs1 rs2 aq rl => amoType 0b00001 aq rl rs2 rs1 0b011 rd 0b0101111
  | .amoaddD rd rs1 rs2 aq rl => amoType 0b00000 aq rl rs2 rs1 0b011 rd 0b0101111
  | .amoxorD rd rs1 rs2 aq rl => amoType 0b00100 aq rl rs2 rs1 0b011 rd 0b0101111
  | .amoandD rd rs1 rs2 aq rl => amoType 0b01100 aq rl rs2 rs1 0b011 rd 0b0101111
  | .amoorD rd rs1 rs2 aq rl => amoType 0b01000 aq rl rs2 rs1 0b011 rd 0b0101111
  | .amominD rd rs1 rs2 aq rl => amoType 0b10000 aq rl rs2 rs1 0b011 rd 0b0101111
  | .amomaxD rd rs1 rs2 aq rl => amoType 0b10100 aq rl rs2 rs1 0b011 rd 0b0101111
  | .amominuD rd rs1 rs2 aq rl => amoType 0b11000 aq rl rs2 rs1 0b011 rd 0b0101111
  | .amomaxuD rd rs1 rs2 aq rl => amoType 0b11100 aq rl rs2 rs1 0b011 rd 0b0101111
  | .flw rd rs1 imm => iType imm rs1 0b010 rd 0b0000111
  | .fsw rs2 rs1 imm => sType imm rs2 rs1 0b010 0b0100111
  | .fmaddS rd rs1 rs2 rs3 rm => r4Type rs3 0b00 rs2 rs1 rm rd 0b1000011
  | .fmsubS rd rs1 rs2 rs3 rm => r4Type rs3 0b00 rs2 rs1 rm rd 0b1000111
  | .fnmsubS rd rs1 rs2 rs3 rm => r4Type rs3 0b00 rs2 rs1 rm rd 0b1001011
  | .fnmaddS rd rs1 rs2 rs3 rm => r4Type rs3 0b00 rs2 rs1 rm rd 0b1001111
  | .faddS rd rs1 rs2 rm => rType 0b0000000 rs2 rs1 rm rd 0b1010011
  | .fsubS rd rs1 rs2 rm => rType 0b0000100 rs2 rs1 rm rd 0b1010011
  | .fmulS rd rs1 rs2 rm => rType 0b0001000 rs2 rs1 rm rd 0b1010011
  | .fdivS rd rs1 rs2 rm => rType 0b0001100 rs2 rs1 rm rd 0b1010011
  | .fsqrtS rd rs1 rm => rType 0b0101100 0b00000 rs1 rm rd 0b1010011
  | .fsgnjS rd rs1 rs2 => rType 0b0010000 rs2 rs1 0b000 rd 0b1010011
  | .fsgnjnS rd rs1 rs2 => rType 0b0010000 rs2 rs1 0b001 rd 0b1010011
  | .fsgnjxS rd rs1 rs2 => rType 0b0010000 rs2 rs1 0b010 rd 0b1010011
  | .fminS rd rs1 rs2 => rType 0b0010100 rs2 rs1 0b000 rd 0b1010011
  | .fmaxS rd rs1 rs2 => rType 0b0010100 rs2 rs1 0b001 rd 0b1010011
  | .fcvtWS rd rs1 rm => rType 0b1100000 0b00000 rs1 rm rd 0b1010011
  | .fcvtWuS rd rs1 rm => rType 0b1100000 0b00001 rs1 rm rd 0b1010011
  | .fmvXW rd rs1 => rType 0b1110000 0b00000 rs1 0b000 rd 0b1010011
  | .feqS rd rs1 rs2 => rType 0b1010000 rs2 rs1 0b010 rd 0b1010011
  | .fltS rd rs1 rs2 => rType 0b1010000 rs2 rs1 0b001 rd 0b1010011
  | .fleS rd rs1 rs2 => rType 0b1010000 rs2 rs1 0b000 rd 0b1010011
  | .fclassS rd rs1 => rType 0b1110000 0b00000 rs1 0b001 rd 0b1010011
  | .fcvtSW rd rs1 rm => rType 0b1101000 0b00000 rs1 rm rd 0b1010011
  | .fcvtSWu rd rs1 rm => rType 0b1101000 0b00001 rs1 rm rd 0b1010011
  | .fmvWX rd rs1 => rType 0b1111000 0b00000 rs1 0b000 rd 0b1010011
  | .fcvtLS rd rs1 rm => rType 0b1100000 0b00010 rs1 rm rd 0b1010011
  | .fcvtLuS rd rs1 rm => rType 0b1100000 0b00011 rs1 rm rd 0b1010011
  | .fcvtSL rd rs1 rm => rType 0b1101000 0b00010 rs1 rm rd 0b1010011
  | .fcvtSLu rd rs1 rm => rType 0b1101000 0b00011 rs1 rm rd 0b1010011
  | .fld rd rs1 imm => iType imm rs1 0b011 rd 0b0000111
  | .fsd rs2 rs1 imm => sType imm rs2 rs1 0b011 0b0100111
  | .fmaddD rd rs1 rs2 rs3 rm => r4Type rs3 0b01 rs2 rs1 rm rd 0b1000011
  | .fmsubD rd rs1 rs2 rs3 rm => r4Type rs3 0b01 rs2 rs1 rm rd 0b1000111
  | .fnmsubD rd rs1 rs2 rs3 rm => r4Type rs3 0b01 rs2 rs1 rm rd 0b1001011
  | .fnmaddD rd rs1 rs2 rs3 rm => r4Type rs3 0b01 rs2 rs1 rm rd 0b1001111
  | .faddD rd rs1 rs2 rm => rType 0b0000001 rs2 rs1 rm rd 0b1010011
  | .fsubD rd rs1 rs2 rm => rType 0b0000101 rs2 rs1 rm rd 0b1010011
  | .fmulD rd rs1 rs2 rm => rType 0b0001001 rs2 rs1 rm rd 0b1010011
  | .fdivD rd rs1 rs2 rm => rType 0b0001101 rs2 rs1 rm rd 0b1010011
  | .fsqrtD rd rs1 rm => rType 0b0101101 0b00000 rs1 rm rd 0b1010011
  | .fsgnjD rd rs1 rs2 => rType 0b0010001 rs2 rs1 0b000 rd 0b1010011
  | .fsgnjnD rd rs1 rs2 => rType 0b0010001 rs2 rs1 0b001 rd 0b1010011
  | .fsgnjxD rd rs1 rs2 => rType 0b0010001 rs2 rs1 0b010 rd 0b1010011
  | .fminD rd rs1 rs2 => rType 0b0010101 rs2 rs1 0b000 rd 0b1010011
  | .fmaxD rd rs1 rs2 => rType 0b0010101 rs2 rs1 0b001 rd 0b1010011
  | .fcvtSD rd rs1 rm => rType 0b0100000 0b00001 rs1 rm rd 0b1010011
  | .fcvtDS rd rs1 rm => rType 0b0100001 0b00000 rs1 rm rd 0b1010011
  | .feqD rd rs1 rs2 => rType 0b1010001 rs2 rs1 0b010 rd 0b1010011
  | .fltD rd rs1 rs2 => rType 0b1010001 rs2 rs1 0b001 rd 0b1010011
  | .fleD rd rs1 rs2 => rType 0b1010001 rs2 rs1 0b000 rd 0b1010011
  | .fclassD rd rs1 => rType 0b1110001 0b00000 rs1 0b001 rd 0b1010011
  | .fcvtWD rd rs1 rm => rType 0b1100001 0b00000 rs1 rm rd 0b1010011
  | .fcvtWuD rd rs1 rm => rType 0b1100001 0b00001 rs1 rm rd 0b1010011
  | .fcvtDW rd rs1 rm => rType 0b1101001 0b00000 rs1 rm rd 0b1010011
  | .fcvtDWu rd rs1 rm => rType 0b1101001 0b00001 rs1 rm rd 0b1010011
  | .fcvtLD rd rs1 rm => rType 0b1100001 0b00010 rs1 rm rd 0b1010011
  | .fcvtLuD rd rs1 rm => rType 0b1100001 0b00011 rs1 rm rd 0b1010011
  | .fmvXD rd rs1 => rType 0b1110001 0b00000 rs1 0b000 rd 0b1010011
  | .fcvtDL rd rs1 rm => rType 0b1101001 0b00010 rs1 rm rd 0b1010011
  | .fcvtDLu rd rs1 rm => rType 0b1101001 0b00011 rs1 rm rd 0b1010011
  | .fmvDX rd rs1 => rType 0b1111001 0b00000 rs1 0b000 rd 0b1010011

/-- `ilen` of an instruction (R101). -/
def Instr.length (i : Instr) : Nat := i.encode.length

/-- The bytes of an instruction (R63, R64). -/
def Instr.bytes (i : Instr) : List Byte := i.encode.bytes

/-! ### The host's question -/

/-- The little-endian bytes of the low `8 * n` bits of `w` (R64). -/
def bytesOfNat : Nat → Nat → List Byte
  | 0, _ => []
  | n + 1, w => BitVec.ofNat 8 w :: bytesOfNat n (w / 256)

/-- A configuration with every extension at the given XLEN, for decoding only. -/
def Config.full (x : Xlen) : Config where
  xlen := x
  extC := .present
  extM := true
  extA := true
  extF := true
  extD := true
  flen := .f64
  ialign := .i16
  ilen := .i32
  resetPc := 0
  memMap := []
  misaligned := .trap
  reserved := .illegal
  unlisted := .illegal
  scMayFail := true
  reservationGranule := 8
  fminmax := .ieee201x
  counterRead := .monotoneDraw
  nharts := .one
  causeNumbers := .privileged

/-- The four bytes of the table's word: the low `nbits` bits of `w`, zeros above. -/
def tableBytes (nbits w : Nat) : List Byte := bytesOfNat 4 (w % 2 ^ nbits)

/-- The instruction the decoder reads from a table row's word: at XLEN = 64, else 32, else 128
(`notes/assumptions/13.md`: nine pairs of rows have the same bits and XLEN selects). -/
def decodeTableWord (nbits w : Nat) : Option Instr :=
  match decode (Config.full .rv64) (tableBytes nbits w) with
  | .instr i => some i
  | .bad _ =>
    match decode (Config.full .rv32) (tableBytes nbits w) with
    | .instr i => some i
    | .bad _ =>
      match decode (Config.full .rv128) (tableBytes nbits w) with
      | .instr i => some i
      | .bad _ => none

end Sys2Proof
end

