-- ==== Sys2Proof/Machine/State.lean ====
section
/-! DEFINITION. The state of the machine (R20 of 10_state.md), the reasons a step stops, and the state after
reset (R50, R651). -/

namespace Sys2Proof.Machine

/-- The exceptions of R601, with the privileged architecture's names. -/
inductive Cause where
  /-- Code 0: listed for completeness; nothing raises it, since every target is even (R602, D29). -/
  | instructionAddressMisaligned
  /-- Code 1: raised by the fetch of a parcel that `MemMap` does not allow (R603). -/
  | instructionAccessFault
  /-- Code 2: raised by the decoder, CSR instructions and invalid rounding modes (R604). -/
  | illegalInstruction
  /-- Code 3: raised by EBREAK and C.EBREAK (R605). -/
  | breakpoint
  /-- Code 4: raised by a misaligned load or LR (R606). -/
  | loadAddressMisaligned
  /-- Code 5: raised by a load or LR that `MemMap` does not allow (R607). -/
  | loadAccessFault
  /-- Code 6: raised by a misaligned store, SC or AMO (R608). -/
  | storeAmoAddressMisaligned
  /-- Code 7: raised by a store, SC or AMO that `MemMap` does not allow (R609). -/
  | storeAmoAccessFault
  /-- Code 8: raised by ECALL (R611). -/
  | environmentCall
  deriving DecidableEq, Repr

/-- The number of an exception under the parameter of R7: the informative numbering of R601 (D7). -/
def Cause.code : CauseNumbers → Cause → Nat
  | .privileged, .instructionAddressMisaligned => 0
  | .privileged, .instructionAccessFault => 1
  | .privileged, .illegalInstruction => 2
  | .privileged, .breakpoint => 3
  | .privileged, .loadAddressMisaligned => 4
  | .privileged, .loadAccessFault => 5
  | .privileged, .storeAmoAddressMisaligned => 6
  | .privileged, .storeAmoAccessFault => 7
  | .privileged, .environmentCall => 8

/-- How a step ends a run. -/
inductive Fault where
  /-- `Trap(E, info, pc)`: raised by fetch, decode and instructions through `raise`. It is the spec's own result of
  such a step: the instruction has written nothing and the run ends (R610, R613). Safe: the spec gives the machine
  nothing to do afterwards. -/
  | trap (cause : Cause) (info : Word) (pc : Word)
  deriving DecidableEq, Repr

/-- Why the model gives a step no meaning. -/
inductive Refusal where
  /-- An instruction without a meaning yet: no arm of `exec` answers it. Safe. -/
  | notModelled (mnemonic : String)
  /-- A fetch that touches a byte stored to since the last FENCE.I: "refused" by R86 (U18, D16). Raised by the
  fetch procedure. Safe. -/
  | dirtyFetch
  /-- An instruction or data access whose bytes straddle the top of the address space: "refused" by R27 and R64
  (U19, D24). Raised by the fetch procedure and by memory accesses. Safe. -/
  | wrapsAddressSpace
  /-- A step with XLEN = 128: "a model must refuse to execute with XLEN = 128" (D1, U21). Raised by `step`. Safe. -/
  | rv128Execution
  deriving DecidableEq, Repr

/-- The width of an LR, SC or AMO access (R410). -/
inductive AtomicWidth where
  | word
  | double
  deriving DecidableEq, Repr

/-- The width in bytes: 4 or 8 (R45). -/
def AtomicWidth.bytes : AtomicWidth → Nat
  | .word => 4
  | .double => 8

/-- A load reservation: the (address, size) pair of R45. -/
structure Reservation where
  addr : Word
  width : AtomicWidth
  deriving DecidableEq, Repr

/-- The whole state (R20) with the launch parameters (R7). -/
structure State where
  /-- The parameters of R7; no step changes them. -/
  cfg : Config
  /-- x0 to x31, XLEN live bits each (R21). -/
  x : Vector Word 32
  /-- The address of the instruction being executed, XLEN live bits (R26). -/
  pc : Word
  /-- f0 to f31, FLEN live bits each (R30). -/
  f : Vector FWord 32
  /-- frm in bits 7:5, NV DZ OF UF NX in bits 4:0 (R38-R40). -/
  fcsr : BitVec 8
  /-- The counter behind CSRs cycle and cycleh (R41, R42): the value its last draw gave. -/
  cycle : BitVec 64
  /-- The counter behind CSRs time and timeh (R41, R42). -/
  time : BitVec 64
  /-- The counter behind CSRs instret and instreth (R41, R42). -/
  instret : BitVec 64
  /-- The load reservation (R45). -/
  resv : Option Reservation
  /-- The byte addresses stored to since the last FENCE.I, strictly rising (R86). -/
  dirty : List Nat
  /-- The bytes of memory that were written, addresses strictly rising (R60). -/
  mem : List Host.Cell
  /-- The model's own: how many free values were drawn so far (`notes/assumptions/8.md`). -/
  draws : Nat
  deriving DecidableEq, Repr

/-- The outcome of a step or of an instruction. -/
abbrev Result := Host.Outcome State Fault Refusal

/-- The launch parameters at reset: the spec's values where it fixes them (R7), a choice for those it leaves OPEN:
XLEN, RESET_PC, MemMap, reservation_granule (`notes/assumptions/4.md`). -/
def resetConfig : Config where
  xlen := .rv64
  extC := .present
  extM := true
  extA := true
  extF := true
  extD := true
  flen := .f64
  ialign := .i16
  ilen := .i32
  resetPc := 0x1000
  memMap := [Region.ofSize 0 (2 ^ 128)]
  misaligned := .trap
  reserved := .illegal
  unlisted := .illegal
  scMayFail := true
  reservationGranule := 8
  fminmax := .ieee201x
  counterRead := .monotoneDraw
  nharts := .one
  causeNumbers := .privileged

/-- The machine right after reset (R50, R651). The registers the spec leaves unspecified ("never zero") hold the
named values of `notes/assumptions/5.md`. -/
def State.reset : State where
  cfg := resetConfig
  x := (Vector.replicate 32 0xa5a5a5a0#128).set 0 0
  pc := resetConfig.resetPc
  f := Vector.replicate 32 0x7ff00000deadbeef#64
  fcsr := 0x3f
  cycle := 1
  time := 1
  instret := 1
  resv := none
  dirty := []
  mem := []
  draws := 0

end Sys2Proof.Machine
end

