-- ==== Sys2Proof/Machine/Memory.lean ====
section
/-! DEFINITION. Memory as a list of (address, byte) pairs in one canonical form: addresses strictly rising. An
address that is not listed holds no byte that was ever written (`none`), so no listed entry equals what an unlisted
address holds; reading it gives the free value of R50 and D32 (`notes/assumptions/6.md`). The `dirty` set of R86 is a
list of addresses in the same order. -/

namespace Sys2Proof.Machine

/-- The byte written at `a`, if any. -/
def Memory.lookup : List Host.Cell → Nat → Option Byte
  | [], _ => none
  | (k, b) :: m, a => if a = k then some b else if a < k then none else Memory.lookup m a

/-- Write one byte. -/
def Memory.insert : List Host.Cell → Nat → Byte → List Host.Cell
  | [], a, v => [(a, v)]
  | (k, b) :: m, a, v =>
    if a < k then (a, v) :: (k, b) :: m
    else if a = k then (a, v) :: m
    else (k, b) :: Memory.insert m a v

/-- The canonical form: addresses strictly rising. -/
def Memory.wf : List Host.Cell → Bool
  | [] => true
  | [_] => true
  | (a, _) :: (b, v) :: m => decide (a < b) && Memory.wf ((b, v) :: m)

/-- What a read of the byte at `a` returns: the last value written (R61), or the unspecified one (R50). -/
def Memory.readByte (m : List Host.Cell) (a : Nat) : Byte := (Memory.lookup m a).getD (Config.unwrittenByte a)

/-- MemRead(a, n): little-endian (R64). -/
def Memory.read (m : List Host.Cell) : (n a : Nat) → BitVec (8 * n)
  | 0, _ => 0#0
  | n + 1, a => Memory.read m n (a + 1) ++ Memory.readByte m a

/-- MemWrite(a, n, v): the low n bytes of `v`, little-endian (R64). -/
def Memory.write (m : List Host.Cell) : (n a : Nat) → Word → List Host.Cell
  | 0, _, _ => m
  | n + 1, a, v => Memory.insert (Memory.write m n (a + 1) (v >>> 8)) a (v.setWidth 8)

/-- Add one address to a set of addresses. -/
def AddrSet.insert : List Nat → Nat → List Nat
  | [], a => [a]
  | k :: m, a => if a < k then a :: k :: m else if a = k then k :: m else k :: AddrSet.insert m a

/-- Add the n addresses from `a` (R86). -/
def AddrSet.insertRange (d : List Nat) : (n a : Nat) → List Nat
  | 0, _ => d
  | n + 1, a => AddrSet.insert (AddrSet.insertRange d n (a + 1)) a

/-- The canonical form of a set of addresses: strictly rising. -/
def AddrSet.wf : List Nat → Bool
  | [] => true
  | [_] => true
  | a :: b :: m => decide (a < b) && AddrSet.wf (b :: m)

/-- Some address of the set is one of the n addresses from `a`. -/
def AddrSet.touches (d : List Nat) (n a : Nat) : Bool := d.any fun k => decide (a ≤ k) && decide (k < a + n)

/-- The widths that accesses of this kind may have in a region. -/
def regionWidths (r : Region) : Access → List Nat
  | .fetch => r.fetch
  | .load => r.load
  | .store => r.store
  | .amo => r.amo

/-- MemMap.valid(addr, n, kind): some region holds the n bytes and allows this kind of access at this width (R61,
`notes/assumptions/7.md`). -/
def memMapValid (rs : List Region) (kind : Access) (n a : Nat) : Bool :=
  rs.any fun r => decide (r.base ≤ a) && decide (a + n ≤ r.base + r.size) && (regionWidths r kind).contains n

end Sys2Proof.Machine
end

