-- ==== Sys2Proof/Machine/Operands.lean ====
section
/-! DEFINITION. Operands: the integer and floating-point register files at their live widths (R21, R30, R31),
primed registers (R23), immediates (R113, R116), shift amounts (R128, R339, R361) and pc (R26). -/

namespace Sys2Proof.Machine

/-- XLEN as a number of bits (R7). -/
def State.width (s : State) : Nat := s.cfg.xlen.bits

/-! ### Integer registers and pc -/

/-- The integer register that a primed field names: x(8+n) (R23). -/
def primed (r : CReg) : Reg := 0b01#2 ++ r

/-- Read register r at w bits: x0 reads as zero (R21). -/
def State.getX (s : State) (w : Nat) (r : Reg) : BitVec w :=
  if r = 0 then 0 else (s.x[r.toNat]'r.isLt).setWidth w

/-- `x[r]` at XLEN bits (R11, R21). -/
def State.rx (s : State) (r : Reg) : BitVec s.width := s.getX s.width r

/-- `x[r] <- v`: a write to x0 is discarded (R21, R300). -/
def State.setX (s : State) (r : Reg) {w : Nat} (v : BitVec w) : State :=
  if r = 0 then s else { s with x := s.x.set r.toNat (v.setWidth 128) r.isLt }

/-- pc at w bits (R26). -/
def State.getPc (s : State) (w : Nat) : BitVec w := s.pc.setWidth w

/-- pc at XLEN bits (R26). -/
def State.rpc (s : State) : BitVec s.width := s.getPc s.width

/-- `pc <- t` (R11). -/
def State.setPc (s : State) {w : Nat} (t : BitVec w) : State := { s with pc := t.setWidth 128 }

/-! ### Floating-point registers -/

/-- Read f[r] whole: a double (R502) or a cell that holds a boxed single (R31). -/
def State.getF (s : State) (r : Reg) : FWord := s.f[r.toNat]'r.isLt

/-- Write f[r] whole. -/
def State.setF (s : State) (r : Reg) (v : FWord) : State := { s with f := s.f.set r.toNat v r.isLt }

/-- `box` (R31): the upper 32 bits all ones when FLEN = 64; with FLEN = 32 the identity on the live bits. -/
def box (c : Config) (v : Single) : FWord :=
  match c.flen with
  | .f64 => 0xffffffff#32 ++ v
  | .f32 => v.setWidth 64

/-- `unbox` (R31): the canonical NaN when the box is broken; with FLEN = 32 there is no box. -/
def unbox (c : Config) (v : FWord) : Single :=
  match c.flen with
  | .f64 => if v.extractLsb 63 32 = 0xffffffff#32 then v.extractLsb 31 0 else 0x7fc00000#32
  | .f32 => v.extractLsb 31 0

/-- A single-precision operand of an arithmetic instruction: `unbox(f[r])` (R455). -/
def State.getSingle (s : State) (r : Reg) : Single := unbox s.cfg (s.getF r)

/-- f[r][31:0] without a box check, for FSW and FMV.X.W (R31). -/
def State.getSingleBits (s : State) (r : Reg) : Single := (s.getF r).extractLsb 31 0

/-- `f[r] <- box(v)` (R455). -/
def State.setSingle (s : State) (r : Reg) (v : Single) : State := s.setF r (box s.cfg v)

/-! ### Immediates -/

/-- The immediate whose encoded bits are `i` above `z` zero bits, sign-extended to w bits (R113, R116). -/
def signedImm (w : Nat) {k : Nat} (i : BitVec k) (z : Nat) : BitVec w := (i ++ 0#z).signExtend w

/-- The same, zero-extended (R113). -/
def unsignedImm (w : Nat) {k : Nat} (i : BitVec k) (z : Nat) : BitVec w := (i ++ 0#z).setWidth w

/-- "sext_32" of a W form: the 32-bit result sign-extended to XLEN (R360). -/
def sextWord (w : Nat) (v : BitVec 32) : BitVec w := v.signExtend w

/-- A truth value as a register value: 1 or 0. -/
def boolValue (w : Nat) (b : Bool) : BitVec w := if b then 1 else 0

/-! ### Shift amounts -/

/-- The low bits of a register that give a shift amount: 5, 6 (R339, R361) or 7 for XLEN 32, 64 or 128. -/
def regShamt (x : Xlen) {w : Nat} (v : BitVec w) : Nat :=
  match x with
  | .rv32 => (v.setWidth 5).toNat
  | .rv64 => (v.setWidth 6).toNat
  | .rv128 => (v.setWidth 7).toNat

/-- The shift amount that the 6-bit field of C.SLLI, C.SRLI, C.SRAI encodes (R113, R128): the field itself, but for
XLEN = 128, where 0 means 64 and 32..63 mean 96..127. -/
def rvcShamt (x : Xlen) (field : BitVec 6) : Nat :=
  match x with
  | .rv32 => field.toNat
  | .rv64 => field.toNat
  | .rv128 => if field = 0 then 64 else (field.signExtend 7).toNat

end Sys2Proof.Machine
end

