-- ==== Sys2Proof/Machine/Flags.lean ====
section
/-! DEFINITION. The floating-point status: the accrued flags (R38, R453), the rounding mode (R39, R452) and the
nine CSRs as windows on the state (R37-R43). The machine has no integer condition codes (R28). -/

namespace Sys2Proof.Machine

/-- A set of accrued flags in the layout of fflags (R38). -/
abbrev FpFlags := BitVec 5

/-- Invalid operation. -/
def flagNV : FpFlags := 0x10
/-- Divide by zero. -/
def flagDZ : FpFlags := 0x08
/-- Overflow. -/
def flagOF : FpFlags := 0x04
/-- Underflow. -/
def flagUF : FpFlags := 0x02
/-- Inexact. -/
def flagNX : FpFlags := 0x01

/-- The five rounding modes (R39). -/
inductive RoundingMode where
  | rne
  | rtz
  | rdn
  | rup
  | rmm
  deriving DecidableEq, Repr

/-- The accrued flags (R38). -/
def State.fflags (s : State) : FpFlags := s.fcsr.extractLsb 4 0

/-- The dynamic rounding mode field (R39). -/
def State.frm (s : State) : RmField := s.fcsr.extractLsb 7 5

/-- Write fcsr from its two fields (R40). -/
def State.setFcsr (s : State) (frm : RmField) (fl : FpFlags) : State := { s with fcsr := frm ++ fl }

/-- OR new flags into fflags; none is ever cleared here (R38, R453). -/
def State.accrue (s : State) (fl : FpFlags) : State := s.setFcsr s.frm (s.fflags ||| fl)

/-- A field value that is a rounding mode; 101, 110 and 111 are not (R39). -/
def decodeMode (v : RmField) : Option RoundingMode :=
  match v with
  | 0b000 => some .rne
  | 0b001 => some .rtz
  | 0b010 => some .rdn
  | 0b011 => some .rup
  | 0b100 => some .rmm
  | _ => none

/-- `resolve_rm` (R452): 111 takes frm; `none` is the IllegalInstruction case. -/
def resolveMode (rm frm : RmField) : Option RoundingMode := if rm = 0b111 then decodeMode frm else decodeMode rm

/-! ### CSRs -/

/-- The nine CSRs (R37). -/
inductive Csr where
  | fflags
  | frm
  | fcsr
  | cycle
  | time
  | instret
  | cycleh
  | timeh
  | instreth
  deriving DecidableEq, Repr

/-- The CSR that a number names under a configuration (R37, R43): the floating-point CSRs need F, the upper halves
XLEN = 32. -/
def csrOf (c : Config) (n : CsrNum) : Option Csr :=
  match n with
  | 0x001 => if c.extF then some .fflags else none
  | 0x002 => if c.extF then some .frm else none
  | 0x003 => if c.extF then some .fcsr else none
  | 0xC00 => some .cycle
  | 0xC01 => some .time
  | 0xC02 => some .instret
  | 0xC80 => if c.xlen = .rv32 then some .cycleh else none
  | 0xC81 => if c.xlen = .rv32 then some .timeh else none
  | 0xC82 => if c.xlen = .rv32 then some .instreth else none
  | _ => none

/-- The access column of R37. -/
def Csr.readOnly : Csr → Bool
  | .fflags | .frm | .fcsr => false
  | .cycle | .time | .instret | .cycleh | .timeh | .instreth => true

/-- A draw of a counter under `counter_read`: some value not below the last one (R41, D17,
`notes/assumptions/8.md`). -/
def counterDraw (c : CounterRead) (draws : Nat) (last : BitVec 64) : BitVec 64 :=
  match c with
  | .monotoneDraw => BitVec.ofNat 64 (min (last.toNat + (Config.counterAdvance draws).toNat) (2 ^ 64 - 1))

/-- The state after the draw of a counter read; a read of a floating-point CSR has no side effect (R305). -/
def State.csrDraw (s : State) : Csr → State
  | .fflags | .frm | .fcsr => s
  | .cycle | .cycleh => { s with cycle := counterDraw s.cfg.counterRead s.draws s.cycle, draws := s.draws + 1 }
  | .time | .timeh => { s with time := counterDraw s.cfg.counterRead s.draws s.time, draws := s.draws + 1 }
  | .instret | .instreth => { s with instret := counterDraw s.cfg.counterRead s.draws s.instret, draws := s.draws + 1 }

/-- The value in a CSR at w bits, zero-extended (R37-R42); a counter after its draw. -/
def State.csrValue (s : State) (w : Nat) : Csr → BitVec w
  | .fflags => s.fflags.setWidth w
  | .frm => s.frm.setWidth w
  | .fcsr => s.fcsr.setWidth w
  | .cycle => s.cycle.setWidth w
  | .time => s.time.setWidth w
  | .instret => s.instret.setWidth w
  | .cycleh => (s.cycle.extractLsb 63 32).setWidth w
  | .timeh => (s.time.extractLsb 63 32).setWidth w
  | .instreth => (s.instret.extractLsb 63 32).setWidth w

/-- `CSR[n] <- v`: the low bits of v (R37-R40). A read-only CSR is never written (R305). -/
def State.csrWrite (s : State) {w : Nat} (v : BitVec w) : Csr → State
  | .fflags => s.setFcsr s.frm (v.setWidth 5)
  | .frm => s.setFcsr (v.setWidth 3) s.fflags
  | .fcsr => { s with fcsr := v.setWidth 8 }
  | .cycle | .time | .instret | .cycleh | .timeh | .instreth => s

end Sys2Proof.Machine
end

