-- ==== Sys2Proof/Machine/Ops.lean ====
section
/-! DEFINITION. The shared operations the meanings are made of: raising an exception (R610), completing an
instruction (R12), control transfer (R304), memory access with its checks (R64-R69), loads, stores, atomics (R412-R414)
and CSR access (R305). -/

namespace Sys2Proof.Machine

/-! ### Taking an exception -/

/-- `raise E(info)` (R610): the step's result is Trap(E, info, pc); nothing is written and the run ends. There is no
handler, saved register or return (R614, R615). -/
def raise (e : Cause) (info : Word) (s : State) : Result := .fault (.trap e info s.pc)

/-- IllegalInstruction with the instruction's own bits as info (R601, R604). -/
def raiseIllegal (i : Instr) (s : State) : Result := raise .illegalInstruction i.encode.info s

/-- What a reserved, non-standard, custom or unlisted encoding with these bits does: `reserved_policy` (R7, R118, R132,
D8). -/
def reservedEncoding (info : Word) (s : State) : Result :=
  match s.cfg.reserved with
  | .illegal => raise .illegalInstruction info s

/-- Run `k` when `i` is an instruction of this configuration; otherwise its bits are an illegal encoding (R114, R118,
R132; `notes/assumptions/15.md`). -/
def onRow (i : Instr) (s : State) (k : Result) : Result := if i.wellFormed s.cfg then k else raiseIllegal i s

/-! ### Completing -/

/-- `pc <- pc + n` modulo 2^XLEN (R12, R27). -/
def State.advance (s : State) (n : Nat) : State := s.setPc (s.rpc + BitVec.ofNat s.width n)

/-- Complete without another effect: `nop` for an instruction of n bytes (R11, R12). -/
def complete (n : Nat) (s : State) : Result := .next (s.advance n)

/-- Complete with `x[rd] <- v` (R12, R21). -/
def completeX (n : Nat) (rd : Reg) {w : Nat} (v : BitVec w) (s : State) : Result :=
  .next ((s.setX rd v).advance n)

/-- Complete with `f[rd] <- v` for a double (R502). -/
def completeD (n : Nat) (rd : Reg) (v : Double) (s : State) : Result := .next ((s.setF rd v).advance n)

/-- Complete with `f[rd] <- box(v)` for a single (R455). -/
def completeS (n : Nat) (rd : Reg) (v : Single) (s : State) : Result := .next ((s.setSingle rd v).advance n)

/-- Jump to `t` after `x[rd] <- pc + n`; the target was computed from the old registers (R304). -/
def jumpLink (n : Nat) (rd : Reg) {w : Nat} (t : BitVec w) (s : State) : Result :=
  .next ((s.setX rd (s.rpc + BitVec.ofNat s.width n)).setPc t)

/-- Jump to `t` without a link. -/
def jump {w : Nat} (t : BitVec w) (s : State) : Result := .next (s.setPc t)

/-- Clear bit 0 of a register-indirect target (R304). -/
def evenTarget {w : Nat} (t : BitVec w) : BitVec w := t &&& ~~~1

/-- A conditional branch of an n-byte instruction (R304). -/
def branch (n : Nat) (taken : Bool) (s : State) (offset : BitVec s.width) : Result :=
  if taken then jump (s.rpc + offset) s else complete n s

/-! ### Memory access -/

/-- The exception of a misaligned access (R66, R69). -/
def misalignedCause : Access → Cause
  | .load => .loadAddressMisaligned
  | .store | .amo => .storeAmoAddressMisaligned
  | .fetch => .instructionAddressMisaligned

/-- The exception of an access that `MemMap` does not allow (R66, R603). -/
def accessFaultCause : Access → Cause
  | .load => .loadAccessFault
  | .store | .amo => .storeAmoAccessFault
  | .fetch => .instructionAccessFault

/-- `MemMap.valid(a, n, kind)` (R61). -/
def State.memValid (s : State) (kind : Access) (n a : Nat) : Bool := memMapValid s.cfg.memMap kind n a

/-- The checks of an n-byte data access at `a`, in their order: misaligned (R66, R67; always, when `strict`, R69),
wrapping the top of the address space (R64), not valid (R66). Then `k`. -/
def access (kind : Access) (strict : Bool) (n a : Nat) (s : State) (k : Result) : Result :=
  if a % n ≠ 0 ∧ (strict = true ∨ s.cfg.misaligned = .trap) then raise (misalignedCause kind) (BitVec.ofNat 128 a) s
  else if 2 ^ s.width < a + n then .refused .wrapsAddressSpace
  else if s.memValid kind n a = false then raise (accessFaultCause kind) (BitVec.ofNat 128 a) s
  else k

/-- The bytes from `a` to `a + n` overlap the reserved ones (R413). -/
def overlaps (r : Reservation) (n a : Nat) : Bool :=
  decide (a < r.addr.toNat + r.width.bytes) && decide (r.addr.toNat < a + n)

/-- The reservation after a store to n bytes at `a` (R413). -/
def resvAfterStore (r : Option Reservation) (n a : Nat) : Option Reservation :=
  match r with
  | some r => if overlaps r n a then none else some r
  | none => none

/-- The effect of a store: the bytes (R64), the `dirty` set (R86), the reservation (R413). -/
def State.storeBytes (s : State) (n a : Nat) (v : Word) : State :=
  { s with
    mem := Memory.write s.mem n a v
    dirty := AddrSet.insertRange s.dirty n a
    resv := resvAfterStore s.resv n a }

/-- An n-byte load whose value goes to `k` (R302). -/
def load (n : Nat) {w : Nat} (a : BitVec w) (s : State) (k : BitVec (8 * n) → Result) : Result :=
  access .load false n a.toNat s (k (Memory.read s.mem n a.toNat))

/-- An n-byte store by an instruction of `len` bytes (R303). -/
def store (len n : Nat) {w v : Nat} (a : BitVec w) (value : BitVec v) (s : State) : Result :=
  access .store false n a.toNat s (.next ((s.storeBytes n a.toNat (value.setWidth 128)).advance len))

/-! ### Atomics -/

/-- LR (R420, R431): load, sign-extend, reserve. -/
def loadReserve (wd : AtomicWidth) (rd rs1 : Reg) (s : State) : Result :=
  let a := s.rx rs1
  access .load true wd.bytes a.toNat s
    (completeX 4 rd ((Memory.read s.mem wd.bytes a.toNat).signExtend s.width)
      { s with resv := some { addr := a.setWidth 128, width := wd } })

/-- The reservation matches and the draw does not fail the SC (R413, D18). -/
def scSucceeds (s : State) (wd : AtomicWidth) (a : Word) : Bool :=
  decide (s.resv = some { addr := a, width := wd }) && !(s.cfg.scMayFail && Config.scSpurious s.draws)

/-- SC (R421, R432): store and 0 on success, 1 on failure; the reservation ends in both cases. -/
def storeConditional (wd : AtomicWidth) (rd rs1 rs2 : Reg) (s : State) : Result :=
  let a := s.rx rs1
  access .amo true wd.bytes a.toNat s
    (.next
      (let ok := scSucceeds s wd (a.setWidth 128)
       let t := if ok then s.storeBytes wd.bytes a.toNat ((s.rx rs2).setWidth 128) else s
       ({ t with resv := none, draws := s.draws + 1 }.setX rd (boolValue s.width !ok)).advance 4))

/-- AMO (R414): one read-modify-write; rd receives the old value, sign-extended. -/
def amo (wd : AtomicWidth) (rd rs1 rs2 : Reg)
    (op : BitVec (8 * wd.bytes) → BitVec (8 * wd.bytes) → BitVec (8 * wd.bytes)) (s : State) : Result :=
  let a := (s.rx rs1).toNat
  let t := Memory.read s.mem wd.bytes a
  access .amo true wd.bytes a s
    (completeX 4 rd (t.signExtend s.width)
      (s.storeBytes wd.bytes a ((op t ((s.rx rs2).setWidth (8 * wd.bytes))).setWidth 128)))

/-! ### CSR access -/

/-- The steps of R305 for the CSR instruction `i`: existence, write permission, draw, read, write, `x[rd]`. `new` gives
the value written from the value read. -/
def csrAccess (i : Instr) (n : CsrNum) (rd : Reg) (reads writes : Bool)
    (s : State) (new : BitVec s.width → BitVec s.width) : Result :=
  match csrOf s.cfg n with
  | none => raiseIllegal i s
  | some c =>
    if writes && c.readOnly then raiseIllegal i s
    else
      let r := if reads then s.csrDraw c else s
      let t := r.csrValue s.width c
      .next (((if writes then r.csrWrite (new t) c else r).setX rd t).advance 4)

/-! ### Floating point -/

/-- Resolve the rounding mode of `i` before anything is read or written (R452). -/
def withMode (i : Instr) (rm : RmField) (s : State) (k : RoundingMode → Result) : Result :=
  match resolveMode rm s.frm with
  | some m => k m
  | none => raiseIllegal i s

/-- Complete with a single result and its flags (R456). -/
def completeFpS (rd : Reg) (r : Single × FpFlags) (s : State) : Result :=
  completeS 4 rd r.1 (s.accrue r.2)

/-- Complete with a double result and its flags (R456, R502). -/
def completeFpD (rd : Reg) (r : Double × FpFlags) (s : State) : Result :=
  completeD 4 rd r.1 (s.accrue r.2)

/-- Complete with an integer result and flags (R476-R482, R490). -/
def completeFpX (rd : Reg) {w : Nat} (v : BitVec w) (fl : FpFlags) (s : State) : Result :=
  completeX 4 rd v (s.accrue fl)

end Sys2Proof.Machine
end

