-- ==== Sys2Proof/Machine/Atomic.lean ====
section
/-! DEFINITION. The A extension (46_rv_a.md, R410-R441). The aq and rl bits change no state and no result with one hart (R411). -/

namespace Sys2Proof.Machine

/-- LR.W (R420): x[rd] <- sext(MemRead(x[rs1], 4)); resv <- (x[rs1], 4). -/
def execLrW (rd rs1 : Reg) (aq rl : Bool) (s : State) : Result :=
  onRow (.lrW rd rs1 aq rl) s (loadReserve .word rd rs1 s)

/-- SC.W (R421): if resv = (x[rs1], 4) and no spurious failure then store and x[rd] <- 0 else x[rd] <- 1; resv <- none. -/
def execScW (rd rs1 rs2 : Reg) (aq rl : Bool) (s : State) : Result :=
  onRow (.scW rd rs1 rs2 aq rl) s (storeConditional .word rd rs1 rs2 s)

/-- AMOSWAP.W (R422): R414 with n = 4 and op(t, src) = src. -/
def execAmoswapW (rd rs1 rs2 : Reg) (aq rl : Bool) (s : State) : Result :=
  onRow (.amoswapW rd rs1 rs2 aq rl) s (amo .word rd rs1 rs2 (fun _ src => src) s)

/-- AMOADD.W (R423): R414 with n = 4 and op(t, src) = t + src. -/
def execAmoaddW (rd rs1 rs2 : Reg) (aq rl : Bool) (s : State) : Result :=
  onRow (.amoaddW rd rs1 rs2 aq rl) s (amo .word rd rs1 rs2 (fun t src => t + src) s)

/-- AMOXOR.W (R424): R414 with n = 4 and op(t, src) = t ^ src. -/
def execAmoxorW (rd rs1 rs2 : Reg) (aq rl : Bool) (s : State) : Result :=
  onRow (.amoxorW rd rs1 rs2 aq rl) s (amo .word rd rs1 rs2 (fun t src => t ^^^ src) s)

/-- AMOAND.W (R425): R414 with n = 4 and op(t, src) = t & src. -/
def execAmoandW (rd rs1 rs2 : Reg) (aq rl : Bool) (s : State) : Result :=
  onRow (.amoandW rd rs1 rs2 aq rl) s (amo .word rd rs1 rs2 (fun t src => t &&& src) s)

/-- AMOOR.W (R426): R414 with n = 4 and op(t, src) = t | src. -/
def execAmoorW (rd rs1 rs2 : Reg) (aq rl : Bool) (s : State) : Result :=
  onRow (.amoorW rd rs1 rs2 aq rl) s (amo .word rd rs1 rs2 (fun t src => t ||| src) s)

/-- AMOMIN.W (R427): R414 with n = 4 and op(t, src) = if t <s src then t else src. -/
def execAmominW (rd rs1 rs2 : Reg) (aq rl : Bool) (s : State) : Result :=
  onRow (.amominW rd rs1 rs2 aq rl) s (amo .word rd rs1 rs2 (fun t src => if t.slt src then t else src) s)

/-- AMOMAX.W (R428): R414 with n = 4 and op(t, src) = if t <s src then src else t. -/
def execAmomaxW (rd rs1 rs2 : Reg) (aq rl : Bool) (s : State) : Result :=
  onRow (.amomaxW rd rs1 rs2 aq rl) s (amo .word rd rs1 rs2 (fun t src => if t.slt src then src else t) s)

/-- AMOMINU.W (R429): R414 with n = 4 and op(t, src) = if t <u src then t else src. -/
def execAmominuW (rd rs1 rs2 : Reg) (aq rl : Bool) (s : State) : Result :=
  onRow (.amominuW rd rs1 rs2 aq rl) s (amo .word rd rs1 rs2 (fun t src => if t.ult src then t else src) s)

/-- AMOMAXU.W (R430): R414 with n = 4 and op(t, src) = if t <u src then src else t. -/
def execAmomaxuW (rd rs1 rs2 : Reg) (aq rl : Bool) (s : State) : Result :=
  onRow (.amomaxuW rd rs1 rs2 aq rl) s (amo .word rd rs1 rs2 (fun t src => if t.ult src then src else t) s)

/-- LR.D (R431): x[rd] <- sext(MemRead(x[rs1], 8)); resv <- (x[rs1], 8). -/
def execLrD (rd rs1 : Reg) (aq rl : Bool) (s : State) : Result :=
  onRow (.lrD rd rs1 aq rl) s (loadReserve .double rd rs1 s)

/-- SC.D (R432): if resv = (x[rs1], 8) and no spurious failure then store and x[rd] <- 0 else x[rd] <- 1; resv <- none. -/
def execScD (rd rs1 rs2 : Reg) (aq rl : Bool) (s : State) : Result :=
  onRow (.scD rd rs1 rs2 aq rl) s (storeConditional .double rd rs1 rs2 s)

/-- AMOSWAP.D (R433): R414 with n = 8 and op(t, src) = src. -/
def execAmoswapD (rd rs1 rs2 : Reg) (aq rl : Bool) (s : State) : Result :=
  onRow (.amoswapD rd rs1 rs2 aq rl) s (amo .double rd rs1 rs2 (fun _ src => src) s)

/-- AMOADD.D (R434): R414 with n = 8 and op(t, src) = t + src. -/
def execAmoaddD (rd rs1 rs2 : Reg) (aq rl : Bool) (s : State) : Result :=
  onRow (.amoaddD rd rs1 rs2 aq rl) s (amo .double rd rs1 rs2 (fun t src => t + src) s)

/-- AMOXOR.D (R435): R414 with n = 8 and op(t, src) = t ^ src. -/
def execAmoxorD (rd rs1 rs2 : Reg) (aq rl : Bool) (s : State) : Result :=
  onRow (.amoxorD rd rs1 rs2 aq rl) s (amo .double rd rs1 rs2 (fun t src => t ^^^ src) s)

/-- AMOAND.D (R436): R414 with n = 8 and op(t, src) = t & src. -/
def execAmoandD (rd rs1 rs2 : Reg) (aq rl : Bool) (s : State) : Result :=
  onRow (.amoandD rd rs1 rs2 aq rl) s (amo .double rd rs1 rs2 (fun t src => t &&& src) s)

/-- AMOOR.D (R437): R414 with n = 8 and op(t, src) = t | src. -/
def execAmoorD (rd rs1 rs2 : Reg) (aq rl : Bool) (s : State) : Result :=
  onRow (.amoorD rd rs1 rs2 aq rl) s (amo .double rd rs1 rs2 (fun t src => t ||| src) s)

/-- AMOMIN.D (R438): R414 with n = 8 and op(t, src) = if t <s src then t else src. -/
def execAmominD (rd rs1 rs2 : Reg) (aq rl : Bool) (s : State) : Result :=
  onRow (.amominD rd rs1 rs2 aq rl) s (amo .double rd rs1 rs2 (fun t src => if t.slt src then t else src) s)

/-- AMOMAX.D (R439): R414 with n = 8 and op(t, src) = if t <s src then src else t. -/
def execAmomaxD (rd rs1 rs2 : Reg) (aq rl : Bool) (s : State) : Result :=
  onRow (.amomaxD rd rs1 rs2 aq rl) s (amo .double rd rs1 rs2 (fun t src => if t.slt src then src else t) s)

/-- AMOMINU.D (R440): R414 with n = 8 and op(t, src) = if t <u src then t else src. -/
def execAmominuD (rd rs1 rs2 : Reg) (aq rl : Bool) (s : State) : Result :=
  onRow (.amominuD rd rs1 rs2 aq rl) s (amo .double rd rs1 rs2 (fun t src => if t.ult src then t else src) s)

/-- AMOMAXU.D (R441): R414 with n = 8 and op(t, src) = if t <u src then src else t. -/
def execAmomaxuD (rd rs1 rs2 : Reg) (aq rl : Bool) (s : State) : Result :=
  onRow (.amomaxuD rd rs1 rs2 aq rl) s (amo .double rd rs1 rs2 (fun t src => if t.ult src then src else t) s)

end Sys2Proof.Machine
end

