-- ==== Sys2Proof/Machine/BaseControl.lean ====
section
/-! DEFINITION. Upper immediates, jumps and branches (43_rv32i_base.md, R304, R310-R319). -/

namespace Sys2Proof.Machine

/-- LUI (R310): x[rd] <- sext(inst[31:12] ++ 0^12). -/
def execLui (rd : Reg) (imm : BitVec 20) (s : State) : Result :=
  onRow (.lui rd imm) s (completeX 4 rd (signedImm s.width imm 12) s)

/-- AUIPC (R311): x[rd] <- pc + sext(inst[31:12] ++ 0^12). -/
def execAuipc (rd : Reg) (imm : BitVec 20) (s : State) : Result :=
  onRow (.auipc rd imm) s (completeX 4 rd (s.rpc + signedImm s.width imm 12) s)

/-- JAL (R312): t <- pc + 4; pc <- pc + sext(offset); x[rd] <- t. -/
def execJal (rd : Reg) (offset : BitVec 20) (s : State) : Result :=
  onRow (.jal rd offset) s (jumpLink 4 rd (s.rpc + signedImm s.width offset 1) s)

/-- JALR (R313): t <- pc + 4; pc <- (x[rs1] + sext(imm)) & ~1; x[rd] <- t. -/
def execJalr (rd rs1 : Reg) (imm : BitVec 12) (s : State) : Result :=
  onRow (.jalr rd rs1 imm) s (jumpLink 4 rd (evenTarget (s.rx rs1 + signedImm s.width imm 0)) s)

/-- BEQ (R314): if x[rs1] = x[rs2] then pc <- pc + sext(offset) else pc <- pc + 4. -/
def execBeq (rs1 rs2 : Reg) (offset : BitVec 12) (s : State) : Result :=
  onRow (.beq rs1 rs2 offset) s (branch 4 (s.rx rs1 == s.rx rs2) s (signedImm s.width offset 1))

/-- BNE (R315): if x[rs1] != x[rs2] then pc <- pc + sext(offset) else pc <- pc + 4. -/
def execBne (rs1 rs2 : Reg) (offset : BitVec 12) (s : State) : Result :=
  onRow (.bne rs1 rs2 offset) s (branch 4 (s.rx rs1 != s.rx rs2) s (signedImm s.width offset 1))

/-- BLT (R316): if x[rs1] <s x[rs2] then pc <- pc + sext(offset) else pc <- pc + 4. -/
def execBlt (rs1 rs2 : Reg) (offset : BitVec 12) (s : State) : Result :=
  onRow (.blt rs1 rs2 offset) s (branch 4 ((s.rx rs1).slt (s.rx rs2)) s (signedImm s.width offset 1))

/-- BGE (R317): if x[rs1] >=s x[rs2] then pc <- pc + sext(offset) else pc <- pc + 4. -/
def execBge (rs1 rs2 : Reg) (offset : BitVec 12) (s : State) : Result :=
  onRow (.bge rs1 rs2 offset) s (branch 4 (!(s.rx rs1).slt (s.rx rs2)) s (signedImm s.width offset 1))

/-- BLTU (R318): if x[rs1] <u x[rs2] then pc <- pc + sext(offset) else pc <- pc + 4. -/
def execBltu (rs1 rs2 : Reg) (offset : BitVec 12) (s : State) : Result :=
  onRow (.bltu rs1 rs2 offset) s (branch 4 ((s.rx rs1).ult (s.rx rs2)) s (signedImm s.width offset 1))

/-- BGEU (R319): if x[rs1] >=u x[rs2] then pc <- pc + sext(offset) else pc <- pc + 4. -/
def execBgeu (rs1 rs2 : Reg) (offset : BitVec 12) (s : State) : Result :=
  onRow (.bgeu rs1 rs2 offset) s (branch 4 (!(s.rx rs1).ult (s.rx rs2)) s (signedImm s.width offset 1))

end Sys2Proof.Machine
end

