-- ==== Sys2Proof/Machine/BaseInt.lean ====
section
/-! DEFINITION. Register-immediate and register-register arithmetic (R301, R328-R346 of 43_rv32i_base.md; R365-R367 of 44_rv64i_base.md). -/

namespace Sys2Proof.Machine

/-- ADDI (R328): x[rd] <- x[rs1] + sext(imm). -/
def execAddi (rd rs1 : Reg) (imm : BitVec 12) (s : State) : Result :=
  onRow (.addi rd rs1 imm) s (completeX 4 rd (s.rx rs1 + signedImm s.width imm 0) s)

/-- SLTI (R329): x[rd] <- if x[rs1] <s sext(imm) then 1 else 0. -/
def execSlti (rd rs1 : Reg) (imm : BitVec 12) (s : State) : Result :=
  onRow (.slti rd rs1 imm) s (completeX 4 rd (boolValue s.width ((s.rx rs1).slt (signedImm s.width imm 0))) s)

/-- SLTIU (R330): x[rd] <- if x[rs1] <u sext(imm) then 1 else 0. -/
def execSltiu (rd rs1 : Reg) (imm : BitVec 12) (s : State) : Result :=
  onRow (.sltiu rd rs1 imm) s (completeX 4 rd (boolValue s.width ((s.rx rs1).ult (signedImm s.width imm 0))) s)

/-- XORI (R331): x[rd] <- x[rs1] ^ sext(imm). -/
def execXori (rd rs1 : Reg) (imm : BitVec 12) (s : State) : Result :=
  onRow (.xori rd rs1 imm) s (completeX 4 rd (s.rx rs1 ^^^ signedImm s.width imm 0) s)

/-- ORI (R332): x[rd] <- x[rs1] | sext(imm). -/
def execOri (rd rs1 : Reg) (imm : BitVec 12) (s : State) : Result :=
  onRow (.ori rd rs1 imm) s (completeX 4 rd (s.rx rs1 ||| signedImm s.width imm 0) s)

/-- ANDI (R333): x[rd] <- x[rs1] & sext(imm). -/
def execAndi (rd rs1 : Reg) (imm : BitVec 12) (s : State) : Result :=
  onRow (.andi rd rs1 imm) s (completeX 4 rd (s.rx rs1 &&& signedImm s.width imm 0) s)

/-- SLLI (R334): x[rd] <- x[rs1] << shamt, the 5-bit form of XLEN = 32. -/
def execSlliRv32 (rd rs1 : Reg) (shamt : BitVec 5) (s : State) : Result :=
  onRow (.slliRv32 rd rs1 shamt) s (completeX 4 rd (s.rx rs1 <<< shamt.toNat) s)

/-- SRLI (R335): x[rd] <- x[rs1] >>u shamt, the 5-bit form of XLEN = 32. -/
def execSrliRv32 (rd rs1 : Reg) (shamt : BitVec 5) (s : State) : Result :=
  onRow (.srliRv32 rd rs1 shamt) s (completeX 4 rd (s.rx rs1 >>> shamt.toNat) s)

/-- SRAI (R336): x[rd] <- x[rs1] >>s shamt, the 5-bit form of XLEN = 32. -/
def execSraiRv32 (rd rs1 : Reg) (shamt : BitVec 5) (s : State) : Result :=
  onRow (.sraiRv32 rd rs1 shamt) s (completeX 4 rd ((s.rx rs1).sshiftRight shamt.toNat) s)

/-- ADD (R337): x[rd] <- x[rs1] + x[rs2]. -/
def execAdd (rd rs1 rs2 : Reg) (s : State) : Result :=
  onRow (.add rd rs1 rs2) s (completeX 4 rd (s.rx rs1 + s.rx rs2) s)

/-- SUB (R338): x[rd] <- x[rs1] - x[rs2]. -/
def execSub (rd rs1 rs2 : Reg) (s : State) : Result :=
  onRow (.sub rd rs1 rs2) s (completeX 4 rd (s.rx rs1 - s.rx rs2) s)

/-- SLL (R339): x[rd] <- x[rs1] << the low 5 (XLEN = 64: 6) bits of x[rs2]. -/
def execSll (rd rs1 rs2 : Reg) (s : State) : Result :=
  onRow (.sll rd rs1 rs2) s (completeX 4 rd (s.rx rs1 <<< regShamt s.cfg.xlen (s.rx rs2)) s)

/-- SLT (R340): x[rd] <- if x[rs1] <s x[rs2] then 1 else 0. -/
def execSlt (rd rs1 rs2 : Reg) (s : State) : Result :=
  onRow (.slt rd rs1 rs2) s (completeX 4 rd (boolValue s.width ((s.rx rs1).slt (s.rx rs2))) s)

/-- SLTU (R341): x[rd] <- if x[rs1] <u x[rs2] then 1 else 0. -/
def execSltu (rd rs1 rs2 : Reg) (s : State) : Result :=
  onRow (.sltu rd rs1 rs2) s (completeX 4 rd (boolValue s.width ((s.rx rs1).ult (s.rx rs2))) s)

/-- XOR (R342): x[rd] <- x[rs1] ^ x[rs2]. -/
def execXor (rd rs1 rs2 : Reg) (s : State) : Result :=
  onRow (.xor rd rs1 rs2) s (completeX 4 rd (s.rx rs1 ^^^ s.rx rs2) s)

/-- SRL (R343): x[rd] <- x[rs1] >>u the low 5 (XLEN = 64: 6) bits of x[rs2]. -/
def execSrl (rd rs1 rs2 : Reg) (s : State) : Result :=
  onRow (.srl rd rs1 rs2) s (completeX 4 rd (s.rx rs1 >>> regShamt s.cfg.xlen (s.rx rs2)) s)

/-- SRA (R344): x[rd] <- x[rs1] >>s the low 5 (XLEN = 64: 6) bits of x[rs2]. -/
def execSra (rd rs1 rs2 : Reg) (s : State) : Result :=
  onRow (.sra rd rs1 rs2) s (completeX 4 rd ((s.rx rs1).sshiftRight (regShamt s.cfg.xlen (s.rx rs2))) s)

/-- OR (R345): x[rd] <- x[rs1] | x[rs2]. -/
def execOr (rd rs1 rs2 : Reg) (s : State) : Result :=
  onRow (.or rd rs1 rs2) s (completeX 4 rd (s.rx rs1 ||| s.rx rs2) s)

/-- AND (R346): x[rd] <- x[rs1] & x[rs2]. -/
def execAnd (rd rs1 rs2 : Reg) (s : State) : Result :=
  onRow (.and rd rs1 rs2) s (completeX 4 rd (s.rx rs1 &&& s.rx rs2) s)

/-- SLLI (R365): x[rd] <- x[rs1] << shamt, the 6-bit form of XLEN = 64. -/
def execSlliRv64 (rd rs1 : Reg) (shamt : BitVec 6) (s : State) : Result :=
  onRow (.slliRv64 rd rs1 shamt) s (completeX 4 rd (s.rx rs1 <<< shamt.toNat) s)

/-- SRLI (R366): x[rd] <- x[rs1] >>u shamt, the 6-bit form of XLEN = 64. -/
def execSrliRv64 (rd rs1 : Reg) (shamt : BitVec 6) (s : State) : Result :=
  onRow (.srliRv64 rd rs1 shamt) s (completeX 4 rd (s.rx rs1 >>> shamt.toNat) s)

/-- SRAI (R367): x[rd] <- x[rs1] >>s shamt, the 6-bit form of XLEN = 64. -/
def execSraiRv64 (rd rs1 : Reg) (shamt : BitVec 6) (s : State) : Result :=
  onRow (.sraiRv64 rd rs1 shamt) s (completeX 4 rd ((s.rx rs1).sshiftRight shamt.toNat) s)

end Sys2Proof.Machine
end

