-- ==== Sys2Proof/Machine/BaseMemory.lean ====
section
/-! DEFINITION. Integer loads and stores (R302, R303, R320-R327 of 43_rv32i_base.md; R362-R364 of 44_rv64i_base.md). -/

namespace Sys2Proof.Machine

/-- LB (R320): x[rd] <- sext(MemRead(x[rs1] + sext(imm), 1)). -/
def execLb (rd rs1 : Reg) (imm : BitVec 12) (s : State) : Result :=
  onRow (.lb rd rs1 imm) s
    (load 1 (s.rx rs1 + signedImm s.width imm 0) s fun v => completeX 4 rd (v.signExtend s.width) s)

/-- LH (R321): x[rd] <- sext(MemRead(x[rs1] + sext(imm), 2)). -/
def execLh (rd rs1 : Reg) (imm : BitVec 12) (s : State) : Result :=
  onRow (.lh rd rs1 imm) s
    (load 2 (s.rx rs1 + signedImm s.width imm 0) s fun v => completeX 4 rd (v.signExtend s.width) s)

/-- LW (R322): x[rd] <- sext(MemRead(x[rs1] + sext(imm), 4)). -/
def execLw (rd rs1 : Reg) (imm : BitVec 12) (s : State) : Result :=
  onRow (.lw rd rs1 imm) s
    (load 4 (s.rx rs1 + signedImm s.width imm 0) s fun v => completeX 4 rd (v.signExtend s.width) s)

/-- LBU (R323): x[rd] <- zext(MemRead(x[rs1] + sext(imm), 1)). -/
def execLbu (rd rs1 : Reg) (imm : BitVec 12) (s : State) : Result :=
  onRow (.lbu rd rs1 imm) s
    (load 1 (s.rx rs1 + signedImm s.width imm 0) s fun v => completeX 4 rd (v.setWidth s.width) s)

/-- LHU (R324): x[rd] <- zext(MemRead(x[rs1] + sext(imm), 2)). -/
def execLhu (rd rs1 : Reg) (imm : BitVec 12) (s : State) : Result :=
  onRow (.lhu rd rs1 imm) s
    (load 2 (s.rx rs1 + signedImm s.width imm 0) s fun v => completeX 4 rd (v.setWidth s.width) s)

/-- SB (R325): MemWrite(x[rs1] + sext(imm), 1, x[rs2][7:0]). -/
def execSb (rs2 rs1 : Reg) (imm : BitVec 12) (s : State) : Result :=
  onRow (.sb rs2 rs1 imm) s (store 4 1 (s.rx rs1 + signedImm s.width imm 0) (s.rx rs2) s)

/-- SH (R326): MemWrite(x[rs1] + sext(imm), 2, x[rs2][15:0]). -/
def execSh (rs2 rs1 : Reg) (imm : BitVec 12) (s : State) : Result :=
  onRow (.sh rs2 rs1 imm) s (store 4 2 (s.rx rs1 + signedImm s.width imm 0) (s.rx rs2) s)

/-- SW (R327): MemWrite(x[rs1] + sext(imm), 4, x[rs2][31:0]). -/
def execSw (rs2 rs1 : Reg) (imm : BitVec 12) (s : State) : Result :=
  onRow (.sw rs2 rs1 imm) s (store 4 4 (s.rx rs1 + signedImm s.width imm 0) (s.rx rs2) s)

/-- LWU (R362): x[rd] <- zext(MemRead(x[rs1] + sext(imm), 4)). -/
def execLwu (rd rs1 : Reg) (imm : BitVec 12) (s : State) : Result :=
  onRow (.lwu rd rs1 imm) s
    (load 4 (s.rx rs1 + signedImm s.width imm 0) s fun v => completeX 4 rd (v.setWidth s.width) s)

/-- LD (R363): x[rd] <- MemRead(x[rs1] + sext(imm), 8). -/
def execLd (rd rs1 : Reg) (imm : BitVec 12) (s : State) : Result :=
  onRow (.ld rd rs1 imm) s
    (load 8 (s.rx rs1 + signedImm s.width imm 0) s fun v => completeX 4 rd (v.signExtend s.width) s)

/-- SD (R364): MemWrite(x[rs1] + sext(imm), 8, x[rs2]). -/
def execSd (rs2 rs1 : Reg) (imm : BitVec 12) (s : State) : Result :=
  onRow (.sd rs2 rs1 imm) s (store 4 8 (s.rx rs1 + signedImm s.width imm 0) (s.rx rs2) s)

end Sys2Proof.Machine
end

