-- ==== Sys2Proof/Machine/BaseWord.lean ====
section
/-! DEFINITION. The 32-bit word arithmetic of RV64I (44_rv64i_base.md, R360, R368-R376). -/

namespace Sys2Proof.Machine

/-- ADDIW (R368): x[rd] <- sext_32((x[rs1] + sext(imm))[31:0]). -/
def execAddiw (rd rs1 : Reg) (imm : BitVec 12) (s : State) : Result :=
  onRow (.addiw rd rs1 imm) s
    (completeX 4 rd (sextWord s.width ((s.rx rs1 + signedImm s.width imm 0).setWidth 32)) s)

/-- SLLIW (R369): x[rd] <- sext_32(x[rs1][31:0] << shamt). -/
def execSlliw (rd rs1 : Reg) (shamt : BitVec 5) (s : State) : Result :=
  onRow (.slliw rd rs1 shamt) s (completeX 4 rd (sextWord s.width ((s.rx rs1).setWidth 32 <<< shamt.toNat)) s)

/-- SRLIW (R370): x[rd] <- sext_32(x[rs1][31:0] >>u shamt). -/
def execSrliw (rd rs1 : Reg) (shamt : BitVec 5) (s : State) : Result :=
  onRow (.srliw rd rs1 shamt) s (completeX 4 rd (sextWord s.width ((s.rx rs1).setWidth 32 >>> shamt.toNat)) s)

/-- SRAIW (R371): x[rd] <- sext_32(x[rs1][31:0] >>s shamt). -/
def execSraiw (rd rs1 : Reg) (shamt : BitVec 5) (s : State) : Result :=
  onRow (.sraiw rd rs1 shamt) s
    (completeX 4 rd (sextWord s.width (((s.rx rs1).setWidth 32).sshiftRight shamt.toNat)) s)

/-- ADDW (R372): x[rd] <- sext_32((x[rs1] + x[rs2])[31:0]). -/
def execAddw (rd rs1 rs2 : Reg) (s : State) : Result :=
  onRow (.addw rd rs1 rs2) s (completeX 4 rd (sextWord s.width ((s.rx rs1 + s.rx rs2).setWidth 32)) s)

/-- SUBW (R373): x[rd] <- sext_32((x[rs1] - x[rs2])[31:0]). -/
def execSubw (rd rs1 rs2 : Reg) (s : State) : Result :=
  onRow (.subw rd rs1 rs2) s (completeX 4 rd (sextWord s.width ((s.rx rs1 - s.rx rs2).setWidth 32)) s)

/-- SLLW (R374): x[rd] <- sext_32(x[rs1][31:0] << x[rs2][4:0]). -/
def execSllw (rd rs1 rs2 : Reg) (s : State) : Result :=
  onRow (.sllw rd rs1 rs2) s
    (completeX 4 rd (sextWord s.width ((s.rx rs1).setWidth 32 <<< ((s.rx rs2).setWidth 5).toNat)) s)

/-- SRLW (R375): x[rd] <- sext_32(x[rs1][31:0] >>u x[rs2][4:0]). -/
def execSrlw (rd rs1 rs2 : Reg) (s : State) : Result :=
  onRow (.srlw rd rs1 rs2) s
    (completeX 4 rd (sextWord s.width ((s.rx rs1).setWidth 32 >>> ((s.rx rs2).setWidth 5).toNat)) s)

/-- SRAW (R376): x[rd] <- sext_32(x[rs1][31:0] >>s x[rs2][4:0]). -/
def execSraw (rd rs1 rs2 : Reg) (s : State) : Result :=
  onRow (.sraw rd rs1 rs2) s
    (completeX 4 rd (sextWord s.width (((s.rx rs1).setWidth 32).sshiftRight ((s.rx rs2).setWidth 5).toNat)) s)

end Sys2Proof.Machine
end

