-- ==== Sys2Proof/Machine/Softfloat.lean ====
section
/-! DEFINITION. IEEE 754 arithmetic as R450-R456, R474, R482, R490 and R501 state it, once for both formats: values
are decoded to exact numbers, the operation is exact, and one function rounds (R456). Every function is structural, so
that Lean's kernel evaluates it on numerals (`notes/assumptions/19.md`). -/

namespace Sys2Proof.Machine

/-- A binary interchange format (R451, R501). -/
structure FloatFormat where
  expBits : Nat
  fracBits : Nat
  deriving DecidableEq, Repr

/-- binary32 (R451). -/
def binary32 : FloatFormat := { expBits := 8, fracBits := 23 }

/-- binary64 (R501). -/
def binary64 : FloatFormat := { expBits := 11, fracBits := 52 }

/-- The magnitude bits of infinity: the exponent field all ones, fraction zero. -/
def FloatFormat.infMag (F : FloatFormat) : Nat := (2 ^ F.expBits - 1) * 2 ^ F.fracBits

/-- The magnitude bits of the canonical NaN (R454). -/
def FloatFormat.nanMag (F : FloatFormat) : Nat := F.infMag + 2 ^ (F.fracBits - 1)

/-- The exponent of the smallest normal number: 1 - bias. -/
def FloatFormat.minExp (F : FloatFormat) : Int := 2 - 2 ^ (F.expBits - 1)

/-- What a bit pattern stands for (R451): a finite value is (-1)^neg * m * 2^e. -/
inductive FpValue where
  | nan (signaling : Bool)
  | inf (neg : Bool)
  | finite (neg : Bool) (m : Nat) (e : Int)
  deriving DecidableEq, Repr

/-- The sign bit. -/
def fpSign (F : FloatFormat) {n : Nat} (v : BitVec n) : Bool := v.getLsbD (F.expBits + F.fracBits)

/-- The exponent and fraction fields together. -/
def fpMag (F : FloatFormat) {n : Nat} (v : BitVec n) : Nat := v.toNat % 2 ^ (F.expBits + F.fracBits)

/-- The value of a bit pattern (R451, R501). -/
def fpDecode (F : FloatFormat) {n : Nat} (v : BitVec n) : FpValue :=
  let expo := fpMag F v / 2 ^ F.fracBits
  let frac := fpMag F v % 2 ^ F.fracBits
  if expo = 2 ^ F.expBits - 1 then
    if frac = 0 then .inf (fpSign F v) else .nan (decide (frac < 2 ^ (F.fracBits - 1)))
  else if expo = 0 then .finite (fpSign F v) frac (F.minExp - F.fracBits)
  else .finite (fpSign F v) (2 ^ F.fracBits + frac) (F.minExp + (expo - 1) - F.fracBits)

/-- The bit pattern of a sign and magnitude bits. -/
def fpAssemble (F : FloatFormat) (n : Nat) (neg : Bool) (mag : Nat) : BitVec n :=
  BitVec.ofNat n ((if neg then 2 ^ (F.expBits + F.fracBits) else 0) + mag)

/-- The canonical NaN (R454). -/
def fpCanonicalNaN (F : FloatFormat) (n : Nat) : BitVec n := fpAssemble F n false F.nanMag

/-- An invalid operation: the canonical NaN with NV (R454). -/
def fpInvalid (F : FloatFormat) (n : Nat) : BitVec n × FpFlags := (fpCanonicalNaN F n, flagNV)

/-- An infinity, no flag. -/
def fpInfinity (F : FloatFormat) (n : Nat) (neg : Bool) : BitVec n × FpFlags := (fpAssemble F n neg F.infMag, 0)

/-- A zero, no flag. -/
def fpZero (F : FloatFormat) (n : Nat) (neg : Bool) : BitVec n × FpFlags := (fpAssemble F n neg 0, 0)

/-- NV when an operand is a signaling NaN (R454). -/
def signalingFlag : List FpValue → FpFlags
  | [] => 0
  | .nan true :: _ => flagNV
  | _ :: vs => signalingFlag vs

/-- The NaN result for operands of which one is a NaN (R454). -/
def fpNaN (F : FloatFormat) (n : Nat) (vs : List FpValue) : BitVec n × FpFlags :=
  (fpCanonicalNaN F n, signalingFlag vs)

/-! ### Rounding -/

/-- m / 2^d rounded to an integer, and whether that was inexact (R456); `neg` is the sign of the value. -/
def roundShift (rm : RoundingMode) (neg : Bool) (m d : Nat) : Nat × Bool :=
  let q := m / 2 ^ d
  let r := m % 2 ^ d
  let up : Bool := match rm with
    | .rne => decide (2 ^ d < 2 * r) || (decide (2 * r = 2 ^ d) && decide (q % 2 = 1))
    | .rtz => false
    | .rdn => neg && decide (r ≠ 0)
    | .rup => !neg && decide (r ≠ 0)
    | .rmm => decide (2 ^ d ≤ 2 * r)
  (if up then q + 1 else q, decide (r ≠ 0))

/-- m * 2^e as a multiple of 2^q: exact when q ≤ e, rounded otherwise. -/
def atQuantum (rm : RoundingMode) (neg : Bool) (m : Nat) (e q : Int) : Nat × Bool :=
  if q ≤ e then (m * 2 ^ (e - q).toNat, false) else roundShift rm neg m (q - e).toNat

/-- The magnitude an overflow gives: infinity, or the largest finite number when the mode rounds toward zero there
(R456). -/
def overflowMag (F : FloatFormat) (rm : RoundingMode) (neg : Bool) : Nat :=
  match rm with
  | .rne | .rmm => F.infMag
  | .rtz => F.infMag - 1
  | .rdn => if neg then F.infMag else F.infMag - 1
  | .rup => if neg then F.infMag - 1 else F.infMag

/-- Round (-1)^neg * m * 2^e to the format, with the flags of R456; underflow is detected after rounding. -/
def fpRound (F : FloatFormat) (n : Nat) (rm : RoundingMode) (neg : Bool) (m : Nat) (e : Int) : BitVec n × FpFlags :=
  if m = 0 then fpZero F n neg
  else
    let top : Int := m.log2 + e
    let base : Int := max top F.minExp
    let rounded := atQuantum rm neg m e (base - F.fracBits)
    let mag := (base - F.minExp).toNat * 2 ^ F.fracBits + rounded.1
    let carried : Bool := decide ((atQuantum rm neg m e (top - F.fracBits)).1 = 2 ^ (F.fracBits + 1))
    let tiny : Bool := decide ((if carried then top + 1 else top) < F.minExp)
    if F.infMag ≤ mag then (fpAssemble F n neg (overflowMag F rm neg), flagOF ||| flagNX)
    else (fpAssemble F n neg mag,
      if rounded.2 then (if tiny then flagUF ||| flagNX else flagNX) else 0)

/-! ### Arithmetic -/

/-- The exact sum of two finite numbers, rounded; an exact zero takes the sign of R456. -/
def fpSum (F : FloatFormat) (n : Nat) (rm : RoundingMode) (neg1 : Bool) (m1 : Nat) (e1 : Int)
    (neg2 : Bool) (m2 : Nat) (e2 : Int) : BitVec n × FpFlags :=
  let e := min e1 e2
  let a : Int := m1 * 2 ^ (e1 - e).toNat
  let b : Int := m2 * 2 ^ (e2 - e).toNat
  let sum : Int := (if neg1 then -a else a) + (if neg2 then -b else b)
  if sum = 0 then fpZero F n (if neg1 = neg2 then neg1 else decide (rm = .rdn))
  else fpRound F n rm (decide (sum < 0)) sum.natAbs e

/-- Addition of values (R456). -/
def fpAddValues (F : FloatFormat) (n : Nat) (rm : RoundingMode) (a b : FpValue) : BitVec n × FpFlags :=
  match a, b with
  | .nan _, _ => fpNaN F n [a, b]
  | _, .nan _ => fpNaN F n [a, b]
  | .inf s, .inf t => if s = t then fpInfinity F n s else fpInvalid F n
  | .inf s, .finite .. => fpInfinity F n s
  | .finite .., .inf t => fpInfinity F n t
  | .finite s m e, .finite t k f => fpSum F n rm s m e t k f

/-- The value with its sign flipped. -/
def FpValue.negate : FpValue → FpValue
  | .nan s => .nan s
  | .inf s => .inf !s
  | .finite s m e => .finite (!s) m e

/-- add (R456). -/
def fpAdd (F : FloatFormat) (rm : RoundingMode) {n : Nat} (a b : BitVec n) : BitVec n × FpFlags :=
  fpAddValues F n rm (fpDecode F a) (fpDecode F b)

/-- sub (R456). -/
def fpSub (F : FloatFormat) (rm : RoundingMode) {n : Nat} (a b : BitVec n) : BitVec n × FpFlags :=
  fpAddValues F n rm (fpDecode F a) (fpDecode F b).negate

/-- mul (R456). -/
def fpMul (F : FloatFormat) (rm : RoundingMode) {n : Nat} (a b : BitVec n) : BitVec n × FpFlags :=
  match fpDecode F a, fpDecode F b with
  | .nan s, y => fpNaN F n [.nan s, y]
  | x, .nan s => fpNaN F n [x, .nan s]
  | .inf s, .inf t => fpInfinity F n (s ^^ t)
  | .inf s, .finite t m _ => if m = 0 then fpInvalid F n else fpInfinity F n (s ^^ t)
  | .finite s m _, .inf t => if m = 0 then fpInvalid F n else fpInfinity F n (s ^^ t)
  | .finite s m e, .finite t k f => fpRound F n rm (s ^^ t) (m * k) (e + f)

/-- Fused multiply-add, rounded once: (±(a*b)) + (±c), the signs as R462-R465 give them; 0 * inf is invalid even when
the addend is a quiet NaN (R454). -/
def fpFma (F : FloatFormat) (rm : RoundingMode) (negProduct negAddend : Bool) {n : Nat} (a b c : BitVec n) :
    BitVec n × FpFlags :=
  let z := if negAddend then (fpDecode F c).negate else fpDecode F c
  match fpDecode F a, fpDecode F b with
  | .nan s, y => fpNaN F n [.nan s, y, z]
  | x, .nan s => fpNaN F n [x, .nan s, z]
  | .inf s, .inf t => fpAddValues F n rm (.inf (s ^^ t ^^ negProduct)) z
  | .inf s, .finite t m _ =>
    if m = 0 then fpInvalid F n else fpAddValues F n rm (.inf (s ^^ t ^^ negProduct)) z
  | .finite s m _, .inf t =>
    if m = 0 then fpInvalid F n else fpAddValues F n rm (.inf (s ^^ t ^^ negProduct)) z
  | .finite s m e, .finite t k f => fpAddValues F n rm (.finite (s ^^ t ^^ negProduct) (m * k) (e + f)) z

/-- The quotient of two nonzero magnitudes as one number with a sticky last bit: fracBits + 3 bits are exact. -/
def fpQuotient (F : FloatFormat) (m : Nat) (e : Int) (k : Nat) (f : Int) : Nat × Int :=
  let sh := F.fracBits + 3 + k.log2 + 1
  let q := m * 2 ^ sh / k
  (2 * q + (if m * 2 ^ sh % k = 0 then 0 else 1), e - f - sh - 1)

/-- div (R456): DZ for a finite nonzero number over zero. -/
def fpDiv (F : FloatFormat) (rm : RoundingMode) {n : Nat} (a b : BitVec n) : BitVec n × FpFlags :=
  match fpDecode F a, fpDecode F b with
  | .nan s, y => fpNaN F n [.nan s, y]
  | x, .nan s => fpNaN F n [x, .nan s]
  | .inf _, .inf _ => fpInvalid F n
  | .inf s, .finite t _ _ => fpInfinity F n (s ^^ t)
  | .finite s _ _, .inf t => fpZero F n (s ^^ t)
  | .finite s m e, .finite t k f =>
    if k = 0 then
      if m = 0 then fpInvalid F n else (fpAssemble F n (s ^^ t) F.infMag, flagDZ)
    else if m = 0 then fpZero F n (s ^^ t)
    else fpRound F n rm (s ^^ t) (fpQuotient F m e k f).1 (fpQuotient F m e k f).2

/-- The integer square root of `m`, bit by bit from bit k - 1 down, above the partial root `r`. -/
def sqrtLoop (m : Nat) : (k r : Nat) → Nat
  | 0, r => r
  | k + 1, r => if (r + 2 ^ k) * (r + 2 ^ k) ≤ m then sqrtLoop m k (r + 2 ^ k) else sqrtLoop m k r

/-- The floor of the square root of `m`. -/
def natSqrt (m : Nat) : Nat := sqrtLoop m (m.log2 / 2 + 1) 0

/-- The square root of m * 2^e as one number with a sticky last bit: fracBits + 3 bits are exact. -/
def fpRoot (F : FloatFormat) (m : Nat) (e : Int) : Nat × Int :=
  let sh := 2 * (F.fracBits + 3) + (e % 2).toNat
  let r := natSqrt (m * 2 ^ sh)
  (2 * r + (if r * r = m * 2 ^ sh then 0 else 1), (e - sh) / 2 - 1)

/-- sqrt (R456, R470). -/
def fpSqrt (F : FloatFormat) (rm : RoundingMode) {n : Nat} (a : BitVec n) : BitVec n × FpFlags :=
  match fpDecode F a with
  | .nan s => fpNaN F n [.nan s]
  | .inf s => if s then fpInvalid F n else fpInfinity F n false
  | .finite s m e =>
    if m = 0 then fpZero F n s
    else if s then fpInvalid F n
    else fpRound F n rm false (fpRoot F m e).1 (fpRoot F m e).2

/-! ### Sign injection, comparison, minimum, maximum, classification -/

/-- The magnitude bits of `a` under a given sign (R471-R473, R521-R523). -/
def fpWithSign (F : FloatFormat) (neg : Bool) {n : Nat} (a : BitVec n) : BitVec n := fpAssemble F n neg (fpMag F a)

/-- A number that orders the patterns that are not NaN as their values: both zeros are 0. -/
def fpOrder (F : FloatFormat) {n : Nat} (a : BitVec n) : Int :=
  if fpSign F a then -(fpMag F a : Int) else fpMag F a

/-- The pattern is a NaN. -/
def fpIsNaN (F : FloatFormat) {n : Nat} (a : BitVec n) : Bool := decide (F.infMag < fpMag F a)

/-- FEQ (R479): quiet. -/
def fpEq (F : FloatFormat) {n : Nat} (a b : BitVec n) : Bool × FpFlags :=
  (!fpIsNaN F a && !fpIsNaN F b && decide (fpOrder F a = fpOrder F b), signalingFlag [fpDecode F a, fpDecode F b])

/-- NV when an operand is any NaN: the signaling comparisons (R480, R481). -/
def nanFlag (F : FloatFormat) {n : Nat} (a b : BitVec n) : FpFlags :=
  if fpIsNaN F a || fpIsNaN F b then flagNV else 0

/-- FLT (R480). -/
def fpLt (F : FloatFormat) {n : Nat} (a b : BitVec n) : Bool × FpFlags :=
  (!fpIsNaN F a && !fpIsNaN F b && decide (fpOrder F a < fpOrder F b), nanFlag F a b)

/-- FLE (R481). -/
def fpLe (F : FloatFormat) {n : Nat} (a b : BitVec n) : Bool × FpFlags :=
  (!fpIsNaN F a && !fpIsNaN F b && decide (fpOrder F a ≤ fpOrder F b), nanFlag F a b)

/-- The smaller of two numbers, -0 below +0 (R474). -/
def fpSmaller (F : FloatFormat) {n : Nat} (a b : BitVec n) : BitVec n :=
  if fpOrder F a < fpOrder F b then a
  else if fpOrder F b < fpOrder F a then b
  else if fpSign F a then a else b

/-- The larger of two numbers, +0 above -0 (R475). -/
def fpLarger (F : FloatFormat) {n : Nat} (a b : BitVec n) : BitVec n :=
  if fpOrder F b < fpOrder F a then a
  else if fpOrder F a < fpOrder F b then b
  else if fpSign F a then b else a

/-- The NaN cases of FMIN and FMAX under `fminmax_edition` around the choice between two numbers (R474, D21). -/
def fpMinMax (F : FloatFormat) (ed : FminmaxEdition) {n : Nat} (pick : BitVec n → BitVec n → BitVec n)
    (a b : BitVec n) : BitVec n × FpFlags :=
  let fl := signalingFlag [fpDecode F a, fpDecode F b]
  if ed = .v22 ∧ fl ≠ 0 then (fpCanonicalNaN F n, fl)
  else if fpIsNaN F a then (if fpIsNaN F b then (fpCanonicalNaN F n, fl) else (b, fl))
  else if fpIsNaN F b then (a, fl)
  else (pick a b, fl)

/-- FMIN (R474). -/
def fpMin (F : FloatFormat) (ed : FminmaxEdition) {n : Nat} (a b : BitVec n) : BitVec n × FpFlags :=
  fpMinMax F ed (fpSmaller F) a b

/-- FMAX (R475). -/
def fpMax (F : FloatFormat) (ed : FminmaxEdition) {n : Nat} (a b : BitVec n) : BitVec n × FpFlags :=
  fpMinMax F ed (fpLarger F) a b

/-- The class number of R482. -/
def fpClass (F : FloatFormat) {n : Nat} (a : BitVec n) : Nat :=
  match fpDecode F a with
  | .nan signaling => if signaling then 8 else 9
  | .inf neg => if neg then 0 else 7
  | .finite neg m _ =>
    if m = 0 then (if neg then 3 else 4)
    else if m < 2 ^ F.fracBits then (if neg then 2 else 5)
    else (if neg then 1 else 6)

/-! ### Conversions -/

/-- `to_int` (R490). -/
def fpToInt (F : FloatFormat) (rm : RoundingMode) (lo hi : Int) {n : Nat} (a : BitVec n) : Int × FpFlags :=
  match fpDecode F a with
  | .nan _ => (hi, flagNV)
  | .inf neg => (if neg then lo else hi, flagNV)
  | .finite neg m e =>
    let r := atQuantum rm neg m e 0
    let v : Int := if neg then -r.1 else r.1
    if hi < v then (hi, flagNV)
    else if v < lo then (lo, flagNV)
    else (v, if r.2 then flagNX else 0)

/-- An integer rounded to the format; 0 gives +0 (R483). -/
def fpOfInt (F : FloatFormat) (n : Nat) (rm : RoundingMode) (z : Int) : BitVec n × FpFlags :=
  fpRound F n rm (decide (z < 0)) z.natAbs 0

/-- Between formats (R526, R527): a NaN gives the canonical NaN. -/
def fpConvert (F G : FloatFormat) (m : Nat) (rm : RoundingMode) {n : Nat} (a : BitVec n) : BitVec m × FpFlags :=
  match fpDecode F a with
  | .nan s => fpNaN G m [.nan s]
  | .inf s => fpInfinity G m s
  | .finite s k e => fpRound G m rm s k e

end Sys2Proof.Machine
end

