-- ==== Sys2Proof/Machine/FloatDouble.lean ====
section
/-! DEFINITION. The D extension (48_rv_d.md, R500-R541). -/

namespace Sys2Proof.Machine

/-- FLD (R510): f[rd] <- MemRead(x[rs1] + sext(imm), 8). -/
def execFld (rd rs1 : Reg) (imm : BitVec 12) (s : State) : Result :=
  onRow (.fld rd rs1 imm) s (load 8 (s.rx rs1 + signedImm s.width imm 0) s fun v => completeD 4 rd v s)

/-- FSD (R511): MemWrite(x[rs1] + sext(imm), 8, f[rs2]). -/
def execFsd (rs2 rs1 : Reg) (imm : BitVec 12) (s : State) : Result :=
  onRow (.fsd rs2 rs1 imm) s (store 4 8 (s.rx rs1 + signedImm s.width imm 0) (s.getF rs2) s)

/-- FMADD.D (R512): f[rd] <- d1*d2 + d3, rounded once. -/
def execFmaddD (rd rs1 rs2 rs3 : Reg) (rm : RmField) (s : State) : Result :=
  onRow (.fmaddD rd rs1 rs2 rs3 rm) s
    (withMode (.fmaddD rd rs1 rs2 rs3 rm) rm s fun m =>
      completeFpD rd (fpFma binary64 m false false (s.getF rs1) (s.getF rs2) (s.getF rs3)) s)

/-- FMSUB.D (R513): f[rd] <- d1*d2 - d3, rounded once. -/
def execFmsubD (rd rs1 rs2 rs3 : Reg) (rm : RmField) (s : State) : Result :=
  onRow (.fmsubD rd rs1 rs2 rs3 rm) s
    (withMode (.fmsubD rd rs1 rs2 rs3 rm) rm s fun m =>
      completeFpD rd (fpFma binary64 m false true (s.getF rs1) (s.getF rs2) (s.getF rs3)) s)

/-- FNMSUB.D (R514): f[rd] <- -(d1*d2) + d3, rounded once. -/
def execFnmsubD (rd rs1 rs2 rs3 : Reg) (rm : RmField) (s : State) : Result :=
  onRow (.fnmsubD rd rs1 rs2 rs3 rm) s
    (withMode (.fnmsubD rd rs1 rs2 rs3 rm) rm s fun m =>
      completeFpD rd (fpFma binary64 m true false (s.getF rs1) (s.getF rs2) (s.getF rs3)) s)

/-- FNMADD.D (R515): f[rd] <- -(d1*d2) - d3, rounded once. -/
def execFnmaddD (rd rs1 rs2 rs3 : Reg) (rm : RmField) (s : State) : Result :=
  onRow (.fnmaddD rd rs1 rs2 rs3 rm) s
    (withMode (.fnmaddD rd rs1 rs2 rs3 rm) rm s fun m =>
      completeFpD rd (fpFma binary64 m true true (s.getF rs1) (s.getF rs2) (s.getF rs3)) s)

/-- FADD.D (R516): f[rd] <- d1 + d2, rounded. -/
def execFaddD (rd rs1 rs2 : Reg) (rm : RmField) (s : State) : Result :=
  onRow (.faddD rd rs1 rs2 rm) s
    (withMode (.faddD rd rs1 rs2 rm) rm s fun m => completeFpD rd (fpAdd binary64 m (s.getF rs1) (s.getF rs2)) s)

/-- FSUB.D (R517): f[rd] <- d1 - d2, rounded. -/
def execFsubD (rd rs1 rs2 : Reg) (rm : RmField) (s : State) : Result :=
  onRow (.fsubD rd rs1 rs2 rm) s
    (withMode (.fsubD rd rs1 rs2 rm) rm s fun m => completeFpD rd (fpSub binary64 m (s.getF rs1) (s.getF rs2)) s)

/-- FMUL.D (R518): f[rd] <- d1 * d2, rounded. -/
def execFmulD (rd rs1 rs2 : Reg) (rm : RmField) (s : State) : Result :=
  onRow (.fmulD rd rs1 rs2 rm) s
    (withMode (.fmulD rd rs1 rs2 rm) rm s fun m => completeFpD rd (fpMul binary64 m (s.getF rs1) (s.getF rs2)) s)

/-- FDIV.D (R519): f[rd] <- d1 / d2, rounded. -/
def execFdivD (rd rs1 rs2 : Reg) (rm : RmField) (s : State) : Result :=
  onRow (.fdivD rd rs1 rs2 rm) s
    (withMode (.fdivD rd rs1 rs2 rm) rm s fun m => completeFpD rd (fpDiv binary64 m (s.getF rs1) (s.getF rs2)) s)

/-- FSQRT.D (R520): f[rd] <- the square root of d1, rounded. -/
def execFsqrtD (rd rs1 : Reg) (rm : RmField) (s : State) : Result :=
  onRow (.fsqrtD rd rs1 rm) s
    (withMode (.fsqrtD rd rs1 rm) rm s fun m => completeFpD rd (fpSqrt binary64 m (s.getF rs1)) s)

/-- FSGNJ.D (R521): f[rd] <- d1 with the sign of d2. -/
def execFsgnjD (rd rs1 rs2 : Reg) (s : State) : Result :=
  onRow (.fsgnjD rd rs1 rs2) s (completeD 4 rd (fpWithSign binary64 (fpSign binary64 (s.getF rs2)) (s.getF rs1)) s)

/-- FSGNJN.D (R522): f[rd] <- d1 with the opposite of the sign of d2. -/
def execFsgnjnD (rd rs1 rs2 : Reg) (s : State) : Result :=
  onRow (.fsgnjnD rd rs1 rs2) s
    (completeD 4 rd (fpWithSign binary64 (!fpSign binary64 (s.getF rs2)) (s.getF rs1)) s)

/-- FSGNJX.D (R523): f[rd] <- d1 with the exclusive or of the signs. -/
def execFsgnjxD (rd rs1 rs2 : Reg) (s : State) : Result :=
  onRow (.fsgnjxD rd rs1 rs2) s
    (completeD 4 rd (fpWithSign binary64 (fpSign binary64 (s.getF rs1) ^^ fpSign binary64 (s.getF rs2)) (s.getF rs1)) s)

/-- FMIN.D (R524): f[rd] <- the smaller of d1 and d2, NaNs by fminmax_edition. -/
def execFminD (rd rs1 rs2 : Reg) (s : State) : Result :=
  onRow (.fminD rd rs1 rs2) s (completeFpD rd (fpMin binary64 s.cfg.fminmax (s.getF rs1) (s.getF rs2)) s)

/-- FMAX.D (R525): f[rd] <- the larger of d1 and d2, NaNs by fminmax_edition. -/
def execFmaxD (rd rs1 rs2 : Reg) (s : State) : Result :=
  onRow (.fmaxD rd rs1 rs2) s (completeFpD rd (fpMax binary64 s.cfg.fminmax (s.getF rs1) (s.getF rs2)) s)

/-- FCVT.S.D (R526): f[rd] <- box(d1 rounded to single). -/
def execFcvtSD (rd rs1 : Reg) (rm : RmField) (s : State) : Result :=
  onRow (.fcvtSD rd rs1 rm) s
    (withMode (.fcvtSD rd rs1 rm) rm s fun m => completeFpS rd (fpConvert binary64 binary32 32 m (s.getF rs1)) s)

/-- FCVT.D.S (R527): f[rd] <- s1 widened; the rounding mode is checked and unused. -/
def execFcvtDS (rd rs1 : Reg) (rm : RmField) (s : State) : Result :=
  onRow (.fcvtDS rd rs1 rm) s
    (withMode (.fcvtDS rd rs1 rm) rm s fun m => completeFpD rd (fpConvert binary32 binary64 64 m (s.getSingle rs1)) s)

/-- FEQ.D (R528): x[rd] <- if neither is a NaN and d1 = d2 then 1 else 0. -/
def execFeqD (rd rs1 rs2 : Reg) (s : State) : Result :=
  onRow (.feqD rd rs1 rs2) s
    (completeFpX rd (boolValue s.width (fpEq binary64 (s.getF rs1) (s.getF rs2)).1) (fpEq binary64 (s.getF rs1) (s.getF rs2)).2 s)

/-- FLT.D (R529): x[rd] <- if neither is a NaN and d1 < d2 then 1 else 0. -/
def execFltD (rd rs1 rs2 : Reg) (s : State) : Result :=
  onRow (.fltD rd rs1 rs2) s
    (completeFpX rd (boolValue s.width (fpLt binary64 (s.getF rs1) (s.getF rs2)).1) (fpLt binary64 (s.getF rs1) (s.getF rs2)).2 s)

/-- FLE.D (R530): x[rd] <- if neither is a NaN and d1 <= d2 then 1 else 0. -/
def execFleD (rd rs1 rs2 : Reg) (s : State) : Result :=
  onRow (.fleD rd rs1 rs2) s
    (completeFpX rd (boolValue s.width (fpLe binary64 (s.getF rs1) (s.getF rs2)).1) (fpLe binary64 (s.getF rs1) (s.getF rs2)).2 s)

/-- FCLASS.D (R531): x[rd] <- 1 << the class of d1. -/
def execFclassD (rd rs1 : Reg) (s : State) : Result :=
  onRow (.fclassD rd rs1) s (completeX 4 rd (1#s.width <<< fpClass binary64 (s.getF rs1)) s)

/-- FCVT.W.D (R532): x[rd] <- sext_32(to_int(rm, d1, -2^31, 2^31 - 1)). -/
def execFcvtWD (rd rs1 : Reg) (rm : RmField) (s : State) : Result :=
  onRow (.fcvtWD rd rs1 rm) s
    (withMode (.fcvtWD rd rs1 rm) rm s fun m =>
      let r := fpToInt binary64 m (-(2 ^ 31)) (2 ^ 31 - 1) (s.getF rs1)
      completeFpX rd (sextWord s.width (BitVec.ofInt 32 r.1)) r.2 s)

/-- FCVT.WU.D (R533): x[rd] <- sext_32(to_int(rm, d1, 0, 2^32 - 1)). -/
def execFcvtWuD (rd rs1 : Reg) (rm : RmField) (s : State) : Result :=
  onRow (.fcvtWuD rd rs1 rm) s
    (withMode (.fcvtWuD rd rs1 rm) rm s fun m =>
      let r := fpToInt binary64 m 0 (2 ^ 32 - 1) (s.getF rs1)
      completeFpX rd (sextWord s.width (BitVec.ofInt 32 r.1)) r.2 s)

/-- FCVT.D.W (R534): f[rd] <- signed(x[rs1][31:0]), rounded. -/
def execFcvtDW (rd rs1 : Reg) (rm : RmField) (s : State) : Result :=
  onRow (.fcvtDW rd rs1 rm) s
    (withMode (.fcvtDW rd rs1 rm) rm s fun m => completeFpD rd (fpOfInt binary64 64 m ((s.rx rs1).setWidth 32).toInt) s)

/-- FCVT.D.WU (R535): f[rd] <- unsigned(x[rs1][31:0]), rounded. -/
def execFcvtDWu (rd rs1 : Reg) (rm : RmField) (s : State) : Result :=
  onRow (.fcvtDWu rd rs1 rm) s
    (withMode (.fcvtDWu rd rs1 rm) rm s fun m => completeFpD rd (fpOfInt binary64 64 m ((s.rx rs1).setWidth 32).toNat) s)

/-- FCVT.L.D (R536): x[rd] <- to_int(rm, d1, -2^63, 2^63 - 1). -/
def execFcvtLD (rd rs1 : Reg) (rm : RmField) (s : State) : Result :=
  onRow (.fcvtLD rd rs1 rm) s
    (withMode (.fcvtLD rd rs1 rm) rm s fun m =>
      let r := fpToInt binary64 m (-(2 ^ 63)) (2 ^ 63 - 1) (s.getF rs1)
      completeFpX rd (BitVec.ofInt s.width r.1) r.2 s)

/-- FCVT.LU.D (R537): x[rd] <- to_int(rm, d1, 0, 2^64 - 1). -/
def execFcvtLuD (rd rs1 : Reg) (rm : RmField) (s : State) : Result :=
  onRow (.fcvtLuD rd rs1 rm) s
    (withMode (.fcvtLuD rd rs1 rm) rm s fun m =>
      let r := fpToInt binary64 m 0 (2 ^ 64 - 1) (s.getF rs1)
      completeFpX rd (BitVec.ofInt s.width r.1) r.2 s)

/-- FMV.X.D (R538): x[rd] <- f[rs1]. -/
def execFmvXD (rd rs1 : Reg) (s : State) : Result :=
  onRow (.fmvXD rd rs1) s (completeX 4 rd ((s.getF rs1).setWidth s.width) s)

/-- FCVT.D.L (R539): f[rd] <- signed(x[rs1]), rounded. -/
def execFcvtDL (rd rs1 : Reg) (rm : RmField) (s : State) : Result :=
  onRow (.fcvtDL rd rs1 rm) s
    (withMode (.fcvtDL rd rs1 rm) rm s fun m => completeFpD rd (fpOfInt binary64 64 m ((s.rx rs1).setWidth 64).toInt) s)

/-- FCVT.D.LU (R540): f[rd] <- unsigned(x[rs1]), rounded. -/
def execFcvtDLu (rd rs1 : Reg) (rm : RmField) (s : State) : Result :=
  onRow (.fcvtDLu rd rs1 rm) s
    (withMode (.fcvtDLu rd rs1 rm) rm s fun m => completeFpD rd (fpOfInt binary64 64 m ((s.rx rs1).setWidth 64).toNat) s)

/-- FMV.D.X (R541): f[rd] <- x[rs1]. -/
def execFmvDX (rd rs1 : Reg) (s : State) : Result :=
  onRow (.fmvDX rd rs1) s (completeD 4 rd ((s.rx rs1).setWidth 64) s)

end Sys2Proof.Machine
end

