-- ==== Sys2Proof/Machine/FloatSingle.lean ====
section
/-! DEFINITION. The F extension (47_rv_f.md, R450-R490). -/

namespace Sys2Proof.Machine

/-- FLW (R460): f[rd] <- box(MemRead(x[rs1] + sext(imm), 4)). -/
def execFlw (rd rs1 : Reg) (imm : BitVec 12) (s : State) : Result :=
  onRow (.flw rd rs1 imm) s (load 4 (s.rx rs1 + signedImm s.width imm 0) s fun v => completeS 4 rd v s)

/-- FSW (R461): MemWrite(x[rs1] + sext(imm), 4, f[rs2][31:0]). -/
def execFsw (rs2 rs1 : Reg) (imm : BitVec 12) (s : State) : Result :=
  onRow (.fsw rs2 rs1 imm) s (store 4 4 (s.rx rs1 + signedImm s.width imm 0) (s.getSingleBits rs2) s)

/-- FMADD.S (R462): f[rd] <- s1*s2 + s3, rounded once. -/
def execFmaddS (rd rs1 rs2 rs3 : Reg) (rm : RmField) (s : State) : Result :=
  onRow (.fmaddS rd rs1 rs2 rs3 rm) s
    (withMode (.fmaddS rd rs1 rs2 rs3 rm) rm s fun m =>
      completeFpS rd (fpFma binary32 m false false (s.getSingle rs1) (s.getSingle rs2) (s.getSingle rs3)) s)

/-- FMSUB.S (R463): f[rd] <- s1*s2 - s3, rounded once. -/
def execFmsubS (rd rs1 rs2 rs3 : Reg) (rm : RmField) (s : State) : Result :=
  onRow (.fmsubS rd rs1 rs2 rs3 rm) s
    (withMode (.fmsubS rd rs1 rs2 rs3 rm) rm s fun m =>
      completeFpS rd (fpFma binary32 m false true (s.getSingle rs1) (s.getSingle rs2) (s.getSingle rs3)) s)

/-- FNMSUB.S (R464): f[rd] <- -(s1*s2) + s3, rounded once. -/
def execFnmsubS (rd rs1 rs2 rs3 : Reg) (rm : RmField) (s : State) : Result :=
  onRow (.fnmsubS rd rs1 rs2 rs3 rm) s
    (withMode (.fnmsubS rd rs1 rs2 rs3 rm) rm s fun m =>
      completeFpS rd (fpFma binary32 m true false (s.getSingle rs1) (s.getSingle rs2) (s.getSingle rs3)) s)

/-- FNMADD.S (R465): f[rd] <- -(s1*s2) - s3, rounded once. -/
def execFnmaddS (rd rs1 rs2 rs3 : Reg) (rm : RmField) (s : State) : Result :=
  onRow (.fnmaddS rd rs1 rs2 rs3 rm) s
    (withMode (.fnmaddS rd rs1 rs2 rs3 rm) rm s fun m =>
      completeFpS rd (fpFma binary32 m true true (s.getSingle rs1) (s.getSingle rs2) (s.getSingle rs3)) s)

/-- FADD.S (R466): f[rd] <- s1 + s2, rounded. -/
def execFaddS (rd rs1 rs2 : Reg) (rm : RmField) (s : State) : Result :=
  onRow (.faddS rd rs1 rs2 rm) s
    (withMode (.faddS rd rs1 rs2 rm) rm s fun m => completeFpS rd (fpAdd binary32 m (s.getSingle rs1) (s.getSingle rs2)) s)

/-- FSUB.S (R467): f[rd] <- s1 - s2, rounded. -/
def execFsubS (rd rs1 rs2 : Reg) (rm : RmField) (s : State) : Result :=
  onRow (.fsubS rd rs1 rs2 rm) s
    (withMode (.fsubS rd rs1 rs2 rm) rm s fun m => completeFpS rd (fpSub binary32 m (s.getSingle rs1) (s.getSingle rs2)) s)

/-- FMUL.S (R468): f[rd] <- s1 * s2, rounded. -/
def execFmulS (rd rs1 rs2 : Reg) (rm : RmField) (s : State) : Result :=
  onRow (.fmulS rd rs1 rs2 rm) s
    (withMode (.fmulS rd rs1 rs2 rm) rm s fun m => completeFpS rd (fpMul binary32 m (s.getSingle rs1) (s.getSingle rs2)) s)

/-- FDIV.S (R469): f[rd] <- s1 / s2, rounded. -/
def execFdivS (rd rs1 rs2 : Reg) (rm : RmField) (s : State) : Result :=
  onRow (.fdivS rd rs1 rs2 rm) s
    (withMode (.fdivS rd rs1 rs2 rm) rm s fun m => completeFpS rd (fpDiv binary32 m (s.getSingle rs1) (s.getSingle rs2)) s)

/-- FSQRT.S (R470): f[rd] <- the square root of s1, rounded. -/
def execFsqrtS (rd rs1 : Reg) (rm : RmField) (s : State) : Result :=
  onRow (.fsqrtS rd rs1 rm) s
    (withMode (.fsqrtS rd rs1 rm) rm s fun m => completeFpS rd (fpSqrt binary32 m (s.getSingle rs1)) s)

/-- FSGNJ.S (R471): f[rd] <- s1 with the sign of s2. -/
def execFsgnjS (rd rs1 rs2 : Reg) (s : State) : Result :=
  onRow (.fsgnjS rd rs1 rs2) s
    (completeS 4 rd (fpWithSign binary32 (fpSign binary32 (s.getSingle rs2)) (s.getSingle rs1)) s)

/-- FSGNJN.S (R472): f[rd] <- s1 with the opposite of the sign of s2. -/
def execFsgnjnS (rd rs1 rs2 : Reg) (s : State) : Result :=
  onRow (.fsgnjnS rd rs1 rs2) s
    (completeS 4 rd (fpWithSign binary32 (!fpSign binary32 (s.getSingle rs2)) (s.getSingle rs1)) s)

/-- FSGNJX.S (R473): f[rd] <- s1 with the exclusive or of the signs. -/
def execFsgnjxS (rd rs1 rs2 : Reg) (s : State) : Result :=
  onRow (.fsgnjxS rd rs1 rs2) s
    (completeS 4 rd (fpWithSign binary32 (fpSign binary32 (s.getSingle rs1) ^^ fpSign binary32 (s.getSingle rs2)) (s.getSingle rs1)) s)

/-- FMIN.S (R474): f[rd] <- the smaller of s1 and s2, NaNs by fminmax_edition. -/
def execFminS (rd rs1 rs2 : Reg) (s : State) : Result :=
  onRow (.fminS rd rs1 rs2) s (completeFpS rd (fpMin binary32 s.cfg.fminmax (s.getSingle rs1) (s.getSingle rs2)) s)

/-- FMAX.S (R475): f[rd] <- the larger of s1 and s2, NaNs by fminmax_edition. -/
def execFmaxS (rd rs1 rs2 : Reg) (s : State) : Result :=
  onRow (.fmaxS rd rs1 rs2) s (completeFpS rd (fpMax binary32 s.cfg.fminmax (s.getSingle rs1) (s.getSingle rs2)) s)

/-- FCVT.W.S (R476): x[rd] <- sext_32(to_int(rm, s1, -2^31, 2^31 - 1)). -/
def execFcvtWS (rd rs1 : Reg) (rm : RmField) (s : State) : Result :=
  onRow (.fcvtWS rd rs1 rm) s
    (withMode (.fcvtWS rd rs1 rm) rm s fun m =>
      let r := fpToInt binary32 m (-(2 ^ 31)) (2 ^ 31 - 1) (s.getSingle rs1)
      completeFpX rd (sextWord s.width (BitVec.ofInt 32 r.1)) r.2 s)

/-- FCVT.WU.S (R477): x[rd] <- sext_32(to_int(rm, s1, 0, 2^32 - 1)). -/
def execFcvtWuS (rd rs1 : Reg) (rm : RmField) (s : State) : Result :=
  onRow (.fcvtWuS rd rs1 rm) s
    (withMode (.fcvtWuS rd rs1 rm) rm s fun m =>
      let r := fpToInt binary32 m 0 (2 ^ 32 - 1) (s.getSingle rs1)
      completeFpX rd (sextWord s.width (BitVec.ofInt 32 r.1)) r.2 s)

/-- FMV.X.W (R478): x[rd] <- sext_32(f[rs1][31:0]). -/
def execFmvXW (rd rs1 : Reg) (s : State) : Result :=
  onRow (.fmvXW rd rs1) s (completeX 4 rd (sextWord s.width (s.getSingleBits rs1)) s)

/-- FEQ.S (R479): x[rd] <- if neither is a NaN and s1 = s2 then 1 else 0. -/
def execFeqS (rd rs1 rs2 : Reg) (s : State) : Result :=
  onRow (.feqS rd rs1 rs2) s
    (completeFpX rd (boolValue s.width (fpEq binary32 (s.getSingle rs1) (s.getSingle rs2)).1) (fpEq binary32 (s.getSingle rs1) (s.getSingle rs2)).2 s)

/-- FLT.S (R480): x[rd] <- if neither is a NaN and s1 < s2 then 1 else 0. -/
def execFltS (rd rs1 rs2 : Reg) (s : State) : Result :=
  onRow (.fltS rd rs1 rs2) s
    (completeFpX rd (boolValue s.width (fpLt binary32 (s.getSingle rs1) (s.getSingle rs2)).1) (fpLt binary32 (s.getSingle rs1) (s.getSingle rs2)).2 s)

/-- FLE.S (R481): x[rd] <- if neither is a NaN and s1 <= s2 then 1 else 0. -/
def execFleS (rd rs1 rs2 : Reg) (s : State) : Result :=
  onRow (.fleS rd rs1 rs2) s
    (completeFpX rd (boolValue s.width (fpLe binary32 (s.getSingle rs1) (s.getSingle rs2)).1) (fpLe binary32 (s.getSingle rs1) (s.getSingle rs2)).2 s)

/-- FCLASS.S (R482): x[rd] <- 1 << the class of s1. -/
def execFclassS (rd rs1 : Reg) (s : State) : Result :=
  onRow (.fclassS rd rs1) s (completeX 4 rd (1#s.width <<< fpClass binary32 (s.getSingle rs1)) s)

/-- FCVT.S.W (R483): f[rd] <- signed(x[rs1][31:0]), rounded. -/
def execFcvtSW (rd rs1 : Reg) (rm : RmField) (s : State) : Result :=
  onRow (.fcvtSW rd rs1 rm) s
    (withMode (.fcvtSW rd rs1 rm) rm s fun m => completeFpS rd (fpOfInt binary32 32 m ((s.rx rs1).setWidth 32).toInt) s)

/-- FCVT.S.WU (R484): f[rd] <- unsigned(x[rs1][31:0]), rounded. -/
def execFcvtSWu (rd rs1 : Reg) (rm : RmField) (s : State) : Result :=
  onRow (.fcvtSWu rd rs1 rm) s
    (withMode (.fcvtSWu rd rs1 rm) rm s fun m => completeFpS rd (fpOfInt binary32 32 m ((s.rx rs1).setWidth 32).toNat) s)

/-- FMV.W.X (R485): f[rd] <- box(x[rs1][31:0]). -/
def execFmvWX (rd rs1 : Reg) (s : State) : Result :=
  onRow (.fmvWX rd rs1) s (completeS 4 rd ((s.rx rs1).setWidth 32) s)

/-- FCVT.L.S (R486): x[rd] <- to_int(rm, s1, -2^63, 2^63 - 1). -/
def execFcvtLS (rd rs1 : Reg) (rm : RmField) (s : State) : Result :=
  onRow (.fcvtLS rd rs1 rm) s
    (withMode (.fcvtLS rd rs1 rm) rm s fun m =>
      let r := fpToInt binary32 m (-(2 ^ 63)) (2 ^ 63 - 1) (s.getSingle rs1)
      completeFpX rd (BitVec.ofInt s.width r.1) r.2 s)

/-- FCVT.LU.S (R487): x[rd] <- to_int(rm, s1, 0, 2^64 - 1). -/
def execFcvtLuS (rd rs1 : Reg) (rm : RmField) (s : State) : Result :=
  onRow (.fcvtLuS rd rs1 rm) s
    (withMode (.fcvtLuS rd rs1 rm) rm s fun m =>
      let r := fpToInt binary32 m 0 (2 ^ 64 - 1) (s.getSingle rs1)
      completeFpX rd (BitVec.ofInt s.width r.1) r.2 s)

/-- FCVT.S.L (R488): f[rd] <- signed(x[rs1]), rounded. -/
def execFcvtSL (rd rs1 : Reg) (rm : RmField) (s : State) : Result :=
  onRow (.fcvtSL rd rs1 rm) s
    (withMode (.fcvtSL rd rs1 rm) rm s fun m => completeFpS rd (fpOfInt binary32 32 m ((s.rx rs1).setWidth 64).toInt) s)

/-- FCVT.S.LU (R489): f[rd] <- unsigned(x[rs1]), rounded. -/
def execFcvtSLu (rd rs1 : Reg) (rm : RmField) (s : State) : Result :=
  onRow (.fcvtSLu rd rs1 rm) s
    (withMode (.fcvtSLu rd rs1 rm) rm s fun m => completeFpS rd (fpOfInt binary32 32 m ((s.rx rs1).setWidth 64).toNat) s)

end Sys2Proof.Machine
end

