-- ==== Sys2Proof/Machine/MulDiv.lean ====
section
/-! DEFINITION. The M extension (45_rv_m.md, R390-R404). -/

namespace Sys2Proof.Machine

/-- The upper half of an exact product, as w bits (R393-R395). -/
def mulHigh (w : Nat) (a b : Int) : BitVec w := BitVec.ofInt w (a * b / 2 ^ w)

/-- The signed overflow case of R391: -2^(L-1) divided by -1. -/
def divOverflows {w : Nat} (a b : BitVec w) : Bool := a == BitVec.intMin w && b == BitVec.allOnes w

/-- Signed quotient (R391): all ones for a zero divisor, the dividend on overflow, else rounded toward zero. -/
def divSigned {w : Nat} (a b : BitVec w) : BitVec w :=
  if b = 0 then BitVec.allOnes w
  else if divOverflows a b then a
  else BitVec.ofInt w (a.toInt.tdiv b.toInt)

/-- Unsigned quotient (R391): 2^L - 1 for a zero divisor. -/
def divUnsigned {w : Nat} (a b : BitVec w) : BitVec w :=
  if b = 0 then BitVec.allOnes w else BitVec.ofNat w (a.toNat / b.toNat)

/-- Signed remainder (R391): the dividend for a zero divisor, 0 on overflow, else with the dividend's sign. -/
def remSigned {w : Nat} (a b : BitVec w) : BitVec w :=
  if b = 0 then a
  else if divOverflows a b then 0
  else BitVec.ofInt w (a.toInt.tmod b.toInt)

/-- Unsigned remainder (R391): the dividend for a zero divisor. -/
def remUnsigned {w : Nat} (a b : BitVec w) : BitVec w :=
  if b = 0 then a else BitVec.ofNat w (a.toNat % b.toNat)

/-- MUL (R392): x[rd] <- (x[rs1] * x[rs2])[XLEN-1:0]. -/
def execMul (rd rs1 rs2 : Reg) (s : State) : Result :=
  onRow (.mul rd rs1 rs2) s (completeX 4 rd (s.rx rs1 * s.rx rs2) s)

/-- MULH (R393): x[rd] <- (signed(x[rs1]) * signed(x[rs2]))[2*XLEN-1:XLEN]. -/
def execMulh (rd rs1 rs2 : Reg) (s : State) : Result :=
  onRow (.mulh rd rs1 rs2) s (completeX 4 rd (mulHigh s.width (s.rx rs1).toInt (s.rx rs2).toInt) s)

/-- MULHSU (R394): x[rd] <- (signed(x[rs1]) * unsigned(x[rs2]))[2*XLEN-1:XLEN]. -/
def execMulhsu (rd rs1 rs2 : Reg) (s : State) : Result :=
  onRow (.mulhsu rd rs1 rs2) s (completeX 4 rd (mulHigh s.width (s.rx rs1).toInt (s.rx rs2).toNat) s)

/-- MULHU (R395): x[rd] <- (unsigned(x[rs1]) * unsigned(x[rs2]))[2*XLEN-1:XLEN]. -/
def execMulhu (rd rs1 rs2 : Reg) (s : State) : Result :=
  onRow (.mulhu rd rs1 rs2) s (completeX 4 rd (mulHigh s.width (s.rx rs1).toNat (s.rx rs2).toNat) s)

/-- DIV (R396): x[rd] <- signed quotient of R391. -/
def execDiv (rd rs1 rs2 : Reg) (s : State) : Result :=
  onRow (.div rd rs1 rs2) s (completeX 4 rd (divSigned (s.rx rs1) (s.rx rs2)) s)

/-- DIVU (R397): x[rd] <- unsigned quotient of R391. -/
def execDivu (rd rs1 rs2 : Reg) (s : State) : Result :=
  onRow (.divu rd rs1 rs2) s (completeX 4 rd (divUnsigned (s.rx rs1) (s.rx rs2)) s)

/-- REM (R398): x[rd] <- signed remainder of R391. -/
def execRem (rd rs1 rs2 : Reg) (s : State) : Result :=
  onRow (.rem rd rs1 rs2) s (completeX 4 rd (remSigned (s.rx rs1) (s.rx rs2)) s)

/-- REMU (R399): x[rd] <- unsigned remainder of R391. -/
def execRemu (rd rs1 rs2 : Reg) (s : State) : Result :=
  onRow (.remu rd rs1 rs2) s (completeX 4 rd (remUnsigned (s.rx rs1) (s.rx rs2)) s)

/-- MULW (R400): x[rd] <- sext_32((x[rs1][31:0] * x[rs2][31:0])[31:0]). -/
def execMulw (rd rs1 rs2 : Reg) (s : State) : Result :=
  onRow (.mulw rd rs1 rs2) s
    (completeX 4 rd (sextWord s.width (((s.rx rs1).setWidth 32) * ((s.rx rs2).setWidth 32))) s)

/-- DIVW (R401): x[rd] <- sext_32(signed quotient of R391 with L = 32). -/
def execDivw (rd rs1 rs2 : Reg) (s : State) : Result :=
  onRow (.divw rd rs1 rs2) s
    (completeX 4 rd (sextWord s.width (divSigned ((s.rx rs1).setWidth 32) ((s.rx rs2).setWidth 32))) s)

/-- DIVUW (R402): x[rd] <- sext_32(unsigned quotient of R391 with L = 32). -/
def execDivuw (rd rs1 rs2 : Reg) (s : State) : Result :=
  onRow (.divuw rd rs1 rs2) s
    (completeX 4 rd (sextWord s.width (divUnsigned ((s.rx rs1).setWidth 32) ((s.rx rs2).setWidth 32))) s)

/-- REMW (R403): x[rd] <- sext_32(signed remainder of R391 with L = 32). -/
def execRemw (rd rs1 rs2 : Reg) (s : State) : Result :=
  onRow (.remw rd rs1 rs2) s
    (completeX 4 rd (sextWord s.width (remSigned ((s.rx rs1).setWidth 32) ((s.rx rs2).setWidth 32))) s)

/-- REMUW (R404): x[rd] <- sext_32(unsigned remainder of R391 with L = 32). -/
def execRemuw (rd rs1 rs2 : Reg) (s : State) : Result :=
  onRow (.remuw rd rs1 rs2) s
    (completeX 4 rd (sextWord s.width (remUnsigned ((s.rx rs1).setWidth 32) ((s.rx rs2).setWidth 32))) s)

end Sys2Proof.Machine
end

