-- ==== Sys2Proof/Machine/QuadrantOne.lean ====
section
/-! DEFINITION. The rows of Table 12.5 and the unlisted code points (41_rvc_quadrant1.md, R220-R243). -/

namespace Sys2Proof.Machine

/-- C.NOP (R220): nop. -/
def execCNop (s : State) : Result :=
  onRow .cNop s (complete 2 s)

/-- C.ADDI (R221): x[rd] <- x[rd] + sext(nzimm); nzimm = 0 is a HINT, nop. -/
def execCAddi (rd : Reg) (nzimm : BitVec 6) (s : State) : Result :=
  onRow (.cAddi rd nzimm) s
    (if nzimm = 0 then complete 2 s else completeX 2 rd (s.rx rd + signedImm s.width nzimm 0) s)

/-- UNLISTED (R243): under q1_rd0_nzimm_policy = illegal raises IllegalInstruction, under nop it is nop (R137). -/
def execUnlisted (imm6 : BitVec 6) (s : State) : Result :=
  onRow (.unlisted imm6) s (if s.cfg.unlisted = .nop then complete 2 s else raiseIllegal (.unlisted imm6) s)

/-- C.JAL (R222): x[1] <- pc + 2; pc <- pc + sext(offset). -/
def execCJal (offset : BitVec 11) (s : State) : Result :=
  onRow (.cJal offset) s (jumpLink 2 1 (s.rpc + signedImm s.width offset 1) s)

/-- C.ADDIW (R223): x[rd] <- sext((x[rd] + sext(imm))[31:0]). -/
def execCAddiw (rd : Reg) (imm : BitVec 6) (s : State) : Result :=
  onRow (.cAddiw rd imm) s (completeX 2 rd (sextWord s.width ((s.rx rd + signedImm s.width imm 0).setWidth 32)) s)

/-- C.LI (R224): x[rd] <- sext(imm); rd = 0 is a HINT, nop. -/
def execCLi (rd : Reg) (imm : BitVec 6) (s : State) : Result :=
  onRow (.cLi rd imm) s (if rd = 0 then complete 2 s else completeX 2 rd (signedImm s.width imm 0) s)

/-- C.ADDI16SP (R225): x[2] <- x[2] + sext(nzimm). -/
def execCAddi16sp (nzimm : BitVec 6) (s : State) : Result :=
  onRow (.cAddi16sp nzimm) s (completeX 2 2 (s.rx 2 + signedImm s.width nzimm 4) s)

/-- C.LUI (R226): x[rd] <- sext(nzimm); rd = 0 is a HINT, nop. -/
def execCLui (rd : Reg) (nzimm : BitVec 6) (s : State) : Result :=
  onRow (.cLui rd nzimm) s (if rd = 0 then complete 2 s else completeX 2 rd (signedImm s.width nzimm 12) s)

/-- C.SRLI (R227): x[8+rd] <- x[8+rd] >>u shamt. -/
def execCSrli (rd : CReg) (shamt : BitVec 6) (s : State) : Result :=
  onRow (.cSrli rd shamt) s (completeX 2 (primed rd) (s.rx (primed rd) >>> rvcShamt s.cfg.xlen shamt) s)

/-- C.SRLI64 (R228): x[8+rd] <- x[8+rd] >>u 64 with XLEN = 128, else a HINT, nop. -/
def execCSrli64 (rd : CReg) (s : State) : Result :=
  onRow (.cSrli64 rd) s
    (if s.cfg.xlen = .rv128 then completeX 2 (primed rd) (s.rx (primed rd) >>> rvcShamt s.cfg.xlen 0) s
     else complete 2 s)

/-- C.SRAI (R229): x[8+rd] <- x[8+rd] >>s shamt. -/
def execCSrai (rd : CReg) (shamt : BitVec 6) (s : State) : Result :=
  onRow (.cSrai rd shamt) s (completeX 2 (primed rd) ((s.rx (primed rd)).sshiftRight (rvcShamt s.cfg.xlen shamt)) s)

/-- C.SRAI64 (R230): x[8+rd] <- x[8+rd] >>s 64 with XLEN = 128, else a HINT, nop. -/
def execCSrai64 (rd : CReg) (s : State) : Result :=
  onRow (.cSrai64 rd) s
    (if s.cfg.xlen = .rv128 then
       completeX 2 (primed rd) ((s.rx (primed rd)).sshiftRight (rvcShamt s.cfg.xlen 0)) s
     else complete 2 s)

/-- C.ANDI (R231): x[8+rd] <- x[8+rd] & sext(imm). -/
def execCAndi (rd : CReg) (imm : BitVec 6) (s : State) : Result :=
  onRow (.cAndi rd imm) s (completeX 2 (primed rd) (s.rx (primed rd) &&& signedImm s.width imm 0) s)

/-- C.SUB (R232): x[8+rd] <- x[8+rd] - x[8+rs2]. -/
def execCSub (rd rs2 : CReg) (s : State) : Result :=
  onRow (.cSub rd rs2) s (completeX 2 (primed rd) (s.rx (primed rd) - s.rx (primed rs2)) s)

/-- C.XOR (R233): x[8+rd] <- x[8+rd] ^ x[8+rs2]. -/
def execCXor (rd rs2 : CReg) (s : State) : Result :=
  onRow (.cXor rd rs2) s (completeX 2 (primed rd) (s.rx (primed rd) ^^^ s.rx (primed rs2)) s)

/-- C.OR (R234): x[8+rd] <- x[8+rd] | x[8+rs2]. -/
def execCOr (rd rs2 : CReg) (s : State) : Result :=
  onRow (.cOr rd rs2) s (completeX 2 (primed rd) (s.rx (primed rd) ||| s.rx (primed rs2)) s)

/-- C.AND (R235): x[8+rd] <- x[8+rd] & x[8+rs2]. -/
def execCAnd (rd rs2 : CReg) (s : State) : Result :=
  onRow (.cAnd rd rs2) s (completeX 2 (primed rd) (s.rx (primed rd) &&& s.rx (primed rs2)) s)

/-- C.SUBW (R236): x[8+rd] <- sext((x[8+rd] - x[8+rs2])[31:0]). -/
def execCSubw (rd rs2 : CReg) (s : State) : Result :=
  onRow (.cSubw rd rs2) s
    (completeX 2 (primed rd) (sextWord s.width ((s.rx (primed rd) - s.rx (primed rs2)).setWidth 32)) s)

/-- C.ADDW (R237): x[8+rd] <- sext((x[8+rd] + x[8+rs2])[31:0]). -/
def execCAddw (rd rs2 : CReg) (s : State) : Result :=
  onRow (.cAddw rd rs2) s
    (completeX 2 (primed rd) (sextWord s.width ((s.rx (primed rd) + s.rx (primed rs2)).setWidth 32)) s)

/-- RESERVED (R238): always raises IllegalInstruction. -/
def execReservedQ1a (hi lo : BitVec 3) (s : State) : Result :=
  reservedEncoding (Instr.reservedQ1a hi lo).encode.info s

/-- RESERVED (R239): always raises IllegalInstruction. -/
def execReservedQ1b (hi lo : BitVec 3) (s : State) : Result :=
  reservedEncoding (Instr.reservedQ1b hi lo).encode.info s

/-- C.J (R240): pc <- pc + sext(offset). -/
def execCJ (offset : BitVec 11) (s : State) : Result :=
  onRow (.cJ offset) s (jump (s.rpc + signedImm s.width offset 1) s)

/-- C.BEQZ (R241): if x[8+rs1] = 0 then pc <- pc + sext(offset) else pc <- pc + 2. -/
def execCBeqz (rs1 : CReg) (offset : BitVec 8) (s : State) : Result :=
  onRow (.cBeqz rs1 offset) s (branch 2 (s.rx (primed rs1) == 0) s (signedImm s.width offset 1))

/-- C.BNEZ (R242): if x[8+rs1] != 0 then pc <- pc + sext(offset) else pc <- pc + 2. -/
def execCBnez (rs1 : CReg) (offset : BitVec 8) (s : State) : Result :=
  onRow (.cBnez rs1 offset) s (branch 2 (s.rx (primed rs1) != 0) s (signedImm s.width offset 1))

end Sys2Proof.Machine
end

