-- ==== Sys2Proof/Machine/QuadrantTwo.lean ====
section
/-! DEFINITION. The rows of Table 12.6 (42_rvc_quadrant2.md, R260-R276). -/

namespace Sys2Proof.Machine

/-- C.SLLI (R260): x[rd] <- x[rd] << shamt; rd = 0 is a HINT, nop. -/
def execCSlli (rd : Reg) (shamt : BitVec 6) (s : State) : Result :=
  onRow (.cSlli rd shamt) s
    (if rd = 0 then complete 2 s else completeX 2 rd (s.rx rd <<< rvcShamt s.cfg.xlen shamt) s)

/-- C.SLLI64 (R261): x[rd] <- x[rd] << 64 with XLEN = 128 and rd not 0, else a HINT, nop. -/
def execCSlli64 (rd : Reg) (s : State) : Result :=
  onRow (.cSlli64 rd) s
    (if s.cfg.xlen = .rv128 ∧ rd ≠ 0 then completeX 2 rd (s.rx rd <<< rvcShamt s.cfg.xlen 0) s
     else complete 2 s)

/-- C.FLDSP (R262): f[rd] <- MemRead(x[2] + zext(uimm), 8). -/
def execCFldsp (rd : Reg) (uimm : BitVec 6) (s : State) : Result :=
  onRow (.cFldsp rd uimm) s (load 8 (s.rx 2 + unsignedImm s.width uimm 3) s fun v => completeD 2 rd v s)

/-- C.LQSP (R263): x[rd] <- MemRead(x[2] + zext(uimm), 16). -/
def execCLqsp (rd : Reg) (uimm : BitVec 6) (s : State) : Result :=
  onRow (.cLqsp rd uimm) s
    (load 16 (s.rx 2 + unsignedImm s.width uimm 4) s fun v => completeX 2 rd (v.setWidth s.width) s)

/-- C.LWSP (R264): x[rd] <- sext(MemRead(x[2] + zext(uimm), 4)). -/
def execCLwsp (rd : Reg) (uimm : BitVec 6) (s : State) : Result :=
  onRow (.cLwsp rd uimm) s
    (load 4 (s.rx 2 + unsignedImm s.width uimm 2) s fun v => completeX 2 rd (v.signExtend s.width) s)

/-- C.FLWSP (R265): f[rd] <- box(MemRead(x[2] + zext(uimm), 4)). -/
def execCFlwsp (rd : Reg) (uimm : BitVec 6) (s : State) : Result :=
  onRow (.cFlwsp rd uimm) s (load 4 (s.rx 2 + unsignedImm s.width uimm 2) s fun v => completeS 2 rd v s)

/-- C.LDSP (R266): x[rd] <- sext(MemRead(x[2] + zext(uimm), 8)). -/
def execCLdsp (rd : Reg) (uimm : BitVec 6) (s : State) : Result :=
  onRow (.cLdsp rd uimm) s
    (load 8 (s.rx 2 + unsignedImm s.width uimm 3) s fun v => completeX 2 rd (v.signExtend s.width) s)

/-- C.JR (R267): pc <- x[rs1] & ~1. -/
def execCJr (rs1 : Reg) (s : State) : Result :=
  onRow (.cJr rs1) s (jump (evenTarget (s.rx rs1)) s)

/-- C.MV (R268): x[rd] <- x[rs2]; rd = 0 is a HINT, nop. -/
def execCMv (rd rs2 : Reg) (s : State) : Result :=
  onRow (.cMv rd rs2) s (if rd = 0 then complete 2 s else completeX 2 rd (s.rx rs2) s)

/-- C.EBREAK (R269): always raises Breakpoint(pc). -/
def execCEbreak (s : State) : Result :=
  raise .breakpoint s.pc s

/-- C.JALR (R270): t <- pc + 2; pc <- x[rs1] & ~1; x[1] <- t. -/
def execCJalr (rs1 : Reg) (s : State) : Result :=
  onRow (.cJalr rs1) s (jumpLink 2 1 (evenTarget (s.rx rs1)) s)

/-- C.ADD (R271): x[rd] <- x[rd] + x[rs2]; rd = 0 is a HINT, nop. -/
def execCAdd (rd rs2 : Reg) (s : State) : Result :=
  onRow (.cAdd rd rs2) s (if rd = 0 then complete 2 s else completeX 2 rd (s.rx rd + s.rx rs2) s)

/-- C.FSDSP (R272): MemWrite(x[2] + zext(uimm), 8, f[rs2]). -/
def execCFsdsp (rs2 : Reg) (uimm : BitVec 6) (s : State) : Result :=
  onRow (.cFsdsp rs2 uimm) s (store 2 8 (s.rx 2 + unsignedImm s.width uimm 3) (s.getF rs2) s)

/-- C.SQSP (R273): MemWrite(x[2] + zext(uimm), 16, x[rs2]). -/
def execCSqsp (rs2 : Reg) (uimm : BitVec 6) (s : State) : Result :=
  onRow (.cSqsp rs2 uimm) s (store 2 16 (s.rx 2 + unsignedImm s.width uimm 4) (s.rx rs2) s)

/-- C.SWSP (R274): MemWrite(x[2] + zext(uimm), 4, x[rs2][31:0]). -/
def execCSwsp (rs2 : Reg) (uimm : BitVec 6) (s : State) : Result :=
  onRow (.cSwsp rs2 uimm) s (store 2 4 (s.rx 2 + unsignedImm s.width uimm 2) (s.rx rs2) s)

/-- C.FSWSP (R275): MemWrite(x[2] + zext(uimm), 4, f[rs2][31:0]). -/
def execCFswsp (rs2 : Reg) (uimm : BitVec 6) (s : State) : Result :=
  onRow (.cFswsp rs2 uimm) s (store 2 4 (s.rx 2 + unsignedImm s.width uimm 2) (s.getSingleBits rs2) s)

/-- C.SDSP (R276): MemWrite(x[2] + zext(uimm), 8, x[rs2][63:0]). -/
def execCSdsp (rs2 : Reg) (uimm : BitVec 6) (s : State) : Result :=
  onRow (.cSdsp rs2 uimm) s (store 2 8 (s.rx 2 + unsignedImm s.width uimm 3) (s.rx rs2) s)

end Sys2Proof.Machine
end

