-- ==== Sys2Proof/Machine/QuadrantZero.lean ====
section
/-! DEFINITION. The 13 rows of Table 12.4 (40_rvc_quadrant0.md, R200-R212). -/

namespace Sys2Proof.Machine

/-- ILLEGAL (R200): the all-zero parcel always raises IllegalInstruction. -/
def execIllegal (s : State) : Result :=
  raiseIllegal .illegal s

/-- C.ADDI4SPN (R201): x[8+rd] <- x[2] + zext(nzuimm). -/
def execCAddi4spn (rd : CReg) (nzuimm : BitVec 8) (s : State) : Result :=
  onRow (.cAddi4spn rd nzuimm) s (completeX 2 (primed rd) (s.rx 2 + unsignedImm s.width nzuimm 2) s)

/-- C.FLD (R202): f[8+rd] <- MemRead(x[8+rs1] + zext(uimm), 8). -/
def execCFld (rd rs1 : CReg) (uimm : BitVec 5) (s : State) : Result :=
  onRow (.cFld rd rs1 uimm) s
    (load 8 (s.rx (primed rs1) + unsignedImm s.width uimm 3) s fun v => completeD 2 (primed rd) v s)

/-- C.LQ (R203): x[8+rd] <- MemRead(x[8+rs1] + zext(uimm), 16). -/
def execCLq (rd rs1 : CReg) (uimm : BitVec 5) (s : State) : Result :=
  onRow (.cLq rd rs1 uimm) s
    (load 16 (s.rx (primed rs1) + unsignedImm s.width uimm 4) s fun v => completeX 2 (primed rd) (v.setWidth s.width) s)

/-- C.LW (R204): x[8+rd] <- sext(MemRead(x[8+rs1] + zext(uimm), 4)). -/
def execCLw (rd rs1 : CReg) (uimm : BitVec 5) (s : State) : Result :=
  onRow (.cLw rd rs1 uimm) s
    (load 4 (s.rx (primed rs1) + unsignedImm s.width uimm 2) s fun v => completeX 2 (primed rd) (v.signExtend s.width) s)

/-- C.FLW (R205): f[8+rd] <- box(MemRead(x[8+rs1] + zext(uimm), 4)). -/
def execCFlw (rd rs1 : CReg) (uimm : BitVec 5) (s : State) : Result :=
  onRow (.cFlw rd rs1 uimm) s
    (load 4 (s.rx (primed rs1) + unsignedImm s.width uimm 2) s fun v => completeS 2 (primed rd) v s)

/-- C.LD (R206): x[8+rd] <- sext(MemRead(x[8+rs1] + zext(uimm), 8)). -/
def execCLd (rd rs1 : CReg) (uimm : BitVec 5) (s : State) : Result :=
  onRow (.cLd rd rs1 uimm) s
    (load 8 (s.rx (primed rs1) + unsignedImm s.width uimm 3) s fun v => completeX 2 (primed rd) (v.signExtend s.width) s)

/-- RESERVED (R207): quadrant 0, funct3 = 100 always raises IllegalInstruction. -/
def execReservedQ0 (payload : BitVec 11) (s : State) : Result :=
  reservedEncoding (Instr.reservedQ0 payload).encode.info s

/-- C.FSD (R208): MemWrite(x[8+rs1] + zext(uimm), 8, f[8+rs2]). -/
def execCFsd (rs2 rs1 : CReg) (uimm : BitVec 5) (s : State) : Result :=
  onRow (.cFsd rs2 rs1 uimm) s (store 2 8 (s.rx (primed rs1) + unsignedImm s.width uimm 3) (s.getF (primed rs2)) s)

/-- C.SQ (R209): MemWrite(x[8+rs1] + zext(uimm), 16, x[8+rs2]). -/
def execCSq (rs2 rs1 : CReg) (uimm : BitVec 5) (s : State) : Result :=
  onRow (.cSq rs2 rs1 uimm) s (store 2 16 (s.rx (primed rs1) + unsignedImm s.width uimm 4) (s.rx (primed rs2)) s)

/-- C.SW (R210): MemWrite(x[8+rs1] + zext(uimm), 4, x[8+rs2][31:0]). -/
def execCSw (rs2 rs1 : CReg) (uimm : BitVec 5) (s : State) : Result :=
  onRow (.cSw rs2 rs1 uimm) s (store 2 4 (s.rx (primed rs1) + unsignedImm s.width uimm 2) (s.rx (primed rs2)) s)

/-- C.FSW (R211): MemWrite(x[8+rs1] + zext(uimm), 4, f[8+rs2][31:0]). -/
def execCFsw (rs2 rs1 : CReg) (uimm : BitVec 5) (s : State) : Result :=
  onRow (.cFsw rs2 rs1 uimm) s
    (store 2 4 (s.rx (primed rs1) + unsignedImm s.width uimm 2) (s.getSingleBits (primed rs2)) s)

/-- C.SD (R212): MemWrite(x[8+rs1] + zext(uimm), 8, x[8+rs2][63:0]). -/
def execCSd (rs2 rs1 : CReg) (uimm : BitVec 5) (s : State) : Result :=
  onRow (.cSd rs2 rs1 uimm) s (store 2 8 (s.rx (primed rs1) + unsignedImm s.width uimm 3) (s.rx (primed rs2)) s)

end Sys2Proof.Machine
end

