-- ==== Sys2Proof/Machine/System.lean ====
section
/-! DEFINITION. Fences, environment call, breakpoint and CSR instructions (43_rv32i_base.md, R305, R347-R356). -/

namespace Sys2Proof.Machine

/-- FENCE (R347): nop: with one hart and no device, pred and succ order nothing observable (R82). -/
def execFence (pred succ : BitVec 4) (s : State) : Result :=
  onRow (.fence pred succ) s (match s.cfg.nharts with | .one => complete 4 s)

/-- FENCE.I (R348): dirty <- the empty set (R86). -/
def execFenceI (s : State) : Result :=
  onRow .fenceI s (complete 4 { s with dirty := [] })

/-- ECALL (R349): always raises EnvironmentCall(0). -/
def execEcall (s : State) : Result :=
  raise .environmentCall 0 s

/-- EBREAK (R350): always raises Breakpoint(pc). -/
def execEbreak (s : State) : Result :=
  raise .breakpoint s.pc s

/-- CSRRW (R351): if rd != 0 then t <- CSR[csr]; CSR[csr] <- x[rs1]; if rd != 0 then x[rd] <- t. -/
def execCsrrw (rd rs1 : Reg) (csr : CsrNum) (s : State) : Result :=
  onRow (.csrrw rd rs1 csr) s (csrAccess (.csrrw rd rs1 csr) csr rd (rd != 0) true s fun _ => s.rx rs1)

/-- CSRRS (R352): t <- CSR[csr]; if rs1 != 0 then CSR[csr] <- t | x[rs1]; x[rd] <- t. -/
def execCsrrs (rd rs1 : Reg) (csr : CsrNum) (s : State) : Result :=
  onRow (.csrrs rd rs1 csr) s (csrAccess (.csrrs rd rs1 csr) csr rd true (rs1 != 0) s fun t => t ||| s.rx rs1)

/-- CSRRC (R353): t <- CSR[csr]; if rs1 != 0 then CSR[csr] <- t & ~x[rs1]; x[rd] <- t. -/
def execCsrrc (rd rs1 : Reg) (csr : CsrNum) (s : State) : Result :=
  onRow (.csrrc rd rs1 csr) s (csrAccess (.csrrc rd rs1 csr) csr rd true (rs1 != 0) s fun t => t &&& ~~~(s.rx rs1))

/-- CSRRWI (R354): if rd != 0 then t <- CSR[csr]; CSR[csr] <- zext(zimm); if rd != 0 then x[rd] <- t. -/
def execCsrrwi (rd : Reg) (zimm : BitVec 5) (csr : CsrNum) (s : State) : Result :=
  onRow (.csrrwi rd zimm csr) s
    (csrAccess (.csrrwi rd zimm csr) csr rd (rd != 0) true s fun _ => zimm.setWidth s.width)

/-- CSRRSI (R355): t <- CSR[csr]; if zimm != 0 then CSR[csr] <- t | zext(zimm); x[rd] <- t. -/
def execCsrrsi (rd : Reg) (zimm : BitVec 5) (csr : CsrNum) (s : State) : Result :=
  onRow (.csrrsi rd zimm csr) s
    (csrAccess (.csrrsi rd zimm csr) csr rd true (zimm != 0) s fun t => t ||| zimm.setWidth s.width)

/-- CSRRCI (R356): t <- CSR[csr]; if zimm != 0 then CSR[csr] <- t & ~zext(zimm); x[rd] <- t. -/
def execCsrrci (rd : Reg) (zimm : BitVec 5) (csr : CsrNum) (s : State) : Result :=
  onRow (.csrrci rd zimm csr) s
    (csrAccess (.csrrci rd zimm csr) csr rd true (zimm != 0) s fun t => t &&& ~~~(zimm.setWidth s.width))

end Sys2Proof.Machine
end

