-- ==== Sys2Proof/Machine/Fetch.lean ====
section
/-! DEFINITION. The fetch procedure (R63) with the refusals of R27, R64 and R86, and the placing of one instruction
where the next step fetches. -/

namespace Sys2Proof.Machine

/-- What a fetch gives: the bytes of the instruction at pc, or the way the step stops. -/
inductive Fetched where
  | bytes (bs : List Byte)
  | stop (r : Result)

/-- Fetch the two bytes at `a` (R63): they must not straddle the top of the address space (R27, R64), must be valid
(R603) and must not be dirty (R86); `notes/assumptions/17.md` fixes the order. -/
def fetchParcel (s : State) (a : Nat) : Fetched :=
  if 2 ^ s.width < a + 2 then .stop (.refused .wrapsAddressSpace)
  else if s.memValid .fetch 2 a = false then .stop (raise .instructionAccessFault (BitVec.ofNat 128 a) s)
  else if AddrSet.touches s.dirty 2 a then .stop (.refused .dirtyFetch)
  else .bytes [Memory.readByte s.mem a, Memory.readByte s.mem (a + 1)]

/-- The fetch procedure (R63, R612): the low parcel gives the length; a length above ILEN stops before the second
parcel is read, with the first parcel as info (R118). -/
def fetch (s : State) : Fetched :=
  match fetchParcel s s.rpc.toNat with
  | .bytes [b0, b1] =>
    if isTooLong s.cfg (b1 ++ b0) then .stop (raise .illegalInstruction ((b1 ++ b0).setWidth 128) s)
    else if isWide (b1 ++ b0) then
      match fetchParcel s (s.rpc.toNat + 2) with
      | .bytes hi => .bytes ([b0, b1] ++ hi)
      | .stop r => .stop r
    else .bytes [b0, b1]
  | r => r

/-- The number whose little-endian bytes are `bs` (R64). -/
def bytesValue : List Byte → Nat
  | [] => 0
  | b :: bs => b.toNat + 256 * bytesValue bs

/-- Decode what was fetched; bits that are no instruction do what `reserved_policy` says, with those bits as info (R118,
R604). -/
def decodeFetched (bs : List Byte) (s : State) (k : Instr → Result) : Result :=
  match decode s.cfg bs with
  | .instr i => k i
  | .bad _ => reservedEncoding (BitVec.ofNat 128 (bytesValue bs)) s

/-- Fetch, decode and execute (R660), except on a machine with XLEN = 128, which is refused (D1, U21). -/
def runInstruction (ex : Instr → State → Result) (s : State) : Result :=
  if s.cfg.xlen = .rv128 then .refused .rv128Execution
  else
    match fetch s with
    | .stop r => r
    | .bytes bs => decodeFetched bs s fun i => ex i s

/-! ### Placing an instruction -/

/-- Write bytes one after the other from address `a`. -/
def placeBytes (m : List Host.Cell) : List Byte → Nat → List Host.Cell
  | [], _ => m
  | b :: bs, a => placeBytes (Memory.insert m a b) bs (a + 1)

/-- Whether the table's word decodes at this XLEN. -/
def decodesAt (c : Config) (x : Xlen) (nbits w : Nat) : Bool :=
  match decode { c with xlen := x } (tableBytes nbits w) with
  | .instr _ => true
  | .bad _ => false

/-- The XLEN a loader launches the word's program with: the present one, or else one at which the word is an
instruction (R655; `notes/assumptions/3.md`). -/
def launchXlen (c : Config) (nbits w : Nat) : Xlen :=
  if decodesAt c c.xlen nbits w then c.xlen
  else if decodesAt c .rv64 nbits w then .rv64
  else if decodesAt c .rv32 nbits w then .rv32
  else if decodesAt c .rv128 nbits w then .rv128
  else c.xlen

/-- The state with the word's bytes loaded at pc, clean and fetchable, as the loader of R655 leaves them. -/
def loadWord (s : State) (nbits w : Nat) : State :=
  let a := s.pc.toNat
  { s with
    cfg := { s.cfg with
      xlen := launchXlen s.cfg nbits w
      memMap :=
        if s.memValid .fetch 2 a && s.memValid .fetch 2 (a + 2) then s.cfg.memMap
        else { base := a, size := 4, fetch := [2], load := [], store := [], amo := [] } :: s.cfg.memMap }
    mem := placeBytes s.mem (tableBytes nbits w) a
    dirty := s.dirty.filter fun k => !(decide (a ≤ k) && decide (k < a + 4)) }

end Sys2Proof.Machine
end

