-- ==== Sys2Proof/Machine/Step.lean ====
section
/-! DEFINITION. One step of the machine: fetch, decode, execute (R660). -/

namespace Sys2Proof.Machine

/-- One step: the instruction at pc completes, or the step ends in the trap it raised (R600, R610), or the spec demands
a refusal. -/
def step (s : State) : Host.Outcome State Fault Refusal := runInstruction exec s

/-- The state in which the next step fetches the instruction whose table bits are `w` (R655, `loadWord`). -/
def State.withFetchWord (s : State) (nbits w : Nat) : State := loadWord s nbits w

end Sys2Proof.Machine
end

