-- ==== Sys2Proof/Rounding.lean ====
section
/-! DEFINITION. What a correctly rounded result is, stated on real numbers from R451, R456, R490 and R501 alone: the
value of a bit pattern, the rounding of a real number in each mode, overflow, underflow and inexactness. Nothing here
uses the arithmetic of `Sys2Proof/Machine/Softfloat.lean`; the statements compare the two. -/

namespace Sys2Proof.Machine

/-- The exponent field of a pattern. -/
def exponentField (F : FloatFormat) {n : Nat} (b : BitVec n) : Nat := b.toNat / 2 ^ F.fracBits % 2 ^ F.expBits

/-- The fraction field of a pattern. -/
def fractionField (F : FloatFormat) {n : Nat} (b : BitVec n) : Nat := b.toNat % 2 ^ F.fracBits

/-- The sign field of a pattern: 0 or 1. -/
def signField (F : FloatFormat) {n : Nat} (b : BitVec n) : Nat := b.toNat / 2 ^ (F.expBits + F.fracBits) % 2

/-- The exponent bias: 127 or 1023. -/
def FloatFormat.bias (F : FloatFormat) : Nat := 2 ^ (F.expBits - 1) - 1

/-- The pattern is an infinity (R451). -/
def isInfinity (F : FloatFormat) {n : Nat} (b : BitVec n) : Prop :=
  exponentField F b = 2 ^ F.expBits - 1 ∧ fractionField F b = 0

/-- The pattern is a NaN (R451). -/
def isNan (F : FloatFormat) {n : Nat} (b : BitVec n) : Prop :=
  exponentField F b = 2 ^ F.expBits - 1 ∧ fractionField F b ≠ 0

/-- The pattern is a signaling NaN: the top fraction bit is 0 (R451). -/
def isSignaling (F : FloatFormat) {n : Nat} (b : BitVec n) : Prop :=
  isNan F b ∧ fractionField F b < 2 ^ (F.fracBits - 1)

/-- The pattern is finite and its value is `x` (R451, R501): subnormal and zero without the hidden bit, normal with it. -/
def hasValue (F : FloatFormat) {n : Nat} (b : BitVec n) (x : ℝ) : Prop :=
  exponentField F b ≠ 2 ^ F.expBits - 1 ∧
  x = (-1) ^ signField F b *
    (if exponentField F b = 0 then (2 : ℝ) ^ (1 - (F.bias : ℤ)) * (fractionField F b / 2 ^ F.fracBits)
     else (2 : ℝ) ^ ((exponentField F b : ℤ) - F.bias) * (1 + fractionField F b / 2 ^ F.fracBits))

/-- The pattern is not a NaN and its value, infinities included, is `x`. -/
def hasExtendedValue (F : FloatFormat) {n : Nat} (b : BitVec n) (x : EReal) : Prop :=
  (∃ y : ℝ, hasValue F b y ∧ x = (y : EReal)) ∨
  (isInfinity F b ∧ x = if signField F b = 1 then ⊥ else ⊤)

/-- "if the rounded result (with unbounded exponent) exceeds the largest finite magnitude" (R456): `top` is the first
power of two beyond the format and `ulp` the spacing below it. -/
def overflows (F : FloatFormat) (rm : RoundingMode) (x : ℝ) : Prop :=
  let top : ℝ := 2 ^ (F.bias + 1)
  let ulp : ℝ := 2 ^ ((F.bias : ℤ) - F.fracBits)
  match rm with
  | .rne | .rmm => top - ulp / 2 ≤ |x|
  | .rtz => top ≤ |x|
  | .rdn => if x < 0 then top - ulp < |x| else top ≤ |x|
  | .rup => if x < 0 then top ≤ |x| else top - ulp < |x|

/-- "tininess detected after rounding" (R456): the result rounded with unbounded exponent lies below `least`, the
smallest normal magnitude; `ulp` is the spacing just below it. -/
def isTiny (F : FloatFormat) (rm : RoundingMode) (x : ℝ) : Prop :=
  let least : ℝ := 2 ^ (1 - (F.bias : ℤ))
  let ulp : ℝ := 2 ^ (-(F.bias : ℤ) - F.fracBits)
  match rm with
  | .rne | .rmm => |x| < least - ulp / 2
  | .rtz => |x| < least
  | .rdn => if x < 0 then |x| ≤ least - ulp else |x| < least
  | .rup => if x < 0 then |x| < least else |x| ≤ least - ulp

/-- `v`, the value of the pattern `b`, is `x` rounded in the mode (R456): nearest with ties to the even fraction,
toward zero, toward minus or plus infinity, nearest with ties away from zero. -/
def isRounded (F : FloatFormat) (rm : RoundingMode) (x : ℝ) {n : Nat} (b : BitVec n) (v : ℝ) : Prop :=
  match rm with
  | .rne => ∀ (u : BitVec n) (y : ℝ), hasValue F u y →
      |v - x| < |y - x| ∨ (|v - x| = |y - x| ∧ (y = v ∨ fractionField F b % 2 = 0))
  | .rmm => ∀ (u : BitVec n) (y : ℝ), hasValue F u y → |v - x| < |y - x| ∨ (|v - x| = |y - x| ∧ |y| ≤ |v|)
  | .rtz => |v| ≤ |x| ∧ 0 ≤ v * x ∧ ∀ (u : BitVec n) (y : ℝ), hasValue F u y → |y| ≤ |x| → |y| ≤ |v|
  | .rdn => v ≤ x ∧ ∀ (u : BitVec n) (y : ℝ), hasValue F u y → y ≤ x → y ≤ v
  | .rup => x ≤ v ∧ ∀ (u : BitVec n) (y : ℝ), hasValue F u y → x ≤ y → v ≤ y

/-- An overflowing result is infinity, or the largest finite number when the mode rounds toward zero in its direction
(R456). -/
def isOverflowResult (F : FloatFormat) (rm : RoundingMode) (x : ℝ) {n : Nat} (b : BitVec n) : Prop :=
  signField F b = (if x < 0 then 1 else 0) ∧
  if rm = .rtz ∨ (rm = .rdn ∧ 0 ≤ x) ∨ (rm = .rup ∧ x < 0) then
    exponentField F b = 2 ^ F.expBits - 2 ∧ fractionField F b = 2 ^ F.fracBits - 1
  else isInfinity F b

/-- The pattern and the flags are the nonzero real number `x` rounded to the format (R456); the result has the sign of `x`,
also when it is a zero. -/
def roundsTo (F : FloatFormat) (rm : RoundingMode) (x : ℝ) {n : Nat} (r : BitVec n × FpFlags) : Prop :=
  (overflows F rm x → isOverflowResult F rm x r.1 ∧ r.2 = flagOF ||| flagNX) ∧
  (¬ overflows F rm x → ∃ v : ℝ, hasValue F r.1 v ∧ isRounded F rm x r.1 v ∧
    signField F r.1 = (if x < 0 then 1 else 0) ∧ (v = x → r.2 = 0) ∧ (v ≠ x → isTiny F rm x → r.2 = flagUF ||| flagNX) ∧
    (v ≠ x → ¬ isTiny F rm x → r.2 = flagNX))

/-- A zero with the given sign field and no flag. -/
def isZeroResult (F : FloatFormat) (sign : Nat) {n : Nat} (r : BitVec n × FpFlags) : Prop :=
  exponentField F r.1 = 0 ∧ fractionField F r.1 = 0 ∧ signField F r.1 = sign ∧ r.2 = 0

/-- The integer `z` is `x` rounded in the mode (R490). -/
def isRoundedInteger (rm : RoundingMode) (x : ℝ) (z : ℤ) : Prop :=
  match rm with
  | .rne => ∀ y : ℤ, |z - x| < |y - x| ∨ (|z - x| = |y - x| ∧ (y = z ∨ z % 2 = 0))
  | .rmm => ∀ y : ℤ, |z - x| < |y - x| ∨ (|z - x| = |y - x| ∧ |(y : ℝ)| ≤ |(z : ℝ)|)
  | .rtz => |(z : ℝ)| ≤ |x| ∧ 0 ≤ z * x ∧ ∀ y : ℤ, |(y : ℝ)| ≤ |x| → |(y : ℝ)| ≤ |(z : ℝ)|
  | .rdn => (z : ℝ) ≤ x ∧ ∀ y : ℤ, (y : ℝ) ≤ x → y ≤ z
  | .rup => x ≤ z ∧ ∀ y : ℤ, x ≤ (y : ℝ) → z ≤ y

/-- `to_int(rm, v, lo, hi)` of R490 for the pattern `b`: the integer and the flags. -/
def isToInt (F : FloatFormat) (rm : RoundingMode) (lo hi : ℤ) {n : Nat} (b : BitVec n) (z : ℤ) (fl : FpFlags) : Prop :=
  (isNan F b → z = hi ∧ fl = flagNV) ∧
  (isInfinity F b → z = (if signField F b = 1 then lo else hi) ∧ fl = flagNV) ∧
  (∀ x : ℝ, hasValue F b x → ∃ y : ℤ, isRoundedInteger rm x y ∧
    if hi < y then z = hi ∧ fl = flagNV
    else if y < lo then z = lo ∧ fl = flagNV
    else z = y ∧ ((y : ℝ) ≠ x → fl = flagNX) ∧ ((y : ℝ) = x → fl = 0))

/-- A number that keeps the rounding modes apart, in the order of R39's encoding. -/
def modeCode : RoundingMode → Nat
  | .rne => 0
  | .rtz => 1
  | .rdn => 2
  | .rup => 3
  | .rmm => 4

/-- The rounding mode that a row's `rm` field selects: the field itself, or frm when it is 111 (R452). -/
def modeField (rm frm : RmField) : Nat := if rm = 0b111 then frm.toNat else rm.toNat

end Sys2Proof.Machine
end

