-- ==== Sys2Proof/Safety.lean ====
section
/-! DEFINITION. What the spec promises about every run, as predicates on states: the live widths, the even pc, the
hard-wired x0, the canonical forms, and which ends of a run are the spec's own. Below them, the vocabulary of the
statements about one instruction: what its completion does, and what it leaves unchanged. -/

namespace Sys2Proof.Machine

/-! ### The invariant of every run -/

/-- Every integer register holds at most XLEN bits (R21). -/
def State.regsFit (s : State) : Prop := ∀ r : Reg, (s.x[r.toNat]'r.isLt).toNat < 2 ^ s.width

/-- The slot of x0 holds zero (R21). -/
def State.zeroHeld (s : State) : Prop := (s.x[0]'(by decide)) = 0

/-- pc holds at most XLEN bits and is a multiple of IALIGN (R26, R62). -/
def State.pcLegal (s : State) : Prop := s.pc.toNat < 2 ^ s.width ∧ s.pc.toNat % s.cfg.ialign.bytes = 0

/-- The reservation, if any, is a naturally aligned address of at most XLEN bits (R45, R412). -/
def State.resvLegal (s : State) : Prop :=
  ∀ r, s.resv = some r → r.addr.toNat % r.width.bytes = 0 ∧ r.addr.toNat < 2 ^ s.width

/-- Memory and the `dirty` set are in canonical form (R60, R86). -/
def State.storesCanonical (s : State) : Prop := Memory.wf s.mem = true ∧ AddrSet.wf s.dirty = true

/-- The addresses of written bytes and of dirty bytes lie in the address space (R60). -/
def State.storesInRange (s : State) : Prop :=
  (∀ c ∈ s.mem, c.1 < 2 ^ s.width) ∧ ∀ a ∈ s.dirty, a < 2 ^ s.width

/-- The invariant of every run. -/
def State.Inv (s : State) : Prop :=
  s.regsFit ∧ s.zeroHeld ∧ s.pcLegal ∧ s.resvLegal ∧ s.storesCanonical ∧ s.storesInRange

/-- The parameters are those of a machine of the spec (R7, D1, D2, D13, D19, D20): XLEN 32 or 64; D only beside F; FLEN 64
with D, 32 with F alone; RESET_PC an address of XLEN bits, aligned to IALIGN, that can be fetched; a granule of at least
the bytes that LR can access. -/
def legalParameters (c : Config) : Prop :=
  c.xlen ≠ .rv128 ∧ (c.extD = true → c.extF = true) ∧ (c.extF = true → (c.flen = .f64 ↔ c.extD = true)) ∧
  c.resetPc.toNat < 2 ^ c.xlen.bits ∧ c.resetPc.toNat % c.ialign.bytes = 0 ∧
  memMapValid c.memMap .fetch 2 c.resetPc.toNat = true ∧ c.xlen.bits / 8 ≤ c.reservationGranule

/-! ### Outcomes -/

/-- The step completed an instruction. -/
def completes (r : Result) : Prop := ∃ t, r = .next t

/-- The step ended in an architectural trap, which only ends the run (R610). -/
def traps (r : Result) : Prop := ∃ e info pc, r = .fault (.trap e info pc)

/-- The outcome is the trap `Trap(e, info, pc)` of the instruction at the pc of `s` (R610). -/
def trapsWith (s : State) (e : Cause) (info : Word) (r : Result) : Prop := r = .fault (.trap e info s.pc)

/-! ### What stays unchanged -/

/-- The integer registers other than `rd`, and x0's slot, hold what they held. -/
def keepsXBut (s t : State) (rd : Reg) : Prop :=
  ∀ q : Reg, q ≠ rd ∨ q = 0 → (t.x[q.toNat]'q.isLt) = (s.x[q.toNat]'q.isLt)

/-- The floating-point registers other than `rd` hold what they held. -/
def keepsFBut (s t : State) (rd : Reg) : Prop := ∀ q : Reg, q ≠ rd → t.getF q = s.getF q

/-- Every byte of memory outside the n bytes at `a` reads as before. -/
def keepsMemoryBut (s t : State) (n a : Nat) : Prop :=
  ∀ b, b < a ∨ a + n ≤ b → Memory.readByte t.mem b = Memory.readByte s.mem b

/-- Every byte of memory reads as before, and so do the `dirty` set and the reservation. -/
def keepsMemory (s t : State) : Prop :=
  (∀ b, Memory.readByte t.mem b = Memory.readByte s.mem b) ∧ t.dirty = s.dirty ∧ t.resv = s.resv

/-- The configuration, the three counters and the count of draws are as before. -/
def keepsSystem (s t : State) : Prop :=
  t.cfg = s.cfg ∧ t.cycle = s.cycle ∧ t.time = s.time ∧ t.instret = s.instret ∧ t.draws = s.draws

/-! ### Where the next instruction is fetched -/

/-- pc + n modulo 2^XLEN (R12, R27). -/
def State.pcAfter (s : State) (n : Nat) : Word := BitVec.ofNat 128 ((s.pc.toNat + n) % 2 ^ s.width)

/-- pc + offset modulo 2^XLEN, for a signed offset (R27, R304). -/
def State.pcOffset (s : State) (offset : Int) : Word :=
  BitVec.ofInt 128 (((s.pc.toNat : Int) + offset) % ((2 ^ s.width : Nat) : Int))

/-! ### What a completion does -/

/-- `r` completes with no effect but `pc <- p`. -/
def setsPc (s : State) (p : Word) (r : Result) : Prop :=
  ∃ t, r = .next t ∧ t.pc = p ∧ t.x = s.x ∧ t.f = s.f ∧ t.fcsr = s.fcsr ∧ keepsMemory s t ∧ keepsSystem s t

/-- `r` completes with `x[rd] <- v` (discarded for x0, R21), `pc <- p`, the flags `fl` accrued (R38), and no other
effect. -/
def setsXFlags (s : State) (rd : Reg) (v : BitVec s.width) (fl : FpFlags) (p : Word) (r : Result) : Prop :=
  ∃ t, r = .next t ∧ (rd ≠ 0 → t.getX s.width rd = v) ∧ keepsXBut s t rd ∧ t.pc = p ∧ t.f = s.f ∧
    t.fflags = s.fflags ||| fl ∧ t.frm = s.frm ∧ keepsMemory s t ∧ keepsSystem s t

/-- `r` completes with `x[rd] <- v` (discarded for x0, R21), `pc <- p`, and no other effect: no flag, no memory byte,
no other register. -/
def setsX (s : State) (rd : Reg) (v : BitVec s.width) (p : Word) (r : Result) : Prop :=
  ∃ t, r = .next t ∧ (rd ≠ 0 → t.getX s.width rd = v) ∧ keepsXBut s t rd ∧ t.pc = p ∧ t.f = s.f ∧
    t.fcsr = s.fcsr ∧ keepsMemory s t ∧ keepsSystem s t

/-- `r` completes with `f[rd] <- v` for a double, the flags `fl` accrued, `pc <- p`, and no other effect (R502). -/
def setsD (s : State) (rd : Reg) (v : Double) (fl : FpFlags) (p : Word) (r : Result) : Prop :=
  ∃ t, r = .next t ∧ t.getF rd = v ∧ keepsFBut s t rd ∧ t.pc = p ∧ t.x = s.x ∧
    t.fflags = s.fflags ||| fl ∧ t.frm = s.frm ∧ keepsMemory s t ∧ keepsSystem s t

/-- `r` completes with `f[rd] <- box(v)` for a single (R31), the flags `fl` accrued, `pc <- p`, and no other effect:
bits 31:0 are the value and, when FLEN = 64, bits 63:32 are all ones. -/
def setsS (s : State) (rd : Reg) (v : Single) (fl : FpFlags) (p : Word) (r : Result) : Prop :=
  ∃ t, r = .next t ∧ (t.getF rd).setWidth 32 = v ∧
    (s.cfg.flen = .f64 → (t.getF rd).extractLsb 63 32 = 0xffffffff#32) ∧ keepsFBut s t rd ∧ t.pc = p ∧ t.x = s.x ∧
    t.fflags = s.fflags ||| fl ∧ t.frm = s.frm ∧ keepsMemory s t ∧ keepsSystem s t

/-- The n bytes at `a` overlap the reserved bytes (R413). -/
def reservedAt (s : State) (n a : Nat) : Prop :=
  ∃ q, s.resv = some q ∧ a < q.addr.toNat + q.width.bytes ∧ q.addr.toNat < a + n

/-- The effects of a store on memory: the k-th byte at `a` is bits 8k+7 to 8k of `v` (R64), every other byte reads as
before, the n addresses join the `dirty` set (R86), and an overlapped reservation is lost, any other one kept (R413). -/
def storesBytes (s t : State) (n a : Nat) (v : Nat) : Prop :=
  (∀ k, k < n → (Memory.readByte t.mem (a + k)).toNat = v / 256 ^ k % 256) ∧ keepsMemoryBut s t n a ∧
    (∀ b, b ∈ t.dirty ↔ b ∈ s.dirty ∨ (a ≤ b ∧ b < a + n)) ∧
    (reservedAt s n a → t.resv = none) ∧ (¬ reservedAt s n a → t.resv = s.resv)

/-- `r` completes a store of the low n bytes of `v` at `a`, with `pc <- p` and no other effect (R303). -/
def stores (s : State) (n a : Nat) (v : Nat) (p : Word) (r : Result) : Prop :=
  ∃ t, r = .next t ∧ storesBytes s t n a v ∧ t.pc = p ∧ t.x = s.x ∧ t.f = s.f ∧ t.fcsr = s.fcsr ∧ keepsSystem s t

/-! ### Memory accesses -/

/-- The little-endian value of the n bytes at `a` (R64). -/
def valueAt (s : State) : (n a : Nat) → Nat
  | 0, _ => 0
  | n + 1, a => (Memory.readByte s.mem a).toNat + 256 * valueAt s n (a + 1)

/-- The n-byte access at `a` is naturally aligned, or the policy emulates a misaligned one (R67). -/
def alignedOrEmulated (s : State) (n a : Nat) : Prop := a % n = 0 ∨ s.cfg.misaligned = .emulate

/-- A load or store of n bytes at `a` completes: alignment (R67), the top of the address space (R64), `MemMap` (R61). -/
def accessible (s : State) (kind : Access) (n a : Nat) : Prop :=
  alignedOrEmulated s n a ∧ a + n ≤ 2 ^ s.width ∧ s.memValid kind n a = true

/-- The same for LR, SC and AMO, which must be aligned under either policy (R69, R412). -/
def accessibleAtomic (s : State) (kind : Access) (n a : Nat) : Prop :=
  a % n = 0 ∧ a + n ≤ 2 ^ s.width ∧ s.memValid kind n a = true

/-- How an n-byte access at `a` that is not accessible stops, in the order of R66: misaligned, beyond the top of the
address space (refused, R64), not in `MemMap`. `strict` is R69. -/
def stopsAt (s : State) (kind : Access) (strict : Bool) (n a : Nat) (r : Result) : Prop :=
  (a % n ≠ 0 → (strict = true ∨ s.cfg.misaligned = .trap) → trapsWith s (misalignedCause kind) (BitVec.ofNat 128 a) r) ∧
  ((a % n = 0 ∨ (strict = false ∧ s.cfg.misaligned = .emulate)) → 2 ^ s.width < a + n →
    r = .refused .wrapsAddressSpace) ∧
  ((a % n = 0 ∨ (strict = false ∧ s.cfg.misaligned = .emulate)) → a + n ≤ 2 ^ s.width → s.memValid kind n a = false →
    trapsWith s (accessFaultCause kind) (BitVec.ofNat 128 a) r)

/-! ### CSRs -/

/-- What a floating-point CSR number reads from fcsr (R38, R39, R40). -/
def fpCsrRead (n : CsrNum) (fcsr : BitVec 8) : Nat :=
  if n = 0x001 then fcsr.toNat % 32 else if n = 0x002 then fcsr.toNat / 32 else fcsr.toNat

/-- What fcsr becomes when `v` is written through a floating-point CSR number (R38, R39, R40). -/
def fpCsrWritten (n : CsrNum) (fcsr : BitVec 8) (v : Nat) : BitVec 8 :=
  if n = 0x001 then BitVec.ofNat 8 (fcsr.toNat / 32 * 32 + v % 32)
  else if n = 0x002 then BitVec.ofNat 8 (v % 8 * 32 + fcsr.toNat % 32)
  else BitVec.ofNat 8 (v % 256)

/-- The number names fflags, frm or fcsr (R37). -/
def isFpCsr (n : CsrNum) : Prop := n = 0x001 ∨ n = 0x002 ∨ n = 0x003

/-- The number names a counter, or with XLEN = 32 the upper half of one (R37, R42). -/
def isCounterCsr (c : Config) (n : CsrNum) : Prop :=
  n = 0xC00 ∨ n = 0xC01 ∨ n = 0xC02 ∨ (c.xlen = .rv32 ∧ (n = 0xC80 ∨ n = 0xC81 ∨ n = 0xC82))

/-- `r` completes a CSR instruction on a floating-point CSR: `x[rd]` receives `old`, fcsr becomes `new`, and nothing
else changes but pc (R305). -/
def swapsFcsr (s : State) (rd : Reg) (old : Nat) (new : BitVec 8) (p : Word) (r : Result) : Prop :=
  ∃ t, r = .next t ∧ (rd ≠ 0 → (t.getX s.width rd).toNat = old) ∧ keepsXBut s t rd ∧ t.fcsr = new ∧ t.pc = p ∧
    t.f = s.f ∧ keepsMemory s t ∧ keepsSystem s t

/-- The counter behind a counter CSR (R41, R42). -/
def counterOf (n : CsrNum) (s : State) : BitVec 64 :=
  if n = 0xC00 ∨ n = 0xC80 then s.cycle else if n = 0xC01 ∨ n = 0xC81 then s.time else s.instret

/-- `r` completes a read of the counter CSR `n` into `x[rd]`: some value of the 64-bit counter not below the last one is
drawn and its half is the value read (R41, R42); the other two counters and everything else are as before. -/
def readsCounter (s : State) (n : CsrNum) (rd : Reg) (p : Word) (r : Result) : Prop :=
  ∃ t, r = .next t ∧ (counterOf n s).toNat ≤ (counterOf n t).toNat ∧
    (rd ≠ 0 → (t.getX s.width rd).toNat =
      (if n = 0xC80 ∨ n = 0xC81 ∨ n = 0xC82 then (counterOf n t).toNat / 2 ^ 32
       else (counterOf n t).toNat % 2 ^ s.width)) ∧
    (n ≠ 0xC00 ∧ n ≠ 0xC80 → t.cycle = s.cycle) ∧ (n ≠ 0xC01 ∧ n ≠ 0xC81 → t.time = s.time) ∧
    (n ≠ 0xC02 ∧ n ≠ 0xC82 → t.instret = s.instret) ∧
    keepsXBut s t rd ∧ t.fcsr = s.fcsr ∧ t.pc = p ∧ t.f = s.f ∧ keepsMemory s t ∧ t.cfg = s.cfg

end Sys2Proof.Machine
end

