-- ==== Sys2Proof/Certificates/Slice0/Obligations.lean ====
section
/-! DEFINITION. The statements about this machine, one `def Obligations.<Name> : Prop` each. Values are written in
natural numbers and integers, independently of the bit-vector expressions of the meanings; `exec` and `step` are the
machine's. The vocabulary (`setsX`, `stores`, `stopsAt`, `roundsTo`, ...) is that of Sys2Proof/Safety.lean and
Sys2Proof/Rounding.lean: each of those predicates says that the outcome is a next state, what changed in it, and that
every other register, flag, byte of memory, counter and parameter is as before. -/

open Sys2Proof Sys2Proof.Machine

/-! ### Reset, invariants and whole-machine rules -/

/-- R7, R50, R651: the parameters are those of a machine of the spec; pc at RESET_PC, even and fetchable; x0 zero; no
reservation; nothing dirty; no byte of memory written; and no register left unspecified by the spec (x1 to x31, f0 to f31,
fcsr with frm and fflags, cycle, time, instret) is zero. That RESET_PC is 0x1000 and the values of the unspecified registers
are the model's choice (notes/assumptions/4.md, notes/assumptions/5.md). -/
def Obligations.ResetStateIsAsSpecified : Prop :=
  legalParameters State.reset.cfg ∧ State.reset.pc = State.reset.cfg.resetPc ∧ State.reset.pc.toNat % 2 = 0 ∧
  State.reset.memValid .fetch 2 State.reset.pc.toNat = true ∧
  (∀ w, State.reset.getX w 0 = 0) ∧ (∀ r : Reg, r ≠ 0 → State.reset.rx r ≠ 0) ∧
  (∀ r : Reg, State.reset.getF r ≠ 0) ∧ State.reset.fcsr ≠ 0 ∧ State.reset.frm ≠ 0 ∧ State.reset.fflags ≠ 0 ∧
  State.reset.cycle ≠ 0 ∧ State.reset.time ≠ 0 ∧ State.reset.instret ≠ 0 ∧
  State.reset.resv = none ∧ State.reset.dirty = [] ∧ ∀ a, Memory.lookup State.reset.mem a = none

/-- The invariant of every run holds at reset. -/
def Obligations.InvariantHoldsAtReset : Prop := State.reset.Inv

/-- Every step keeps the invariant: live widths (R21, R26), x0's slot zero (R21), pc a multiple of IALIGN (R62), a legal
reservation (R45), memory and `dirty` in canonical form and inside the address space (R60, R86). -/
def Obligations.EveryStepKeepsTheInvariant : Prop := ∀ s t : State, s.Inv → step s = .next t → t.Inv

/-- R7: the parameters are configuration, which no step changes. R41: successive values of one counter never decrease. -/
def Obligations.StepsKeepConfigurationAndCountersNeverGoBack : Prop :=
  ∀ s t : State, step s = .next t →
    t.cfg = s.cfg ∧ s.cycle.toNat ≤ t.cycle.toNat ∧ s.time.toNat ≤ t.time.toNat ∧ s.instret.toNat ≤ t.instret.toNat

/-- R610 (3): the trap of a step carries the pc of the raising instruction. -/
def Obligations.TrapsCarryThePcOfTheRaisingInstruction : Prop :=
  ∀ (s : State) (e : Cause) (info p : Word), step s = .fault (.trap e info p) → p = s.pc

/-- R602: every control transfer from an even pc goes to an even pc, and InstructionAddressMisaligned is never raised. -/
def Obligations.InstructionAddressMisalignedIsNeverRaised : Prop :=
  (∀ (s : State) (info p : Word), step s ≠ .fault (.trap .instructionAddressMisaligned info p)) ∧
  (∀ (i : Instr) (s : State) (info p : Word), exec i s ≠ .fault (.trap .instructionAddressMisaligned info p)) ∧
  (∀ (i : Instr) (s t : State), s.pc.toNat % 2 = 0 → exec i s = .next t → t.pc.toNat % 2 = 0)

/-! ### Encoding and decoding -/

/-- Decoding the bytes of an instruction that exists gives it back, with every operand at every value (R104-R119). -/
def Obligations.DecodingInvertsEncoding : Prop :=
  ∀ (c : Config) (i : Instr) (rest : List Byte), i.wellFormed c = true → decode c (i.bytes ++ rest) = .instr i

/-- The other direction: bytes that decode to an instruction begin with its encoding, so no bit is ignored, and the
instruction exists under the XLEN and the extensions (R114, R118, R131). -/
def Obligations.EncodingInvertsDecoding : Prop :=
  ∀ (c : Config) (bs : List Byte) (i : Instr), decode c bs = .instr i →
    i.wellFormed c = true ∧ ∃ rest, bs = i.bytes ++ rest

/-- Words of the spec's examples (R201, R232, R268, R310, R392, R420, R510, R482), the word of ECALL (R349) and one that
matches no row (R615). -/
def Obligations.ExampleWordsDecode : Prop :=
  decode resetConfig [0x08#8, 0x08#8] = .instr (.cAddi4spn 2 4) ∧
  decode resetConfig [0x05#8, 0x8c#8] = .instr (.cSub 0 1) ∧
  decode resetConfig [0x2e#8, 0x85#8] = .instr (.cMv 10 11) ∧
  decode resetConfig [0x37#8, 0x55#8, 0x34#8, 0x12#8] = .instr (.lui 10 0x12345) ∧
  decode resetConfig [0x33#8, 0x85#8, 0xc5#8, 0x02#8] = .instr (.mul 10 11 12) ∧
  decode resetConfig [0x2f#8, 0xa5#8, 0x05#8, 0x10#8] = .instr (.lrW 10 11 false false) ∧
  decode resetConfig [0x07#8, 0xb5#8, 0x85#8, 0x00#8] = .instr (.fld 10 11 8) ∧
  decode resetConfig [0x53#8, 0x95#8, 0x05#8, 0xe0#8] = .instr (.fclassS 10 11) ∧
  decode resetConfig [0x73#8, 0x00#8, 0x00#8, 0x00#8] = .instr .ecall ∧
  decode resetConfig [0x73#8, 0x00#8, 0x20#8, 0x30#8] = .bad .noRow

/-- The RES code points of R133, which the spec derives itself from its tree of R131. -/
def isReservedParcel (x : Xlen) (p : BitVec 16) : Prop :=
  let op := p.toNat % 4
  let f3 := p.toNat / 2 ^ 13
  let r := p.toNat / 2 ^ 7 % 32
  let imm6 := p.toNat / 2 ^ 12 % 2 * 32 + p.toNat / 4 % 32
  (op = 0 ∧ f3 = 0 ∧ p.toNat / 2 ^ 5 % 256 = 0 ∧ p ≠ 0) ∨
  (x ≠ .rv32 ∧ op = 1 ∧ f3 = 1 ∧ r = 0) ∨
  (op = 1 ∧ f3 = 3 ∧ imm6 = 0) ∨
  (x = .rv32 ∧ op = 1 ∧ p.toNat / 2 ^ 10 = 0b100111 ∧ p.toNat / 2 ^ 5 % 4 < 2) ∨
  (x = .rv128 ∧ op = 2 ∧ f3 = 1 ∧ r = 0) ∨
  (op = 2 ∧ f3 = 2 ∧ r = 0) ∨
  (x ≠ .rv32 ∧ op = 2 ∧ f3 = 3 ∧ r = 0) ∨
  p = 0x8002

/-- The NSE code points of R134, likewise derived by the spec. -/
def isNonStandardParcel (x : Xlen) (p : BitVec 16) : Prop :=
  x = .rv32 ∧ p.toNat / 2 ^ 12 % 2 = 1 ∧
  ((p.toNat % 4 = 1 ∧ p.toNat / 2 ^ 13 = 4 ∧ p.toNat / 2 ^ 10 % 4 < 2) ∨
   (p.toNat % 4 = 2 ∧ p.toNat / 2 ^ 13 = 0 ∧ p.toNat / 2 ^ 7 % 32 ≠ 0))

/-- R133, R134: exactly the listed parcels are reserved for future standard, and for non-standard, extensions. -/
def Obligations.ReservedParcelsAreExactlyTheListedOnes : Prop :=
  ∀ (c : Config) (p : BitVec 16),
    (decode16 c p = .bad .reserved ↔ isReservedParcel c.xlen p) ∧
    (decode16 c p = .bad .nonStandard ↔ isNonStandardParcel c.xlen p)

/-- The HINT code points of R135, likewise derived by the spec. -/
def isHintParcel (x : Xlen) (p : BitVec 16) : Prop :=
  let op := p.toNat % 4
  let f3 := p.toNat / 2 ^ 13
  let r := p.toNat / 2 ^ 7 % 32
  let s := p.toNat / 4 % 32
  let imm6 := p.toNat / 2 ^ 12 % 2 * 32 + s
  (op = 1 ∧ f3 = 0 ∧ r ≠ 0 ∧ imm6 = 0) ∨
  (op = 1 ∧ f3 = 2 ∧ r = 0) ∨
  (op = 1 ∧ f3 = 3 ∧ r = 0 ∧ imm6 ≠ 0) ∨
  (x ≠ .rv128 ∧ op = 1 ∧ f3 = 4 ∧ p.toNat / 2 ^ 10 % 4 < 2 ∧ imm6 = 0) ∨
  (op = 2 ∧ f3 = 0 ∧ r = 0) ∨
  (x ≠ .rv128 ∧ op = 2 ∧ f3 = 0 ∧ r ≠ 0 ∧ imm6 = 0) ∨
  (op = 2 ∧ f3 = 4 ∧ r = 0 ∧ s ≠ 0)

/-- R132, R135: every HINT parcel decodes to an instruction whose only effect is `pc <- pc + 2`, and the model marks no other
parcel as a HINT. -/
def Obligations.HintParcelsOnlyAdvancePc : Prop :=
  ∀ (s : State) (p : BitVec 16),
    (isHintParcel s.cfg.xlen p →
      ∃ i, decode16 s.cfg p = .instr i ∧ i.isHint s.cfg = true ∧ setsPc s (s.pcAfter 2) (exec i s)) ∧
    (∀ i, decode16 s.cfg p = .instr i → i.isHint s.cfg = true → isHintParcel s.cfg.xlen p)

/-! ### Steps: fetch, decode, execute -/

/-- The parcel at `a` can be fetched: inside the address space, allowed by `MemMap`, clean (R63, R86). -/
def fetchable (s : State) (a : Nat) : Prop :=
  a + 2 ≤ 2 ^ s.width ∧ s.memValid .fetch 2 a = true ∧ ∀ b ∈ s.dirty, b < a ∨ a + 2 ≤ b

/-- The 16 bits at `a`, the byte at the lower address lower (R64). -/
def parcelAt (s : State) (a : Nat) : BitVec 16 := Memory.readByte s.mem (a + 1) ++ Memory.readByte s.mem a

/-- The n bytes at `a`, lowest address first. -/
def bytesAt (s : State) : (n a : Nat) → List Byte
  | 0, _ => []
  | n + 1, a => Memory.readByte s.mem a :: bytesAt s n (a + 1)

/-- R63, R660: when the bytes at pc can be fetched and decode to an instruction of that length, the step is exec of it. -/
def Obligations.StepRunsTheDecodedInstruction : Prop :=
  ∀ (s : State) (i : Instr), s.cfg.xlen ≠ .rv128 → fetchable s s.rpc.toNat →
    (i.length = 4 → fetchable s (s.rpc.toNat + 2)) →
    decode s.cfg (bytesAt s i.length s.rpc.toNat) = .instr i → step s = exec i s

/-- R604, R612: a parcel or a word that decodes to no instruction raises IllegalInstruction with its bits; one that
announces more than 32 bits does so before the second parcel is fetched (R118). -/
def Obligations.UndecodableBitsRaiseIllegalInstruction : Prop :=
  ∀ (s : State), s.cfg.xlen ≠ .rv128 → fetchable s s.rpc.toNat →
    (∀ e, (parcelAt s s.rpc.toNat).toNat % 4 ≠ 3 → decode16 s.cfg (parcelAt s s.rpc.toNat) = .bad e →
      trapsWith s .illegalInstruction ((parcelAt s s.rpc.toNat).setWidth 128) (step s)) ∧
    ((parcelAt s s.rpc.toNat).toNat % 32 = 31 →
      trapsWith s .illegalInstruction ((parcelAt s s.rpc.toNat).setWidth 128) (step s)) ∧
    (∀ e, (parcelAt s s.rpc.toNat).toNat % 4 = 3 → (parcelAt s s.rpc.toNat).toNat % 32 ≠ 31 →
      fetchable s (s.rpc.toNat + 2) →
      decode32 s.cfg (parcelAt s (s.rpc.toNat + 2) ++ parcelAt s s.rpc.toNat) = .bad e →
      trapsWith s .illegalInstruction ((parcelAt s (s.rpc.toNat + 2) ++ parcelAt s s.rpc.toNat).setWidth 128) (step s))

/-- R603: a parcel that `MemMap` does not allow raises InstructionAccessFault with its address; R86, R27, D1: a fetch of a
dirty byte, an instruction across the top of the address space, and any step with XLEN = 128 are refused. The order in
which access fault and the two refusals are looked at is the model's choice (notes/assumptions/17.md). -/
def Obligations.FetchStopsAsSpecified : Prop :=
  ∀ s : State,
    (s.cfg.xlen = .rv128 → step s = .refused .rv128Execution) ∧
    (s.cfg.xlen ≠ .rv128 → s.rpc.toNat + 2 ≤ 2 ^ s.width → s.memValid .fetch 2 s.rpc.toNat = false →
      trapsWith s .instructionAccessFault (BitVec.ofNat 128 s.rpc.toNat) (step s)) ∧
    (s.cfg.xlen ≠ .rv128 → s.rpc.toNat + 2 ≤ 2 ^ s.width → s.memValid .fetch 2 s.rpc.toNat = true →
      (∃ b ∈ s.dirty, s.rpc.toNat ≤ b ∧ b < s.rpc.toNat + 2) → step s = .refused .dirtyFetch) ∧
    (s.cfg.xlen ≠ .rv128 → fetchable s s.rpc.toNat →
      (parcelAt s s.rpc.toNat).toNat % 4 = 3 → (parcelAt s s.rpc.toNat).toNat % 32 ≠ 31 →
      (2 ^ s.width < s.rpc.toNat + 4 → step s = .refused .wrapsAddressSpace) ∧
      (s.rpc.toNat + 4 ≤ 2 ^ s.width → s.memValid .fetch 2 (s.rpc.toNat + 2) = false →
        trapsWith s .instructionAccessFault (BitVec.ofNat 128 (s.rpc.toNat + 2)) (step s)) ∧
      (s.rpc.toNat + 4 ≤ 2 ^ s.width → s.memValid .fetch 2 (s.rpc.toNat + 2) = true →
        (∃ b ∈ s.dirty, s.rpc.toNat + 2 ≤ b ∧ b < s.rpc.toNat + 4) → step s = .refused .dirtyFetch))

/-- R118, R604: executing an instruction that the XLEN, the extensions or its operand restrictions rule out raises
IllegalInstruction with its bits. No run reaches this (the decoder answers only instructions that exist); that `exec`
answers so is the model's choice (notes/assumptions/15.md). -/
def Obligations.AbsentInstructionsAreIllegal : Prop :=
  ∀ (i : Instr) (s : State), i.wellFormed s.cfg = false → i ≠ .ecall → i ≠ .ebreak →
    trapsWith s .illegalInstruction i.encode.info (exec i s)

/-! ### Operands and memory -/

/-- Register numbers, immediates and addresses: a primed field names x8 to x15 (R23), immediates are the encoded bits
scaled, sign- or zero-extended (R113, R116), and an effective address is taken modulo 2^XLEN (R302). -/
def Obligations.OperandsAndAddresses : Prop :=
  (∀ r : CReg, (primed r).toNat = 8 + r.toNat) ∧
  (∀ (s : State) (w : Nat), s.getX w 0 = 0) ∧
  (∀ (s : State) (k z : Nat) (i : BitVec k), k + z ≤ s.width → (signedImm s.width i z).toInt = i.toInt * 2 ^ z) ∧
  (∀ (s : State) (k z : Nat) (i : BitVec k), k + z ≤ s.width → (unsignedImm s.width i z).toNat = i.toNat * 2 ^ z) ∧
  (∀ (s : State) (r : Reg) (i : BitVec 12),
    ((s.rx r + signedImm s.width i 0).toNat : Int) = ((s.rx r).toNat + i.toInt) % ((2 ^ s.width : Nat) : Int))

/-- R64, R65, R80: a read returns the bytes last written, at every width, and a write changes no other byte. -/
def Obligations.ReadsReturnTheLastWrite : Prop :=
  ∀ (m : List Host.Cell) (n a : Nat) (v : Word), n ≤ 16 →
    (Memory.read (Memory.write m n a v) n a).toNat = v.toNat % 2 ^ (8 * n) ∧
    (∀ k, k < n → (Memory.readByte (Memory.write m n a v) (a + k)).toNat = v.toNat / 256 ^ k % 256) ∧
    (∀ k p, k + p ≤ n → (Memory.read (Memory.write m n a v) p (a + k)).toNat = v.toNat / 256 ^ k % 256 ^ p) ∧
    (∀ b, b < a ∨ a + n ≤ b → Memory.readByte (Memory.write m n a v) b = Memory.readByte m b)

/-- R66, R67, R606-R609: how each load and store stops when its access is misaligned under the trap policy, beyond the top of
the address space, or not allowed. The position of the refusal between the two exceptions is the model's choice
(notes/assumptions/12.md). -/
def Obligations.LoadsAndStoresStopAsSpecified : Prop :=
  ∀ (s : State) (r rs1 : Reg) (imm : BitVec 12),
    let a := (s.rx rs1 + signedImm s.width imm 0).toNat
    (s.cfg.is32or64 = true →
      stopsAt s .load false 1 a (exec (.lb r rs1 imm) s) ∧ stopsAt s .load false 2 a (exec (.lh r rs1 imm) s) ∧
      stopsAt s .load false 4 a (exec (.lw r rs1 imm) s) ∧ stopsAt s .load false 1 a (exec (.lbu r rs1 imm) s) ∧
      stopsAt s .load false 2 a (exec (.lhu r rs1 imm) s) ∧ stopsAt s .store false 1 a (exec (.sb r rs1 imm) s) ∧
      stopsAt s .store false 2 a (exec (.sh r rs1 imm) s) ∧ stopsAt s .store false 4 a (exec (.sw r rs1 imm) s)) ∧
    (s.cfg.xlen = .rv64 →
      stopsAt s .load false 4 a (exec (.lwu r rs1 imm) s) ∧ stopsAt s .load false 8 a (exec (.ld r rs1 imm) s) ∧
      stopsAt s .store false 8 a (exec (.sd r rs1 imm) s)) ∧
    (s.cfg.is32or64 = true → s.cfg.extF = true →
      stopsAt s .load false 4 a (exec (.flw r rs1 imm) s) ∧ stopsAt s .store false 4 a (exec (.fsw r rs1 imm) s)) ∧
    (s.cfg.is32or64 = true → s.cfg.hasD = true →
      stopsAt s .load false 8 a (exec (.fld r rs1 imm) s) ∧ stopsAt s .store false 8 a (exec (.fsd r rs1 imm) s))

/-- R66, R67: how the compressed loads and stores stop. -/
def Obligations.CompressedAccessesStopAsSpecified : Prop :=
  ∀ (s : State) (r r1 : CReg) (q : Reg) (o5 : BitVec 5) (o6 : BitVec 6),
    stopsAt s .load false 4 (s.rx (primed r1) + unsignedImm s.width o5 2).toNat (exec (.cLw r r1 o5) s) ∧
    stopsAt s .store false 4 (s.rx (primed r1) + unsignedImm s.width o5 2).toNat (exec (.cSw r r1 o5) s) ∧
    (q ≠ 0 → stopsAt s .load false 4 (s.rx 2 + unsignedImm s.width o6 2).toNat (exec (.cLwsp q o6) s)) ∧
    stopsAt s .store false 4 (s.rx 2 + unsignedImm s.width o6 2).toNat (exec (.cSwsp q o6) s) ∧
    (s.cfg.xlen ≠ .rv32 →
      stopsAt s .load false 8 (s.rx (primed r1) + unsignedImm s.width o5 3).toNat (exec (.cLd r r1 o5) s) ∧
      stopsAt s .store false 8 (s.rx (primed r1) + unsignedImm s.width o5 3).toNat (exec (.cSd r r1 o5) s) ∧
      (q ≠ 0 → stopsAt s .load false 8 (s.rx 2 + unsignedImm s.width o6 3).toNat (exec (.cLdsp q o6) s)) ∧
      stopsAt s .store false 8 (s.rx 2 + unsignedImm s.width o6 3).toNat (exec (.cSdsp q o6) s)) ∧
    (s.cfg.xlen = .rv32 → s.cfg.extF = true →
      stopsAt s .load false 4 (s.rx (primed r1) + unsignedImm s.width o5 2).toNat (exec (.cFlw r r1 o5) s) ∧
      stopsAt s .store false 4 (s.rx (primed r1) + unsignedImm s.width o5 2).toNat (exec (.cFsw r r1 o5) s) ∧
      stopsAt s .load false 4 (s.rx 2 + unsignedImm s.width o6 2).toNat (exec (.cFlwsp q o6) s) ∧
      stopsAt s .store false 4 (s.rx 2 + unsignedImm s.width o6 2).toNat (exec (.cFswsp q o6) s)) ∧
    (s.cfg.is32or64 = true → s.cfg.hasD = true →
      stopsAt s .load false 8 (s.rx (primed r1) + unsignedImm s.width o5 3).toNat (exec (.cFld r r1 o5) s) ∧
      stopsAt s .store false 8 (s.rx (primed r1) + unsignedImm s.width o5 3).toNat (exec (.cFsd r r1 o5) s) ∧
      stopsAt s .load false 8 (s.rx 2 + unsignedImm s.width o6 3).toNat (exec (.cFldsp q o6) s) ∧
      stopsAt s .store false 8 (s.rx 2 + unsignedImm s.width o6 3).toNat (exec (.cFsdsp q o6) s))

/-! ### RV32I and RV64I -/

/-- R310, R311: LUI and AUIPC. -/
def Obligations.UpperImmediates : Prop :=
  ∀ (s : State) (rd : Reg) (imm : BitVec 20), s.cfg.is32or64 = true →
    setsX s rd (BitVec.ofInt s.width (imm.toInt * 4096)) (s.pcAfter 4) (exec (.lui rd imm) s) ∧
    setsX s rd (BitVec.ofInt s.width (s.pc.toNat + imm.toInt * 4096)) (s.pcAfter 4) (exec (.auipc rd imm) s)

/-- R304, R312, R313, R222, R240, R267, R270: jumps. The link is pc plus the length, the target is computed from the old
registers, a register-indirect target has bit 0 cleared. -/
def Obligations.JumpsAndLinks : Prop :=
  ∀ (s : State) (rd rs1 : Reg),
    (∀ o : BitVec 20, s.cfg.is32or64 = true →
      setsX s rd (BitVec.ofNat s.width (s.pc.toNat + 4)) (s.pcOffset (o.toInt * 2)) (exec (.jal rd o) s)) ∧
    (∀ o : BitVec 12, s.cfg.is32or64 = true →
      setsX s rd (BitVec.ofNat s.width (s.pc.toNat + 4))
        (BitVec.ofNat 128 ((s.rx rs1 + BitVec.ofInt s.width o.toInt).toNat / 2 * 2)) (exec (.jalr rd rs1 o) s)) ∧
    (∀ o : BitVec 11, s.cfg.xlen = .rv32 →
      setsX s 1 (BitVec.ofNat s.width (s.pc.toNat + 2)) (s.pcOffset (o.toInt * 2)) (exec (.cJal o) s)) ∧
    (∀ o : BitVec 11, setsPc s (s.pcOffset (o.toInt * 2)) (exec (.cJ o) s)) ∧
    (rs1 ≠ 0 → setsPc s (BitVec.ofNat 128 ((s.rx rs1).toNat / 2 * 2)) (exec (.cJr rs1) s)) ∧
    (rs1 ≠ 0 → setsX s 1 (BitVec.ofNat s.width (s.pc.toNat + 2)) (BitVec.ofNat 128 ((s.rx rs1).toNat / 2 * 2))
      (exec (.cJalr rs1) s))

/-- R304, R314-R319, R241, R242: conditional branches. -/
def Obligations.ConditionalBranches : Prop :=
  ∀ (s : State) (rs1 rs2 : Reg) (o : BitVec 12) (r : CReg) (o8 : BitVec 8),
    (s.cfg.is32or64 = true →
      setsPc s (if (s.rx rs1).toNat = (s.rx rs2).toNat then s.pcOffset (o.toInt * 2) else s.pcAfter 4)
        (exec (.beq rs1 rs2 o) s) ∧
      setsPc s (if (s.rx rs1).toNat = (s.rx rs2).toNat then s.pcAfter 4 else s.pcOffset (o.toInt * 2))
        (exec (.bne rs1 rs2 o) s) ∧
      setsPc s (if (s.rx rs1).toInt < (s.rx rs2).toInt then s.pcOffset (o.toInt * 2) else s.pcAfter 4)
        (exec (.blt rs1 rs2 o) s) ∧
      setsPc s (if (s.rx rs2).toInt ≤ (s.rx rs1).toInt then s.pcOffset (o.toInt * 2) else s.pcAfter 4)
        (exec (.bge rs1 rs2 o) s) ∧
      setsPc s (if (s.rx rs1).toNat < (s.rx rs2).toNat then s.pcOffset (o.toInt * 2) else s.pcAfter 4)
        (exec (.bltu rs1 rs2 o) s) ∧
      setsPc s (if (s.rx rs2).toNat ≤ (s.rx rs1).toNat then s.pcOffset (o.toInt * 2) else s.pcAfter 4)
        (exec (.bgeu rs1 rs2 o) s)) ∧
    setsPc s (if (s.rx (primed r)).toNat = 0 then s.pcOffset (o8.toInt * 2) else s.pcAfter 2) (exec (.cBeqz r o8) s) ∧
    setsPc s (if (s.rx (primed r)).toNat = 0 then s.pcAfter 2 else s.pcOffset (o8.toInt * 2)) (exec (.cBnez r o8) s)

/-- R301, R328-R333: register-immediate arithmetic, the immediate sign-extended also for the logical forms and the
unsigned comparison. -/
def Obligations.ImmediateArithmetic : Prop :=
  ∀ (s : State) (rd rs1 : Reg) (imm : BitVec 12), s.cfg.is32or64 = true →
    let v := BitVec.ofInt s.width imm.toInt
    setsX s rd (BitVec.ofInt s.width ((s.rx rs1).toInt + imm.toInt)) (s.pcAfter 4) (exec (.addi rd rs1 imm) s) ∧
    setsX s rd (if (s.rx rs1).toInt < imm.toInt then 1 else 0) (s.pcAfter 4) (exec (.slti rd rs1 imm) s) ∧
    setsX s rd (if (s.rx rs1).toNat < v.toNat then 1 else 0) (s.pcAfter 4) (exec (.sltiu rd rs1 imm) s) ∧
    setsX s rd (BitVec.ofNat s.width ((s.rx rs1).toNat ^^^ v.toNat)) (s.pcAfter 4) (exec (.xori rd rs1 imm) s) ∧
    setsX s rd (BitVec.ofNat s.width ((s.rx rs1).toNat ||| v.toNat)) (s.pcAfter 4) (exec (.ori rd rs1 imm) s) ∧
    setsX s rd (BitVec.ofNat s.width ((s.rx rs1).toNat &&& v.toNat)) (s.pcAfter 4) (exec (.andi rd rs1 imm) s)

/-- R301, R337, R338, R340-R342, R345, R346: register-register arithmetic modulo 2^XLEN. -/
def Obligations.RegisterArithmetic : Prop :=
  ∀ (s : State) (rd rs1 rs2 : Reg), s.cfg.is32or64 = true →
    setsX s rd (BitVec.ofNat s.width ((s.rx rs1).toNat + (s.rx rs2).toNat)) (s.pcAfter 4) (exec (.add rd rs1 rs2) s) ∧
    setsX s rd (BitVec.ofInt s.width ((s.rx rs1).toInt - (s.rx rs2).toInt)) (s.pcAfter 4) (exec (.sub rd rs1 rs2) s) ∧
    setsX s rd (if (s.rx rs1).toInt < (s.rx rs2).toInt then 1 else 0) (s.pcAfter 4) (exec (.slt rd rs1 rs2) s) ∧
    setsX s rd (if (s.rx rs1).toNat < (s.rx rs2).toNat then 1 else 0) (s.pcAfter 4) (exec (.sltu rd rs1 rs2) s) ∧
    setsX s rd (BitVec.ofNat s.width ((s.rx rs1).toNat ^^^ (s.rx rs2).toNat)) (s.pcAfter 4) (exec (.xor rd rs1 rs2) s) ∧
    setsX s rd (BitVec.ofNat s.width ((s.rx rs1).toNat ||| (s.rx rs2).toNat)) (s.pcAfter 4) (exec (.or rd rs1 rs2) s) ∧
    setsX s rd (BitVec.ofNat s.width ((s.rx rs1).toNat &&& (s.rx rs2).toNat)) (s.pcAfter 4) (exec (.and rd rs1 rs2) s)

/-- R334-R336, R339, R343, R344, R361, R365-R367: shifts by an immediate (the 5-bit rows of XLEN = 32, the 6-bit rows of
XLEN = 64) and by the low 5 or 6 bits of a register. -/
def Obligations.Shifts : Prop :=
  ∀ (s : State) (rd rs1 rs2 : Reg),
    (∀ n : BitVec 5, s.cfg.xlen = .rv32 →
      setsX s rd (BitVec.ofNat s.width ((s.rx rs1).toNat * 2 ^ n.toNat)) (s.pcAfter 4) (exec (.slliRv32 rd rs1 n) s) ∧
      setsX s rd (BitVec.ofNat s.width ((s.rx rs1).toNat / 2 ^ n.toNat)) (s.pcAfter 4) (exec (.srliRv32 rd rs1 n) s) ∧
      setsX s rd (BitVec.ofInt s.width ((s.rx rs1).toInt / 2 ^ n.toNat)) (s.pcAfter 4) (exec (.sraiRv32 rd rs1 n) s)) ∧
    (∀ n : BitVec 6, s.cfg.xlen = .rv64 →
      setsX s rd (BitVec.ofNat s.width ((s.rx rs1).toNat * 2 ^ n.toNat)) (s.pcAfter 4) (exec (.slliRv64 rd rs1 n) s) ∧
      setsX s rd (BitVec.ofNat s.width ((s.rx rs1).toNat / 2 ^ n.toNat)) (s.pcAfter 4) (exec (.srliRv64 rd rs1 n) s) ∧
      setsX s rd (BitVec.ofInt s.width ((s.rx rs1).toInt / 2 ^ n.toNat)) (s.pcAfter 4) (exec (.sraiRv64 rd rs1 n) s)) ∧
    (s.cfg.is32or64 = true →
      let n := if s.cfg.xlen = .rv32 then (s.rx rs2).toNat % 32 else (s.rx rs2).toNat % 64
      setsX s rd (BitVec.ofNat s.width ((s.rx rs1).toNat * 2 ^ n)) (s.pcAfter 4) (exec (.sll rd rs1 rs2) s) ∧
      setsX s rd (BitVec.ofNat s.width ((s.rx rs1).toNat / 2 ^ n)) (s.pcAfter 4) (exec (.srl rd rs1 rs2) s) ∧
      setsX s rd (BitVec.ofInt s.width ((s.rx rs1).toInt / 2 ^ n)) (s.pcAfter 4) (exec (.sra rd rs1 rs2) s))

/-- The 32-bit result `z`, sign-extended to XLEN (R360). -/
def wordResult (w : Nat) (z : Int) : BitVec w := BitVec.ofInt w (z.bmod (2 ^ 32))

/-- R360, R361, R368-R376: the W forms of RV64I. -/
def Obligations.WordArithmetic : Prop :=
  ∀ (s : State) (rd rs1 rs2 : Reg) (imm : BitVec 12) (n : BitVec 5), s.cfg.xlen = .rv64 →
    let a := (s.rx rs1).toNat % 2 ^ 32
    let m := (s.rx rs2).toNat % 32
    setsX s rd (wordResult s.width ((s.rx rs1).toInt + imm.toInt)) (s.pcAfter 4) (exec (.addiw rd rs1 imm) s) ∧
    setsX s rd (wordResult s.width ((a * 2 ^ n.toNat : Nat) : Int)) (s.pcAfter 4) (exec (.slliw rd rs1 n) s) ∧
    setsX s rd (wordResult s.width ((a / 2 ^ n.toNat : Nat) : Int)) (s.pcAfter 4) (exec (.srliw rd rs1 n) s) ∧
    setsX s rd (wordResult s.width ((a : Int).bmod (2 ^ 32) / 2 ^ n.toNat)) (s.pcAfter 4) (exec (.sraiw rd rs1 n) s) ∧
    setsX s rd (wordResult s.width ((s.rx rs1).toInt + (s.rx rs2).toInt)) (s.pcAfter 4) (exec (.addw rd rs1 rs2) s) ∧
    setsX s rd (wordResult s.width ((s.rx rs1).toInt - (s.rx rs2).toInt)) (s.pcAfter 4) (exec (.subw rd rs1 rs2) s) ∧
    setsX s rd (wordResult s.width ((a * 2 ^ m : Nat) : Int)) (s.pcAfter 4) (exec (.sllw rd rs1 rs2) s) ∧
    setsX s rd (wordResult s.width ((a / 2 ^ m : Nat) : Int)) (s.pcAfter 4) (exec (.srlw rd rs1 rs2) s) ∧
    setsX s rd (wordResult s.width ((a : Int).bmod (2 ^ 32) / 2 ^ m)) (s.pcAfter 4) (exec (.sraw rd rs1 rs2) s)

/-- The n-byte value `v` sign-extended to w bits. -/
def signExtended (w n v : Nat) : BitVec w := BitVec.ofInt w ((v : Int).bmod (2 ^ (8 * n)))

/-- R302, R320-R324, R362, R363: integer loads that are allowed write the little-endian value, extended, and nothing else;
a load into x0 completes and discards it. -/
def Obligations.IntegerLoads : Prop :=
  ∀ (s : State) (rd rs1 : Reg) (imm : BitVec 12),
    let a := (s.rx rs1 + signedImm s.width imm 0).toNat
    (s.cfg.is32or64 = true →
      (accessible s .load 1 a →
        setsX s rd (signExtended s.width 1 (valueAt s 1 a)) (s.pcAfter 4) (exec (.lb rd rs1 imm) s) ∧
        setsX s rd (BitVec.ofNat s.width (valueAt s 1 a)) (s.pcAfter 4) (exec (.lbu rd rs1 imm) s)) ∧
      (accessible s .load 2 a →
        setsX s rd (signExtended s.width 2 (valueAt s 2 a)) (s.pcAfter 4) (exec (.lh rd rs1 imm) s) ∧
        setsX s rd (BitVec.ofNat s.width (valueAt s 2 a)) (s.pcAfter 4) (exec (.lhu rd rs1 imm) s)) ∧
      (accessible s .load 4 a →
        setsX s rd (signExtended s.width 4 (valueAt s 4 a)) (s.pcAfter 4) (exec (.lw rd rs1 imm) s))) ∧
    (s.cfg.xlen = .rv64 →
      (accessible s .load 4 a →
        setsX s rd (BitVec.ofNat s.width (valueAt s 4 a)) (s.pcAfter 4) (exec (.lwu rd rs1 imm) s)) ∧
      (accessible s .load 8 a →
        setsX s rd (BitVec.ofNat s.width (valueAt s 8 a)) (s.pcAfter 4) (exec (.ld rd rs1 imm) s)))

/-- R303, R325-R327, R364: integer stores that are allowed write the low bytes of rs2 at the address, add them to `dirty`,
end an overlapped reservation, and change nothing else. -/
def Obligations.IntegerStores : Prop :=
  ∀ (s : State) (rs2 rs1 : Reg) (imm : BitVec 12),
    let a := (s.rx rs1 + signedImm s.width imm 0).toNat
    (s.cfg.is32or64 = true →
      (accessible s .store 1 a → stores s 1 a (s.rx rs2).toNat (s.pcAfter 4) (exec (.sb rs2 rs1 imm) s)) ∧
      (accessible s .store 2 a → stores s 2 a (s.rx rs2).toNat (s.pcAfter 4) (exec (.sh rs2 rs1 imm) s)) ∧
      (accessible s .store 4 a → stores s 4 a (s.rx rs2).toNat (s.pcAfter 4) (exec (.sw rs2 rs1 imm) s))) ∧
    (s.cfg.xlen = .rv64 → accessible s .store 8 a →
      stores s 8 a (s.rx rs2).toNat (s.pcAfter 4) (exec (.sd rs2 rs1 imm) s))

/-- R82, R86, R347, R348: FENCE changes nothing but pc; FENCE.I empties the `dirty` set and changes nothing else but pc. -/
def Obligations.FencesAndInstructionFence : Prop :=
  ∀ s : State, s.cfg.is32or64 = true →
    (∀ pred succ : BitVec 4, setsPc s (s.pcAfter 4) (exec (.fence pred succ) s)) ∧
    ∃ t, exec .fenceI s = .next t ∧ t.dirty = [] ∧ t.pc = s.pcAfter 4 ∧ t.x = s.x ∧ t.f = s.f ∧ t.fcsr = s.fcsr ∧
      t.resv = s.resv ∧ (∀ b, Memory.readByte t.mem b = Memory.readByte s.mem b) ∧ keepsSystem s t

/-- R132, R200, R207, R238, R239, R269, R349, R350, R605, R611: the rows that always raise: the all-zero parcel and the
Reserved rows IllegalInstruction with their bits, EBREAK and C.EBREAK Breakpoint with pc, ECALL EnvironmentCall with 0; and
the unlisted parcels, which follow q1_rd0_nzimm_policy (R137, R243). -/
def Obligations.RaisingAndUnlistedRows : Prop :=
  ∀ (s : State) (payload : BitVec 11) (hi lo : BitVec 3) (imm6 : BitVec 6),
    trapsWith s .illegalInstruction 0 (exec .illegal s) ∧
    trapsWith s .illegalInstruction (BitVec.ofNat 128 (0x8000 + payload.toNat * 4)) (exec (.reservedQ0 payload) s) ∧
    trapsWith s .illegalInstruction (BitVec.ofNat 128 (0x9c41 + hi.toNat * 128 + lo.toNat * 4))
      (exec (.reservedQ1a hi lo) s) ∧
    trapsWith s .illegalInstruction (BitVec.ofNat 128 (0x9c61 + hi.toNat * 128 + lo.toNat * 4))
      (exec (.reservedQ1b hi lo) s) ∧
    trapsWith s .breakpoint s.pc (exec .cEbreak s) ∧
    trapsWith s .breakpoint s.pc (exec .ebreak s) ∧
    trapsWith s .environmentCall 0 (exec .ecall s) ∧
    (imm6 ≠ 0 → s.cfg.unlisted = .nop → setsPc s (s.pcAfter 2) (exec (.unlisted imm6) s)) ∧
    (imm6 ≠ 0 → s.cfg.unlisted = .illegal →
      trapsWith s .illegalInstruction
        (BitVec.ofNat 128 (imm6.toNat / 32 * 2 ^ 12 + imm6.toNat % 32 * 4 + 1)) (exec (.unlisted imm6) s))

/-! ### RVC -/

/-- R201, R220, R221, R223-R226, R231: compressed immediate arithmetic. The HINT forms (nzimm = 0, or rd = x0) are covered: they
write nothing new. -/
def Obligations.CompressedImmediateArithmetic : Prop :=
  ∀ (s : State) (r : CReg) (rd : Reg) (imm : BitVec 6),
    setsPc s (s.pcAfter 2) (exec .cNop s) ∧
    (∀ z : BitVec 8, z ≠ 0 → setsX s (primed r) (BitVec.ofNat s.width ((s.rx 2).toNat + z.toNat * 4)) (s.pcAfter 2)
      (exec (.cAddi4spn r z) s)) ∧
    (rd ≠ 0 → setsX s rd (BitVec.ofInt s.width ((s.rx rd).toInt + imm.toInt)) (s.pcAfter 2) (exec (.cAddi rd imm) s)) ∧
    (rd ≠ 0 → s.cfg.xlen ≠ .rv32 →
      setsX s rd (wordResult s.width ((s.rx rd).toInt + imm.toInt)) (s.pcAfter 2) (exec (.cAddiw rd imm) s)) ∧
    setsX s rd (BitVec.ofInt s.width imm.toInt) (s.pcAfter 2) (exec (.cLi rd imm) s) ∧
    (imm ≠ 0 → setsX s 2 (BitVec.ofInt s.width ((s.rx 2).toInt + imm.toInt * 16)) (s.pcAfter 2)
      (exec (.cAddi16sp imm) s)) ∧
    (imm ≠ 0 → rd ≠ 2 → setsX s rd (BitVec.ofInt s.width (imm.toInt * 4096)) (s.pcAfter 2) (exec (.cLui rd imm) s)) ∧
    setsX s (primed r) (BitVec.ofNat s.width ((s.rx (primed r)).toNat &&& (BitVec.ofInt s.width imm.toInt).toNat))
      (s.pcAfter 2) (exec (.cAndi r imm) s)

/-- R232-R237, R268, R271: compressed register arithmetic; C.MV and C.ADD with rd = x0 are HINTs and write nothing. -/
def Obligations.CompressedRegisterArithmetic : Prop :=
  ∀ (s : State) (r q : CReg) (rd rs2 : Reg),
    let a := s.rx (primed r)
    let b := s.rx (primed q)
    setsX s (primed r) (BitVec.ofInt s.width (a.toInt - b.toInt)) (s.pcAfter 2) (exec (.cSub r q) s) ∧
    setsX s (primed r) (BitVec.ofNat s.width (a.toNat ^^^ b.toNat)) (s.pcAfter 2) (exec (.cXor r q) s) ∧
    setsX s (primed r) (BitVec.ofNat s.width (a.toNat ||| b.toNat)) (s.pcAfter 2) (exec (.cOr r q) s) ∧
    setsX s (primed r) (BitVec.ofNat s.width (a.toNat &&& b.toNat)) (s.pcAfter 2) (exec (.cAnd r q) s) ∧
    (s.cfg.xlen ≠ .rv32 →
      setsX s (primed r) (wordResult s.width (a.toInt - b.toInt)) (s.pcAfter 2) (exec (.cSubw r q) s) ∧
      setsX s (primed r) (wordResult s.width (a.toInt + b.toInt)) (s.pcAfter 2) (exec (.cAddw r q) s)) ∧
    (rs2 ≠ 0 →
      setsX s rd (s.rx rs2) (s.pcAfter 2) (exec (.cMv rd rs2) s) ∧
      setsX s rd (BitVec.ofNat s.width ((s.rx rd).toNat + (s.rx rs2).toNat)) (s.pcAfter 2) (exec (.cAdd rd rs2) s))

/-- The shift amount a nonzero 6-bit field encodes (R128): with XLEN = 128, 32 to 63 mean 96 to 127. -/
def compressedShift (x : Xlen) (n : BitVec 6) : Nat := if x = .rv128 ∧ 32 ≤ n.toNat then n.toNat + 64 else n.toNat

/-- R128, R227-R230, R260, R261: compressed shifts; the shift-by-64 rows shift only with XLEN = 128 and are HINTs otherwise. -/
def Obligations.CompressedShifts : Prop :=
  ∀ (s : State) (r : CReg) (rd : Reg) (n : BitVec 6),
    let k := compressedShift s.cfg.xlen n
    (n ≠ 0 → (s.cfg.xlen = .rv32 → n.toNat < 32) →
      setsX s (primed r) (BitVec.ofNat s.width ((s.rx (primed r)).toNat / 2 ^ k)) (s.pcAfter 2) (exec (.cSrli r n) s) ∧
      setsX s (primed r) (BitVec.ofInt s.width ((s.rx (primed r)).toInt / 2 ^ k)) (s.pcAfter 2) (exec (.cSrai r n) s) ∧
      setsX s rd (BitVec.ofNat s.width ((s.rx rd).toNat * 2 ^ k)) (s.pcAfter 2) (exec (.cSlli rd n) s)) ∧
    (n ≠ 0 → setsPc s (s.pcAfter 2) (exec (.cSlli 0 n) s)) ∧
    (s.cfg.xlen ≠ .rv128 →
      setsPc s (s.pcAfter 2) (exec (.cSrli64 r) s) ∧ setsPc s (s.pcAfter 2) (exec (.cSrai64 r) s) ∧
      setsPc s (s.pcAfter 2) (exec (.cSlli64 rd) s)) ∧
    (s.cfg.xlen = .rv128 →
      setsX s (primed r) (BitVec.ofNat s.width ((s.rx (primed r)).toNat / 2 ^ 64)) (s.pcAfter 2) (exec (.cSrli64 r) s) ∧
      setsX s (primed r) (BitVec.ofInt s.width ((s.rx (primed r)).toInt / 2 ^ 64)) (s.pcAfter 2) (exec (.cSrai64 r) s) ∧
      setsX s rd (BitVec.ofNat s.width ((s.rx rd).toNat * 2 ^ 64)) (s.pcAfter 2) (exec (.cSlli64 rd) s))

/-- R203, R204, R206, R209, R210, R212, R263, R264, R266, R273, R274, R276: compressed integer loads and stores. C.LQ, C.SQ,
C.LQSP and C.SQSP exist with XLEN = 128 alone, where `step` refuses: of those four this says what `exec` does. -/
def Obligations.CompressedLoadsAndStores : Prop :=
  ∀ (s : State) (r r1 : CReg) (q : Reg) (o : BitVec 5) (o6 : BitVec 6),
    let a := fun z => (s.rx (primed r1) + unsignedImm s.width o z).toNat
    let b := fun z => (s.rx 2 + unsignedImm s.width o6 z).toNat
    (accessible s .load 4 (a 2) →
      setsX s (primed r) (signExtended s.width 4 (valueAt s 4 (a 2))) (s.pcAfter 2) (exec (.cLw r r1 o) s)) ∧
    (accessible s .store 4 (a 2) →
      stores s 4 (a 2) (s.rx (primed r)).toNat (s.pcAfter 2) (exec (.cSw r r1 o) s)) ∧
    (q ≠ 0 → accessible s .load 4 (b 2) →
      setsX s q (signExtended s.width 4 (valueAt s 4 (b 2))) (s.pcAfter 2) (exec (.cLwsp q o6) s)) ∧
    (accessible s .store 4 (b 2) → stores s 4 (b 2) (s.rx q).toNat (s.pcAfter 2) (exec (.cSwsp q o6) s)) ∧
    (s.cfg.xlen ≠ .rv32 →
      (accessible s .load 8 (a 3) →
        setsX s (primed r) (signExtended s.width 8 (valueAt s 8 (a 3))) (s.pcAfter 2) (exec (.cLd r r1 o) s)) ∧
      (accessible s .store 8 (a 3) →
        stores s 8 (a 3) (s.rx (primed r)).toNat (s.pcAfter 2) (exec (.cSd r r1 o) s)) ∧
      (q ≠ 0 → accessible s .load 8 (b 3) →
        setsX s q (signExtended s.width 8 (valueAt s 8 (b 3))) (s.pcAfter 2) (exec (.cLdsp q o6) s)) ∧
      (accessible s .store 8 (b 3) → stores s 8 (b 3) (s.rx q).toNat (s.pcAfter 2) (exec (.cSdsp q o6) s))) ∧
    (s.cfg.xlen = .rv128 →
      (accessible s .load 16 (a 4) →
        setsX s (primed r) (BitVec.ofNat s.width (valueAt s 16 (a 4))) (s.pcAfter 2) (exec (.cLq r r1 o) s)) ∧
      (accessible s .store 16 (a 4) →
        stores s 16 (a 4) (s.rx (primed r)).toNat (s.pcAfter 2) (exec (.cSq r r1 o) s)) ∧
      (q ≠ 0 → accessible s .load 16 (b 4) →
        setsX s q (BitVec.ofNat s.width (valueAt s 16 (b 4))) (s.pcAfter 2) (exec (.cLqsp q o6) s)) ∧
      (accessible s .store 16 (b 4) → stores s 16 (b 4) (s.rx q).toNat (s.pcAfter 2) (exec (.cSqsp q o6) s)))

/-! ### M -/

/-- R390, R392-R395, R400: products. -/
def Obligations.Multiplication : Prop :=
  ∀ (s : State) (rd rs1 rs2 : Reg), s.cfg.extM = true →
    (s.cfg.is32or64 = true →
      setsX s rd (BitVec.ofNat s.width ((s.rx rs1).toNat * (s.rx rs2).toNat)) (s.pcAfter 4) (exec (.mul rd rs1 rs2) s) ∧
      setsX s rd (BitVec.ofInt s.width ((s.rx rs1).toInt * (s.rx rs2).toInt / 2 ^ s.width)) (s.pcAfter 4)
        (exec (.mulh rd rs1 rs2) s) ∧
      setsX s rd (BitVec.ofInt s.width ((s.rx rs1).toInt * (s.rx rs2).toNat / 2 ^ s.width)) (s.pcAfter 4)
        (exec (.mulhsu rd rs1 rs2) s) ∧
      setsX s rd (BitVec.ofNat s.width ((s.rx rs1).toNat * (s.rx rs2).toNat / 2 ^ s.width)) (s.pcAfter 4)
        (exec (.mulhu rd rs1 rs2) s)) ∧
    (s.cfg.xlen = .rv64 →
      setsX s rd (wordResult s.width ((s.rx rs1).toInt * (s.rx rs2).toInt)) (s.pcAfter 4) (exec (.mulw rd rs1 rs2) s))

/-- R391 for signed operands of L bits: `q` and `r` are the quotient and remainder of `a` by `b`. -/
def signedDivision (L : Nat) (a b q r : Int) : Prop :=
  if b = 0 then q = -1 ∧ r = a
  else if a = -(2 ^ (L - 1)) ∧ b = -1 then q = -(2 ^ (L - 1)) ∧ r = 0
  else a = q * b + r ∧ |r| < |b| ∧ (r = 0 ∨ (r < 0 ↔ a < 0))

/-- R391 for unsigned operands of L bits. -/
def unsignedDivision (L a b q r : Nat) : Prop :=
  if b = 0 then q = 2 ^ L - 1 ∧ r = a else a = q * b + r ∧ r < b

/-- R391: division by zero and signed overflow have fixed results; otherwise the quotient rounds toward zero and the
remainder has the sign of the dividend; W forms work on 32 bits and sign-extend. -/
def Obligations.DivisionResults : Prop :=
  ∀ (s : State) (rd rs1 rs2 : Reg), s.cfg.extM = true →
    (s.cfg.is32or64 = true →
      (∃ q r, signedDivision s.width (s.rx rs1).toInt (s.rx rs2).toInt q r ∧
        setsX s rd (BitVec.ofInt s.width q) (s.pcAfter 4) (exec (.div rd rs1 rs2) s) ∧
        setsX s rd (BitVec.ofInt s.width r) (s.pcAfter 4) (exec (.rem rd rs1 rs2) s)) ∧
      (∃ q r, unsignedDivision s.width (s.rx rs1).toNat (s.rx rs2).toNat q r ∧
        setsX s rd (BitVec.ofNat s.width q) (s.pcAfter 4) (exec (.divu rd rs1 rs2) s) ∧
        setsX s rd (BitVec.ofNat s.width r) (s.pcAfter 4) (exec (.remu rd rs1 rs2) s))) ∧
    (s.cfg.xlen = .rv64 →
      (∃ q r, signedDivision 32 ((s.rx rs1).toInt.bmod (2 ^ 32)) ((s.rx rs2).toInt.bmod (2 ^ 32)) q r ∧
        setsX s rd (wordResult s.width q) (s.pcAfter 4) (exec (.divw rd rs1 rs2) s) ∧
        setsX s rd (wordResult s.width r) (s.pcAfter 4) (exec (.remw rd rs1 rs2) s)) ∧
      (∃ q r, unsignedDivision 32 ((s.rx rs1).toNat % 2 ^ 32) ((s.rx rs2).toNat % 2 ^ 32) q r ∧
        setsX s rd (wordResult s.width (q : Int)) (s.pcAfter 4) (exec (.divuw rd rs1 rs2) s) ∧
        setsX s rd (wordResult s.width (r : Int)) (s.pcAfter 4) (exec (.remuw rd rs1 rs2) s)))

/-! ### A -/

/-- `r` completes an LR: `x[rd]` receives the value, the reservation is made, nothing else changes. -/
def reserves (s : State) (wd : AtomicWidth) (rd : Reg) (a : Nat) (r : Result) : Prop :=
  ∃ t, r = .next t ∧ (rd ≠ 0 → t.getX s.width rd = signExtended s.width wd.bytes (valueAt s wd.bytes a)) ∧
    t.resv = some { addr := BitVec.ofNat 128 a, width := wd } ∧ keepsXBut s t rd ∧ t.pc = s.pcAfter 4 ∧ t.f = s.f ∧
    t.fcsr = s.fcsr ∧ (∀ b, Memory.readByte t.mem b = Memory.readByte s.mem b) ∧ t.dirty = s.dirty ∧ keepsSystem s t

/-- R411, R413, R420, R431: LR.W and LR.D, whatever aq and rl are; and how they stop (R412). -/
def Obligations.LoadReserved : Prop :=
  ∀ (s : State) (rd rs1 : Reg) (aq rl : Bool), s.cfg.extA = true →
    (s.cfg.is32or64 = true → stopsAt s .load true 4 (s.rx rs1).toNat (exec (.lrW rd rs1 aq rl) s) ∧
      (accessibleAtomic s .load 4 (s.rx rs1).toNat →
        reserves s .word rd (s.rx rs1).toNat (exec (.lrW rd rs1 aq rl) s))) ∧
    (s.cfg.xlen = .rv64 → stopsAt s .load true 8 (s.rx rs1).toNat (exec (.lrD rd rs1 aq rl) s) ∧
      (accessibleAtomic s .load 8 (s.rx rs1).toNat →
        reserves s .double rd (s.rx rs1).toNat (exec (.lrD rd rs1 aq rl) s)))

/-- `t` is the state after an SC that stored: memory and `dirty` as after a store, 0 in rd. -/
def conditionalStored (s t : State) (wd : AtomicWidth) (rd : Reg) (a v : Nat) : Prop :=
  (rd ≠ 0 → t.getX s.width rd = 0) ∧
  (∀ k, k < wd.bytes → (Memory.readByte t.mem (a + k)).toNat = v / 256 ^ k % 256) ∧ keepsMemoryBut s t wd.bytes a ∧
  (∀ b, b ∈ t.dirty ↔ b ∈ s.dirty ∨ (a ≤ b ∧ b < a + wd.bytes))

/-- `t` is the state after an SC that failed: 1 in rd, nothing stored. -/
def conditionalFailed (s t : State) (rd : Reg) : Prop :=
  (rd ≠ 0 → t.getX s.width rd = 1) ∧ (∀ b, Memory.readByte t.mem b = Memory.readByte s.mem b) ∧ t.dirty = s.dirty

/-- R413: an SC completes; it fails unless the reservation is exactly its address and width; with a matching
reservation it stores, or fails when spurious failure is allowed; the reservation is gone in every case, and
everything else but pc and the count of draws (the model's own, notes/assumptions/9.md) is as before. -/
def conditional (s : State) (wd : AtomicWidth) (rd : Reg) (a v : Nat) (r : Result) : Prop :=
  ∃ t, r = .next t ∧
    (s.resv ≠ some { addr := BitVec.ofNat 128 a, width := wd } → conditionalFailed s t rd) ∧
    (s.resv = some { addr := BitVec.ofNat 128 a, width := wd } →
      conditionalStored s t wd rd a v ∨ (s.cfg.scMayFail = true ∧ conditionalFailed s t rd)) ∧
    t.resv = none ∧ keepsXBut s t rd ∧ t.pc = s.pcAfter 4 ∧ t.f = s.f ∧ t.fcsr = s.fcsr ∧
    t.cfg = s.cfg ∧ t.cycle = s.cycle ∧ t.time = s.time ∧ t.instret = s.instret

/-- R411-R413, R421, R432: SC.W and SC.D; and how they stop, whether or not the reservation matches (R412). -/
def Obligations.StoreConditional : Prop :=
  ∀ (s : State) (rd rs1 rs2 : Reg) (aq rl : Bool), s.cfg.extA = true →
    (s.cfg.is32or64 = true → stopsAt s .amo true 4 (s.rx rs1).toNat (exec (.scW rd rs1 rs2 aq rl) s) ∧
      (accessibleAtomic s .amo 4 (s.rx rs1).toNat →
        conditional s .word rd (s.rx rs1).toNat (s.rx rs2).toNat (exec (.scW rd rs1 rs2 aq rl) s))) ∧
    (s.cfg.xlen = .rv64 → stopsAt s .amo true 8 (s.rx rs1).toNat (exec (.scD rd rs1 rs2 aq rl) s) ∧
      (accessibleAtomic s .amo 8 (s.rx rs1).toNat →
        conditional s .double rd (s.rx rs1).toNat (s.rx rs2).toNat (exec (.scD rd rs1 rs2 aq rl) s)))

/-- `r` completes an AMO of n bytes at `a`: the low n bytes of `new` are stored, `x[rd]` receives the old value
sign-extended, nothing else changes (R414). -/
def modifies (s : State) (n : Nat) (rd : Reg) (a new : Nat) (r : Result) : Prop :=
  ∃ t, r = .next t ∧ storesBytes s t n a new ∧
    (rd ≠ 0 → t.getX s.width rd = signExtended s.width n (valueAt s n a)) ∧ keepsXBut s t rd ∧ t.pc = s.pcAfter 4 ∧
    t.f = s.f ∧ t.fcsr = s.fcsr ∧ keepsSystem s t

/-- The nine operations of one width on the AMOs `swap add xor and or min max minu maxu`, with the way they stop. -/
def amosOfWidth (s : State) (n : Nat) (rd : Reg) (a src : Nat) (swap add xor and or min max minu maxu : Instr) : Prop :=
  let t := valueAt s n a
  let v := src % 2 ^ (8 * n)
  let signed := fun k : Nat => (k : Int).bmod (2 ^ (8 * n))
  (∀ i ∈ [swap, add, xor, and, or, min, max, minu, maxu], stopsAt s .amo true n a (exec i s)) ∧
  (accessibleAtomic s .amo n a →
    modifies s n rd a v (exec swap s) ∧
    modifies s n rd a (t + v) (exec add s) ∧
    modifies s n rd a (t ^^^ v) (exec xor s) ∧
    modifies s n rd a (t &&& v) (exec and s) ∧
    modifies s n rd a (t ||| v) (exec or s) ∧
    modifies s n rd a (if signed t < signed v then t else v) (exec min s) ∧
    modifies s n rd a (if signed t < signed v then v else t) (exec max s) ∧
    modifies s n rd a (if t < v then t else v) (exec minu s) ∧
    modifies s n rd a (if t < v then v else t) (exec maxu s))

/-- R411, R412, R414, R422-R430, R433-R441: the AMOs of both widths, whatever aq and rl are. -/
def Obligations.AtomicReadModifyWrite : Prop :=
  ∀ (s : State) (rd rs1 rs2 : Reg) (aq rl : Bool), s.cfg.extA = true →
    (s.cfg.is32or64 = true →
      amosOfWidth s 4 rd (s.rx rs1).toNat (s.rx rs2).toNat (.amoswapW rd rs1 rs2 aq rl) (.amoaddW rd rs1 rs2 aq rl)
        (.amoxorW rd rs1 rs2 aq rl) (.amoandW rd rs1 rs2 aq rl) (.amoorW rd rs1 rs2 aq rl) (.amominW rd rs1 rs2 aq rl)
        (.amomaxW rd rs1 rs2 aq rl) (.amominuW rd rs1 rs2 aq rl) (.amomaxuW rd rs1 rs2 aq rl)) ∧
    (s.cfg.xlen = .rv64 →
      amosOfWidth s 8 rd (s.rx rs1).toNat (s.rx rs2).toNat (.amoswapD rd rs1 rs2 aq rl) (.amoaddD rd rs1 rs2 aq rl)
        (.amoxorD rd rs1 rs2 aq rl) (.amoandD rd rs1 rs2 aq rl) (.amoorD rd rs1 rs2 aq rl) (.amominD rd rs1 rs2 aq rl)
        (.amomaxD rd rs1 rs2 aq rl) (.amominuD rd rs1 rs2 aq rl) (.amomaxuD rd rs1 rs2 aq rl))

/-! ### CSRs -/

/-- R38-R40, R305, R351-R356: the six CSR instructions on fflags, frm and fcsr, three windows on the same eight bits. A set or
clear form whose rs1 or zimm field is zero writes nothing. -/
def Obligations.FloatCsrInstructions : Prop :=
  ∀ (s : State) (rd rs1 : Reg) (zimm : BitVec 5) (n : CsrNum), s.cfg.is32or64 = true → s.cfg.extF = true → isFpCsr n →
    let old := fpCsrRead n s.fcsr
    let r := (s.rx rs1)
    let put := fpCsrWritten n s.fcsr
    swapsFcsr s rd old (put r.toNat) (s.pcAfter 4) (exec (.csrrw rd rs1 n) s) ∧
    swapsFcsr s rd old (if rs1 = 0 then s.fcsr else put (old ||| r.toNat)) (s.pcAfter 4) (exec (.csrrs rd rs1 n) s) ∧
    swapsFcsr s rd old (if rs1 = 0 then s.fcsr else put (old &&& (~~~r).toNat)) (s.pcAfter 4)
      (exec (.csrrc rd rs1 n) s) ∧
    swapsFcsr s rd old (put zimm.toNat) (s.pcAfter 4) (exec (.csrrwi rd zimm n) s) ∧
    swapsFcsr s rd old (if zimm = 0 then s.fcsr else put (old ||| zimm.toNat)) (s.pcAfter 4)
      (exec (.csrrsi rd zimm n) s) ∧
    swapsFcsr s rd old (if zimm = 0 then s.fcsr else put (old &&& (2 ^ s.width - 1 - zimm.toNat))) (s.pcAfter 4)
      (exec (.csrrci rd zimm n) s)

/-- R41, R42, R305: the counters: the set and clear forms that write nothing read a fresh value, not below the last one,
whatever the free value drawn is; every form that would write raises IllegalInstruction. -/
def Obligations.CounterCsrs : Prop :=
  ∀ (s : State) (rd rs1 : Reg) (zimm : BitVec 5) (n : CsrNum), s.cfg.is32or64 = true → isCounterCsr s.cfg n →
    readsCounter s n rd (s.pcAfter 4) (exec (.csrrs rd 0 n) s) ∧
    readsCounter s n rd (s.pcAfter 4) (exec (.csrrc rd 0 n) s) ∧
    readsCounter s n rd (s.pcAfter 4) (exec (.csrrsi rd 0 n) s) ∧
    readsCounter s n rd (s.pcAfter 4) (exec (.csrrci rd 0 n) s) ∧
    (∀ i ∈ [Instr.csrrw rd rs1 n, .csrrwi rd zimm n], trapsWith s .illegalInstruction i.encode.info (exec i s)) ∧
    (rs1 ≠ 0 → ∀ i ∈ [Instr.csrrs rd rs1 n, .csrrc rd rs1 n],
      trapsWith s .illegalInstruction i.encode.info (exec i s)) ∧
    (zimm ≠ 0 → ∀ i ∈ [Instr.csrrsi rd zimm n, .csrrci rd zimm n],
      trapsWith s .illegalInstruction i.encode.info (exec i s))

/-- R43: every number that is not one of R37's, or whose "exists when" is false, makes any CSR instruction raise
IllegalInstruction, whatever its rs1 and rd; of the nine, bits 11:10 are 11 exactly for the read-only ones, and bits 9:8 are 00. -/
def Obligations.UnimplementedCsrsRaise : Prop :=
  (∀ (s : State) (rd rs1 : Reg) (zimm : BitVec 5) (n : CsrNum), s.cfg.is32or64 = true →
    ¬ (isFpCsr n ∧ s.cfg.extF = true) → ¬ isCounterCsr s.cfg n →
    ∀ i ∈ [Instr.csrrw rd rs1 n, .csrrs rd rs1 n, .csrrc rd rs1 n, .csrrwi rd zimm n, .csrrsi rd zimm n,
      .csrrci rd zimm n], trapsWith s .illegalInstruction i.encode.info (exec i s)) ∧
  (∀ (c : Config) (n : CsrNum) (k : Csr), csrOf c n = some k →
    (k.readOnly = true ↔ n.extractLsb 11 10 = 0b11) ∧ n.extractLsb 9 8 = 0b00)

/-! ### F and D -/

/-- R31, R455: a single operand of an arithmetic instruction is the low half of a properly boxed register and the canonical
NaN otherwise, when FLEN = 64; with FLEN = 32 there is no box. -/
def Obligations.SingleOperandsAreUnboxed : Prop :=
  ∀ (s : State) (r : Reg),
    (s.getSingleBits r).toNat = (s.getF r).toNat % 2 ^ 32 ∧
    (s.cfg.flen = .f64 →
      (s.getSingle r).toNat =
        if (s.getF r).toNat / 2 ^ 32 = 0xffffffff then (s.getF r).toNat % 2 ^ 32 else 0x7fc00000) ∧
    (s.cfg.flen = .f32 → (s.getSingle r).toNat = (s.getF r).toNat % 2 ^ 32) ∧
    (∀ v : Single, ((s.setSingle r v).getSingle r) = v)

/-- R460, R461, R510, R511, R202, R205, R208, R211, R262, R265, R272, R275: floating-point loads and stores move bits unchanged;
a single is boxed on the way in and taken unchecked from the low half on the way out. -/
def Obligations.FloatLoadsAndStores : Prop :=
  ∀ (s : State) (r r1 : CReg) (q rs1 : Reg) (imm : BitVec 12) (o : BitVec 5) (o6 : BitVec 6),
    let a := (s.rx rs1 + signedImm s.width imm 0).toNat
    (s.cfg.is32or64 = true → s.cfg.extF = true →
      (accessible s .load 4 a →
        setsS s q (BitVec.ofNat 32 (valueAt s 4 a)) 0 (s.pcAfter 4) (exec (.flw q rs1 imm) s)) ∧
      (accessible s .store 4 a → stores s 4 a (s.getF q).toNat (s.pcAfter 4) (exec (.fsw q rs1 imm) s))) ∧
    (s.cfg.is32or64 = true → s.cfg.hasD = true →
      (accessible s .load 8 a →
        setsD s q (BitVec.ofNat 64 (valueAt s 8 a)) 0 (s.pcAfter 4) (exec (.fld q rs1 imm) s)) ∧
      (accessible s .store 8 a → stores s 8 a (s.getF q).toNat (s.pcAfter 4) (exec (.fsd q rs1 imm) s)) ∧
      (accessible s .load 8 (s.rx (primed r1) + unsignedImm s.width o 3).toNat →
        setsD s (primed r) (BitVec.ofNat 64 (valueAt s 8 (s.rx (primed r1) + unsignedImm s.width o 3).toNat)) 0
          (s.pcAfter 2) (exec (.cFld r r1 o) s)) ∧
      (accessible s .store 8 (s.rx (primed r1) + unsignedImm s.width o 3).toNat →
        stores s 8 (s.rx (primed r1) + unsignedImm s.width o 3).toNat (s.getF (primed r)).toNat (s.pcAfter 2)
          (exec (.cFsd r r1 o) s)) ∧
      (accessible s .load 8 (s.rx 2 + unsignedImm s.width o6 3).toNat →
        setsD s q (BitVec.ofNat 64 (valueAt s 8 (s.rx 2 + unsignedImm s.width o6 3).toNat)) 0 (s.pcAfter 2)
          (exec (.cFldsp q o6) s)) ∧
      (accessible s .store 8 (s.rx 2 + unsignedImm s.width o6 3).toNat →
        stores s 8 (s.rx 2 + unsignedImm s.width o6 3).toNat (s.getF q).toNat (s.pcAfter 2)
          (exec (.cFsdsp q o6) s))) ∧
    (s.cfg.xlen = .rv32 → s.cfg.extF = true →
      (accessible s .load 4 (s.rx (primed r1) + unsignedImm s.width o 2).toNat →
        setsS s (primed r) (BitVec.ofNat 32 (valueAt s 4 (s.rx (primed r1) + unsignedImm s.width o 2).toNat)) 0
          (s.pcAfter 2) (exec (.cFlw r r1 o) s)) ∧
      (accessible s .store 4 (s.rx (primed r1) + unsignedImm s.width o 2).toNat →
        stores s 4 (s.rx (primed r1) + unsignedImm s.width o 2).toNat (s.getF (primed r)).toNat (s.pcAfter 2)
          (exec (.cFsw r r1 o) s)) ∧
      (accessible s .load 4 (s.rx 2 + unsignedImm s.width o6 2).toNat →
        setsS s q (BitVec.ofNat 32 (valueAt s 4 (s.rx 2 + unsignedImm s.width o6 2).toNat)) 0 (s.pcAfter 2)
          (exec (.cFlwsp q o6) s)) ∧
      (accessible s .store 4 (s.rx 2 + unsignedImm s.width o6 2).toNat →
        stores s 4 (s.rx 2 + unsignedImm s.width o6 2).toNat (s.getF q).toNat (s.pcAfter 2) (exec (.cFswsp q o6) s)))

/-- R452, R456, R462-R470, R502, R512-R520: arithmetic of both precisions: with a valid rounding mode it completes, f[rd]
receives the result of the named operation (a single boxed) and its flags accrue. -/
def Obligations.FloatArithmeticInstructions : Prop :=
  ∀ (s : State) (rd rs1 rs2 rs3 : Reg) (rm : RmField) (m : RoundingMode), s.cfg.is32or64 = true →
    modeField rm s.frm = modeCode m →
    (s.cfg.extF = true →
      let a := s.getSingle rs1
      let b := s.getSingle rs2
      let c := s.getSingle rs3
      let done := fun (x : Single × FpFlags) (r : Result) => setsS s rd x.1 x.2 (s.pcAfter 4) r
      done (fpAdd binary32 m a b) (exec (.faddS rd rs1 rs2 rm) s) ∧
      done (fpSub binary32 m a b) (exec (.fsubS rd rs1 rs2 rm) s) ∧
      done (fpMul binary32 m a b) (exec (.fmulS rd rs1 rs2 rm) s) ∧
      done (fpDiv binary32 m a b) (exec (.fdivS rd rs1 rs2 rm) s) ∧
      done (fpSqrt binary32 m a) (exec (.fsqrtS rd rs1 rm) s) ∧
      done (fpFma binary32 m false false a b c) (exec (.fmaddS rd rs1 rs2 rs3 rm) s) ∧
      done (fpFma binary32 m false true a b c) (exec (.fmsubS rd rs1 rs2 rs3 rm) s) ∧
      done (fpFma binary32 m true false a b c) (exec (.fnmsubS rd rs1 rs2 rs3 rm) s) ∧
      done (fpFma binary32 m true true a b c) (exec (.fnmaddS rd rs1 rs2 rs3 rm) s)) ∧
    (s.cfg.hasD = true →
      let a := s.getF rs1
      let b := s.getF rs2
      let c := s.getF rs3
      let done := fun (x : Double × FpFlags) (r : Result) => setsD s rd x.1 x.2 (s.pcAfter 4) r
      done (fpAdd binary64 m a b) (exec (.faddD rd rs1 rs2 rm) s) ∧
      done (fpSub binary64 m a b) (exec (.fsubD rd rs1 rs2 rm) s) ∧
      done (fpMul binary64 m a b) (exec (.fmulD rd rs1 rs2 rm) s) ∧
      done (fpDiv binary64 m a b) (exec (.fdivD rd rs1 rs2 rm) s) ∧
      done (fpSqrt binary64 m a) (exec (.fsqrtD rd rs1 rm) s) ∧
      done (fpFma binary64 m false false a b c) (exec (.fmaddD rd rs1 rs2 rs3 rm) s) ∧
      done (fpFma binary64 m false true a b c) (exec (.fmsubD rd rs1 rs2 rs3 rm) s) ∧
      done (fpFma binary64 m true false a b c) (exec (.fnmsubD rd rs1 rs2 rs3 rm) s) ∧
      done (fpFma binary64 m true true a b c) (exec (.fnmaddD rd rs1 rs2 rs3 rm) s))

/-- R452: a row with an rm cell whose mode is 101 or 110, or 111 while frm is above 100, raises IllegalInstruction, also when its
result would be exact. -/
def Obligations.InvalidRoundingModesRaise : Prop :=
  ∀ (s : State) (rd rs1 rs2 rs3 : Reg) (rm : RmField), s.cfg.is32or64 = true → 4 < modeField rm s.frm →
    let illegal := fun i : Instr => trapsWith s .illegalInstruction i.encode.info (exec i s)
    (s.cfg.extF = true → ∀ i ∈ [Instr.fmaddS rd rs1 rs2 rs3 rm, .fmsubS rd rs1 rs2 rs3 rm, .fnmsubS rd rs1 rs2 rs3 rm,
      .fnmaddS rd rs1 rs2 rs3 rm, .faddS rd rs1 rs2 rm, .fsubS rd rs1 rs2 rm, .fmulS rd rs1 rs2 rm,
      .fdivS rd rs1 rs2 rm, .fsqrtS rd rs1 rm, .fcvtWS rd rs1 rm, .fcvtWuS rd rs1 rm, .fcvtSW rd rs1 rm,
      .fcvtSWu rd rs1 rm, .fcvtLS rd rs1 rm, .fcvtLuS rd rs1 rm, .fcvtSL rd rs1 rm, .fcvtSLu rd rs1 rm], illegal i) ∧
    (s.cfg.hasD = true → ∀ i ∈ [Instr.fmaddD rd rs1 rs2 rs3 rm, .fmsubD rd rs1 rs2 rs3 rm, .fnmsubD rd rs1 rs2 rs3 rm,
      .fnmaddD rd rs1 rs2 rs3 rm, .faddD rd rs1 rs2 rm, .fsubD rd rs1 rs2 rm, .fmulD rd rs1 rs2 rm,
      .fdivD rd rs1 rs2 rm, .fsqrtD rd rs1 rm, .fcvtSD rd rs1 rm, .fcvtDS rd rs1 rm, .fcvtWD rd rs1 rm,
      .fcvtWuD rd rs1 rm, .fcvtDW rd rs1 rm, .fcvtDWu rd rs1 rm, .fcvtLD rd rs1 rm, .fcvtLuD rd rs1 rm,
      .fcvtDL rd rs1 rm, .fcvtDLu rd rs1 rm], illegal i)

/-- R471-R473, R478, R485, R521-R523, R538, R541: sign injection and the moves between x and f registers: bits only, no flag. -/
def Obligations.SignInjectionAndMoves : Prop :=
  ∀ (s : State) (rd rs1 rs2 : Reg), s.cfg.is32or64 = true →
    (s.cfg.extF = true →
      let a := (s.getSingle rs1).toNat
      let b := (s.getSingle rs2).toNat
      let signed := fun (k : Nat) (r : Result) =>
        setsS s rd (BitVec.ofNat 32 (k * 2 ^ 31 + a % 2 ^ 31)) 0 (s.pcAfter 4) r
      signed (b / 2 ^ 31) (exec (.fsgnjS rd rs1 rs2) s) ∧
      signed (1 - b / 2 ^ 31) (exec (.fsgnjnS rd rs1 rs2) s) ∧
      signed ((a / 2 ^ 31 + b / 2 ^ 31) % 2) (exec (.fsgnjxS rd rs1 rs2) s) ∧
      setsX s rd (wordResult s.width ((s.getF rs1).toNat : Int)) (s.pcAfter 4) (exec (.fmvXW rd rs1) s) ∧
      setsS s rd (BitVec.ofNat 32 (s.rx rs1).toNat) 0 (s.pcAfter 4) (exec (.fmvWX rd rs1) s)) ∧
    (s.cfg.hasD = true →
      let a := (s.getF rs1).toNat
      let b := (s.getF rs2).toNat
      let signed := fun (k : Nat) (r : Result) =>
        setsD s rd (BitVec.ofNat 64 (k * 2 ^ 63 + a % 2 ^ 63)) 0 (s.pcAfter 4) r
      signed (b / 2 ^ 63) (exec (.fsgnjD rd rs1 rs2) s) ∧
      signed (1 - b / 2 ^ 63) (exec (.fsgnjnD rd rs1 rs2) s) ∧
      signed ((a / 2 ^ 63 + b / 2 ^ 63) % 2) (exec (.fsgnjxD rd rs1 rs2) s) ∧
      (s.cfg.xlen = .rv64 →
        setsX s rd (BitVec.ofNat s.width a) (s.pcAfter 4) (exec (.fmvXD rd rs1) s) ∧
        setsD s rd (BitVec.ofNat 64 (s.rx rs1).toNat) 0 (s.pcAfter 4) (exec (.fmvDX rd rs1) s)))

/-- The minimum or maximum `r` of `a` and `b` with its flags under an edition (R474, R475): NaN operands by D21, and of
two numbers the smaller (larger) one, -0 below +0. -/
def isExtremum (F : FloatFormat) (ed : FminmaxEdition) (largest : Bool) {n : Nat} (a b r : BitVec n) (fl : FpFlags) : Prop :=
  (isSignaling F a ∨ isSignaling F b → fl = flagNV) ∧ (¬ isSignaling F a → ¬ isSignaling F b → fl = 0) ∧
  (isNan F a → isNan F b → r = fpCanonicalNaN F n) ∧
  (ed = .v22 → isSignaling F a ∨ isSignaling F b → r = fpCanonicalNaN F n) ∧
  (isNan F a → ¬ isNan F b → (ed = .ieee201x ∨ ¬ isSignaling F a) → r = b) ∧
  (¬ isNan F a → isNan F b → (ed = .ieee201x ∨ ¬ isSignaling F b) → r = a) ∧
  (∀ x y : EReal, hasExtendedValue F a x → hasExtendedValue F b y →
    (x < y → r = if largest then b else a) ∧ (y < x → r = if largest then a else b) ∧
    (x = y → (r = a ∨ r = b) ∧
      (signField F a ≠ signField F b → signField F r = if largest then 0 else 1)))

/-- R474, R475, R524, R525: FMIN and FMAX. -/
def Obligations.MinimumAndMaximum : Prop :=
  ∀ (s : State) (rd rs1 rs2 : Reg), s.cfg.is32or64 = true →
    (s.cfg.extF = true →
      (∃ v fl, isExtremum binary32 s.cfg.fminmax false (s.getSingle rs1) (s.getSingle rs2) v fl ∧
        setsS s rd v fl (s.pcAfter 4) (exec (.fminS rd rs1 rs2) s)) ∧
      (∃ v fl, isExtremum binary32 s.cfg.fminmax true (s.getSingle rs1) (s.getSingle rs2) v fl ∧
        setsS s rd v fl (s.pcAfter 4) (exec (.fmaxS rd rs1 rs2) s))) ∧
    (s.cfg.hasD = true →
      (∃ v fl, isExtremum binary64 s.cfg.fminmax false (s.getF rs1) (s.getF rs2) v fl ∧
        setsD s rd v fl (s.pcAfter 4) (exec (.fminD rd rs1 rs2) s)) ∧
      (∃ v fl, isExtremum binary64 s.cfg.fminmax true (s.getF rs1) (s.getF rs2) v fl ∧
        setsD s rd v fl (s.pcAfter 4) (exec (.fmaxD rd rs1 rs2) s)))

/-- The result `v` (0 or 1) and flags of a comparison (R479-R481): false on a NaN, NV on a signaling NaN, and with `loud`
on any NaN; otherwise whether `holds` is true of the values. -/
def isComparison (F : FloatFormat) (loud : Bool) (holds : EReal → EReal → Prop) {n : Nat} (a b : BitVec n) (v : Nat)
    (fl : FpFlags) : Prop :=
  (isNan F a ∨ isNan F b → v = 0) ∧
  (isSignaling F a ∨ isSignaling F b ∨ (loud = true ∧ (isNan F a ∨ isNan F b)) → fl = flagNV) ∧
  (¬ isSignaling F a → ¬ isSignaling F b → (loud = true → ¬ isNan F a ∧ ¬ isNan F b) → fl = 0) ∧
  (∀ x y : EReal, hasExtendedValue F a x → hasExtendedValue F b y → (holds x y → v = 1) ∧ (¬ holds x y → v = 0))

/-- The class number of a pattern (R482), from its sign, exponent and fraction fields. -/
def classNumber (F : FloatFormat) {n : Nat} (b : BitVec n) : Nat :=
  let negative := signField F b = 1
  if exponentField F b = 2 ^ F.expBits - 1 then
    if fractionField F b = 0 then (if negative then 0 else 7)
    else if fractionField F b < 2 ^ (F.fracBits - 1) then 8 else 9
  else if exponentField F b = 0 then
    if fractionField F b = 0 then (if negative then 3 else 4) else (if negative then 2 else 5)
  else if negative then 1 else 6

/-- R479-R482, R528-R531: FEQ is quiet, FLT and FLE set NV on any NaN, and FCLASS sets the one bit of the class and no flag. -/
def Obligations.ComparisonsAndClassification : Prop :=
  ∀ (s : State) (rd rs1 rs2 : Reg), s.cfg.is32or64 = true →
    (s.cfg.extF = true →
      let done := fun (loud : Bool) (holds : EReal → EReal → Prop) (r : Result) =>
        ∃ v fl, isComparison binary32 loud holds (s.getSingle rs1) (s.getSingle rs2) v fl ∧
          setsXFlags s rd (BitVec.ofNat s.width v) fl (s.pcAfter 4) r
      done false (fun x y => x = y) (exec (.feqS rd rs1 rs2) s) ∧
      done true (fun x y => x < y) (exec (.fltS rd rs1 rs2) s) ∧
      done true (fun x y => x ≤ y) (exec (.fleS rd rs1 rs2) s) ∧
      setsX s rd (BitVec.ofNat s.width (2 ^ classNumber binary32 (s.getSingle rs1))) (s.pcAfter 4)
        (exec (.fclassS rd rs1) s)) ∧
    (s.cfg.hasD = true →
      let done := fun (loud : Bool) (holds : EReal → EReal → Prop) (r : Result) =>
        ∃ v fl, isComparison binary64 loud holds (s.getF rs1) (s.getF rs2) v fl ∧
          setsXFlags s rd (BitVec.ofNat s.width v) fl (s.pcAfter 4) r
      done false (fun x y => x = y) (exec (.feqD rd rs1 rs2) s) ∧
      done true (fun x y => x < y) (exec (.fltD rd rs1 rs2) s) ∧
      done true (fun x y => x ≤ y) (exec (.fleD rd rs1 rs2) s) ∧
      setsX s rd (BitVec.ofNat s.width (2 ^ classNumber binary64 (s.getF rs1))) (s.pcAfter 4)
        (exec (.fclassD rd rs1) s))

/-- R490 with its table of limits, R476, R477, R486, R487, R532, R533, R536, R537: conversions to integers. The range test is
made on the rounded value, and NV and NX are never both set. -/
def Obligations.FloatToInteger : Prop :=
  ∀ (s : State) (rd rs1 : Reg) (rm : RmField) (m : RoundingMode), s.cfg.is32or64 = true →
    modeField rm s.frm = modeCode m →
    let single := fun (lo hi : Int) (put : Int → BitVec s.width) (r : Result) =>
      ∃ z fl, isToInt binary32 m lo hi (s.getSingle rs1) z fl ∧ fl &&& (flagNV ||| flagNX) ≠ flagNV ||| flagNX ∧
        setsXFlags s rd (put z) fl (s.pcAfter 4) r
    let double := fun (lo hi : Int) (put : Int → BitVec s.width) (r : Result) =>
      ∃ z fl, isToInt binary64 m lo hi (s.getF rs1) z fl ∧ fl &&& (flagNV ||| flagNX) ≠ flagNV ||| flagNX ∧
        setsXFlags s rd (put z) fl (s.pcAfter 4) r
    (s.cfg.extF = true →
      single (-(2 ^ 31)) (2 ^ 31 - 1) (wordResult s.width) (exec (.fcvtWS rd rs1 rm) s) ∧
      single 0 (2 ^ 32 - 1) (wordResult s.width) (exec (.fcvtWuS rd rs1 rm) s) ∧
      (s.cfg.xlen = .rv64 →
        single (-(2 ^ 63)) (2 ^ 63 - 1) (BitVec.ofInt s.width) (exec (.fcvtLS rd rs1 rm) s) ∧
        single 0 (2 ^ 64 - 1) (BitVec.ofInt s.width) (exec (.fcvtLuS rd rs1 rm) s))) ∧
    (s.cfg.hasD = true →
      double (-(2 ^ 31)) (2 ^ 31 - 1) (wordResult s.width) (exec (.fcvtWD rd rs1 rm) s) ∧
      double 0 (2 ^ 32 - 1) (wordResult s.width) (exec (.fcvtWuD rd rs1 rm) s) ∧
      (s.cfg.xlen = .rv64 →
        double (-(2 ^ 63)) (2 ^ 63 - 1) (BitVec.ofInt s.width) (exec (.fcvtLD rd rs1 rm) s) ∧
        double 0 (2 ^ 64 - 1) (BitVec.ofInt s.width) (exec (.fcvtLuD rd rs1 rm) s)))

/-- The conversion of the integer `z` to a format (R483): +0 for 0, else the rounded value. -/
def isOfInt (F : FloatFormat) (m : RoundingMode) (z : Int) {n : Nat} (r : BitVec n × FpFlags) : Prop :=
  (z = 0 → isZeroResult F 0 r) ∧ (z ≠ 0 → roundsTo F m (z : ℝ) r)

/-- R483, R484, R488, R489, R534, R535, R539, R540: conversions from the low 32 bits, or from all 64, signed or unsigned. -/
def Obligations.IntegerToFloat : Prop :=
  ∀ (s : State) (rd rs1 : Reg) (rm : RmField) (m : RoundingMode), s.cfg.is32or64 = true →
    modeField rm s.frm = modeCode m →
    let x := (s.rx rs1).toNat
    let single := fun (z : Int) (r : Result) =>
      ∃ v : Single × FpFlags, isOfInt binary32 m z v ∧ setsS s rd v.1 v.2 (s.pcAfter 4) r
    let double := fun (z : Int) (r : Result) =>
      ∃ v : Double × FpFlags, isOfInt binary64 m z v ∧ setsD s rd v.1 v.2 (s.pcAfter 4) r
    (s.cfg.extF = true →
      single ((x : Int).bmod (2 ^ 32)) (exec (.fcvtSW rd rs1 rm) s) ∧
      single ((x % 2 ^ 32 : Nat) : Int) (exec (.fcvtSWu rd rs1 rm) s) ∧
      (s.cfg.xlen = .rv64 →
        single ((x : Int).bmod (2 ^ 64)) (exec (.fcvtSL rd rs1 rm) s) ∧ single (x : Int) (exec (.fcvtSLu rd rs1 rm) s))) ∧
    (s.cfg.hasD = true →
      double ((x : Int).bmod (2 ^ 32)) (exec (.fcvtDW rd rs1 rm) s) ∧
      double ((x % 2 ^ 32 : Nat) : Int) (exec (.fcvtDWu rd rs1 rm) s) ∧
      (s.cfg.xlen = .rv64 →
        double ((x : Int).bmod (2 ^ 64)) (exec (.fcvtDL rd rs1 rm) s) ∧ double (x : Int) (exec (.fcvtDLu rd rs1 rm) s)))

/-- The conversion of a pattern to another format (R526, R527): a NaN gives the canonical NaN, with NV when signaling; an
infinity and a zero keep their sign; another number is rounded. -/
def isConversion (F G : FloatFormat) (m : RoundingMode) {n k : Nat} (a : BitVec n) (r : BitVec k × FpFlags) : Prop :=
  (isNan F a → r.1 = fpCanonicalNaN G k) ∧ (isSignaling F a → r.2 = flagNV) ∧
  (isNan F a → ¬ isSignaling F a → r.2 = 0) ∧
  (isInfinity F a → isInfinity G r.1 ∧ signField G r.1 = signField F a ∧ r.2 = 0) ∧
  ∀ x : ℝ, hasValue F a x → (x = 0 → isZeroResult G (signField F a) r) ∧ (x ≠ 0 → roundsTo G m x r)

/-- R526, R527: FCVT.S.D rounds and boxes; FCVT.D.S is exact, its rounding mode only checked. -/
def Obligations.FormatConversions : Prop :=
  ∀ (s : State) (rd rs1 : Reg) (rm : RmField) (m : RoundingMode), s.cfg.is32or64 = true → s.cfg.hasD = true →
    modeField rm s.frm = modeCode m →
    (∃ v : Single × FpFlags, isConversion binary64 binary32 m (s.getF rs1) v ∧
      setsS s rd v.1 v.2 (s.pcAfter 4) (exec (.fcvtSD rd rs1 rm) s)) ∧
    (∃ v : Double × FpFlags, isConversion binary32 binary64 m (s.getSingle rs1) v ∧
      (∀ x : ℝ, hasValue binary32 (s.getSingle rs1) x → hasValue binary64 v.1 x ∧ v.2 = 0) ∧
      setsD s rd v.1 v.2 (s.pcAfter 4) (exec (.fcvtDS rd rs1 rm) s))

/-! ### The arithmetic primitive of R456, on real numbers -/

/-- A format and its width: binary32 in 32 bits or binary64 in 64 bits (R451, R501). -/
def isFormat (F : FloatFormat) (n : Nat) : Prop := (F = binary32 ∧ n = 32) ∨ (F = binary64 ∧ n = 64)

/-- R451, R501: the decoding of a pattern: NaN with its signaling bit, infinity with its sign, or a finite value. -/
def Obligations.PatternsStandForTheirValues : Prop :=
  ∀ (F : FloatFormat) (n : Nat) (b : BitVec n), isFormat F n →
    ((∃ q, fpDecode F b = .nan q) ↔ isNan F b) ∧ (fpDecode F b = .nan true ↔ isSignaling F b) ∧
    (∀ g, fpDecode F b = .inf g ↔ isInfinity F b ∧ signField F b = if g then 1 else 0) ∧
    (∀ g k e, fpDecode F b = .finite g k e →
      hasValue F b ((-1) ^ (if g then 1 else 0) * k * (2 : ℝ) ^ e) ∧ signField F b = if g then 1 else 0) ∧
    (¬ isNan F b → ¬ isInfinity F b → ∃ g k e, fpDecode F b = .finite g k e)

/-- R456: the rounding function rounds every nonzero exact number k * 2^e correctly, in every mode, with overflow, underflow
after rounding, and inexactness as stated. -/
def Obligations.RoundingIsCorrect : Prop :=
  ∀ (F : FloatFormat) (n : Nat) (m : RoundingMode) (g : Bool) (k : Nat) (e : Int), isFormat F n → k ≠ 0 →
    roundsTo F m ((-1) ^ (if g then 1 else 0) * k * (2 : ℝ) ^ e) (fpRound F n m g k e)

/-- R456, R466-R468: the sum, difference and product of finite numbers is the exact result, rounded once; an exact zero sum
has the common sign, or +0 (-0 toward minus infinity). -/
def Obligations.SumsAndProductsAreRoundedOnce : Prop :=
  ∀ (F : FloatFormat) (n : Nat) (m : RoundingMode) (a b : BitVec n) (x y : ℝ), isFormat F n →
    hasValue F a x → hasValue F b y →
    let minusZero := if m = .rdn then 1 else 0
    (x + y ≠ 0 → roundsTo F m (x + y) (fpAdd F m a b)) ∧
    (x + y = 0 → isZeroResult F (if signField F a = signField F b then signField F a else minusZero) (fpAdd F m a b)) ∧
    (x - y ≠ 0 → roundsTo F m (x - y) (fpSub F m a b)) ∧
    (x - y = 0 → isZeroResult F (if signField F a ≠ signField F b then signField F a else minusZero) (fpSub F m a b)) ∧
    (x * y ≠ 0 → roundsTo F m (x * y) (fpMul F m a b)) ∧
    (x * y = 0 → isZeroResult F ((signField F a + signField F b) % 2) (fpMul F m a b))

/-- R456, R462-R465: the fused forms round ±(a*b) ± c once. -/
def Obligations.FusedMultiplyAddRoundsOnce : Prop :=
  ∀ (F : FloatFormat) (n : Nat) (m : RoundingMode) (np na : Bool) (a b c : BitVec n) (x y z : ℝ), isFormat F n →
    hasValue F a x → hasValue F b y → hasValue F c z →
    let exact := (if np then -(x * y) else x * y) + (if na then -z else z)
    let productSign := (signField F a + signField F b + if np then 1 else 0) % 2
    let addendSign := (signField F c + if na then 1 else 0) % 2
    (exact ≠ 0 → roundsTo F m exact (fpFma F m np na a b c)) ∧
    (exact = 0 → isZeroResult F (if productSign = addendSign then productSign else if m = .rdn then 1 else 0)
      (fpFma F m np na a b c))

/-- R454, R456: infinities in the fused forms: an infinite product or addend gives that infinity without a flag, opposite
infinities are invalid. -/
def Obligations.FusedMultiplyAddOfInfinities : Prop :=
  ∀ (F : FloatFormat) (n : Nat) (m : RoundingMode) (np na : Bool) (a b c : BitVec n), isFormat F n →
    let r := fpFma F m np na a b c
    let productSign := (signField F a + signField F b + if np then 1 else 0) % 2
    let addendSign := (signField F c + if na then 1 else 0) % 2
    let infinite := fun sign : Nat => isInfinity F r.1 ∧ signField F r.1 = sign ∧ r.2 = 0
    let infiniteProduct := (isInfinity F a ∧ ¬ isNan F b ∧ ¬ hasValue F b 0) ∨ (isInfinity F b ∧ ¬ isNan F a ∧ ¬ hasValue F a 0)
    (infiniteProduct → isInfinity F c → productSign ≠ addendSign → r = (fpCanonicalNaN F n, flagNV)) ∧
    (infiniteProduct → isInfinity F c → productSign = addendSign → infinite productSign) ∧
    (∀ z : ℝ, infiniteProduct → hasValue F c z → infinite productSign) ∧
    (∀ x y : ℝ, hasValue F a x → hasValue F b y → isInfinity F c → infinite addendSign)

/-- R456, R469: the quotient of finite numbers is rounded correctly; a finite nonzero number over zero is an infinity with
DZ; 0 / 0 is invalid. -/
def Obligations.QuotientsAreRoundedOnce : Prop :=
  ∀ (F : FloatFormat) (n : Nat) (m : RoundingMode) (a b : BitVec n) (x y : ℝ), isFormat F n →
    hasValue F a x → hasValue F b y →
    let sign := (signField F a + signField F b) % 2
    (x ≠ 0 → y ≠ 0 → roundsTo F m (x / y) (fpDiv F m a b)) ∧
    (x = 0 → y ≠ 0 → isZeroResult F sign (fpDiv F m a b)) ∧
    (x ≠ 0 → y = 0 → isInfinity F (fpDiv F m a b).1 ∧ signField F (fpDiv F m a b).1 = sign ∧
      (fpDiv F m a b).2 = flagDZ) ∧
    (x = 0 → y = 0 → fpDiv F m a b = (fpCanonicalNaN F n, flagNV))

/-- R456, R470: the square root of a positive finite number is rounded correctly; a zero gives itself; a negative number is
invalid. -/
def Obligations.SquareRootsAreRoundedOnce : Prop :=
  ∀ (F : FloatFormat) (n : Nat) (m : RoundingMode) (a : BitVec n) (x : ℝ), isFormat F n → hasValue F a x →
    (0 < x → roundsTo F m (Real.sqrt x) (fpSqrt F m a)) ∧
    (x = 0 → isZeroResult F (signField F a) (fpSqrt F m a)) ∧
    (x < 0 → fpSqrt F m a = (fpCanonicalNaN F n, flagNV))

/-- R454: the canonical NaNs; a NaN operand gives the canonical NaN, with NV exactly when one operand is signaling (for the
fused forms also when the product is 0 * infinity, even with a quiet NaN addend); inf - inf, 0 * inf, inf / inf and the square
root of minus infinity are invalid; other infinities propagate without a flag. -/
def Obligations.NanAndInfinityRules : Prop :=
  fpCanonicalNaN binary32 32 = 0x7fc00000#32 ∧ fpCanonicalNaN binary64 64 = 0x7ff8000000000000#64 ∧
  ∀ (F : FloatFormat) (n : Nat) (m : RoundingMode) (np na : Bool) (a b c : BitVec n), isFormat F n →
    let invalid := fun r : BitVec n × FpFlags => r = (fpCanonicalNaN F n, flagNV)
    let quiet := fun r : BitVec n × FpFlags => r = (fpCanonicalNaN F n, 0)
    let infinite := fun (sign : Nat) (r : BitVec n × FpFlags) => isInfinity F r.1 ∧ signField F r.1 = sign ∧ r.2 = 0
    let sign := (signField F a + signField F b) % 2
    let zeroTimesInfinity := (isInfinity F a ∧ hasValue F b 0) ∨ (hasValue F a 0 ∧ isInfinity F b)
    (isSignaling F a ∨ isSignaling F b →
      invalid (fpAdd F m a b) ∧ invalid (fpSub F m a b) ∧ invalid (fpMul F m a b) ∧ invalid (fpDiv F m a b)) ∧
    (isNan F a ∨ isNan F b → ¬ isSignaling F a → ¬ isSignaling F b →
      quiet (fpAdd F m a b) ∧ quiet (fpSub F m a b) ∧ quiet (fpMul F m a b) ∧ quiet (fpDiv F m a b)) ∧
    (isInfinity F a → isInfinity F b →
      (if signField F a = signField F b then infinite (signField F a) (fpAdd F m a b) else invalid (fpAdd F m a b)) ∧
      (if signField F a = signField F b then invalid (fpSub F m a b) else infinite (signField F a) (fpSub F m a b)) ∧
      infinite sign (fpMul F m a b) ∧ invalid (fpDiv F m a b)) ∧
    (∀ y : ℝ, isInfinity F a → hasValue F b y →
      infinite (signField F a) (fpAdd F m a b) ∧ infinite (signField F a) (fpSub F m a b) ∧
      infinite sign (fpDiv F m a b) ∧ (y = 0 → invalid (fpMul F m a b)) ∧ (y ≠ 0 → infinite sign (fpMul F m a b))) ∧
    (∀ x : ℝ, hasValue F a x → isInfinity F b →
      infinite (signField F b) (fpAdd F m a b) ∧ infinite (1 - signField F b) (fpSub F m a b) ∧
      isZeroResult F sign (fpDiv F m a b) ∧ (x = 0 → invalid (fpMul F m a b)) ∧ (x ≠ 0 → infinite sign (fpMul F m a b))) ∧
    (isSignaling F a → invalid (fpSqrt F m a)) ∧ (isNan F a → ¬ isSignaling F a → quiet (fpSqrt F m a)) ∧
    (isInfinity F a → if signField F a = 1 then invalid (fpSqrt F m a) else infinite 0 (fpSqrt F m a)) ∧
    (isSignaling F a ∨ isSignaling F b ∨ isSignaling F c ∨ zeroTimesInfinity → invalid (fpFma F m np na a b c)) ∧
    (isNan F a ∨ isNan F b ∨ isNan F c → ¬ isSignaling F a → ¬ isSignaling F b → ¬ isSignaling F c →
      ¬ zeroTimesInfinity → quiet (fpFma F m np na a b c))
end

