-- ==== Sys2Proof/Laws/Config.lean ====
section
/-! SUPPORT. The launch parameters with one value (R7): what each definition that reads one of them does, without the
parameter. -/

namespace Sys2Proof.Laws

open Sys2Proof.Machine

@[simp] theorem ilen_bits (i : Ilen) : i.bits = 32 := rfl

@[simp] theorem ialign_bytes (i : Ialign) : i.bytes = 2 := rfl

/-- A first parcel announces more than ILEN exactly when its bits 4:0 are all ones (R101, R118). -/
theorem isTooLong_eq (c : Config) (lo : BitVec 16) : isTooLong c lo = (isWide lo && lo.extractLsb 4 2 == 0b111) := by
  rw [isTooLong, ilen_bits, announcedBits]
  split
  · rename_i h
    rw [h, Bool.true_and]
    split
    · rename_i h7
      rw [h7]
      split <;> rfl
    · rename_i h7
      rw [beq_eq_false_iff_ne.2 h7]
      rfl
  · rename_i h
    simp [h]

/-- The 16-bit decoder selects the quadrant by bits 1:0 (R131). -/
theorem decode16_eq (c : Config) (inst : BitVec 16) :
    decode16 c inst =
      if inst.extractLsb 1 0 = 0b00#2 then quadrant0 c inst
      else if inst.extractLsb 1 0 = 0b01#2 then quadrant1 c inst
      else if inst.extractLsb 1 0 = 0b10#2 then quadrant2 c inst
      else .bad .noRow := by
  unfold decode16
  split <;> simp_all

/-- A reserved encoding raises IllegalInstruction with its bits (R118, R132). -/
@[simp] theorem reservedEncoding_eq (info : Word) (s : State) :
    reservedEncoding info s = raise .illegalInstruction info s := rfl

/-- Bits that are no instruction raise IllegalInstruction (R118, R604). -/
theorem decodeFetched_bad {bs : List Byte} {s : State} {k : Instr → Result} {e : DecodeError}
    (h : decode s.cfg bs = .bad e) :
    decodeFetched bs s k = raise .illegalInstruction (BitVec.ofNat 128 (bytesValue bs)) s := by
  simp [decodeFetched, h]

/-- Bits that are an instruction run it (R660). -/
theorem decodeFetched_instr {bs : List Byte} {s : State} {k : Instr → Result} {i : Instr}
    (h : decode s.cfg bs = .instr i) : decodeFetched bs s k = k i := by
  simp [decodeFetched, h]

/-- FENCE that exists is a nop (R347). -/
theorem execFence_eq (pred succ : BitVec 4) (s : State) :
    execFence pred succ s = onRow (.fence pred succ) s (complete 4 s) := rfl

/-- A draw of a counter (R41). -/
theorem counterDraw_eq (c : CounterRead) (draws : Nat) (last : BitVec 64) :
    counterDraw c draws last =
      BitVec.ofNat 64 (min (last.toNat + (Config.counterAdvance draws).toNat) (2 ^ 64 - 1)) := rfl

end Sys2Proof.Laws
end

