-- ==== Sys2Proof/Laws/Memory.lean ====
section
/-! SUPPORT. The laws of memory and of the `dirty` set: what is read after a write, what a write leaves alone, and that
every operation keeps the canonical form. -/

namespace Sys2Proof.Laws

open Sys2Proof.Machine

/-! ### One byte -/

/-- A byte just written reads as written. -/
theorem lookup_insert_same (m : List Host.Cell) (a : Nat) (v : Byte) :
    Memory.lookup (Memory.insert m a v) a = some v := by
  induction m with
  | nil => simp [Memory.insert, Memory.lookup]
  | cons c m ih =>
    obtain ⟨k, b⟩ := c
    simp only [Memory.insert]
    split
    · simp [Memory.lookup]
    · split
      · simp [Memory.lookup]
      · rename_i h1 h2; simp [Memory.lookup, h1, h2, ih]

/-- Every other byte reads as before. -/
theorem lookup_insert_other (m : List Host.Cell) (a b : Nat) (v : Byte) (h : b ≠ a) :
    Memory.lookup (Memory.insert m a v) b = Memory.lookup m b := by
  induction m with
  | nil => simp [Memory.insert, Memory.lookup, h]
  | cons c m ih =>
    obtain ⟨k, u⟩ := c
    simp only [Memory.insert]
    split
    · rename_i h1
      simp only [Memory.lookup, if_neg h]
      split
      · rw [if_neg (by omega), if_pos (by omega)]
      · rfl
    · split
      · rename_i h1 h2; subst h2; simp [Memory.lookup, h]
      · simp only [Memory.lookup, ih]

theorem readByte_insert_same (m : List Host.Cell) (a : Nat) (v : Byte) :
    Memory.readByte (Memory.insert m a v) a = v := by simp [Memory.readByte, lookup_insert_same]

theorem readByte_insert_other (m : List Host.Cell) (a b : Nat) (v : Byte) (h : b ≠ a) :
    Memory.readByte (Memory.insert m a v) b = Memory.readByte m b := by
  simp [Memory.readByte, lookup_insert_other m a b v h]

/-! ### Wide accesses (R64) -/

/-- A write leaves every byte outside its own alone. -/
theorem readByte_write_outside (m : List Host.Cell) (n a b : Nat) (v : Word) (h : b < a ∨ a + n ≤ b) :
    Memory.readByte (Memory.write m n a v) b = Memory.readByte m b := by
  induction n generalizing a v with
  | zero => rfl
  | succ n ih =>
    simp only [Memory.write]
    rw [readByte_insert_other _ _ _ _ (by omega), ih (a + 1) _ (by omega)]

/-- The k-th byte written is bits 8k+7 to 8k of the value (R64). -/
theorem readByte_write_inside (m : List Host.Cell) (n a k : Nat) (v : Word) (h : k < n) :
    Memory.readByte (Memory.write m n a v) (a + k) = (v >>> (8 * k)).setWidth 8 := by
  induction n generalizing a v k with
  | zero => omega
  | succ n ih =>
    simp only [Memory.write]
    cases k with
    | zero => simp [readByte_insert_same]
    | succ k =>
      rw [readByte_insert_other _ _ _ _ (by omega), show a + (k + 1) = a + 1 + k by omega, ih (a + 1) k _ (by omega),
        ← BitVec.shiftRight_add, show 8 + 8 * k = 8 * (k + 1) by omega]

/-- The value read has the little-endian value of the bytes (R64). -/
theorem read_toNat_succ (m : List Host.Cell) (n a : Nat) :
    (Memory.read m (n + 1) a).toNat = (Memory.readByte m a).toNat + 256 * (Memory.read m n (a + 1)).toNat := by
  have hb := (Memory.readByte m a).isLt
  simp only [Memory.read, BitVec.toNat_append]
  rw [Nat.shiftLeft_eq, Nat.mul_comm, ← Nat.two_pow_add_eq_or_of_lt hb]
  omega

/-- Equal bytes give equal values. -/
theorem read_congr (m m' : List Host.Cell) (n a : Nat)
    (h : ∀ k, k < n → Memory.readByte m (a + k) = Memory.readByte m' (a + k)) : Memory.read m n a = Memory.read m' n a := by
  induction n generalizing a with
  | zero => rfl
  | succ n ih =>
    simp only [Memory.read]
    rw [ih (a + 1) fun k hk => by have := h (k + 1) (by omega); rwa [show a + (k + 1) = a + 1 + k by omega] at this,
      show Memory.readByte m a = Memory.readByte m' a by simpa using h 0 (by omega)]

/-! ### The canonical form is kept -/

/-- Writing a byte keeps the canonical form. -/
theorem insert_wf (m : List Host.Cell) (a : Nat) (v : Byte) (h : Memory.wf m = true) :
    Memory.wf (Memory.insert m a v) = true := by
  induction m with
  | nil => rfl
  | cons c m ih =>
    obtain ⟨k, b⟩ := c
    simp only [Memory.insert]
    split
    · rename_i h1; simp [Memory.wf, h1, h]
    · split
      · rename_i h1 h2; subst h2
        cases m with
        | nil => rfl
        | cons d m => obtain ⟨k', b'⟩ := d; simpa [Memory.wf] using h
      · rename_i h1 h2
        cases m with
        | nil => simp [Memory.insert, Memory.wf]; omega
        | cons d m =>
          obtain ⟨k', b'⟩ := d
          simp only [Memory.wf, Bool.and_eq_true, decide_eq_true_eq] at h
          have := ih h.2
          simp only [Memory.insert] at this ⊢
          split at this
          · rename_i h3; simp only [if_pos h3, Memory.wf, Bool.and_eq_true, decide_eq_true_eq]
            exact ⟨by omega, h3, h.2⟩
          · rename_i h3
            split at this
            · rename_i h4; subst h4
              simp only [if_neg h3, if_true, Memory.wf]
              simp [h.1, this]
            · rename_i h4
              simp only [if_neg h3, if_neg h4, Memory.wf, Bool.and_eq_true, decide_eq_true_eq]
              exact ⟨h.1, this⟩

/-- A wide write keeps the canonical form. -/
theorem write_wf (m : List Host.Cell) (n a : Nat) (v : Word) (h : Memory.wf m = true) :
    Memory.wf (Memory.write m n a v) = true := by
  induction n generalizing a v with
  | zero => exact h
  | succ n ih => exact insert_wf _ _ _ (ih (a + 1) _)

/-- Placing bytes keeps the canonical form. -/
theorem placeBytes_wf (m : List Host.Cell) (bs : List Byte) (a : Nat) (h : Memory.wf m = true) :
    Memory.wf (placeBytes m bs a) = true := by
  induction bs generalizing m a with
  | nil => exact h
  | cons b bs ih => exact ih _ _ (insert_wf _ _ _ h)

/-- The memory at reset is in canonical form. -/
theorem reset_mem_wf : Memory.wf State.reset.mem = true := rfl

/-- The addresses a write can add. -/
theorem mem_insert (m : List Host.Cell) (a : Nat) (v : Byte) (c : Host.Cell) (h : c ∈ Memory.insert m a v) :
    c = (a, v) ∨ c ∈ m := by
  induction m with
  | nil => simpa [Memory.insert] using h
  | cons d m ih =>
    obtain ⟨k, b⟩ := d
    simp only [Memory.insert] at h
    split at h
    · simpa using h
    · split at h
      · rcases List.mem_cons.1 h with h | h
        · exact .inl h
        · exact .inr (List.mem_cons_of_mem _ h)
      · rcases List.mem_cons.1 h with h | h
        · exact .inr (h ▸ List.mem_cons_self)
        · exact (ih h).imp_right (List.mem_cons_of_mem _)

/-- The addresses a wide write can add. -/
theorem mem_write (m : List Host.Cell) (n a : Nat) (v : Word) (c : Host.Cell) (h : c ∈ Memory.write m n a v) :
    (a ≤ c.1 ∧ c.1 < a + n) ∨ c ∈ m := by
  induction n generalizing a v with
  | zero => exact .inr h
  | succ n ih =>
    rcases mem_insert _ _ _ _ h with h | h
    · subst h; exact .inl ⟨le_refl _, by simp⟩
    · exact (ih _ _ h).imp_left fun h => by omega

/-! ### Equal memories are equal data -/

/-- In canonical form no address below the first one is listed. -/
theorem lookup_below (k : Nat) (b : Byte) (m : List Host.Cell) (a : Nat) (h : a < k) :
    Memory.lookup ((k, b) :: m) a = none := by
  simp only [Memory.lookup]; rw [if_neg (by omega), if_pos h]

/-- In canonical form the tail does not list an address up to the head's. -/
theorem lookup_tail (k : Nat) (b : Byte) (m : List Host.Cell) (a : Nat) (hw : Memory.wf ((k, b) :: m) = true)
    (h : a ≤ k) : Memory.lookup m a = none := by
  cases m with
  | nil => rfl
  | cons d m =>
    obtain ⟨k', b'⟩ := d
    simp only [Memory.wf, Bool.and_eq_true, decide_eq_true_eq] at hw
    exact lookup_below k' b' m a (by omega)

theorem wf_tail (c : Host.Cell) (m : List Host.Cell) (hw : Memory.wf (c :: m) = true) : Memory.wf m = true := by
  cases m with
  | nil => rfl
  | cons d m => obtain ⟨k, b⟩ := c; obtain ⟨k', b'⟩ := d; simp only [Memory.wf, Bool.and_eq_true] at hw; exact hw.2

/-- Two memories in canonical form with the same written bytes are equal data. -/
theorem eq_of_lookup (m m' : List Host.Cell) (hw : Memory.wf m = true) (hw' : Memory.wf m' = true)
    (h : ∀ a, Memory.lookup m a = Memory.lookup m' a) : m = m' := by
  induction m generalizing m' with
  | nil =>
    cases m' with
    | nil => rfl
    | cons d m' => obtain ⟨k, b⟩ := d; have := h k; simp [Memory.lookup] at this
  | cons c m ih =>
    obtain ⟨k, b⟩ := c
    cases m' with
    | nil => have := h k; simp [Memory.lookup] at this
    | cons d m' =>
      obtain ⟨k', b'⟩ := d
      have hk : k = k' := by
        rcases Nat.lt_trichotomy k k' with hlt | heq | hgt
        · have := h k; rw [lookup_below k' b' m' k hlt] at this; simp [Memory.lookup] at this
        · exact heq
        · have := h k'; rw [lookup_below k b m k' hgt] at this; simp [Memory.lookup] at this
      subst hk
      have hb : b = b' := by have := h k; simpa [Memory.lookup] using this
      subst hb
      rw [ih m' (wf_tail _ _ hw) (wf_tail _ _ hw') fun a => ?_]
      rcases Nat.lt_or_ge k a with hlt | hle
      · have := h a; simp only [Memory.lookup] at this
        rwa [if_neg (by omega), if_neg (by omega), if_neg (by omega), if_neg (by omega)] at this
      · rw [lookup_tail k b m a hw hle, lookup_tail k b m' a hw' hle]

/-! ### The dirty set -/

/-- The members after one address was added. -/
theorem addrSet_mem_insert (d : List Nat) (a b : Nat) : b ∈ AddrSet.insert d a ↔ b = a ∨ b ∈ d := by
  induction d with
  | nil => simp [AddrSet.insert]
  | cons k d ih =>
    simp only [AddrSet.insert]
    split
    · simp
    · split
      · rename_i h; subst h; simp
      · simp only [List.mem_cons, ih]; tauto

/-- The members after a range was added (R86). -/
theorem addrSet_mem_insertRange (d : List Nat) (n a b : Nat) :
    b ∈ AddrSet.insertRange d n a ↔ b ∈ d ∨ (a ≤ b ∧ b < a + n) := by
  induction n generalizing a with
  | zero => simp only [AddrSet.insertRange]; constructor
            · exact .inl
            · rintro (h | h)
              · exact h
              · omega
  | succ n ih =>
    simp only [AddrSet.insertRange, addrSet_mem_insert, ih]
    constructor
    · rintro (h | h | h)
      · exact .inr (by omega)
      · exact .inl h
      · exact .inr (by omega)
    · rintro (h | h)
      · exact .inr (.inl h)
      · by_cases hb : b = a
        · exact .inl hb
        · exact .inr (.inr (by omega))

/-- Whether a fetch touches the set. -/
theorem addrSet_touches (d : List Nat) (n a : Nat) :
    AddrSet.touches d n a = true ↔ ∃ b ∈ d, a ≤ b ∧ b < a + n := by
  simp [AddrSet.touches]

/-- Adding an address keeps the canonical form. -/
theorem addrSet_insert_wf (d : List Nat) (a : Nat) (h : AddrSet.wf d = true) : AddrSet.wf (AddrSet.insert d a) = true := by
  induction d with
  | nil => rfl
  | cons k d ih =>
    simp only [AddrSet.insert]
    split
    · rename_i h1; simp [AddrSet.wf, h1, h]
    · split
      · exact h
      · rename_i h1 h2
        cases d with
        | nil => simp [AddrSet.insert, AddrSet.wf]; omega
        | cons k' d =>
          simp only [AddrSet.wf, Bool.and_eq_true, decide_eq_true_eq] at h
          have := ih h.2
          simp only [AddrSet.insert] at this ⊢
          split at this
          · rename_i h3; simp only [if_pos h3, AddrSet.wf, Bool.and_eq_true, decide_eq_true_eq]
            exact ⟨by omega, h3, h.2⟩
          · rename_i h3
            split at this
            · rename_i h4; subst h4
              simp only [if_neg h3, if_true, AddrSet.wf]
              simp [h.1, h.2]
            · rename_i h4
              simp only [if_neg h3, if_neg h4, AddrSet.wf, Bool.and_eq_true, decide_eq_true_eq]
              exact ⟨h.1, this⟩

/-- Adding a range keeps the canonical form. -/
theorem addrSet_insertRange_wf (d : List Nat) (n a : Nat) (h : AddrSet.wf d = true) :
    AddrSet.wf (AddrSet.insertRange d n a) = true := by
  induction n generalizing a with
  | zero => exact h
  | succ n ih => exact addrSet_insert_wf _ _ (ih (a + 1))

/-- A store keeps both canonical forms. -/
theorem storeBytes_canonical (s : State) (n a : Nat) (v : Word)
    (h : Memory.wf s.mem = true ∧ AddrSet.wf s.dirty = true) :
    Memory.wf (s.storeBytes n a v).mem = true ∧ AddrSet.wf (s.storeBytes n a v).dirty = true :=
  ⟨write_wf _ _ _ _ h.1, addrSet_insertRange_wf _ _ _ h.2⟩

/-! ### MemMap -/

/-- An access is valid when one region holds it and allows its kind at its width (R61). -/
theorem memMapValid_iff (rs : List Region) (kind : Access) (n a : Nat) :
    memMapValid rs kind n a = true ↔
      ∃ r ∈ rs, r.base ≤ a ∧ a + n ≤ r.base + r.size ∧ n ∈ regionWidths r kind := by
  simp [memMapValid, and_assoc]

/-- The region of exactly one access at `a`, of the kinds that `p` allows. -/
def oneAccess (p : Access → Nat → Nat → Bool) (n a : Nat) : Region :=
  let widths := fun kind => if p kind n a then [n] else []
  { base := a, size := n, fetch := widths .fetch, load := widths .load, store := widths .store, amo := widths .amo }

/-- The widths of that region. -/
theorem mem_oneAccess_widths (p : Access → Nat → Nat → Bool) (kind : Access) (n m a : Nat) :
    m ∈ regionWidths (oneAccess p n a) kind ↔ m = n ∧ p kind n a = true := by
  cases kind <;> simp [regionWidths, oneAccess, and_comm]

/-- Every predicate of kind, width and address on an address space of `size` bytes is a `MemMap` (R7, R61), so none is
excluded by its representation as regions. -/
theorem memMap_complete (p : Access → Nat → Nat → Bool) (size : Nat) :
    ∃ rs, ∀ kind, ∀ n ∈ accessWidths, ∀ a < size, memMapValid rs kind n a = p kind n a := by
  refine ⟨(List.range size).flatMap fun a => accessWidths.map fun n => oneAccess p n a, ?_⟩
  intro kind n hn a ha
  rw [Bool.eq_iff_iff, memMapValid_iff]
  constructor
  · rintro ⟨r, hr, h1, h2, h3⟩
    simp only [List.mem_flatMap, List.mem_range, List.mem_map] at hr
    obtain ⟨b, -, m, -, rfl⟩ := hr
    obtain ⟨rfl, h⟩ := (mem_oneAccess_widths ..).1 h3
    have hb : b = a := by simp only [oneAccess] at h1 h2; omega
    exact hb ▸ h
  · intro h
    refine ⟨oneAccess p n a, ?_, le_refl _, le_refl _, (mem_oneAccess_widths ..).2 ⟨rfl, h⟩⟩
    simp only [List.mem_flatMap, List.mem_range, List.mem_map]
    exact ⟨a, ha, n, hn, rfl⟩

end Sys2Proof.Laws
end

