-- ==== Sys2Proof/Laws/State.lean ====
section
/-! SUPPORT. One lemma for each field under each named update of a state, so that no later proof unfolds a record
update, and what reading a register gives after a register was written. -/

namespace Sys2Proof.Laws

open Sys2Proof.Machine

/-! ### setX -/

@[simp] theorem setX_cfg (s : State) (r : Reg) {w : Nat} (v : BitVec w) : (s.setX r v).cfg = s.cfg := by
  unfold State.setX; split <;> rfl
@[simp] theorem setX_pc (s : State) (r : Reg) {w : Nat} (v : BitVec w) : (s.setX r v).pc = s.pc := by
  unfold State.setX; split <;> rfl
@[simp] theorem setX_f (s : State) (r : Reg) {w : Nat} (v : BitVec w) : (s.setX r v).f = s.f := by
  unfold State.setX; split <;> rfl
@[simp] theorem setX_fcsr (s : State) (r : Reg) {w : Nat} (v : BitVec w) : (s.setX r v).fcsr = s.fcsr := by
  unfold State.setX; split <;> rfl
@[simp] theorem setX_cycle (s : State) (r : Reg) {w : Nat} (v : BitVec w) : (s.setX r v).cycle = s.cycle := by
  unfold State.setX; split <;> rfl
@[simp] theorem setX_time (s : State) (r : Reg) {w : Nat} (v : BitVec w) : (s.setX r v).time = s.time := by
  unfold State.setX; split <;> rfl
@[simp] theorem setX_instret (s : State) (r : Reg) {w : Nat} (v : BitVec w) : (s.setX r v).instret = s.instret := by
  unfold State.setX; split <;> rfl
@[simp] theorem setX_resv (s : State) (r : Reg) {w : Nat} (v : BitVec w) : (s.setX r v).resv = s.resv := by
  unfold State.setX; split <;> rfl
@[simp] theorem setX_dirty (s : State) (r : Reg) {w : Nat} (v : BitVec w) : (s.setX r v).dirty = s.dirty := by
  unfold State.setX; split <;> rfl
@[simp] theorem setX_mem (s : State) (r : Reg) {w : Nat} (v : BitVec w) : (s.setX r v).mem = s.mem := by
  unfold State.setX; split <;> rfl
@[simp] theorem setX_draws (s : State) (r : Reg) {w : Nat} (v : BitVec w) : (s.setX r v).draws = s.draws := by
  unfold State.setX; split <;> rfl
@[simp] theorem setX_width (s : State) (r : Reg) {w : Nat} (v : BitVec w) : (s.setX r v).width = s.width := by
  simp [State.width]

/-- A write to x0 is discarded (R21). -/
@[simp] theorem setX_zero (s : State) {w : Nat} (v : BitVec w) : s.setX 0 v = s := by simp [State.setX]

/-- The other cells keep their values; x0's too. -/
theorem setX_other (s : State) (r q : Reg) {w : Nat} (v : BitVec w) (h : q ≠ r ∨ q = 0) :
    ((s.setX r v).x[q.toNat]'q.isLt) = s.x[q.toNat]'q.isLt := by
  unfold State.setX
  split
  · rfl
  · rename_i hr
    have hq : q ≠ r := h.elim id fun h0 => by subst h0; exact fun h1 => hr h1.symm
    have : r.toNat ≠ q.toNat := fun he => hq (BitVec.eq_of_toNat_eq he.symm)
    simp [this]

/-- The written cell. -/
theorem setX_same (s : State) (r : Reg) {w : Nat} (v : BitVec w) (h : r ≠ 0) :
    ((s.setX r v).x[r.toNat]'r.isLt) = v.setWidth 128 := by
  unfold State.setX; rw [if_neg h]; simp

/-- Reading the written register at its width gives the value written (R21). -/
theorem getX_setX_same (s : State) (r : Reg) {w : Nat} (v : BitVec w) (h : r ≠ 0) (hw : w ≤ 128) :
    (s.setX r v).getX w r = v := by
  simp only [State.getX, if_neg h, setX_same s r v h]
  exact BitVec.eq_of_toNat_eq (by
    have := v.isLt
    have := Nat.pow_le_pow_right (n := 2) (by decide) hw
    rw [BitVec.toNat_setWidth, BitVec.toNat_setWidth, Nat.mod_eq_of_lt (by omega : v.toNat < 2 ^ 128),
      Nat.mod_eq_of_lt v.isLt])

/-- Reading another register. -/
theorem getX_setX_other (s : State) (r q : Reg) {w u : Nat} (v : BitVec w) (h : q ≠ r) :
    (s.setX r v).getX u q = s.getX u q := by
  simp only [State.getX, setX_other s r q v (.inl h)]

/-! ### setPc -/

@[simp] theorem setPc_cfg (s : State) {w : Nat} (t : BitVec w) : (s.setPc t).cfg = s.cfg := rfl
@[simp] theorem setPc_x (s : State) {w : Nat} (t : BitVec w) : (s.setPc t).x = s.x := rfl
@[simp] theorem setPc_pc (s : State) {w : Nat} (t : BitVec w) : (s.setPc t).pc = t.setWidth 128 := rfl
@[simp] theorem setPc_f (s : State) {w : Nat} (t : BitVec w) : (s.setPc t).f = s.f := rfl
@[simp] theorem setPc_fcsr (s : State) {w : Nat} (t : BitVec w) : (s.setPc t).fcsr = s.fcsr := rfl
@[simp] theorem setPc_cycle (s : State) {w : Nat} (t : BitVec w) : (s.setPc t).cycle = s.cycle := rfl
@[simp] theorem setPc_time (s : State) {w : Nat} (t : BitVec w) : (s.setPc t).time = s.time := rfl
@[simp] theorem setPc_instret (s : State) {w : Nat} (t : BitVec w) : (s.setPc t).instret = s.instret := rfl
@[simp] theorem setPc_resv (s : State) {w : Nat} (t : BitVec w) : (s.setPc t).resv = s.resv := rfl
@[simp] theorem setPc_dirty (s : State) {w : Nat} (t : BitVec w) : (s.setPc t).dirty = s.dirty := rfl
@[simp] theorem setPc_mem (s : State) {w : Nat} (t : BitVec w) : (s.setPc t).mem = s.mem := rfl
@[simp] theorem setPc_draws (s : State) {w : Nat} (t : BitVec w) : (s.setPc t).draws = s.draws := rfl
@[simp] theorem setPc_width (s : State) {w : Nat} (t : BitVec w) : (s.setPc t).width = s.width := rfl
@[simp] theorem setPc_getX (s : State) {w u : Nat} (t : BitVec w) (r : Reg) : (s.setPc t).getX u r = s.getX u r := rfl

/-! ### advance -/

@[simp] theorem advance_cfg (s : State) (n : Nat) : (s.advance n).cfg = s.cfg := rfl
@[simp] theorem advance_x (s : State) (n : Nat) : (s.advance n).x = s.x := rfl
@[simp] theorem advance_f (s : State) (n : Nat) : (s.advance n).f = s.f := rfl
@[simp] theorem advance_fcsr (s : State) (n : Nat) : (s.advance n).fcsr = s.fcsr := rfl
@[simp] theorem advance_cycle (s : State) (n : Nat) : (s.advance n).cycle = s.cycle := rfl
@[simp] theorem advance_time (s : State) (n : Nat) : (s.advance n).time = s.time := rfl
@[simp] theorem advance_instret (s : State) (n : Nat) : (s.advance n).instret = s.instret := rfl
@[simp] theorem advance_resv (s : State) (n : Nat) : (s.advance n).resv = s.resv := rfl
@[simp] theorem advance_dirty (s : State) (n : Nat) : (s.advance n).dirty = s.dirty := rfl
@[simp] theorem advance_mem (s : State) (n : Nat) : (s.advance n).mem = s.mem := rfl
@[simp] theorem advance_draws (s : State) (n : Nat) : (s.advance n).draws = s.draws := rfl
@[simp] theorem advance_width (s : State) (n : Nat) : (s.advance n).width = s.width := rfl
@[simp] theorem advance_getX (s : State) (n w : Nat) (r : Reg) : (s.advance n).getX w r = s.getX w r := rfl
theorem advance_pc (s : State) (n : Nat) :
    (s.advance n).pc = (s.rpc + BitVec.ofNat s.width n).setWidth 128 := rfl

/-! ### setF and setSingle -/

@[simp] theorem setF_cfg (s : State) (r : Reg) (v : FWord) : (s.setF r v).cfg = s.cfg := rfl
@[simp] theorem setF_x (s : State) (r : Reg) (v : FWord) : (s.setF r v).x = s.x := rfl
@[simp] theorem setF_pc (s : State) (r : Reg) (v : FWord) : (s.setF r v).pc = s.pc := rfl
@[simp] theorem setF_fcsr (s : State) (r : Reg) (v : FWord) : (s.setF r v).fcsr = s.fcsr := rfl
@[simp] theorem setF_cycle (s : State) (r : Reg) (v : FWord) : (s.setF r v).cycle = s.cycle := rfl
@[simp] theorem setF_time (s : State) (r : Reg) (v : FWord) : (s.setF r v).time = s.time := rfl
@[simp] theorem setF_instret (s : State) (r : Reg) (v : FWord) : (s.setF r v).instret = s.instret := rfl
@[simp] theorem setF_resv (s : State) (r : Reg) (v : FWord) : (s.setF r v).resv = s.resv := rfl
@[simp] theorem setF_dirty (s : State) (r : Reg) (v : FWord) : (s.setF r v).dirty = s.dirty := rfl
@[simp] theorem setF_mem (s : State) (r : Reg) (v : FWord) : (s.setF r v).mem = s.mem := rfl
@[simp] theorem setF_draws (s : State) (r : Reg) (v : FWord) : (s.setF r v).draws = s.draws := rfl
@[simp] theorem setF_width (s : State) (r : Reg) (v : FWord) : (s.setF r v).width = s.width := rfl

/-- The written floating-point register. -/
@[simp] theorem getF_setF_same (s : State) (r : Reg) (v : FWord) : (s.setF r v).getF r = v := by
  simp [State.getF, State.setF]

/-- Another floating-point register. -/
theorem getF_setF_other (s : State) (r q : Reg) (v : FWord) (h : q ≠ r) : (s.setF r v).getF q = s.getF q := by
  have : r.toNat ≠ q.toNat := fun he => h (BitVec.eq_of_toNat_eq he.symm)
  simp [State.getF, State.setF, this]

@[simp] theorem setSingle_cfg (s : State) (r : Reg) (v : Single) : (s.setSingle r v).cfg = s.cfg := rfl
@[simp] theorem setSingle_x (s : State) (r : Reg) (v : Single) : (s.setSingle r v).x = s.x := rfl
@[simp] theorem setSingle_pc (s : State) (r : Reg) (v : Single) : (s.setSingle r v).pc = s.pc := rfl
@[simp] theorem setSingle_fcsr (s : State) (r : Reg) (v : Single) : (s.setSingle r v).fcsr = s.fcsr := rfl
@[simp] theorem setSingle_cycle (s : State) (r : Reg) (v : Single) : (s.setSingle r v).cycle = s.cycle := rfl
@[simp] theorem setSingle_time (s : State) (r : Reg) (v : Single) : (s.setSingle r v).time = s.time := rfl
@[simp] theorem setSingle_instret (s : State) (r : Reg) (v : Single) : (s.setSingle r v).instret = s.instret := rfl
@[simp] theorem setSingle_resv (s : State) (r : Reg) (v : Single) : (s.setSingle r v).resv = s.resv := rfl
@[simp] theorem setSingle_dirty (s : State) (r : Reg) (v : Single) : (s.setSingle r v).dirty = s.dirty := rfl
@[simp] theorem setSingle_mem (s : State) (r : Reg) (v : Single) : (s.setSingle r v).mem = s.mem := rfl
@[simp] theorem setSingle_draws (s : State) (r : Reg) (v : Single) : (s.setSingle r v).draws = s.draws := rfl
@[simp] theorem setSingle_width (s : State) (r : Reg) (v : Single) : (s.setSingle r v).width = s.width := rfl

/-! ### setFcsr and accrue -/

@[simp] theorem setFcsr_cfg (s : State) (m : RmField) (fl : FpFlags) : (s.setFcsr m fl).cfg = s.cfg := rfl
@[simp] theorem setFcsr_x (s : State) (m : RmField) (fl : FpFlags) : (s.setFcsr m fl).x = s.x := rfl
@[simp] theorem setFcsr_pc (s : State) (m : RmField) (fl : FpFlags) : (s.setFcsr m fl).pc = s.pc := rfl
@[simp] theorem setFcsr_f (s : State) (m : RmField) (fl : FpFlags) : (s.setFcsr m fl).f = s.f := rfl
@[simp] theorem setFcsr_cycle (s : State) (m : RmField) (fl : FpFlags) : (s.setFcsr m fl).cycle = s.cycle := rfl
@[simp] theorem setFcsr_time (s : State) (m : RmField) (fl : FpFlags) : (s.setFcsr m fl).time = s.time := rfl
@[simp] theorem setFcsr_instret (s : State) (m : RmField) (fl : FpFlags) : (s.setFcsr m fl).instret = s.instret := rfl
@[simp] theorem setFcsr_resv (s : State) (m : RmField) (fl : FpFlags) : (s.setFcsr m fl).resv = s.resv := rfl
@[simp] theorem setFcsr_dirty (s : State) (m : RmField) (fl : FpFlags) : (s.setFcsr m fl).dirty = s.dirty := rfl
@[simp] theorem setFcsr_mem (s : State) (m : RmField) (fl : FpFlags) : (s.setFcsr m fl).mem = s.mem := rfl
@[simp] theorem setFcsr_draws (s : State) (m : RmField) (fl : FpFlags) : (s.setFcsr m fl).draws = s.draws := rfl
@[simp] theorem setFcsr_width (s : State) (m : RmField) (fl : FpFlags) : (s.setFcsr m fl).width = s.width := rfl

/-- The two windows of fcsr after a write of both (R40). -/
@[simp] theorem setFcsr_fflags (s : State) (m : RmField) (fl : FpFlags) : (s.setFcsr m fl).fflags = fl := by
  simp only [State.fflags, State.setFcsr]
  revert m fl; decide
@[simp] theorem setFcsr_frm (s : State) (m : RmField) (fl : FpFlags) : (s.setFcsr m fl).frm = m := by
  simp only [State.frm, State.setFcsr]
  revert m fl; decide

@[simp] theorem accrue_cfg (s : State) (fl : FpFlags) : (s.accrue fl).cfg = s.cfg := rfl
@[simp] theorem accrue_x (s : State) (fl : FpFlags) : (s.accrue fl).x = s.x := rfl
@[simp] theorem accrue_pc (s : State) (fl : FpFlags) : (s.accrue fl).pc = s.pc := rfl
@[simp] theorem accrue_f (s : State) (fl : FpFlags) : (s.accrue fl).f = s.f := rfl
@[simp] theorem accrue_cycle (s : State) (fl : FpFlags) : (s.accrue fl).cycle = s.cycle := rfl
@[simp] theorem accrue_time (s : State) (fl : FpFlags) : (s.accrue fl).time = s.time := rfl
@[simp] theorem accrue_instret (s : State) (fl : FpFlags) : (s.accrue fl).instret = s.instret := rfl
@[simp] theorem accrue_resv (s : State) (fl : FpFlags) : (s.accrue fl).resv = s.resv := rfl
@[simp] theorem accrue_dirty (s : State) (fl : FpFlags) : (s.accrue fl).dirty = s.dirty := rfl
@[simp] theorem accrue_mem (s : State) (fl : FpFlags) : (s.accrue fl).mem = s.mem := rfl
@[simp] theorem accrue_draws (s : State) (fl : FpFlags) : (s.accrue fl).draws = s.draws := rfl
@[simp] theorem accrue_width (s : State) (fl : FpFlags) : (s.accrue fl).width = s.width := rfl
@[simp] theorem accrue_fflags (s : State) (fl : FpFlags) : (s.accrue fl).fflags = s.fflags ||| fl := by
  simp [State.accrue]
@[simp] theorem accrue_frm (s : State) (fl : FpFlags) : (s.accrue fl).frm = s.frm := by simp [State.accrue]

/-! ### storeBytes -/

@[simp] theorem storeBytes_cfg (s : State) (n a : Nat) (v : Word) : (s.storeBytes n a v).cfg = s.cfg := rfl
@[simp] theorem storeBytes_x (s : State) (n a : Nat) (v : Word) : (s.storeBytes n a v).x = s.x := rfl
@[simp] theorem storeBytes_pc (s : State) (n a : Nat) (v : Word) : (s.storeBytes n a v).pc = s.pc := rfl
@[simp] theorem storeBytes_f (s : State) (n a : Nat) (v : Word) : (s.storeBytes n a v).f = s.f := rfl
@[simp] theorem storeBytes_fcsr (s : State) (n a : Nat) (v : Word) : (s.storeBytes n a v).fcsr = s.fcsr := rfl
@[simp] theorem storeBytes_cycle (s : State) (n a : Nat) (v : Word) : (s.storeBytes n a v).cycle = s.cycle := rfl
@[simp] theorem storeBytes_time (s : State) (n a : Nat) (v : Word) : (s.storeBytes n a v).time = s.time := rfl
@[simp] theorem storeBytes_instret (s : State) (n a : Nat) (v : Word) : (s.storeBytes n a v).instret = s.instret := rfl
@[simp] theorem storeBytes_resv (s : State) (n a : Nat) (v : Word) :
    (s.storeBytes n a v).resv = resvAfterStore s.resv n a := rfl
@[simp] theorem storeBytes_dirty (s : State) (n a : Nat) (v : Word) :
    (s.storeBytes n a v).dirty = AddrSet.insertRange s.dirty n a := rfl
@[simp] theorem storeBytes_mem (s : State) (n a : Nat) (v : Word) :
    (s.storeBytes n a v).mem = Memory.write s.mem n a v := rfl
@[simp] theorem storeBytes_draws (s : State) (n a : Nat) (v : Word) : (s.storeBytes n a v).draws = s.draws := rfl
@[simp] theorem storeBytes_width (s : State) (n a : Nat) (v : Word) : (s.storeBytes n a v).width = s.width := rfl

/-! ### csrDraw and csrWrite -/

@[simp] theorem csrDraw_cfg (s : State) (c : Csr) : (s.csrDraw c).cfg = s.cfg := by cases c <;> rfl
@[simp] theorem csrDraw_x (s : State) (c : Csr) : (s.csrDraw c).x = s.x := by cases c <;> rfl
@[simp] theorem csrDraw_pc (s : State) (c : Csr) : (s.csrDraw c).pc = s.pc := by cases c <;> rfl
@[simp] theorem csrDraw_f (s : State) (c : Csr) : (s.csrDraw c).f = s.f := by cases c <;> rfl
@[simp] theorem csrDraw_fcsr (s : State) (c : Csr) : (s.csrDraw c).fcsr = s.fcsr := by cases c <;> rfl
@[simp] theorem csrDraw_resv (s : State) (c : Csr) : (s.csrDraw c).resv = s.resv := by cases c <;> rfl
@[simp] theorem csrDraw_dirty (s : State) (c : Csr) : (s.csrDraw c).dirty = s.dirty := by cases c <;> rfl
@[simp] theorem csrDraw_mem (s : State) (c : Csr) : (s.csrDraw c).mem = s.mem := by cases c <;> rfl
@[simp] theorem csrDraw_width (s : State) (c : Csr) : (s.csrDraw c).width = s.width := by cases c <;> rfl

@[simp] theorem csrWrite_cfg (s : State) {w : Nat} (v : BitVec w) (c : Csr) : (s.csrWrite v c).cfg = s.cfg := by
  cases c <;> rfl
@[simp] theorem csrWrite_x (s : State) {w : Nat} (v : BitVec w) (c : Csr) : (s.csrWrite v c).x = s.x := by
  cases c <;> rfl
@[simp] theorem csrWrite_pc (s : State) {w : Nat} (v : BitVec w) (c : Csr) : (s.csrWrite v c).pc = s.pc := by
  cases c <;> rfl
@[simp] theorem csrWrite_f (s : State) {w : Nat} (v : BitVec w) (c : Csr) : (s.csrWrite v c).f = s.f := by
  cases c <;> rfl
@[simp] theorem csrWrite_cycle (s : State) {w : Nat} (v : BitVec w) (c : Csr) : (s.csrWrite v c).cycle = s.cycle := by
  cases c <;> rfl
@[simp] theorem csrWrite_time (s : State) {w : Nat} (v : BitVec w) (c : Csr) : (s.csrWrite v c).time = s.time := by
  cases c <;> rfl
@[simp] theorem csrWrite_instret (s : State) {w : Nat} (v : BitVec w) (c : Csr) :
    (s.csrWrite v c).instret = s.instret := by cases c <;> rfl
@[simp] theorem csrWrite_resv (s : State) {w : Nat} (v : BitVec w) (c : Csr) : (s.csrWrite v c).resv = s.resv := by
  cases c <;> rfl
@[simp] theorem csrWrite_dirty (s : State) {w : Nat} (v : BitVec w) (c : Csr) : (s.csrWrite v c).dirty = s.dirty := by
  cases c <;> rfl
@[simp] theorem csrWrite_mem (s : State) {w : Nat} (v : BitVec w) (c : Csr) : (s.csrWrite v c).mem = s.mem := by
  cases c <;> rfl
@[simp] theorem csrWrite_draws (s : State) {w : Nat} (v : BitVec w) (c : Csr) : (s.csrWrite v c).draws = s.draws := by
  cases c <;> rfl
@[simp] theorem csrWrite_width (s : State) {w : Nat} (v : BitVec w) (c : Csr) : (s.csrWrite v c).width = s.width := by
  cases c <;> rfl

end Sys2Proof.Laws
end

