-- ==== Sys2Proof/Laws/Ops.lean ====
section
/-! SUPPORT. For each shared operation, once, everything it can do: what follows when it answers a next state, and the
completion it gives in the vocabulary of `Sys2Proof/Safety.lean`. -/

namespace Sys2Proof.Laws

open Sys2Proof.Machine

/-! ### pc -/

theorem width_le (s : State) : s.width ≤ 128 := by
  unfold State.width; cases s.cfg.xlen <;> simp [Xlen.bits]

theorem width_pos (s : State) : 1 < s.width := by
  unfold State.width; cases s.cfg.xlen <;> simp [Xlen.bits]

/-- A width between 1 and 128 fits a cell. -/
theorem two_pow_width_le (s : State) : 2 ^ s.width ≤ 2 ^ 128 := Nat.pow_le_pow_right (by decide) (width_le s)

/-- pc + n, widened to the cell (R12, R27). -/
theorem rpc_add (s : State) (n : Nat) : (s.rpc + BitVec.ofNat s.width n).setWidth 128 = s.pcAfter n := by
  have hw := two_pow_width_le s
  have hp : 0 < 2 ^ s.width := Nat.two_pow_pos _
  apply BitVec.eq_of_toNat_eq
  simp only [State.rpc, State.getPc, State.pcAfter, BitVec.toNat_setWidth, BitVec.toNat_add, BitVec.toNat_ofNat]
  rw [← Nat.add_mod]

/-- The pc after `advance` (R12). -/
@[simp] theorem advance_pcAfter (s : State) (n : Nat) : (s.advance n).pc = s.pcAfter n := rpc_add s n

/-- pc plus a signed offset, widened to the cell (R27). -/
theorem rpc_add_offset (s : State) (v : BitVec s.width) (o : Int)
    (h : (v.toInt - o) % ((2 ^ s.width : Nat) : Int) = 0) : (s.rpc + v).setWidth 128 = s.pcOffset o := by
  have hw := two_pow_width_le s
  have hp : (0 : Int) < ((2 ^ s.width : Nat) : Int) := by exact_mod_cast Nat.two_pow_pos _
  apply BitVec.eq_of_toNat_eq
  have e1 : ((s.rpc + v).toNat : Int) = ((s.pc.toNat : Int) + o) % ((2 ^ s.width : Nat) : Int) := by
    have hv : (v.toNat : Int) % ((2 ^ s.width : Nat) : Int) = o % ((2 ^ s.width : Nat) : Int) := by
      have h1 : (v.toInt) % ((2 ^ s.width : Nat) : Int) = o % ((2 ^ s.width : Nat) : Int) :=
        Int.emod_eq_emod_iff_emod_sub_eq_zero.2 h
      rw [← h1, BitVec.toInt_eq_toNat_bmod, Int.bmod_emod]
    rw [BitVec.toNat_add, Int.natCast_mod, Int.natCast_add, State.rpc, State.getPc, BitVec.toNat_setWidth,
      Int.natCast_mod, Int.add_emod, Int.emod_emod_of_dvd _ (dvd_refl _), hv, ← Int.add_emod]
  have e2 : (BitVec.ofInt 128 (((s.pc.toNat : Int) + o) % ((2 ^ s.width : Nat) : Int))).toNat = (s.rpc + v).toNat := by
    rw [← e1, BitVec.ofInt_natCast, BitVec.toNat_ofNat]
    exact Nat.mod_eq_of_lt (lt_of_lt_of_le (s.rpc + v).isLt hw)
  rw [State.pcOffset, e2, BitVec.toNat_setWidth, Nat.mod_eq_of_lt (lt_of_lt_of_le (s.rpc + v).isLt hw)]

/-! ### Guards -/

/-- A guarded instruction that completes exists in this configuration (R118). -/
theorem onRow_next {i : Instr} {s t : State} {k : Result} (h : onRow i s k = .next t) :
    i.wellFormed s.cfg = true ∧ k = .next t := by
  unfold onRow at h
  split at h
  · exact ⟨‹_›, h⟩
  · cases h

/-- The guard of an instruction that exists lets it run. -/
theorem onRow_ok {i : Instr} {s : State} (k : Result) (h : i.wellFormed s.cfg = true) : onRow i s k = k := if_pos h

/-- The guard of one that does not exist raises IllegalInstruction with its bits (R118, R604). -/
theorem onRow_bad {i : Instr} {s : State} (k : Result) (h : i.wellFormed s.cfg = false) :
    onRow i s k = .fault (.trap .illegalInstruction i.encode.info s.pc) := by
  simp [onRow, h, raiseIllegal, raise]

/-- A memory access that lets its instruction complete passed every check (R61, R64, R66, R67, R69). -/
theorem access_next {kind : Access} {strict : Bool} {n a : Nat} {s t : State} {k : Result}
    (h : access kind strict n a s k = .next t) :
    (a % n = 0 ∨ (strict = false ∧ s.cfg.misaligned = .emulate)) ∧ a + n ≤ 2 ^ s.width ∧
      s.memValid kind n a = true ∧ k = .next t := by
  unfold access at h
  split at h
  · cases h
  · rename_i h1
    split at h
    · cases h
    · rename_i h2
      split at h
      · cases h
      · rename_i h3
        refine ⟨?_, by omega, by simpa using h3, h⟩
        by_cases ha : a % n = 0
        · exact .inl ha
        · right
          have : ¬ (strict = true ∨ s.cfg.misaligned = .trap) := fun hx => h1 ⟨ha, hx⟩
          cases strict <;> cases hm : s.cfg.misaligned <;> simp_all

/-- An accessible load or store goes on. -/
theorem access_ok {kind : Access} {n a : Nat} {s : State} (k : Result) (h : accessible s kind n a) :
    access kind false n a s k = k := by
  obtain ⟨h1, h2, h3⟩ := h
  unfold access
  rw [if_neg, if_neg (by omega), if_neg (by simp [h3])]
  rintro ⟨ha, hx | hx⟩
  · cases hx
  · rcases h1 with h1 | h1
    · exact ha h1
    · rw [h1] at hx; cases hx

/-- An accessible atomic goes on. -/
theorem access_atomic_ok {kind : Access} {n a : Nat} {s : State} (k : Result) (h : accessibleAtomic s kind n a) :
    access kind true n a s k = k := by
  obtain ⟨h1, h2, h3⟩ := h
  unfold access
  rw [if_neg (fun hx => hx.1 h1), if_neg (by omega), if_neg (by simp [h3])]

/-- How an access stops (R64, R66). -/
theorem access_stops (kind : Access) (strict : Bool) (n a : Nat) (s : State) (k : Result) :
    stopsAt s kind strict n a (access kind strict n a s k) := by
  have key : (a % n = 0 ∨ (strict = false ∧ s.cfg.misaligned = .emulate)) →
      ¬ (a % n ≠ 0 ∧ (strict = true ∨ s.cfg.misaligned = .trap)) := by
    rintro (h | ⟨h, h'⟩) ⟨h1, h2⟩
    · exact h1 h
    · subst h; rw [h'] at h2; rcases h2 with h2 | h2 <;> cases h2
  refine ⟨fun h1 h2 => ?_, fun h1 h2 => ?_, fun h1 h2 h3 => ?_⟩
  · unfold access; rw [if_pos ⟨h1, h2⟩]; rfl
  · unfold access; rw [if_neg (key h1), if_pos h2]
  · unfold access; rw [if_neg (key h1), if_neg (by omega), if_pos h3]; rfl

/-- A rounding mode that resolves lets the instruction go on; another raises IllegalInstruction (R452). -/
theorem withMode_next {i : Instr} {rm : RmField} {s t : State} {k : RoundingMode → Result}
    (h : withMode i rm s k = .next t) : ∃ m, resolveMode rm s.frm = some m ∧ k m = .next t := by
  unfold withMode at h
  split at h
  · exact ⟨_, ‹_›, h⟩
  · cases h

theorem withMode_ok {i : Instr} {rm : RmField} {s : State} {m : RoundingMode} (k : RoundingMode → Result)
    (h : resolveMode rm s.frm = some m) : withMode i rm s k = k m := by simp [withMode, h]

theorem withMode_bad {i : Instr} {rm : RmField} {s : State} (k : RoundingMode → Result)
    (h : resolveMode rm s.frm = none) :
    withMode i rm s k = .fault (.trap .illegalInstruction i.encode.info s.pc) := by
  simp [withMode, h, raiseIllegal, raise]

/-! ### Completions -/

theorem raise_ne_next (e : Cause) (info : Word) (s t : State) : raise e info s ≠ .next t := by simp [raise]

theorem complete_next {n : Nat} {s t : State} : complete n s = .next t ↔ t = s.advance n := by
  simp [complete, eq_comm]

theorem completeX_next {n : Nat} {rd : Reg} {w : Nat} {v : BitVec w} {s t : State} :
    completeX n rd v s = .next t ↔ t = (s.setX rd v).advance n := by simp [completeX, eq_comm]

theorem completeD_next {n : Nat} {rd : Reg} {v : Double} {s t : State} :
    completeD n rd v s = .next t ↔ t = (s.setF rd v).advance n := by simp [completeD, eq_comm]

theorem completeS_next {n : Nat} {rd : Reg} {v : Single} {s t : State} :
    completeS n rd v s = .next t ↔ t = (s.setSingle rd v).advance n := by simp [completeS, eq_comm]

theorem jumpLink_next {n : Nat} {rd : Reg} {w : Nat} {p : BitVec w} {s t : State} :
    jumpLink n rd p s = .next t ↔ t = (s.setX rd (s.rpc + BitVec.ofNat s.width n)).setPc p := by
  simp [jumpLink, eq_comm]

theorem jump_next {w : Nat} {p : BitVec w} {s t : State} : jump p s = .next t ↔ t = s.setPc p := by
  simp [jump, eq_comm]

/-- `nop` moves pc and nothing else (R11, R12). -/
theorem complete_setsPc (n : Nat) (s : State) : setsPc s (s.pcAfter n) (complete n s) :=
  ⟨_, rfl, advance_pcAfter s n, rfl, rfl, rfl, ⟨fun _ => rfl, rfl, rfl⟩, rfl, rfl, rfl, rfl, rfl⟩

/-- A jump moves pc and nothing else. -/
theorem jump_setsPc {w : Nat} (p : BitVec w) (s : State) : setsPc s (p.setWidth 128) (jump p s) :=
  ⟨_, rfl, rfl, rfl, rfl, rfl, ⟨fun _ => rfl, rfl, rfl⟩, rfl, rfl, rfl, rfl, rfl⟩

/-- A branch goes to its target when taken, to the next instruction otherwise (R304). -/
theorem branch_setsPc (n : Nat) (taken : Bool) (s : State) (offset : BitVec s.width) :
    setsPc s (if taken then (s.rpc + offset).setWidth 128 else s.pcAfter n) (branch n taken s offset) := by
  cases taken
  · exact complete_setsPc n s
  · exact jump_setsPc _ s

/-- A register result (R12, R21). -/
theorem completeX_setsX (n : Nat) (rd : Reg) (s : State) (v : BitVec s.width) :
    setsX s rd v (s.pcAfter n) (completeX n rd v s) :=
  ⟨_, rfl, fun h => by rw [advance_getX]; exact getX_setX_same s rd v h (width_le s),
    fun q hq => setX_other s rd q v hq, by
      rw [advance_pcAfter]; simp [State.pcAfter], by simp, by simp, ⟨by simp, by simp, by simp⟩,
    by simp, by simp, by simp, by simp, by simp⟩

/-- A register result with a jump (R304). -/
theorem jumpLink_setsX (n : Nat) (rd : Reg) (s : State) {w : Nat} (p : BitVec w) :
    setsX s rd (BitVec.ofNat s.width (s.pc.toNat + n)) (p.setWidth 128) (jumpLink n rd p s) :=
  ⟨_, rfl, fun h => by
    rw [setPc_getX, getX_setX_same s rd _ h (width_le s)]
    apply BitVec.eq_of_toNat_eq
    simp [State.rpc, State.getPc, BitVec.toNat_add, BitVec.toNat_ofNat],
    fun q hq => setX_other s rd q _ hq, rfl, by simp, by simp, ⟨by simp, by simp, by simp⟩,
    by simp, by simp, by simp, by simp, by simp⟩

/-- A register result with flags (R453). -/
theorem completeFpX_setsXFlags (rd : Reg) (s : State) (v : BitVec s.width) (fl : FpFlags) :
    setsXFlags s rd v fl (s.pcAfter 4) (completeFpX rd v fl s) :=
  ⟨_, rfl, fun h => by rw [advance_getX]; exact getX_setX_same (s.accrue fl) rd v h (width_le s),
    fun q hq => setX_other (s.accrue fl) rd q v hq, by
      rw [advance_pcAfter]; simp [State.pcAfter], by simp,
    by show ((s.accrue fl).setX rd v).fflags = _; simp [State.fflags, setX_fcsr]; exact accrue_fflags s fl,
    by show ((s.accrue fl).setX rd v).frm = _; simp [State.frm, setX_fcsr]; exact accrue_frm s fl,
    ⟨by simp, by simp, by simp⟩, by simp, by simp, by simp, by simp, by simp⟩

/-- A double result with flags (R456, R502). -/
theorem completeFpD_setsD (rd : Reg) (r : Double × FpFlags) (s : State) :
    setsD s rd r.1 r.2 (s.pcAfter 4) (completeFpD rd r s) :=
  ⟨_, rfl, getF_setF_same _ _ _, fun q hq => getF_setF_other (s.accrue r.2) rd q r.1 hq, by
      rw [advance_pcAfter]; simp [State.pcAfter], rfl, accrue_fflags s r.2, accrue_frm s r.2,
    ⟨fun _ => rfl, rfl, rfl⟩, rfl, rfl, rfl, rfl, rfl⟩

/-- A double result without flags. -/
theorem completeD_setsD (n : Nat) (rd : Reg) (v : Double) (s : State) :
    setsD s rd v 0 (s.pcAfter n) (completeD n rd v s) :=
  ⟨_, rfl, getF_setF_same _ _ _, fun q hq => getF_setF_other s rd q v hq, by
      rw [advance_pcAfter]; simp [State.pcAfter], rfl, (BitVec.or_zero).symm, rfl,
    ⟨fun _ => rfl, rfl, rfl⟩, rfl, rfl, rfl, rfl, rfl⟩

/-- The low half of a boxed single is the single (R31). -/
theorem box_low (c : Config) (v : Single) : (box c v).setWidth 32 = v := by
  unfold box
  split
  · apply BitVec.eq_of_toNat_eq
    rw [BitVec.toNat_setWidth, BitVec.toNat_append, Nat.shiftLeft_eq, Nat.mul_comm,
      ← Nat.two_pow_add_eq_or_of_lt v.isLt]
    have := v.isLt
    omega
  · simp

/-- The high half of a boxed single is all ones when FLEN = 64 (R31). -/
theorem box_high (c : Config) (v : Single) (h : c.flen = .f64) : (box c v).extractLsb 63 32 = 0xffffffff#32 := by
  simp only [box, h]
  apply BitVec.eq_of_toNat_eq
  have hv : v.toNat < 2 ^ 32 := v.isLt
  simp only [BitVec.extractLsb_toNat, BitVec.toNat_append, Nat.shiftLeft_eq, Nat.shiftRight_eq_div_pow]
  rw [Nat.mul_comm, ← Nat.two_pow_add_eq_or_of_lt hv, Nat.add_comm, Nat.add_mul_div_left _ _ (by decide),
    Nat.div_eq_of_lt hv]
  rfl

/-- A boxed single unboxes to itself (R31). -/
theorem unbox_box (c : Config) (v : Single) : unbox c (box c v) = v := by
  have hl : (box c v).extractLsb 31 0 = v := by
    have := box_low c v
    apply BitVec.eq_of_toNat_eq
    rw [← congrArg BitVec.toNat this]
    simp
  unfold unbox
  split
  · rw [if_pos (box_high c v ‹_›)]; exact hl
  · exact hl

/-- A single result with flags (R31, R456). -/
theorem completeFpS_setsS (rd : Reg) (r : Single × FpFlags) (s : State) :
    setsS s rd r.1 r.2 (s.pcAfter 4) (completeFpS rd r s) :=
  ⟨_, rfl, by
      show (((s.accrue r.2).setF rd (box s.cfg r.1)).getF rd).setWidth 32 = r.1
      rw [getF_setF_same]; exact box_low _ _,
    fun h => by
      show (((s.accrue r.2).setF rd (box s.cfg r.1)).getF rd).extractLsb 63 32 = _
      rw [getF_setF_same]; exact box_high _ _ h,
    fun q hq => getF_setF_other (s.accrue r.2) rd q _ hq, by
      rw [advance_pcAfter]; simp [State.pcAfter], rfl, accrue_fflags s r.2, accrue_frm s r.2,
    ⟨fun _ => rfl, rfl, rfl⟩, rfl, rfl, rfl, rfl, rfl⟩

/-- A single result without flags. -/
theorem completeS_setsS (n : Nat) (rd : Reg) (v : Single) (s : State) :
    setsS s rd v 0 (s.pcAfter n) (completeS n rd v s) :=
  ⟨_, rfl, by
      show ((s.setF rd (box s.cfg v)).getF rd).setWidth 32 = v
      rw [getF_setF_same]; exact box_low _ _,
    fun h => by
      show ((s.setF rd (box s.cfg v)).getF rd).extractLsb 63 32 = _
      rw [getF_setF_same]; exact box_high _ _ h,
    fun q hq => getF_setF_other s rd q _ hq, by
      rw [advance_pcAfter]; simp [State.pcAfter], rfl, (BitVec.or_zero).symm, rfl,
    ⟨fun _ => rfl, rfl, rfl⟩, rfl, rfl, rfl, rfl, rfl⟩

/-! ### Loads and stores -/

/-- A load that completes was accessible, and its continuation got the little-endian value (R302). -/
theorem load_next {n w : Nat} {a : BitVec w} {s t : State} {k : BitVec (8 * n) → Result} (h : load n a s k = .next t) :
    accessible s .load n a.toNat ∧ k (Memory.read s.mem n a.toNat) = .next t := by
  obtain ⟨h1, h2, h3, h4⟩ := access_next h
  exact ⟨⟨h1.imp_right (·.2), h2, h3⟩, h4⟩

theorem load_ok {n w : Nat} {a : BitVec w} {s : State} (k : BitVec (8 * n) → Result) (h : accessible s .load n a.toNat) :
    load n a s k = k (Memory.read s.mem n a.toNat) := access_ok _ h

/-- The value a load reads (R64). -/
theorem read_valueAt (s : State) (n a : Nat) : (Memory.read s.mem n a).toNat = valueAt s n a := by
  induction n generalizing a with
  | zero => rfl
  | succ n ih => rw [read_toNat_succ, ih]; rfl

/-- The byte of a value by shifting is the byte by division. -/
theorem byte_toNat (v : Word) (k : Nat) : ((v >>> (8 * k)).setWidth 8).toNat = v.toNat / 256 ^ k % 256 := by
  rw [BitVec.toNat_setWidth, BitVec.toNat_ushiftRight, Nat.shiftRight_eq_div_pow, Nat.pow_mul]

/-- What a store does to memory (R64, R86, R413). -/
theorem storeBytes_storesBytes (s : State) (n a : Nat) (v : Word) : storesBytes s (s.storeBytes n a v) n a v.toNat := by
  refine ⟨fun k hk => ?_, fun b hb => readByte_write_outside _ _ _ _ _ hb,
    fun b => addrSet_mem_insertRange _ _ _ _, ?_, ?_⟩
  · rw [storeBytes_mem, readByte_write_inside _ _ _ _ _ hk, byte_toNat]
  · rintro ⟨q, hq, h1, h2⟩
    simp [resvAfterStore, hq, overlaps, h1, h2]
  · intro h
    rw [storeBytes_resv]
    cases hq : s.resv with
    | none => rfl
    | some q =>
      have : ¬ (a < q.addr.toNat + q.width.bytes ∧ q.addr.toNat < a + n) := fun hx => h ⟨q, hq, hx⟩
      have hf : overlaps q n a = false := by
        rw [overlaps, ← Bool.decide_and]; exact decide_eq_false this
      simp [resvAfterStore, hf]

/-- A store that completes (R303). -/
theorem store_next {len n w u : Nat} {a : BitVec w} {v : BitVec u} {s t : State} (h : store len n a v s = .next t) :
    accessible s .store n a.toNat ∧ t = (s.storeBytes n a.toNat (v.setWidth 128)).advance len := by
  obtain ⟨h1, h2, h3, h4⟩ := access_next h
  exact ⟨⟨h1.imp_right (·.2), h2, h3⟩, by simpa [eq_comm] using h4⟩

/-- An accessible store completes (R303). -/
theorem store_stores (len n : Nat) {w u : Nat} (a : BitVec w) (v : BitVec u) (s : State) (hu : u ≤ 128)
    (h : accessible s .store n a.toNat) : stores s n a.toNat v.toNat (s.pcAfter len) (store len n a v s) := by
  refine ⟨_, access_ok _ h, ?_, ?_, rfl, rfl, rfl, rfl, rfl, rfl, rfl, rfl⟩
  · have := storeBytes_storesBytes s n a.toNat (v.setWidth 128)
    rwa [BitVec.toNat_setWidth, Nat.mod_eq_of_lt (lt_of_lt_of_le v.isLt (Nat.pow_le_pow_right (by decide) hu))] at this
  · rw [advance_pcAfter]; rfl

/-! ### Atomics -/

/-- An LR that completes (R413, R420, R431). -/
theorem loadReserve_next {wd : AtomicWidth} {rd rs1 : Reg} {s t : State} (h : loadReserve wd rd rs1 s = .next t) :
    accessibleAtomic s .load wd.bytes (s.rx rs1).toNat ∧
      t = (({ s with resv := some { addr := (s.rx rs1).setWidth 128, width := wd } } : State).setX rd
        ((Memory.read s.mem wd.bytes (s.rx rs1).toNat).signExtend s.width)).advance 4 := by
  obtain ⟨h1, h2, h3, h4⟩ := access_next h
  exact ⟨⟨h1.elim id (fun hx => by cases hx.1), h2, h3⟩, completeX_next.1 h4⟩

/-- An SC that completes (R413, R421, R432). -/
theorem storeConditional_next {wd : AtomicWidth} {rd rs1 rs2 : Reg} {s t : State}
    (h : storeConditional wd rd rs1 rs2 s = .next t) :
    accessibleAtomic s .amo wd.bytes (s.rx rs1).toNat ∧
      t = (({ (if scSucceeds s wd ((s.rx rs1).setWidth 128) then
            s.storeBytes wd.bytes (s.rx rs1).toNat ((s.rx rs2).setWidth 128) else s) with
          resv := none, draws := s.draws + 1 } : State).setX rd
        (boolValue s.width !scSucceeds s wd ((s.rx rs1).setWidth 128))).advance 4 := by
  obtain ⟨h1, h2, h3, h4⟩ := access_next h
  exact ⟨⟨h1.elim id (fun hx => by cases hx.1), h2, h3⟩, (Host.Outcome.next.inj h4).symm⟩

/-- An AMO that completes (R414). -/
theorem amo_next {wd : AtomicWidth} {rd rs1 rs2 : Reg}
    {op : BitVec (8 * wd.bytes) → BitVec (8 * wd.bytes) → BitVec (8 * wd.bytes)} {s t : State}
    (h : amo wd rd rs1 rs2 op s = .next t) :
    accessibleAtomic s .amo wd.bytes (s.rx rs1).toNat ∧
      t = ((s.storeBytes wd.bytes (s.rx rs1).toNat
          ((op (Memory.read s.mem wd.bytes (s.rx rs1).toNat) ((s.rx rs2).setWidth (8 * wd.bytes))).setWidth 128)).setX rd
        ((Memory.read s.mem wd.bytes (s.rx rs1).toNat).signExtend s.width)).advance 4 := by
  obtain ⟨h1, h2, h3, h4⟩ := access_next h
  exact ⟨⟨h1.elim id (fun hx => by cases hx.1), h2, h3⟩, completeX_next.1 h4⟩

/-! ### CSRs -/

/-- A CSR instruction that completes: the CSR exists, is not read-only when it is written, and the state is the one
R305 describes. -/
theorem csrAccess_next {i : Instr} {n : CsrNum} {rd : Reg} {reads writes : Bool} {s t : State}
    {new : BitVec s.width → BitVec s.width} (h : csrAccess i n rd reads writes s new = .next t) :
    ∃ c, csrOf s.cfg n = some c ∧ (writes && c.readOnly) = false ∧
      t = (((if writes then (if reads then s.csrDraw c else s).csrWrite
            (new ((if reads then s.csrDraw c else s).csrValue s.width c)) c
          else (if reads then s.csrDraw c else s))).setX rd
        ((if reads then s.csrDraw c else s).csrValue s.width c)).advance 4 := by
  unfold csrAccess at h
  split at h
  · cases h
  · rename_i c hc
    split at h
    · cases h
    · rename_i hw
      exact ⟨c, hc, by simpa using hw, by simpa [eq_comm] using h⟩

/-- A counter's draw never goes back (R41). -/
theorem counterDraw_le (c : CounterRead) (d : Nat) (v : BitVec 64) : v.toNat ≤ (counterDraw c d v).toNat := by
  cases c
  have := v.isLt
  simp only [counterDraw]
  rw [BitVec.toNat_ofNat, Nat.mod_eq_of_lt (by omega)]
  omega

/-! ### Traps carry the instruction's pc -/

/-- Every trap of an access names the pc of its state, when its continuation does (R610). -/
theorem access_trap {kind : Access} {strict : Bool} {n a : Nat} {s : State} {k : Result} {e : Cause} {info p : Word}
    (h : access kind strict n a s k = .fault (.trap e info p)) :
    p = s.pc ∨ k = .fault (.trap e info p) := by
  unfold access raise at h
  split at h
  · cases h; exact .inl rfl
  · split at h
    · cases h
    · split at h
      · cases h; exact .inl rfl
      · exact .inr h

end Sys2Proof.Laws
end

