-- ==== Sys2Proof/Laws/Operands.lean ====
section
/-! SUPPORT. Operands as numbers: immediates, addresses, pc targets and shift amounts in natural numbers and integers. -/

namespace Sys2Proof.Laws

open Sys2Proof.Machine

/-- Appending z zero bits multiplies by 2^z, signed. -/
theorem append_zero_toInt {k : Nat} (i : BitVec k) (z : Nat) : (i ++ 0#z).toInt = i.toInt * 2 ^ z := by
  have h1 : (i ++ 0#z).toNat = i.toNat * 2 ^ z := by simp [BitVec.toNat_append, Nat.shiftLeft_eq]
  have hp : 0 < 2 ^ z := Nat.two_pow_pos z
  rw [BitVec.toInt_eq_toNat_cond, BitVec.toInt_eq_toNat_cond, h1, Nat.pow_add 2 k z]
  have : 2 * (i.toNat * 2 ^ z) < 2 ^ k * 2 ^ z ↔ 2 * i.toNat < 2 ^ k := by
    rw [← Nat.mul_assoc]; exact Nat.mul_lt_mul_right hp
  by_cases hc : 2 * i.toNat < 2 ^ k
  · rw [if_pos (this.2 hc), if_pos hc]; push_cast; ring
  · rw [if_neg (fun h => hc (this.1 h)), if_neg hc]; push_cast; ring

/-- A signed immediate is its scaled value (R113, R116). -/
theorem signedImm_eq (w : Nat) {k : Nat} (i : BitVec k) (z : Nat) :
    signedImm w i z = BitVec.ofInt w (i.toInt * 2 ^ z) := by
  rw [← append_zero_toInt]; rfl

theorem signedImm_zero (w : Nat) {k : Nat} (i : BitVec k) : signedImm w i 0 = BitVec.ofInt w i.toInt := by
  simp [signedImm_eq]

/-- An unsigned immediate is its scaled value (R113). -/
theorem unsignedImm_eq (w : Nat) {k : Nat} (i : BitVec k) (z : Nat) :
    unsignedImm w i z = BitVec.ofNat w (i.toNat * 2 ^ z) := by
  apply BitVec.eq_of_toNat_eq
  simp [unsignedImm, BitVec.toNat_append, Nat.shiftLeft_eq]

theorem rpc_ofNat (s : State) : s.rpc = BitVec.ofNat s.width s.pc.toNat := by
  apply BitVec.eq_of_toNat_eq; simp [State.rpc, State.getPc]

/-- The target of a pc-relative transfer (R304). -/
theorem target_eq (s : State) {k : Nat} (i : BitVec k) (z : Nat) :
    (s.rpc + signedImm s.width i z).setWidth 128 = s.pcOffset (i.toInt * 2 ^ z) := by
  apply rpc_add_offset
  rw [signedImm_eq, BitVec.toInt_ofInt]
  have := @Int.bmod_emod (i.toInt * 2 ^ z) (2 ^ s.width)
  rw [Int.sub_emod, this, Int.sub_self]; simp

/-- Clearing bit 0 rounds down to an even number (R304). -/
theorem evenTarget_toNat {w : Nat} (x : BitVec w) : (evenTarget x).toNat = x.toNat / 2 * 2 := by
  have h1 : evenTarget x = (x >>> 1) <<< 1 := by
    ext i hi
    simp only [evenTarget, BitVec.getElem_and, BitVec.getElem_not, BitVec.getElem_shiftLeft]
    rcases i with _ | i
    · simp
    · simp [Nat.add_comm, BitVec.getLsbD_eq_getElem hi]
  have hx := x.isLt
  rw [h1, BitVec.toNat_shiftLeft, BitVec.toNat_ushiftRight, Nat.shiftRight_eq_div_pow, Nat.shiftLeft_eq]
  apply Nat.mod_eq_of_lt; omega

/-- A register-indirect target (R304). -/
theorem evenTarget_eq (s : State) (x : BitVec s.width) :
    (evenTarget x).setWidth 128 = BitVec.ofNat 128 (x.toNat / 2 * 2) := by
  apply BitVec.eq_of_toNat_eq
  rw [BitVec.toNat_setWidth, evenTarget_toNat, BitVec.toNat_ofNat]

/-- The low bits of a register that give a shift amount (R339, R361). -/
theorem regShamt_eq (x : Xlen) {w : Nat} (v : BitVec w) : regShamt x v = v.toNat % x.bits := by
  cases x <;> simp [regShamt, Xlen.bits]

/-- A left shift multiplies modulo 2^w. -/
theorem shiftLeft_eq {w : Nat} (x : BitVec w) (n : Nat) : x <<< n = BitVec.ofNat w (x.toNat * 2 ^ n) := by
  apply BitVec.eq_of_toNat_eq; simp [BitVec.toNat_shiftLeft, Nat.shiftLeft_eq]

/-- A logical right shift divides. -/
theorem ushiftRight_eq {w : Nat} (x : BitVec w) (n : Nat) : x >>> n = BitVec.ofNat w (x.toNat / 2 ^ n) := by
  apply BitVec.eq_of_toNat_eq
  have := x.isLt
  rw [BitVec.toNat_ushiftRight, Nat.shiftRight_eq_div_pow, BitVec.toNat_ofNat,
    Nat.mod_eq_of_lt (lt_of_le_of_lt (Nat.div_le_self _ _) this)]

/-- An arithmetic right shift divides the signed value, rounding down. -/
theorem sshiftRight_eq {w : Nat} (x : BitVec w) (n : Nat) : x.sshiftRight n = BitVec.ofInt w (x.toInt / 2 ^ n) := by
  simp [BitVec.sshiftRight, Int.shiftRight_eq_div_pow]

end Sys2Proof.Laws
end

