-- ==== Sys2Proof/Laws/PerInstr.lean ====
section
/-! SUPPORT. A law of every instruction as syntax: bits 1:0 of its encoding announce its length (R101). One lemma per
format, then one per constructor. -/

namespace Sys2Proof.Laws

/-- The low two bits are 11 exactly for a 32-bit encoding (R101). -/
def announcesLength (e : Encoding) : Prop := e.info.toNat % 4 = 3 ↔ e.length = 4

/-- The low two bits of a concatenation that ends in a field of at least two bits. -/
theorem append_low {n k : Nat} (h : BitVec n) (op : BitVec (k + 2)) : (h ++ op).toNat % 4 = op.toNat % 4 := by
  have hd : (2 : Nat) ^ (k + 2) = 4 * 2 ^ k := by rw [Nat.pow_add, Nat.mul_comm]
  rw [BitVec.toNat_append, Nat.shiftLeft_eq, Nat.mul_comm, ← Nat.two_pow_add_eq_or_of_lt op.isLt, hd, Nat.mul_assoc]
  omega

/-- A parcel that ends in a quadrant other than 11 announces two bytes. -/
theorem parcel_announces (h : BitVec 14) (op : BitVec 2) (ho : op.toNat ≠ 3) : announcesLength (.parcel (h ++ op)) := by
  have hl : (h ++ op).toNat % 4 = op.toNat % 4 := append_low (k := 0) h op
  have h1 := (h ++ op).isLt
  have h2 := op.isLt
  have h3 : (Encoding.parcel (h ++ op)).info.toNat = (h ++ op).toNat := by
    simp only [Encoding.info, BitVec.toNat_setWidth]; omega
  unfold announcesLength
  rw [h3, hl]
  simp only [Encoding.length]
  omega

/-- A word that ends in a major opcode announces four bytes. -/
theorem word_announces (h : BitVec 25) (op : BitVec 7) (ho : op.toNat % 4 = 3) : announcesLength (.word (h ++ op)) := by
  have hl : (h ++ op).toNat % 4 = op.toNat % 4 := append_low (k := 5) h op
  have h1 := (h ++ op).isLt
  have h3 : (Encoding.word (h ++ op)).info.toNat = (h ++ op).toNat := by
    simp only [Encoding.info, BitVec.toNat_setWidth]; omega
  unfold announcesLength
  rw [h3, hl]
  simp only [Encoding.length, ho]

/-! ### One lemma per instruction -/

/-- The encoding of `i` announces the length of `i` (R101). -/
def LengthBits.Statement (i : Instr) : Prop := announcesLength i.encode

theorem LengthBits.illegal : LengthBits.Statement .illegal :=
  by unfold LengthBits.Statement announcesLength; decide

theorem LengthBits.cAddi4spn (rd : CReg) (nzuimm : BitVec 8) : LengthBits.Statement (.cAddi4spn rd nzuimm) :=
  parcel_announces _ _ (by decide)

theorem LengthBits.cFld (rd : CReg) (rs1 : CReg) (uimm : BitVec 5) : LengthBits.Statement (.cFld rd rs1 uimm) :=
  parcel_announces _ _ (by decide)

theorem LengthBits.cLq (rd : CReg) (rs1 : CReg) (uimm : BitVec 5) : LengthBits.Statement (.cLq rd rs1 uimm) :=
  parcel_announces _ _ (by decide)

theorem LengthBits.cLw (rd : CReg) (rs1 : CReg) (uimm : BitVec 5) : LengthBits.Statement (.cLw rd rs1 uimm) :=
  parcel_announces _ _ (by decide)

theorem LengthBits.cFlw (rd : CReg) (rs1 : CReg) (uimm : BitVec 5) : LengthBits.Statement (.cFlw rd rs1 uimm) :=
  parcel_announces _ _ (by decide)

theorem LengthBits.cLd (rd : CReg) (rs1 : CReg) (uimm : BitVec 5) : LengthBits.Statement (.cLd rd rs1 uimm) :=
  parcel_announces _ _ (by decide)

theorem LengthBits.reservedQ0 (payload : BitVec 11) : LengthBits.Statement (.reservedQ0 payload) :=
  parcel_announces _ _ (by decide)

theorem LengthBits.cFsd (rs2 : CReg) (rs1 : CReg) (uimm : BitVec 5) : LengthBits.Statement (.cFsd rs2 rs1 uimm) :=
  parcel_announces _ _ (by decide)

theorem LengthBits.cSq (rs2 : CReg) (rs1 : CReg) (uimm : BitVec 5) : LengthBits.Statement (.cSq rs2 rs1 uimm) :=
  parcel_announces _ _ (by decide)

theorem LengthBits.cSw (rs2 : CReg) (rs1 : CReg) (uimm : BitVec 5) : LengthBits.Statement (.cSw rs2 rs1 uimm) :=
  parcel_announces _ _ (by decide)

theorem LengthBits.cFsw (rs2 : CReg) (rs1 : CReg) (uimm : BitVec 5) : LengthBits.Statement (.cFsw rs2 rs1 uimm) :=
  parcel_announces _ _ (by decide)

theorem LengthBits.cSd (rs2 : CReg) (rs1 : CReg) (uimm : BitVec 5) : LengthBits.Statement (.cSd rs2 rs1 uimm) :=
  parcel_announces _ _ (by decide)

theorem LengthBits.cNop : LengthBits.Statement .cNop :=
  parcel_announces _ _ (by decide)

theorem LengthBits.cAddi (rd : Reg) (nzimm : BitVec 6) : LengthBits.Statement (.cAddi rd nzimm) :=
  parcel_announces _ _ (by decide)

theorem LengthBits.unlisted (imm6 : BitVec 6) : LengthBits.Statement (.unlisted imm6) :=
  parcel_announces _ _ (by decide)

theorem LengthBits.cJal (offset : BitVec 11) : LengthBits.Statement (.cJal offset) :=
  parcel_announces _ _ (by decide)

theorem LengthBits.cAddiw (rd : Reg) (imm : BitVec 6) : LengthBits.Statement (.cAddiw rd imm) :=
  parcel_announces _ _ (by decide)

theorem LengthBits.cLi (rd : Reg) (imm : BitVec 6) : LengthBits.Statement (.cLi rd imm) :=
  parcel_announces _ _ (by decide)

theorem LengthBits.cAddi16sp (nzimm : BitVec 6) : LengthBits.Statement (.cAddi16sp nzimm) :=
  parcel_announces _ _ (by decide)

theorem LengthBits.cLui (rd : Reg) (nzimm : BitVec 6) : LengthBits.Statement (.cLui rd nzimm) :=
  parcel_announces _ _ (by decide)

theorem LengthBits.cSrli (rd : CReg) (shamt : BitVec 6) : LengthBits.Statement (.cSrli rd shamt) :=
  parcel_announces _ _ (by decide)

theorem LengthBits.cSrli64 (rd : CReg) : LengthBits.Statement (.cSrli64 rd) :=
  parcel_announces _ _ (by decide)

theorem LengthBits.cSrai (rd : CReg) (shamt : BitVec 6) : LengthBits.Statement (.cSrai rd shamt) :=
  parcel_announces _ _ (by decide)

theorem LengthBits.cSrai64 (rd : CReg) : LengthBits.Statement (.cSrai64 rd) :=
  parcel_announces _ _ (by decide)

theorem LengthBits.cAndi (rd : CReg) (imm : BitVec 6) : LengthBits.Statement (.cAndi rd imm) :=
  parcel_announces _ _ (by decide)

theorem LengthBits.cSub (rd : CReg) (rs2 : CReg) : LengthBits.Statement (.cSub rd rs2) :=
  parcel_announces _ _ (by decide)

theorem LengthBits.cXor (rd : CReg) (rs2 : CReg) : LengthBits.Statement (.cXor rd rs2) :=
  parcel_announces _ _ (by decide)

theorem LengthBits.cOr (rd : CReg) (rs2 : CReg) : LengthBits.Statement (.cOr rd rs2) :=
  parcel_announces _ _ (by decide)

theorem LengthBits.cAnd (rd : CReg) (rs2 : CReg) : LengthBits.Statement (.cAnd rd rs2) :=
  parcel_announces _ _ (by decide)

theorem LengthBits.cSubw (rd : CReg) (rs2 : CReg) : LengthBits.Statement (.cSubw rd rs2) :=
  parcel_announces _ _ (by decide)

theorem LengthBits.cAddw (rd : CReg) (rs2 : CReg) : LengthBits.Statement (.cAddw rd rs2) :=
  parcel_announces _ _ (by decide)

theorem LengthBits.reservedQ1a (hi : BitVec 3) (lo : BitVec 3) : LengthBits.Statement (.reservedQ1a hi lo) :=
  parcel_announces _ _ (by decide)

theorem LengthBits.reservedQ1b (hi : BitVec 3) (lo : BitVec 3) : LengthBits.Statement (.reservedQ1b hi lo) :=
  parcel_announces _ _ (by decide)

theorem LengthBits.cJ (offset : BitVec 11) : LengthBits.Statement (.cJ offset) :=
  parcel_announces _ _ (by decide)

theorem LengthBits.cBeqz (rs1 : CReg) (offset : BitVec 8) : LengthBits.Statement (.cBeqz rs1 offset) :=
  parcel_announces _ _ (by decide)

theorem LengthBits.cBnez (rs1 : CReg) (offset : BitVec 8) : LengthBits.Statement (.cBnez rs1 offset) :=
  parcel_announces _ _ (by decide)

theorem LengthBits.cSlli (rd : Reg) (shamt : BitVec 6) : LengthBits.Statement (.cSlli rd shamt) :=
  parcel_announces _ _ (by decide)

theorem LengthBits.cSlli64 (rd : Reg) : LengthBits.Statement (.cSlli64 rd) :=
  parcel_announces _ _ (by decide)

theorem LengthBits.cFldsp (rd : Reg) (uimm : BitVec 6) : LengthBits.Statement (.cFldsp rd uimm) :=
  parcel_announces _ _ (by decide)

theorem LengthBits.cLqsp (rd : Reg) (uimm : BitVec 6) : LengthBits.Statement (.cLqsp rd uimm) :=
  parcel_announces _ _ (by decide)

theorem LengthBits.cLwsp (rd : Reg) (uimm : BitVec 6) : LengthBits.Statement (.cLwsp rd uimm) :=
  parcel_announces _ _ (by decide)

theorem LengthBits.cFlwsp (rd : Reg) (uimm : BitVec 6) : LengthBits.Statement (.cFlwsp rd uimm) :=
  parcel_announces _ _ (by decide)

theorem LengthBits.cLdsp (rd : Reg) (uimm : BitVec 6) : LengthBits.Statement (.cLdsp rd uimm) :=
  parcel_announces _ _ (by decide)

theorem LengthBits.cJr (rs1 : Reg) : LengthBits.Statement (.cJr rs1) :=
  parcel_announces _ _ (by decide)

theorem LengthBits.cMv (rd : Reg) (rs2 : Reg) : LengthBits.Statement (.cMv rd rs2) :=
  parcel_announces _ _ (by decide)

theorem LengthBits.cEbreak : LengthBits.Statement .cEbreak :=
  parcel_announces _ _ (by decide)

theorem LengthBits.cJalr (rs1 : Reg) : LengthBits.Statement (.cJalr rs1) :=
  parcel_announces _ _ (by decide)

theorem LengthBits.cAdd (rd : Reg) (rs2 : Reg) : LengthBits.Statement (.cAdd rd rs2) :=
  parcel_announces _ _ (by decide)

theorem LengthBits.cFsdsp (rs2 : Reg) (uimm : BitVec 6) : LengthBits.Statement (.cFsdsp rs2 uimm) :=
  parcel_announces _ _ (by decide)

theorem LengthBits.cSqsp (rs2 : Reg) (uimm : BitVec 6) : LengthBits.Statement (.cSqsp rs2 uimm) :=
  parcel_announces _ _ (by decide)

theorem LengthBits.cSwsp (rs2 : Reg) (uimm : BitVec 6) : LengthBits.Statement (.cSwsp rs2 uimm) :=
  parcel_announces _ _ (by decide)

theorem LengthBits.cFswsp (rs2 : Reg) (uimm : BitVec 6) : LengthBits.Statement (.cFswsp rs2 uimm) :=
  parcel_announces _ _ (by decide)

theorem LengthBits.cSdsp (rs2 : Reg) (uimm : BitVec 6) : LengthBits.Statement (.cSdsp rs2 uimm) :=
  parcel_announces _ _ (by decide)

theorem LengthBits.lui (rd : Reg) (imm : BitVec 20) : LengthBits.Statement (.lui rd imm) :=
  word_announces _ _ (by decide)

theorem LengthBits.auipc (rd : Reg) (imm : BitVec 20) : LengthBits.Statement (.auipc rd imm) :=
  word_announces _ _ (by decide)

theorem LengthBits.jal (rd : Reg) (offset : BitVec 20) : LengthBits.Statement (.jal rd offset) :=
  word_announces _ _ (by decide)

theorem LengthBits.jalr (rd : Reg) (rs1 : Reg) (imm : BitVec 12) : LengthBits.Statement (.jalr rd rs1 imm) :=
  word_announces _ _ (by decide)

theorem LengthBits.beq (rs1 : Reg) (rs2 : Reg) (offset : BitVec 12) : LengthBits.Statement (.beq rs1 rs2 offset) :=
  word_announces _ _ (by decide)

theorem LengthBits.bne (rs1 : Reg) (rs2 : Reg) (offset : BitVec 12) : LengthBits.Statement (.bne rs1 rs2 offset) :=
  word_announces _ _ (by decide)

theorem LengthBits.blt (rs1 : Reg) (rs2 : Reg) (offset : BitVec 12) : LengthBits.Statement (.blt rs1 rs2 offset) :=
  word_announces _ _ (by decide)

theorem LengthBits.bge (rs1 : Reg) (rs2 : Reg) (offset : BitVec 12) : LengthBits.Statement (.bge rs1 rs2 offset) :=
  word_announces _ _ (by decide)

theorem LengthBits.bltu (rs1 : Reg) (rs2 : Reg) (offset : BitVec 12) : LengthBits.Statement (.bltu rs1 rs2 offset) :=
  word_announces _ _ (by decide)

theorem LengthBits.bgeu (rs1 : Reg) (rs2 : Reg) (offset : BitVec 12) : LengthBits.Statement (.bgeu rs1 rs2 offset) :=
  word_announces _ _ (by decide)

theorem LengthBits.lb (rd : Reg) (rs1 : Reg) (imm : BitVec 12) : LengthBits.Statement (.lb rd rs1 imm) :=
  word_announces _ _ (by decide)

theorem LengthBits.lh (rd : Reg) (rs1 : Reg) (imm : BitVec 12) : LengthBits.Statement (.lh rd rs1 imm) :=
  word_announces _ _ (by decide)

theorem LengthBits.lw (rd : Reg) (rs1 : Reg) (imm : BitVec 12) : LengthBits.Statement (.lw rd rs1 imm) :=
  word_announces _ _ (by decide)

theorem LengthBits.lbu (rd : Reg) (rs1 : Reg) (imm : BitVec 12) : LengthBits.Statement (.lbu rd rs1 imm) :=
  word_announces _ _ (by decide)

theorem LengthBits.lhu (rd : Reg) (rs1 : Reg) (imm : BitVec 12) : LengthBits.Statement (.lhu rd rs1 imm) :=
  word_announces _ _ (by decide)

theorem LengthBits.sb (rs2 : Reg) (rs1 : Reg) (imm : BitVec 12) : LengthBits.Statement (.sb rs2 rs1 imm) :=
  word_announces _ _ (by decide)

theorem LengthBits.sh (rs2 : Reg) (rs1 : Reg) (imm : BitVec 12) : LengthBits.Statement (.sh rs2 rs1 imm) :=
  word_announces _ _ (by decide)

theorem LengthBits.sw (rs2 : Reg) (rs1 : Reg) (imm : BitVec 12) : LengthBits.Statement (.sw rs2 rs1 imm) :=
  word_announces _ _ (by decide)

theorem LengthBits.addi (rd : Reg) (rs1 : Reg) (imm : BitVec 12) : LengthBits.Statement (.addi rd rs1 imm) :=
  word_announces _ _ (by decide)

theorem LengthBits.slti (rd : Reg) (rs1 : Reg) (imm : BitVec 12) : LengthBits.Statement (.slti rd rs1 imm) :=
  word_announces _ _ (by decide)

theorem LengthBits.sltiu (rd : Reg) (rs1 : Reg) (imm : BitVec 12) : LengthBits.Statement (.sltiu rd rs1 imm) :=
  word_announces _ _ (by decide)

theorem LengthBits.xori (rd : Reg) (rs1 : Reg) (imm : BitVec 12) : LengthBits.Statement (.xori rd rs1 imm) :=
  word_announces _ _ (by decide)

theorem LengthBits.ori (rd : Reg) (rs1 : Reg) (imm : BitVec 12) : LengthBits.Statement (.ori rd rs1 imm) :=
  word_announces _ _ (by decide)

theorem LengthBits.andi (rd : Reg) (rs1 : Reg) (imm : BitVec 12) : LengthBits.Statement (.andi rd rs1 imm) :=
  word_announces _ _ (by decide)

theorem LengthBits.slliRv32 (rd : Reg) (rs1 : Reg) (shamt : BitVec 5) : LengthBits.Statement (.slliRv32 rd rs1 shamt) :=
  word_announces _ _ (by decide)

theorem LengthBits.srliRv32 (rd : Reg) (rs1 : Reg) (shamt : BitVec 5) : LengthBits.Statement (.srliRv32 rd rs1 shamt) :=
  word_announces _ _ (by decide)

theorem LengthBits.sraiRv32 (rd : Reg) (rs1 : Reg) (shamt : BitVec 5) : LengthBits.Statement (.sraiRv32 rd rs1 shamt) :=
  word_announces _ _ (by decide)

theorem LengthBits.add (rd : Reg) (rs1 : Reg) (rs2 : Reg) : LengthBits.Statement (.add rd rs1 rs2) :=
  word_announces _ _ (by decide)

theorem LengthBits.sub (rd : Reg) (rs1 : Reg) (rs2 : Reg) : LengthBits.Statement (.sub rd rs1 rs2) :=
  word_announces _ _ (by decide)

theorem LengthBits.sll (rd : Reg) (rs1 : Reg) (rs2 : Reg) : LengthBits.Statement (.sll rd rs1 rs2) :=
  word_announces _ _ (by decide)

theorem LengthBits.slt (rd : Reg) (rs1 : Reg) (rs2 : Reg) : LengthBits.Statement (.slt rd rs1 rs2) :=
  word_announces _ _ (by decide)

theorem LengthBits.sltu (rd : Reg) (rs1 : Reg) (rs2 : Reg) : LengthBits.Statement (.sltu rd rs1 rs2) :=
  word_announces _ _ (by decide)

theorem LengthBits.xor (rd : Reg) (rs1 : Reg) (rs2 : Reg) : LengthBits.Statement (.xor rd rs1 rs2) :=
  word_announces _ _ (by decide)

theorem LengthBits.srl (rd : Reg) (rs1 : Reg) (rs2 : Reg) : LengthBits.Statement (.srl rd rs1 rs2) :=
  word_announces _ _ (by decide)

theorem LengthBits.sra (rd : Reg) (rs1 : Reg) (rs2 : Reg) : LengthBits.Statement (.sra rd rs1 rs2) :=
  word_announces _ _ (by decide)

theorem LengthBits.or (rd : Reg) (rs1 : Reg) (rs2 : Reg) : LengthBits.Statement (.or rd rs1 rs2) :=
  word_announces _ _ (by decide)

theorem LengthBits.and (rd : Reg) (rs1 : Reg) (rs2 : Reg) : LengthBits.Statement (.and rd rs1 rs2) :=
  word_announces _ _ (by decide)

theorem LengthBits.fence (pred : BitVec 4) (succ : BitVec 4) : LengthBits.Statement (.fence pred succ) :=
  word_announces _ _ (by decide)

theorem LengthBits.fenceI : LengthBits.Statement .fenceI :=
  by unfold LengthBits.Statement announcesLength; decide

theorem LengthBits.ecall : LengthBits.Statement .ecall :=
  by unfold LengthBits.Statement announcesLength; decide

theorem LengthBits.ebreak : LengthBits.Statement .ebreak :=
  by unfold LengthBits.Statement announcesLength; decide

theorem LengthBits.csrrw (rd : Reg) (rs1 : Reg) (csr : BitVec 12) : LengthBits.Statement (.csrrw rd rs1 csr) :=
  word_announces _ _ (by decide)

theorem LengthBits.csrrs (rd : Reg) (rs1 : Reg) (csr : BitVec 12) : LengthBits.Statement (.csrrs rd rs1 csr) :=
  word_announces _ _ (by decide)

theorem LengthBits.csrrc (rd : Reg) (rs1 : Reg) (csr : BitVec 12) : LengthBits.Statement (.csrrc rd rs1 csr) :=
  word_announces _ _ (by decide)

theorem LengthBits.csrrwi (rd : Reg) (zimm : BitVec 5) (csr : BitVec 12) : LengthBits.Statement (.csrrwi rd zimm csr) :=
  word_announces _ _ (by decide)

theorem LengthBits.csrrsi (rd : Reg) (zimm : BitVec 5) (csr : BitVec 12) : LengthBits.Statement (.csrrsi rd zimm csr) :=
  word_announces _ _ (by decide)

theorem LengthBits.csrrci (rd : Reg) (zimm : BitVec 5) (csr : BitVec 12) : LengthBits.Statement (.csrrci rd zimm csr) :=
  word_announces _ _ (by decide)

theorem LengthBits.lwu (rd : Reg) (rs1 : Reg) (imm : BitVec 12) : LengthBits.Statement (.lwu rd rs1 imm) :=
  word_announces _ _ (by decide)

theorem LengthBits.ld (rd : Reg) (rs1 : Reg) (imm : BitVec 12) : LengthBits.Statement (.ld rd rs1 imm) :=
  word_announces _ _ (by decide)

theorem LengthBits.sd (rs2 : Reg) (rs1 : Reg) (imm : BitVec 12) : LengthBits.Statement (.sd rs2 rs1 imm) :=
  word_announces _ _ (by decide)

theorem LengthBits.slliRv64 (rd : Reg) (rs1 : Reg) (shamt : BitVec 6) : LengthBits.Statement (.slliRv64 rd rs1 shamt) :=
  word_announces _ _ (by decide)

theorem LengthBits.srliRv64 (rd : Reg) (rs1 : Reg) (shamt : BitVec 6) : LengthBits.Statement (.srliRv64 rd rs1 shamt) :=
  word_announces _ _ (by decide)

theorem LengthBits.sraiRv64 (rd : Reg) (rs1 : Reg) (shamt : BitVec 6) : LengthBits.Statement (.sraiRv64 rd rs1 shamt) :=
  word_announces _ _ (by decide)

theorem LengthBits.addiw (rd : Reg) (rs1 : Reg) (imm : BitVec 12) : LengthBits.Statement (.addiw rd rs1 imm) :=
  word_announces _ _ (by decide)

theorem LengthBits.slliw (rd : Reg) (rs1 : Reg) (shamt : BitVec 5) : LengthBits.Statement (.slliw rd rs1 shamt) :=
  word_announces _ _ (by decide)

theorem LengthBits.srliw (rd : Reg) (rs1 : Reg) (shamt : BitVec 5) : LengthBits.Statement (.srliw rd rs1 shamt) :=
  word_announces _ _ (by decide)

theorem LengthBits.sraiw (rd : Reg) (rs1 : Reg) (shamt : BitVec 5) : LengthBits.Statement (.sraiw rd rs1 shamt) :=
  word_announces _ _ (by decide)

theorem LengthBits.addw (rd : Reg) (rs1 : Reg) (rs2 : Reg) : LengthBits.Statement (.addw rd rs1 rs2) :=
  word_announces _ _ (by decide)

theorem LengthBits.subw (rd : Reg) (rs1 : Reg) (rs2 : Reg) : LengthBits.Statement (.subw rd rs1 rs2) :=
  word_announces _ _ (by decide)

theorem LengthBits.sllw (rd : Reg) (rs1 : Reg) (rs2 : Reg) : LengthBits.Statement (.sllw rd rs1 rs2) :=
  word_announces _ _ (by decide)

theorem LengthBits.srlw (rd : Reg) (rs1 : Reg) (rs2 : Reg) : LengthBits.Statement (.srlw rd rs1 rs2) :=
  word_announces _ _ (by decide)

theorem LengthBits.sraw (rd : Reg) (rs1 : Reg) (rs2 : Reg) : LengthBits.Statement (.sraw rd rs1 rs2) :=
  word_announces _ _ (by decide)

theorem LengthBits.mul (rd : Reg) (rs1 : Reg) (rs2 : Reg) : LengthBits.Statement (.mul rd rs1 rs2) :=
  word_announces _ _ (by decide)

theorem LengthBits.mulh (rd : Reg) (rs1 : Reg) (rs2 : Reg) : LengthBits.Statement (.mulh rd rs1 rs2) :=
  word_announces _ _ (by decide)

theorem LengthBits.mulhsu (rd : Reg) (rs1 : Reg) (rs2 : Reg) : LengthBits.Statement (.mulhsu rd rs1 rs2) :=
  word_announces _ _ (by decide)

theorem LengthBits.mulhu (rd : Reg) (rs1 : Reg) (rs2 : Reg) : LengthBits.Statement (.mulhu rd rs1 rs2) :=
  word_announces _ _ (by decide)

theorem LengthBits.div (rd : Reg) (rs1 : Reg) (rs2 : Reg) : LengthBits.Statement (.div rd rs1 rs2) :=
  word_announces _ _ (by decide)

theorem LengthBits.divu (rd : Reg) (rs1 : Reg) (rs2 : Reg) : LengthBits.Statement (.divu rd rs1 rs2) :=
  word_announces _ _ (by decide)

theorem LengthBits.rem (rd : Reg) (rs1 : Reg) (rs2 : Reg) : LengthBits.Statement (.rem rd rs1 rs2) :=
  word_announces _ _ (by decide)

theorem LengthBits.remu (rd : Reg) (rs1 : Reg) (rs2 : Reg) : LengthBits.Statement (.remu rd rs1 rs2) :=
  word_announces _ _ (by decide)

theorem LengthBits.mulw (rd : Reg) (rs1 : Reg) (rs2 : Reg) : LengthBits.Statement (.mulw rd rs1 rs2) :=
  word_announces _ _ (by decide)

theorem LengthBits.divw (rd : Reg) (rs1 : Reg) (rs2 : Reg) : LengthBits.Statement (.divw rd rs1 rs2) :=
  word_announces _ _ (by decide)

theorem LengthBits.divuw (rd : Reg) (rs1 : Reg) (rs2 : Reg) : LengthBits.Statement (.divuw rd rs1 rs2) :=
  word_announces _ _ (by decide)

theorem LengthBits.remw (rd : Reg) (rs1 : Reg) (rs2 : Reg) : LengthBits.Statement (.remw rd rs1 rs2) :=
  word_announces _ _ (by decide)

theorem LengthBits.remuw (rd : Reg) (rs1 : Reg) (rs2 : Reg) : LengthBits.Statement (.remuw rd rs1 rs2) :=
  word_announces _ _ (by decide)

theorem LengthBits.lrW (rd : Reg) (rs1 : Reg) (aq : Bool) (rl : Bool) : LengthBits.Statement (.lrW rd rs1 aq rl) :=
  word_announces _ _ (by decide)

theorem LengthBits.scW (rd : Reg) (rs1 : Reg) (rs2 : Reg) (aq : Bool) (rl : Bool) : LengthBits.Statement (.scW rd rs1 rs2 aq rl) :=
  word_announces _ _ (by decide)

theorem LengthBits.amoswapW (rd : Reg) (rs1 : Reg) (rs2 : Reg) (aq : Bool) (rl : Bool) : LengthBits.Statement (.amoswapW rd rs1 rs2 aq rl) :=
  word_announces _ _ (by decide)

theorem LengthBits.amoaddW (rd : Reg) (rs1 : Reg) (rs2 : Reg) (aq : Bool) (rl : Bool) : LengthBits.Statement (.amoaddW rd rs1 rs2 aq rl) :=
  word_announces _ _ (by decide)

theorem LengthBits.amoxorW (rd : Reg) (rs1 : Reg) (rs2 : Reg) (aq : Bool) (rl : Bool) : LengthBits.Statement (.amoxorW rd rs1 rs2 aq rl) :=
  word_announces _ _ (by decide)

theorem LengthBits.amoandW (rd : Reg) (rs1 : Reg) (rs2 : Reg) (aq : Bool) (rl : Bool) : LengthBits.Statement (.amoandW rd rs1 rs2 aq rl) :=
  word_announces _ _ (by decide)

theorem LengthBits.amoorW (rd : Reg) (rs1 : Reg) (rs2 : Reg) (aq : Bool) (rl : Bool) : LengthBits.Statement (.amoorW rd rs1 rs2 aq rl) :=
  word_announces _ _ (by decide)

theorem LengthBits.amominW (rd : Reg) (rs1 : Reg) (rs2 : Reg) (aq : Bool) (rl : Bool) : LengthBits.Statement (.amominW rd rs1 rs2 aq rl) :=
  word_announces _ _ (by decide)

theorem LengthBits.amomaxW (rd : Reg) (rs1 : Reg) (rs2 : Reg) (aq : Bool) (rl : Bool) : LengthBits.Statement (.amomaxW rd rs1 rs2 aq rl) :=
  word_announces _ _ (by decide)

theorem LengthBits.amominuW (rd : Reg) (rs1 : Reg) (rs2 : Reg) (aq : Bool) (rl : Bool) : LengthBits.Statement (.amominuW rd rs1 rs2 aq rl) :=
  word_announces _ _ (by decide)

theorem LengthBits.amomaxuW (rd : Reg) (rs1 : Reg) (rs2 : Reg) (aq : Bool) (rl : Bool) : LengthBits.Statement (.amomaxuW rd rs1 rs2 aq rl) :=
  word_announces _ _ (by decide)

theorem LengthBits.lrD (rd : Reg) (rs1 : Reg) (aq : Bool) (rl : Bool) : LengthBits.Statement (.lrD rd rs1 aq rl) :=
  word_announces _ _ (by decide)

theorem LengthBits.scD (rd : Reg) (rs1 : Reg) (rs2 : Reg) (aq : Bool) (rl : Bool) : LengthBits.Statement (.scD rd rs1 rs2 aq rl) :=
  word_announces _ _ (by decide)

theorem LengthBits.amoswapD (rd : Reg) (rs1 : Reg) (rs2 : Reg) (aq : Bool) (rl : Bool) : LengthBits.Statement (.amoswapD rd rs1 rs2 aq rl) :=
  word_announces _ _ (by decide)

theorem LengthBits.amoaddD (rd : Reg) (rs1 : Reg) (rs2 : Reg) (aq : Bool) (rl : Bool) : LengthBits.Statement (.amoaddD rd rs1 rs2 aq rl) :=
  word_announces _ _ (by decide)

theorem LengthBits.amoxorD (rd : Reg) (rs1 : Reg) (rs2 : Reg) (aq : Bool) (rl : Bool) : LengthBits.Statement (.amoxorD rd rs1 rs2 aq rl) :=
  word_announces _ _ (by decide)

theorem LengthBits.amoandD (rd : Reg) (rs1 : Reg) (rs2 : Reg) (aq : Bool) (rl : Bool) : LengthBits.Statement (.amoandD rd rs1 rs2 aq rl) :=
  word_announces _ _ (by decide)

theorem LengthBits.amoorD (rd : Reg) (rs1 : Reg) (rs2 : Reg) (aq : Bool) (rl : Bool) : LengthBits.Statement (.amoorD rd rs1 rs2 aq rl) :=
  word_announces _ _ (by decide)

theorem LengthBits.amominD (rd : Reg) (rs1 : Reg) (rs2 : Reg) (aq : Bool) (rl : Bool) : LengthBits.Statement (.amominD rd rs1 rs2 aq rl) :=
  word_announces _ _ (by decide)

theorem LengthBits.amomaxD (rd : Reg) (rs1 : Reg) (rs2 : Reg) (aq : Bool) (rl : Bool) : LengthBits.Statement (.amomaxD rd rs1 rs2 aq rl) :=
  word_announces _ _ (by decide)

theorem LengthBits.amominuD (rd : Reg) (rs1 : Reg) (rs2 : Reg) (aq : Bool) (rl : Bool) : LengthBits.Statement (.amominuD rd rs1 rs2 aq rl) :=
  word_announces _ _ (by decide)

theorem LengthBits.amomaxuD (rd : Reg) (rs1 : Reg) (rs2 : Reg) (aq : Bool) (rl : Bool) : LengthBits.Statement (.amomaxuD rd rs1 rs2 aq rl) :=
  word_announces _ _ (by decide)

theorem LengthBits.flw (rd : Reg) (rs1 : Reg) (imm : BitVec 12) : LengthBits.Statement (.flw rd rs1 imm) :=
  word_announces _ _ (by decide)

theorem LengthBits.fsw (rs2 : Reg) (rs1 : Reg) (imm : BitVec 12) : LengthBits.Statement (.fsw rs2 rs1 imm) :=
  word_announces _ _ (by decide)

theorem LengthBits.fmaddS (rd : Reg) (rs1 : Reg) (rs2 : Reg) (rs3 : Reg) (rm : BitVec 3) : LengthBits.Statement (.fmaddS rd rs1 rs2 rs3 rm) :=
  word_announces _ _ (by decide)

theorem LengthBits.fmsubS (rd : Reg) (rs1 : Reg) (rs2 : Reg) (rs3 : Reg) (rm : BitVec 3) : LengthBits.Statement (.fmsubS rd rs1 rs2 rs3 rm) :=
  word_announces _ _ (by decide)

theorem LengthBits.fnmsubS (rd : Reg) (rs1 : Reg) (rs2 : Reg) (rs3 : Reg) (rm : BitVec 3) : LengthBits.Statement (.fnmsubS rd rs1 rs2 rs3 rm) :=
  word_announces _ _ (by decide)

theorem LengthBits.fnmaddS (rd : Reg) (rs1 : Reg) (rs2 : Reg) (rs3 : Reg) (rm : BitVec 3) : LengthBits.Statement (.fnmaddS rd rs1 rs2 rs3 rm) :=
  word_announces _ _ (by decide)

theorem LengthBits.faddS (rd : Reg) (rs1 : Reg) (rs2 : Reg) (rm : BitVec 3) : LengthBits.Statement (.faddS rd rs1 rs2 rm) :=
  word_announces _ _ (by decide)

theorem LengthBits.fsubS (rd : Reg) (rs1 : Reg) (rs2 : Reg) (rm : BitVec 3) : LengthBits.Statement (.fsubS rd rs1 rs2 rm) :=
  word_announces _ _ (by decide)

theorem LengthBits.fmulS (rd : Reg) (rs1 : Reg) (rs2 : Reg) (rm : BitVec 3) : LengthBits.Statement (.fmulS rd rs1 rs2 rm) :=
  word_announces _ _ (by decide)

theorem LengthBits.fdivS (rd : Reg) (rs1 : Reg) (rs2 : Reg) (rm : BitVec 3) : LengthBits.Statement (.fdivS rd rs1 rs2 rm) :=
  word_announces _ _ (by decide)

theorem LengthBits.fsqrtS (rd : Reg) (rs1 : Reg) (rm : BitVec 3) : LengthBits.Statement (.fsqrtS rd rs1 rm) :=
  word_announces _ _ (by decide)

theorem LengthBits.fsgnjS (rd : Reg) (rs1 : Reg) (rs2 : Reg) : LengthBits.Statement (.fsgnjS rd rs1 rs2) :=
  word_announces _ _ (by decide)

theorem LengthBits.fsgnjnS (rd : Reg) (rs1 : Reg) (rs2 : Reg) : LengthBits.Statement (.fsgnjnS rd rs1 rs2) :=
  word_announces _ _ (by decide)

theorem LengthBits.fsgnjxS (rd : Reg) (rs1 : Reg) (rs2 : Reg) : LengthBits.Statement (.fsgnjxS rd rs1 rs2) :=
  word_announces _ _ (by decide)

theorem LengthBits.fminS (rd : Reg) (rs1 : Reg) (rs2 : Reg) : LengthBits.Statement (.fminS rd rs1 rs2) :=
  word_announces _ _ (by decide)

theorem LengthBits.fmaxS (rd : Reg) (rs1 : Reg) (rs2 : Reg) : LengthBits.Statement (.fmaxS rd rs1 rs2) :=
  word_announces _ _ (by decide)

theorem LengthBits.fcvtWS (rd : Reg) (rs1 : Reg) (rm : BitVec 3) : LengthBits.Statement (.fcvtWS rd rs1 rm) :=
  word_announces _ _ (by decide)

theorem LengthBits.fcvtWuS (rd : Reg) (rs1 : Reg) (rm : BitVec 3) : LengthBits.Statement (.fcvtWuS rd rs1 rm) :=
  word_announces _ _ (by decide)

theorem LengthBits.fmvXW (rd : Reg) (rs1 : Reg) : LengthBits.Statement (.fmvXW rd rs1) :=
  word_announces _ _ (by decide)

theorem LengthBits.feqS (rd : Reg) (rs1 : Reg) (rs2 : Reg) : LengthBits.Statement (.feqS rd rs1 rs2) :=
  word_announces _ _ (by decide)

theorem LengthBits.fltS (rd : Reg) (rs1 : Reg) (rs2 : Reg) : LengthBits.Statement (.fltS rd rs1 rs2) :=
  word_announces _ _ (by decide)

theorem LengthBits.fleS (rd : Reg) (rs1 : Reg) (rs2 : Reg) : LengthBits.Statement (.fleS rd rs1 rs2) :=
  word_announces _ _ (by decide)

theorem LengthBits.fclassS (rd : Reg) (rs1 : Reg) : LengthBits.Statement (.fclassS rd rs1) :=
  word_announces _ _ (by decide)

theorem LengthBits.fcvtSW (rd : Reg) (rs1 : Reg) (rm : BitVec 3) : LengthBits.Statement (.fcvtSW rd rs1 rm) :=
  word_announces _ _ (by decide)

theorem LengthBits.fcvtSWu (rd : Reg) (rs1 : Reg) (rm : BitVec 3) : LengthBits.Statement (.fcvtSWu rd rs1 rm) :=
  word_announces _ _ (by decide)

theorem LengthBits.fmvWX (rd : Reg) (rs1 : Reg) : LengthBits.Statement (.fmvWX rd rs1) :=
  word_announces _ _ (by decide)

theorem LengthBits.fcvtLS (rd : Reg) (rs1 : Reg) (rm : BitVec 3) : LengthBits.Statement (.fcvtLS rd rs1 rm) :=
  word_announces _ _ (by decide)

theorem LengthBits.fcvtLuS (rd : Reg) (rs1 : Reg) (rm : BitVec 3) : LengthBits.Statement (.fcvtLuS rd rs1 rm) :=
  word_announces _ _ (by decide)

theorem LengthBits.fcvtSL (rd : Reg) (rs1 : Reg) (rm : BitVec 3) : LengthBits.Statement (.fcvtSL rd rs1 rm) :=
  word_announces _ _ (by decide)

theorem LengthBits.fcvtSLu (rd : Reg) (rs1 : Reg) (rm : BitVec 3) : LengthBits.Statement (.fcvtSLu rd rs1 rm) :=
  word_announces _ _ (by decide)

theorem LengthBits.fld (rd : Reg) (rs1 : Reg) (imm : BitVec 12) : LengthBits.Statement (.fld rd rs1 imm) :=
  word_announces _ _ (by decide)

theorem LengthBits.fsd (rs2 : Reg) (rs1 : Reg) (imm : BitVec 12) : LengthBits.Statement (.fsd rs2 rs1 imm) :=
  word_announces _ _ (by decide)

theorem LengthBits.fmaddD (rd : Reg) (rs1 : Reg) (rs2 : Reg) (rs3 : Reg) (rm : BitVec 3) : LengthBits.Statement (.fmaddD rd rs1 rs2 rs3 rm) :=
  word_announces _ _ (by decide)

theorem LengthBits.fmsubD (rd : Reg) (rs1 : Reg) (rs2 : Reg) (rs3 : Reg) (rm : BitVec 3) : LengthBits.Statement (.fmsubD rd rs1 rs2 rs3 rm) :=
  word_announces _ _ (by decide)

theorem LengthBits.fnmsubD (rd : Reg) (rs1 : Reg) (rs2 : Reg) (rs3 : Reg) (rm : BitVec 3) : LengthBits.Statement (.fnmsubD rd rs1 rs2 rs3 rm) :=
  word_announces _ _ (by decide)

theorem LengthBits.fnmaddD (rd : Reg) (rs1 : Reg) (rs2 : Reg) (rs3 : Reg) (rm : BitVec 3) : LengthBits.Statement (.fnmaddD rd rs1 rs2 rs3 rm) :=
  word_announces _ _ (by decide)

theorem LengthBits.faddD (rd : Reg) (rs1 : Reg) (rs2 : Reg) (rm : BitVec 3) : LengthBits.Statement (.faddD rd rs1 rs2 rm) :=
  word_announces _ _ (by decide)

theorem LengthBits.fsubD (rd : Reg) (rs1 : Reg) (rs2 : Reg) (rm : BitVec 3) : LengthBits.Statement (.fsubD rd rs1 rs2 rm) :=
  word_announces _ _ (by decide)

theorem LengthBits.fmulD (rd : Reg) (rs1 : Reg) (rs2 : Reg) (rm : BitVec 3) : LengthBits.Statement (.fmulD rd rs1 rs2 rm) :=
  word_announces _ _ (by decide)

theorem LengthBits.fdivD (rd : Reg) (rs1 : Reg) (rs2 : Reg) (rm : BitVec 3) : LengthBits.Statement (.fdivD rd rs1 rs2 rm) :=
  word_announces _ _ (by decide)

theorem LengthBits.fsqrtD (rd : Reg) (rs1 : Reg) (rm : BitVec 3) : LengthBits.Statement (.fsqrtD rd rs1 rm) :=
  word_announces _ _ (by decide)

theorem LengthBits.fsgnjD (rd : Reg) (rs1 : Reg) (rs2 : Reg) : LengthBits.Statement (.fsgnjD rd rs1 rs2) :=
  word_announces _ _ (by decide)

theorem LengthBits.fsgnjnD (rd : Reg) (rs1 : Reg) (rs2 : Reg) : LengthBits.Statement (.fsgnjnD rd rs1 rs2) :=
  word_announces _ _ (by decide)

theorem LengthBits.fsgnjxD (rd : Reg) (rs1 : Reg) (rs2 : Reg) : LengthBits.Statement (.fsgnjxD rd rs1 rs2) :=
  word_announces _ _ (by decide)

theorem LengthBits.fminD (rd : Reg) (rs1 : Reg) (rs2 : Reg) : LengthBits.Statement (.fminD rd rs1 rs2) :=
  word_announces _ _ (by decide)

theorem LengthBits.fmaxD (rd : Reg) (rs1 : Reg) (rs2 : Reg) : LengthBits.Statement (.fmaxD rd rs1 rs2) :=
  word_announces _ _ (by decide)

theorem LengthBits.fcvtSD (rd : Reg) (rs1 : Reg) (rm : BitVec 3) : LengthBits.Statement (.fcvtSD rd rs1 rm) :=
  word_announces _ _ (by decide)

theorem LengthBits.fcvtDS (rd : Reg) (rs1 : Reg) (rm : BitVec 3) : LengthBits.Statement (.fcvtDS rd rs1 rm) :=
  word_announces _ _ (by decide)

theorem LengthBits.feqD (rd : Reg) (rs1 : Reg) (rs2 : Reg) : LengthBits.Statement (.feqD rd rs1 rs2) :=
  word_announces _ _ (by decide)

theorem LengthBits.fltD (rd : Reg) (rs1 : Reg) (rs2 : Reg) : LengthBits.Statement (.fltD rd rs1 rs2) :=
  word_announces _ _ (by decide)

theorem LengthBits.fleD (rd : Reg) (rs1 : Reg) (rs2 : Reg) : LengthBits.Statement (.fleD rd rs1 rs2) :=
  word_announces _ _ (by decide)

theorem LengthBits.fclassD (rd : Reg) (rs1 : Reg) : LengthBits.Statement (.fclassD rd rs1) :=
  word_announces _ _ (by decide)

theorem LengthBits.fcvtWD (rd : Reg) (rs1 : Reg) (rm : BitVec 3) : LengthBits.Statement (.fcvtWD rd rs1 rm) :=
  word_announces _ _ (by decide)

theorem LengthBits.fcvtWuD (rd : Reg) (rs1 : Reg) (rm : BitVec 3) : LengthBits.Statement (.fcvtWuD rd rs1 rm) :=
  word_announces _ _ (by decide)

theorem LengthBits.fcvtDW (rd : Reg) (rs1 : Reg) (rm : BitVec 3) : LengthBits.Statement (.fcvtDW rd rs1 rm) :=
  word_announces _ _ (by decide)

theorem LengthBits.fcvtDWu (rd : Reg) (rs1 : Reg) (rm : BitVec 3) : LengthBits.Statement (.fcvtDWu rd rs1 rm) :=
  word_announces _ _ (by decide)

theorem LengthBits.fcvtLD (rd : Reg) (rs1 : Reg) (rm : BitVec 3) : LengthBits.Statement (.fcvtLD rd rs1 rm) :=
  word_announces _ _ (by decide)

theorem LengthBits.fcvtLuD (rd : Reg) (rs1 : Reg) (rm : BitVec 3) : LengthBits.Statement (.fcvtLuD rd rs1 rm) :=
  word_announces _ _ (by decide)

theorem LengthBits.fmvXD (rd : Reg) (rs1 : Reg) : LengthBits.Statement (.fmvXD rd rs1) :=
  word_announces _ _ (by decide)

theorem LengthBits.fcvtDL (rd : Reg) (rs1 : Reg) (rm : BitVec 3) : LengthBits.Statement (.fcvtDL rd rs1 rm) :=
  word_announces _ _ (by decide)

theorem LengthBits.fcvtDLu (rd : Reg) (rs1 : Reg) (rm : BitVec 3) : LengthBits.Statement (.fcvtDLu rd rs1 rm) :=
  word_announces _ _ (by decide)

theorem LengthBits.fmvDX (rd : Reg) (rs1 : Reg) : LengthBits.Statement (.fmvDX rd rs1) :=
  word_announces _ _ (by decide)

end Sys2Proof.Laws
end

