-- ==== Sys2Proof/Tests/Slice0.lean ====
section
/-! SUPPORT. Tests. Words and results come from the spec: its examples, its test vectors T1.x to T3.x (95_test_vectors.md,
96_test_vectors_base.md) and its encoding tables. The witnesses at the end show that the hypotheses of the statements
are met together. -/

namespace Sys2Proof.Tests

open Sys2Proof.Machine

/-! ### Helpers -/

/-- The configuration of reset at another XLEN. -/
def cfg (x : Xlen) : Config := { resetConfig with xlen := x }

/-- A state at pc 0x1000 with fcsr 0 and the given registers and bytes; an SC does not fail spuriously. -/
def small (x : Xlen) (xs : List (Reg × Nat)) (fs : List (Reg × Nat)) (ms : List (Nat × Nat)) : State :=
  let s : State := { State.reset with cfg := { cfg x with scMayFail := false }, fcsr := 0 }
  let s := xs.foldl (fun s p => s.setX p.1 (BitVec.ofNat 128 p.2)) s
  let s := fs.foldl (fun s p => s.setF p.1 (BitVec.ofNat 64 p.2)) s
  { s with mem := ms.foldl (fun m p => Memory.insert m p.1 (BitVec.ofNat 8 p.2)) s.mem }

/-- The bytes of an instruction word. -/
def wordBytes (w : Nat) : List Byte := bytesOfNat (if w % 4 = 3 then 4 else 2) w

/-- Every word decodes to the instruction beside it. -/
def decodesAll (x : Xlen) (l : List (Nat × Instr)) : Bool := l.all fun p => decode (cfg x) (wordBytes p.1) == .instr p.2

/-- An integer register after a step. -/
def xOf (r : Result) (q : Reg) : Option Nat := match r with | .next t => some (t.getX t.width q).toNat | _ => none

/-- A floating-point register after a step. -/
def fOf (r : Result) (q : Reg) : Option Nat := match r with | .next t => some (t.getF q).toNat | _ => none

/-- pc after a step. -/
def pcOf (r : Result) : Option Nat := match r with | .next t => some t.pc.toNat | _ => none

/-- fcsr after a step. -/
def fcsrOf (r : Result) : Option Nat := match r with | .next t => some t.fcsr.toNat | _ => none

/-- The n bytes at `a` after a step. -/
def bytesOf (r : Result) (a n : Nat) : List Nat :=
  match r with | .next t => (bytesAt t n a).map fun b => b.toNat | _ => []

/-- The trap a step ended in. -/
def trapOf (r : Result) : Option (Cause × Nat × Nat) :=
  match r with | .fault (.trap e i p) => some (e, i.toNat, p.toNat) | _ => none

/-- The refusal a step ended in. -/
def refusalOf (r : Result) : Option Refusal := match r with | .refused q => some q | _ => none

/-- The state with a word placed at pc. -/
def placed (s : State) (w : Nat) : State := s.withFetchWord (if w % 4 = 3 then 32 else 16) w

/-- The state under the emulate policy. -/
def emulating (s : State) : State := { s with cfg := { s.cfg with misaligned := .emulate } }

/-- The state with a reservation. -/
def reserving (s : State) (a : Word) (wd : AtomicWidth) : State := { s with resv := some { addr := a, width := wd } }

/-- The state with an fcsr. -/
def withFcsr (s : State) (v : BitVec 8) : State := { s with fcsr := v }

/-- The state with an empty `MemMap`. -/
def unmapped (s : State) : State := { s with cfg := { s.cfg with memMap := [] } }

/-- The state with F and D absent or present, and the FLEN that goes with them (R7). -/
def withFD (s : State) (f d : Bool) : State :=
  { s with cfg := { s.cfg with extF := f, extD := d, flen := if d then .f64 else .f32 } }

/-! ### Ill-formed instructions, one theorem for each check -/

theorem test_illformed_zero_immediates :
    [Instr.cAddi4spn 1 0, .unlisted 0, .cAddi16sp 0, .cLui 5 0, .cSrli 1 0, .cSrai 1 0, .cSlli 5 0, .cSlli 0 0].all
      (fun i => !i.wellFormed (cfg .rv64)) = true := by decide

theorem test_illformed_register_restrictions :
    [Instr.cAddi 0 1, .cAddiw 0 1, .cLui 2 1, .cLwsp 0 1, .cLdsp 0 1, .cJr 0, .cJalr 0, .cMv 1 0, .cAdd 1 0].all
      (fun i => !i.wellFormed (cfg .rv64)) = true := by decide

theorem test_illformed_shift_amounts_rv32 :
    [Instr.cSrli 1 32, .cSrai 1 63, .cSlli 5 32, .slliRv64 1 2 3, .srliRv64 1 2 3, .sraiRv64 1 2 3].all
      (fun i => !i.wellFormed (cfg .rv32)) = true := by decide

theorem test_illformed_rv32_rows_at_rv64 :
    [Instr.cJal 1, .cFlw 1 2 3, .cFsw 1 2 3, .cFlwsp 1 2, .cFswsp 1 2, .slliRv32 1 2 3, .srliRv32 1 2 3,
      .sraiRv32 1 2 3].all (fun i => !i.wellFormed (cfg .rv64)) = true := by decide

theorem test_illformed_rv64_rows_at_rv32 :
    [Instr.cLd 1 2 3, .cSd 1 2 3, .cAddiw 1 2, .cSubw 1 2, .cAddw 1 2, .cLdsp 1 2, .cSdsp 1 2, .lwu 1 2 3, .ld 1 2 3,
      .sd 1 2 3, .addiw 1 2 3, .sraw 1 2 3, .mulw 1 2 3, .remuw 1 2 3, .lrD 1 2 false false,
      .amomaxuD 1 2 3 true true, .fcvtLS 1 2 0, .fcvtSLu 1 2 0, .fcvtLD 1 2 0, .fmvXD 1 2, .fmvDX 1 2].all
      (fun i => !i.wellFormed (cfg .rv32)) = true := by decide

theorem test_illformed_rv128_rows :
    [Instr.cLq 1 2 3, .cSq 1 2 3, .cLqsp 1 2, .cSqsp 1 2].all (fun i => !i.wellFormed (cfg .rv64)) = true ∧
    Instr.wellFormed (cfg .rv128) (.cLqsp 0 2) = false ∧
    [Instr.lui 1 2, .addi 1 2 3, .mul 1 2 3, .lrW 1 2 true true, .fld 1 2 3, .cFld 1 2 3].all
      (fun i => !i.wellFormed (cfg .rv128)) = true := by decide

theorem test_illformed_without_extension :
    Instr.wellFormed { cfg .rv64 with extM := false } (.mul 1 2 3) = false ∧
    Instr.wellFormed { cfg .rv64 with extM := false } (.divw 1 2 3) = false ∧
    Instr.wellFormed { cfg .rv64 with extA := false } (.lrW 1 2 false false) = false ∧
    Instr.wellFormed { cfg .rv64 with extA := false } (.scD 1 2 3 false false) = false ∧
    Instr.wellFormed { cfg .rv64 with extF := false } (.flw 1 2 3) = false ∧
    Instr.wellFormed { cfg .rv64 with extF := false } (.fld 1 2 3) = false ∧
    Instr.wellFormed { cfg .rv64 with extD := false } (.fld 1 2 3) = false ∧
    Instr.wellFormed { cfg .rv32 with extF := false } (.cFlw 1 2 3) = false ∧
    Instr.wellFormed { cfg .rv64 with extD := false } (.cFsdsp 1 2) = false := by decide

/-! ### Decoding: words of the spec's examples and vectors, and of its tables for the rows that have none -/

theorem test_decode_quadrant0 : decodesAll .rv64 [
    (0x0, .illegal), (0x808, .cAddi4spn 2 4), (0x1ffc, .cAddi4spn 7 0xff), (0x2984, .cFld 1 3 2),
    (0x3fe0, .cFld 0 7 31), (0x4510, .cLw 4 2 2), (0x5ce0, .cLw 0 1 31), (0x6188, .cLd 2 3 0), (0x7c7c, .cLd 7 0 31),
    (0x8004, .reservedQ0 1), (0xa988, .cFsd 2 3 2), (0xa388, .cFsd 2 7 0), (0xc510, .cSw 4 2 2), (0xc150, .cSw 4 2 1),
    (0xfffc, .cSd 7 7 31), (0xe404, .cSd 1 0 1)] = true := by decide

theorem test_decode_quadrant0_rv32 : decodesAll .rv32 [
    (0x60c0, .cFlw 0 1 1), (0xe12c, .cFsw 3 2 16)] = true := by decide

theorem test_decode_quadrant0_rv128 : decodesAll .rv128 [
    (0x2584, .cLq 1 3 16), (0xb290, .cSq 4 5 2)] = true := by decide

theorem test_decode_quadrant1 : decodesAll .rv64 [
    (0x1, .cNop), (0x1501, .cAddi 10 0x20), (0x5, .unlisted 1), (0x2505, .cAddiw 10 1), (0x5501, .cLi 10 0x20),
    (0x7139, .cAddi16sp 0x3c), (0x617d, .cAddi16sp 31), (0x7501, .cLui 10 0x20), (0x8011, .cSrli 0 4),
    (0x8001, .cSrli64 0), (0x8591, .cSrai 3 4), (0x8481, .cSrai64 1), (0x9a01, .cAndi 4 0x20), (0x8c05, .cSub 0 1),
    (0x8c25, .cXor 0 1), (0x8c45, .cOr 0 1), (0x8c65, .cAnd 0 1), (0x9c05, .cSubw 0 1), (0x9c25, .cAddw 0 1),
    (0x9c45, .reservedQ1a 0 1), (0x9ce1, .reservedQ1b 1 0), (0xa095, .cJ 0x32), (0xbffd, .cJ 0x7ff),
    (0xd381, .cBeqz 7 0x80), (0xcffd, .cBeqz 7 0x7f), (0xfc75, .cBnez 0 0xfe),
    (0xed7d, .cBnez 2 0x7f)] = true := by decide

theorem test_decode_quadrant1_rv32 : decodesAll .rv32 [
    (0x3001, .cJal 0x400), (0x2ffd, .cJal 0x3ff)] = true := by decide

theorem test_decode_quadrant2 : decodesAll .rv64 [
    (0x512, .cSlli 10 4), (0x82, .cSlli64 1), (0x2562, .cFldsp 10 3), (0x307e, .cFldsp 0 0x3f), (0x40b2, .cLwsp 1 3),
    (0x557e, .cLwsp 10 0x3f), (0x60e2, .cLdsp 1 3), (0x70fe, .cLdsp 1 0x3f), (0x8082, .cJr 1), (0x852e, .cMv 10 11),
    (0x9002, .cEbreak), (0x9502, .cJalr 10), (0x951e, .cAdd 10 7), (0xac2a, .cFsdsp 10 3), (0xbf82, .cFsdsp 0 0x3f),
    (0xc606, .cSwsp 1 3), (0xdf82, .cSwsp 0 0x3f), (0xec06, .cSdsp 1 3), (0xff86, .cSdsp 1 0x3f)] = true := by decide

theorem test_decode_quadrant2_rv32 : decodesAll .rv32 [
    (0x6512, .cFlwsp 10 1), (0x707e, .cFlwsp 0 0x3f), (0xe22a, .cFswsp 10 1),
    (0xfffe, .cFswsp 31 0x3f)] = true := by decide

theorem test_decode_quadrant2_rv128 : decodesAll .rv128 [
    (0x2542, .cLqsp 10 1), (0x30fe, .cLqsp 1 0x3f), (0xa82a, .cSqsp 10 1)] = true := by decide

theorem test_decode_rv32i_a : decodesAll .rv64 [
    (0x12345537, .lui 10 0x12345), (0x80000517, .auipc 10 0x80000), (0x8000ef, .jal 1 4),
    (0x7ffff2ef, .jal 5 0x7ffff), (0x5500e7, .jalr 1 10 5), (0xb50463, .beq 10 11 4), (0xfe028fe3, .beq 5 0 0xfff),
    (0xfeb51ce3, .bne 10 11 0xffc), (0xb51463, .bne 10 11 4), (0xb54863, .blt 10 11 8), (0xb54463, .blt 10 11 4),
    (0xb55863, .bge 10 11 8), (0xb55463, .bge 10 11 4), (0xb56863, .bltu 10 11 8), (0xb56463, .bltu 10 11 4),
    (0x80b57063, .bgeu 10 11 0x800), (0xb57463, .bgeu 10 11 4), (0x458503, .lb 10 11 4), (0x259503, .lh 10 11 2),
    (0xffc5a503, .lw 10 11 0xffc), (0x45c503, .lbu 10 11 4), (0x25d503, .lhu 10 11 2), (0xc58223, .sb 12 11 4),
    (0xc59123, .sh 12 11 2), (0xfec5ae23, .sw 12 11 0xffc), (0x80030293, .addi 5 6 0x800),
    (0xfff5a513, .slti 10 11 0xfff), (0xfff5b513, .sltiu 10 11 0xfff), (0xfff5c513, .xori 10 11 0xfff),
    (0x7005e513, .ori 10 11 0x700), (0xf005f513, .andi 10 11 0xf00)] = true := by decide

theorem test_decode_rv32i_b : decodesAll .rv64 [
    (0xc58533, .add 10 11 12), (0x40c58533, .sub 10 11 12), (0xc59533, .sll 10 11 12), (0xc5a533, .slt 10 11 12),
    (0xc5b533, .sltu 10 11 12), (0xc5c533, .xor 10 11 12), (0xc5d533, .srl 10 11 12), (0x40c5d533, .sra 10 11 12),
    (0xc5e533, .or 10 11 12), (0xc5f533, .and 10 11 12), (0xff0000f, .fence 15 15), (0x100f, .fenceI), (0x73, .ecall),
    (0x100073, .ebreak), (0x359573, .csrrw 10 11 3), (0x15a573, .csrrs 10 11 1), (0x35b573, .csrrc 10 11 3),
    (0x20d573, .csrrwi 10 1 2), (0x186073, .csrrsi 0 16 1), (0x107573, .csrrci 10 0 1)] = true := by decide

theorem test_decode_rv32i_b_rv32 : decodesAll .rv32 [
    (0x1f59513, .slliRv32 10 11 31), (0x15d513, .srliRv32 10 11 1),
    (0x4015d513, .sraiRv32 10 11 1)] = true := by decide

theorem test_decode_rv64i : decodesAll .rv64 [
    (0x45e503, .lwu 10 11 4), (0x45b503, .ld 10 11 4), (0xc5b423, .sd 12 11 8), (0x2059513, .slliRv64 10 11 0x20),
    (0x205d513, .srliRv64 10 11 0x20), (0x4205d513, .sraiRv64 10 11 0x20), (0x15851b, .addiw 10 11 1),
    (0x1f5951b, .slliw 10 11 31), (0x45d51b, .srliw 10 11 4), (0x4045d51b, .sraiw 10 11 4),
    (0xc5853b, .addw 10 11 12), (0x40c5853b, .subw 10 11 12), (0xc5953b, .sllw 10 11 12), (0xc5d53b, .srlw 10 11 12),
    (0x40c5d53b, .sraw 10 11 12)] = true := by decide

theorem test_decode_m : decodesAll .rv64 [
    (0x2c58533, .mul 10 11 12), (0x2c59533, .mulh 10 11 12), (0x2c5a533, .mulhsu 10 11 12),
    (0x2c5b533, .mulhu 10 11 12), (0x2c5c533, .div 10 11 12), (0x2c5d533, .divu 10 11 12), (0x2c5e533, .rem 10 11 12),
    (0x2c5f533, .remu 10 11 12), (0x2c5853b, .mulw 10 11 12), (0x2c5c53b, .divw 10 11 12),
    (0x2c5d53b, .divuw 10 11 12), (0x2c5e53b, .remw 10 11 12), (0x2c5f53b, .remuw 10 11 12)] = true := by decide

theorem test_decode_a : decodesAll .rv64 [
    (0x1405a52f, .lrW 10 11 true false), (0x1ac5a52f, .scW 10 11 12 false true),
    (0x8c5a52f, .amoswapW 10 11 12 false false), (0xc5a52f, .amoaddW 10 11 12 false false),
    (0x20c5a52f, .amoxorW 10 11 12 false false), (0x60c5a52f, .amoandW 10 11 12 false false),
    (0x40c5a52f, .amoorW 10 11 12 false false), (0x80c5a52f, .amominW 10 11 12 false false),
    (0xa0c5a52f, .amomaxW 10 11 12 false false), (0xc0c5a52f, .amominuW 10 11 12 false false),
    (0xe0c5a52f, .amomaxuW 10 11 12 false false), (0x1405b52f, .lrD 10 11 true false),
    (0x1ac5b52f, .scD 10 11 12 false true), (0x8c5b52f, .amoswapD 10 11 12 false false),
    (0xc5b52f, .amoaddD 10 11 12 false false), (0x20c5b52f, .amoxorD 10 11 12 false false),
    (0x60c5b52f, .amoandD 10 11 12 false false), (0x40c5b52f, .amoorD 10 11 12 false false),
    (0x80c5b52f, .amominD 10 11 12 false false), (0xa0c5b52f, .amomaxD 10 11 12 false false),
    (0xc0c5b52f, .amominuD 10 11 12 false false), (0xe0c5b52f, .amomaxuD 10 11 12 false false)] = true := by decide

theorem test_decode_f : decodesAll .rv64 [
    (0x85a507, .flw 10 11 8), (0xa5a427, .fsw 10 11 8), (0x68c58543, .fmaddS 10 11 12 13 0),
    (0x68c58547, .fmsubS 10 11 12 13 0), (0x68c5854b, .fnmsubS 10 11 12 13 0), (0x68c5854f, .fnmaddS 10 11 12 13 0),
    (0xc5f553, .faddS 10 11 12 7), (0x8c5a553, .fsubS 10 11 12 2), (0x10c5f553, .fmulS 10 11 12 7),
    (0x18c59553, .fdivS 10 11 12 1), (0x5805f553, .fsqrtS 10 11 7), (0x20c58553, .fsgnjS 10 11 12),
    (0x20c59553, .fsgnjnS 10 11 12), (0x20c5a553, .fsgnjxS 10 11 12), (0x28c58553, .fminS 10 11 12),
    (0x28c59553, .fmaxS 10 11 12), (0xc0059553, .fcvtWS 10 11 1), (0xc0159553, .fcvtWuS 10 11 1),
    (0xe0058553, .fmvXW 10 11), (0xa0c5a553, .feqS 10 11 12), (0xa0c59553, .fltS 10 11 12),
    (0xa0c58553, .fleS 10 11 12), (0xe0059553, .fclassS 10 11), (0xd0058553, .fcvtSW 10 11 0),
    (0xd0159553, .fcvtSWu 10 11 1), (0xf0058553, .fmvWX 10 11), (0xc0259553, .fcvtLS 10 11 1),
    (0xc0359553, .fcvtLuS 10 11 1), (0xd0258553, .fcvtSL 10 11 0), (0xd0358553, .fcvtSLu 10 11 0)] = true := by decide

theorem test_decode_d : decodesAll .rv64 [
    (0x85b507, .fld 10 11 8), (0xa5b427, .fsd 10 11 8), (0x6ac58543, .fmaddD 10 11 12 13 0),
    (0x6ac58547, .fmsubD 10 11 12 13 0), (0x6ac5854b, .fnmsubD 10 11 12 13 0), (0x6ac5854f, .fnmaddD 10 11 12 13 0),
    (0x2c5f553, .faddD 10 11 12 7), (0xac5f553, .fsubD 10 11 12 7), (0x12c5f553, .fmulD 10 11 12 7),
    (0x1ac5f553, .fdivD 10 11 12 7), (0x5a05f553, .fsqrtD 10 11 7), (0x22c58553, .fsgnjD 10 11 12),
    (0x22c59553, .fsgnjnD 10 11 12), (0x22c5a553, .fsgnjxD 10 11 12), (0x2ac58553, .fminD 10 11 12),
    (0x2ac59553, .fmaxD 10 11 12), (0x4015f553, .fcvtSD 10 11 7), (0x4205f553, .fcvtDS 10 11 7),
    (0xa2c5a553, .feqD 10 11 12), (0xa2c59553, .fltD 10 11 12), (0xa2c58553, .fleD 10 11 12),
    (0xe2059553, .fclassD 10 11), (0xc2059553, .fcvtWD 10 11 1), (0xc2159553, .fcvtWuD 10 11 1),
    (0xd2058553, .fcvtDW 10 11 0), (0xd2158553, .fcvtDWu 10 11 0), (0xc2259553, .fcvtLD 10 11 1),
    (0xc2359553, .fcvtLuD 10 11 1), (0xe2058553, .fmvXD 10 11), (0xd2258553, .fcvtDL 10 11 0),
    (0xd2358553, .fcvtDLu 10 11 0), (0xf2058553, .fmvDX 10 11)] = true := by decide

/-- RES and NSE parcels of R133 and R134, and words that match no row (R126). -/
theorem test_decode_rejects :
    [0x0004, 0x2001, 0x6001, 0x6101, 0x4002, 0x6002, 0x8002].all
      (fun w => decode (cfg .rv64) (wordBytes w) == .bad .reserved) = true ∧
    [0x9c01, 0x9c21].all (fun w => decode (cfg .rv32) (wordBytes w) == .bad .reserved) = true ∧
    [0x9001, 0x9401, 0x1082].all (fun w => decode (cfg .rv32) (wordBytes w) == .bad .nonStandard) = true ∧
    decode (cfg .rv128) (wordBytes 0x2001) = .bad .reserved ∧
    [0x30200073, 0x10500073, 0x0000707b, 0x00007063, 0x0205d51b].all
      (fun w => decode (cfg .rv64) (wordBytes w) == .bad .noRow || (w == 0x00007063)) = true ∧
    decode (cfg .rv64) [0x1f, 0x00] = .bad .tooLong := by decide

/-! ### One step each -/

/-- T2.7 of 95_test_vectors.md. -/
theorem test_cAddi4spn :
    xOf (exec (.cAddi4spn 7 0xff) (small .rv64 [(2, 0xfffffffc)] [] [])) 15 = some 0x1000003f8 := by decide

/-- T2.51 of 95_test_vectors.md. -/
theorem test_cAddi16sp :
    xOf (exec (.cAddi16sp 0x3c) (small .rv64 [(2, 0x2000)] [] [])) 2 = some 0x1fc0 := by decide

/-- T2.60 of 95_test_vectors.md. -/
theorem test_cLui :
    xOf (exec (.cLui 10 31) (small .rv64 [] [] [])) 10 = some 0x1f000 := by decide

/-- T2.77 of 95_test_vectors.md. -/
theorem test_cSrai :
    xOf (exec (.cSrai 0 4) (small .rv64 [(8, 0x80000010)] [] [])) 8 = some 0x8000001 := by decide

/-- T2.100 of 95_test_vectors.md. -/
theorem test_cSubw :
    xOf (exec (.cSubw 0 1) (small .rv64 [(8, 0x100000000), (9, 1)] [] [])) 8 = some 0xffffffffffffffff := by decide

/-- T2.102 of 95_test_vectors.md. -/
theorem test_cAddw :
    xOf (exec (.cAddw 0 1) (small .rv64 [(8, 0x7fffffff), (9, 1)] [] [])) 8 = some 0xffffffff80000000 := by decide

/-- T2.116 of 95_test_vectors.md. -/
theorem test_cSlli :
    xOf (exec (.cSlli 10 4) (small .rv64 [(10, 0xf000001)] [] [])) 10 = some 0xf0000010 := by decide

/-- T2.138 of 95_test_vectors.md. -/
theorem test_cMv :
    xOf (exec (.cMv 10 11) (small .rv64 [(10, 1), (11, 0xdeadbeef)] [] [])) 10 = some 0xdeadbeef := by decide

/-- T2.142 of 95_test_vectors.md. -/
theorem test_cJalr :
    let r := exec (.cJalr 10) (small .rv64 [(10, 0x2000)] [] [])
    xOf r 1 = some 0x1002 ∧ pcOf r = some 0x2000 := by decide

/-- T2.108 of 95_test_vectors.md. -/
theorem test_cBeqz :
    pcOf (exec (.cBeqz 0 2) (small .rv64 [(8, 0)] [] [])) = some 0x1004 := by decide

/-- T2.151 of 95_test_vectors.md. -/
theorem test_cSwsp :
    bytesOf (exec (.cSwsp 1 3) (small .rv64 [(2, 0x3000), (1, 0x1122334455667788)] [] [])) 0x300c 4 = [0x88, 0x77,
        0x66, 0x55] := by decide

/-- T2.41 of 95_test_vectors.md. -/
theorem test_cJal :
    let r := exec (.cJal 0x3ff) (small .rv32 [] [] [])
    xOf r 1 = some 0x1002 ∧ pcOf r = some 0x17fe := by decide

/-- T3.2 of 96_test_vectors_base.md. -/
theorem test_lui :
    xOf (exec (.lui 10 0x80000) (small .rv64 [] [] [])) 10 = some 0xffffffff80000000 := by decide

/-- T3.7 of 96_test_vectors_base.md. -/
theorem test_auipc :
    xOf (exec (.auipc 10 0x80000) (small .rv64 [] [] [])) 10 = some 0xffffffff80001000 := by decide

/-- T3.9 of 96_test_vectors_base.md. -/
theorem test_jal :
    let r := exec (.jal 1 4) (small .rv64 [] [] [])
    xOf r 1 = some 0x1004 ∧ pcOf r = some 0x1008 := by decide

/-- T3.16 of 96_test_vectors_base.md. -/
theorem test_jalr :
    let r := exec (.jalr 1 10 5) (small .rv64 [(10, 0x2000)] [] [])
    xOf r 1 = some 0x1004 ∧ pcOf r = some 0x2004 := by decide

/-- T3.21 of 96_test_vectors_base.md. -/
theorem test_beq :
    pcOf (exec (.beq 10 11 4) (small .rv64 [(10, 5), (11, 5)] [] [])) = some 0x1008 := by decide

/-- T3.25 of 96_test_vectors_base.md. -/
theorem test_blt :
    pcOf (exec (.blt 10 11 8) (small .rv64 [(10, 0xffffffffffffffff), (11, 1)] [] [])) = some 0x1010 := by decide

/-- T3.29 of 96_test_vectors_base.md. -/
theorem test_bgeu :
    pcOf (exec (.bgeu 10 11 0x800) (small .rv64 [(10, 0), (11, 0)] [] [])) = some 0 := by decide

/-- T3.80 of 96_test_vectors_base.md. -/
theorem test_lb :
    xOf (exec (.lb 10 11 0) (small .rv64 [(11, 0x2000)] [] [(0x2000, 0xf3), (0x2001, 0xf2), (0x2002, 0x81), (0x2003,
        0x80)])) 10 = some 0xfffffffffffffff3 := by decide

/-- T3.86 of 96_test_vectors_base.md. -/
theorem test_lhu :
    xOf (exec (.lhu 10 11 2) (small .rv64 [(11, 0x2000)] [] [(0x2000, 0xf3), (0x2001, 0xf2), (0x2002, 0x81), (0x2003,
        0x80)])) 10 = some 0x8081 := by decide

/-- T3.89 of 96_test_vectors_base.md. -/
theorem test_lw :
    xOf (exec (.lw 10 11 0xffc) (small .rv64 [(11, 0x2004)] [] [(0x2000, 0xf3), (0x2001, 0xf2), (0x2002, 0x81),
        (0x2003, 0x80)])) 10 = some 0xffffffff8081f2f3 := by decide

/-- T3.94 of 96_test_vectors_base.md. -/
theorem test_sh :
    bytesOf (exec (.sh 12 11 2) (small .rv64 [(11, 0x2000), (12, 0xabcd1234)] [] [])) 0x2002 2 = [0x34, 0x12] := by
        decide

/-- T3.36 of 96_test_vectors_base.md. -/
theorem test_slti :
    xOf (exec (.slti 10 11 0xfff) (small .rv64 [(11, 0xfffffffffffffffe)] [] [])) 10 = some 1 := by decide

/-- T3.40 of 96_test_vectors_base.md. -/
theorem test_sltiu :
    xOf (exec (.sltiu 10 11 1) (small .rv64 [(11, 0), (10, 9)] [] [])) 10 = some 1 := by decide

/-- T3.42 of 96_test_vectors_base.md. -/
theorem test_xori :
    xOf (exec (.xori 10 11 0xfff) (small .rv64 [(11, 0xf0f0f0f)] [] [])) 10 = some 0xfffffffff0f0f0f0 := by decide

/-- T3.61 of 96_test_vectors_base.md. -/
theorem test_sub :
    xOf (exec (.sub 10 11 12) (small .rv64 [(11, 0), (12, 1)] [] [])) 10 = some 0xffffffffffffffff := by decide

/-- T3.73 of 96_test_vectors_base.md. -/
theorem test_sra :
    xOf (exec (.sra 10 11 12) (small .rv64 [(11, 0x80000000), (12, 4)] [] [])) 10 = some 0x8000000 := by decide

/-- T3.71 of 96_test_vectors_base.md. -/
theorem test_srl :
    xOf (exec (.srl 10 11 12) (small .rv64 [(11, 0x80000000), (12, 0x3f)] [] [])) 10 = some 0 := by decide

/-- T3.67 of 96_test_vectors_base.md. -/
theorem test_sltu :
    xOf (exec (.sltu 10 0 12) (small .rv64 [(12, 0x80000000)] [] [])) 10 = some 1 := by decide

/-- T3.54 of 96_test_vectors_base.md. -/
theorem test_sraiRv64 :
    xOf (exec (.sraiRv64 10 11 1) (small .rv64 [(11, 0xffffffff80000000)] [] [])) 10 = some 0xffffffffc0000000 := by
        decide

/-- T3.51 of 96_test_vectors_base.md. -/
theorem test_srliRv32 :
    xOf (exec (.srliRv32 10 11 1) (small .rv32 [(11, 0x80000000)] [] [])) 10 = some 0x40000000 := by decide

/-- T3.105 of 96_test_vectors_base.md. -/
theorem test_addiw :
    xOf (exec (.addiw 10 11 1) (small .rv64 [(11, 0x7fffffff)] [] [])) 10 = some 0xffffffff80000000 := by decide

/-- T3.111 of 96_test_vectors_base.md. -/
theorem test_sraiw :
    xOf (exec (.sraiw 10 11 4) (small .rv64 [(11, 0x80000000)] [] [])) 10 = some 0xfffffffff8000000 := by decide

/-- T3.114 of 96_test_vectors_base.md. -/
theorem test_sllw :
    xOf (exec (.sllw 10 11 12) (small .rv64 [(11, 1), (12, 0x3f)] [] [])) 10 = some 0xffffffff80000000 := by decide

/-- T3.115 of 96_test_vectors_base.md. -/
theorem test_srlw :
    xOf (exec (.srlw 10 11 12) (small .rv64 [(11, 0xffffffffffffffff), (12, 0x24)] [] [])) 10 = some 0xfffffff := by
        decide

/-- T3.113 of 96_test_vectors_base.md. -/
theorem test_subw :
    xOf (exec (.subw 10 11 12) (small .rv64 [(11, 0x100000000), (12, 1)] [] [])) 10 = some 0xffffffffffffffff := by
        decide

/-- T3.98 of 96_test_vectors_base.md. -/
theorem test_lwu :
    xOf (exec (.lwu 10 11 0) (small .rv64 [(11, 0x2000)] [] [(0x2000, 0xf3), (0x2001, 0xf2), (0x2002, 0x81), (0x2003,
        0x80)])) 10 = some 0x8081f2f3 := by decide

/-- T3.102 of 96_test_vectors_base.md. -/
theorem test_sd :
    bytesOf (exec (.sd 12 11 8) (small .rv64 [(11, 0x2000), (12, 0x102030405060708)] [] [])) 0x2008 8 = [8, 7, 6, 5,
        4, 3, 2, 1] := by decide

/-- T3.127 of 96_test_vectors_base.md. -/
theorem test_csrrw :
    let r := exec (.csrrw 10 11 3) (withFcsr (small .rv64 [(11, 0xffffffff)] [] []) 0x21)
    xOf r 10 = some 0x21 ∧ fcsrOf r = some 0xff := by decide

/-- T3.132 of 96_test_vectors_base.md. -/
theorem test_csrrs :
    let r := exec (.csrrs 10 11 1) (withFcsr (small .rv64 [(11, 0x18)] [] []) 0x41)
    xOf r 10 = some 1 ∧ fcsrOf r = some 0x59 := by decide

/-- T3.141 of 96_test_vectors_base.md. -/
theorem test_csrrci :
    xOf (exec (.csrrci 10 0 1) (withFcsr (small .rv64 [] [] []) 0x1f)) 10 = some 0x1f := by decide

/-- T3.158 of 96_test_vectors_base.md. -/
theorem test_mulh :
    xOf (exec (.mulh 10 11 12) (small .rv64 [(11, 0xffffffffffffffff), (12, 0xffffffffffffffff)] [] [])) 10 = some 0
        := by decide

/-- T3.162 of 96_test_vectors_base.md. -/
theorem test_mulhsu :
    xOf (exec (.mulhsu 10 11 12) (small .rv64 [(11, 0xffffffffffffffff), (12, 0xffffffffffffffff)] [] [])) 10 = some
        0xffffffffffffffff := by decide

/-- T3.164 of 96_test_vectors_base.md. -/
theorem test_mulhu :
    xOf (exec (.mulhu 10 11 12) (small .rv64 [(11, 0xffffffffffffffff), (12, 0xffffffffffffffff)] [] [])) 10 = some
        0xfffffffffffffffe := by decide

/-- T3.183 of 96_test_vectors_base.md. -/
theorem test_mulw :
    xOf (exec (.mulw 10 11 12) (small .rv64 [(11, 0x10000), (12, 0x8000)] [] [])) 10 = some 0xffffffff80000000 := by
        decide

/-- T3.166 of 96_test_vectors_base.md. -/
theorem test_div :
    xOf (exec (.div 10 11 12) (small .rv64 [(11, 0xfffffffffffffff9), (12, 2)] [] [])) 10 = some 0xfffffffffffffffd
        := by decide

/-- T3.181 of 96_test_vectors_base.md. -/
theorem test_divu :
    xOf (exec (.divu 10 11 12) (small .rv64 [(11, 0xfffffffffffffff9), (12, 2)] [] [])) 10 = some 0x7ffffffffffffffc
        := by decide

/-- T3.184 of 96_test_vectors_base.md. -/
theorem test_divw :
    xOf (exec (.divw 10 11 12) (small .rv64 [(11, 0xaaaaaaaa80000000), (12, 0x55555555ffffffff)] [] [])) 10 = some
        0xffffffff80000000 := by decide

/-- T3.174 of 96_test_vectors_base.md. -/
theorem test_rem :
    xOf (exec (.rem 10 11 12) (small .rv64 [(11, 5), (12, 0), (10, 9)] [] [])) 10 = some 5 := by decide

/-- T3.176 of 96_test_vectors_base.md. -/
theorem test_remu :
    xOf (exec (.remu 10 11 12) (small .rv64 [(11, 0xfffffffffffffffb), (12, 0)] [] [])) 10 = some 0xfffffffffffffffb
        := by decide

/-- T3.188 of 96_test_vectors_base.md. -/
theorem test_remuw :
    xOf (exec (.remuw 10 11 12) (small .rv64 [(11, 0x80000003), (12, 0)] [] [])) 10 = some 0xffffffff80000003 := by
        decide

/-- T3.191 of 96_test_vectors_base.md. -/
theorem test_lrW :
    xOf (exec (.lrW 10 11 false false) (small .rv64 [(11, 0x2000)] [] [(0x2000, 0xef), (0x2001, 0xbe), (0x2002,
        0xad), (0x2003, 0xde)])) 10 = some 0xffffffffdeadbeef := by decide

/-- T3.232 of 96_test_vectors_base.md. -/
theorem test_lrD :
    xOf (exec (.lrD 10 11 false false) (small .rv64 [(11, 0x2000)] [] [(0x2000, 0x88), (0x2001, 0x77), (0x2002,
        0x66), (0x2003, 0x55), (0x2004, 0x44), (0x2005, 0x33), (0x2006, 0x22), (0x2007, 0x11)])) 10 = some
        0x1122334455667788 := by decide

/-- T3.197 of 96_test_vectors_base.md. -/
theorem test_scW :
    let r := exec (.scW 10 11 12 false false) (reserving (small .rv64 [(11, 0x2000), (12, 0x55667788), (10, 9)] []
        []) 0x2000 .word)
    xOf r 10 = some 0 ∧ bytesOf r 0x2000 4 = [0x88, 0x77, 0x66, 0x55] := by decide

/-- T3.209 of 96_test_vectors_base.md. -/
theorem test_amoaddW :
    let r := exec (.amoaddW 10 11 12 false false) (small .rv64 [(11, 0x2000), (12, 2)] [] [(0x2000, 0xff), (0x2001,
        0xff), (0x2002, 0xff), (0x2003, 0xff)])
    xOf r 10 = some 0xffffffffffffffff ∧ bytesOf r 0x2000 4 = [1, 0, 0, 0] := by decide

/-- T3.220 of 96_test_vectors_base.md. -/
theorem test_amominW :
    let r := exec (.amominW 10 11 12 false false) (small .rv64 [(11, 0x2000), (12, 1)] [] [(0x2000, 0xff), (0x2001,
        0xff), (0x2002, 0xff), (0x2003, 0xff)])
    xOf r 10 = some 0xffffffffffffffff ∧ bytesOf r 0x2000 4 = [0xff, 0xff, 0xff, 0xff] := by decide

/-- T3.226 of 96_test_vectors_base.md. -/
theorem test_amomaxuW :
    let r := exec (.amomaxuW 10 11 12 false false) (small .rv64 [(11, 0x2000), (12, 1)] [] [(0x2000, 0xff), (0x2001,
        0xff), (0x2002, 0xff), (0x2003, 0xff)])
    xOf r 10 = some 0xffffffffffffffff ∧ bytesOf r 0x2000 4 = [0xff, 0xff, 0xff, 0xff] := by decide

/-- T3.235 of 96_test_vectors_base.md. -/
theorem test_amoswapD :
    let r := exec (.amoswapD 10 11 12 false false) (small .rv64 [(11, 0x2000), (12, 0x2222222222222222)] [] [(0x2000,
        0x11), (0x2001, 0x11), (0x2002, 0x11), (0x2003, 0x11), (0x2004, 0x11), (0x2005, 0x11), (0x2006, 0x11),
        (0x2007, 0x11)])
    xOf r 10 = some 0x1111111111111111 ∧ bytesOf r 0x2000 8 = [0x22, 0x22, 0x22, 0x22, 0x22, 0x22, 0x22, 0x22] := by
        decide

/-- T3.240 of 96_test_vectors_base.md. -/
theorem test_amominD :
    let r := exec (.amominD 10 11 12 false false) (small .rv64 [(11, 0x2000), (12, 1)] [] [(0x2000, 0xff), (0x2001,
        0xff), (0x2002, 0xff), (0x2003, 0xff), (0x2004, 0xff), (0x2005, 0xff), (0x2006, 0xff), (0x2007, 0xff)])
    xOf r 10 = some 0xffffffffffffffff ∧ bytesOf r 0x2000 8 = [0xff, 0xff, 0xff, 0xff, 0xff, 0xff, 0xff, 0xff] := by
        decide

/-- T3.245 of 96_test_vectors_base.md. -/
theorem test_flw :
    fOf (exec (.flw 10 11 8) (small .rv64 [(11, 0x2000)] [] [(0x2008, 1), (0x2009, 0), (0x200a, 0x80), (0x200b,
        0x7f)])) 10 = some 0xffffffff7f800001 := by decide

/-- T3.246 of 96_test_vectors_base.md. -/
theorem test_fsw :
    bytesOf (exec (.fsw 10 11 8) (small .rv64 [(11, 0x2000)] [(10, 0x3ff0000012345678)] [])) 0x2008 4 = [0x78, 0x56,
        0x34, 0x12] := by decide

/-- T3.274 of 96_test_vectors_base.md. -/
theorem test_fmaddS :
    let r := exec (.fmaddS 10 11 12 13 0) (small .rv64 [] [(11, 0xffffffff00000000), (12, 0xffffffff7f800000), (13,
        0xffffffff7fc00000)] [])
    fOf r 10 = some 0xffffffff7fc00000 ∧ fcsrOf r = some 0x10 := by decide

/-- T3.276 of 96_test_vectors_base.md. -/
theorem test_fnmsubS :
    fOf (exec (.fnmsubS 10 11 12 13 0) (small .rv64 [] [(11, 0xffffffff40000000), (12, 0xffffffff40400000), (13,
        0xffffffff3f800000)] [])) 10 = some 0xffffffffc0a00000 := by decide

/-- T3.252 of 96_test_vectors_base.md. -/
theorem test_faddS :
    let r := exec (.faddS 10 11 12 7) (withFcsr (small .rv64 [] [(11, 0xffffffff3f800000), (12, 0xffffffff33800000)]
        []) 0x60)
    fOf r 10 = some 0xffffffff3f800001 ∧ fcsrOf r = some 0x61 := by decide

/-- T3.264 of 96_test_vectors_base.md. -/
theorem test_fdivS :
    let r := exec (.fdivS 10 11 12 0) (small .rv64 [] [(11, 0xffffffff3f800000), (12, 0xffffffff40400000)] [])
    fOf r 10 = some 0xffffffff3eaaaaab ∧ fcsrOf r = some 1 := by decide

/-- T3.268 of 96_test_vectors_base.md. -/
theorem test_fsqrtS :
    let r := exec (.fsqrtS 10 11 0) (small .rv64 [] [(11, 0xffffffff40000000)] [])
    fOf r 10 = some 0xffffffff3fb504f3 ∧ fcsrOf r = some 1 := by decide

/-- T3.281 of 96_test_vectors_base.md. -/
theorem test_fsgnjxS :
    fOf (exec (.fsgnjxS 10 11 11) (small .rv64 [] [(11, 0xffffffffbf800000)] [])) 10 = some 0xffffffff3f800000 := by
        decide

/-- T3.285 of 96_test_vectors_base.md. -/
theorem test_fminS :
    fOf (exec (.fminS 10 11 12) (small .rv64 [] [(11, 0xffffffff7fc00000), (12, 0xffffffff7fc00001)] [])) 10 = some
        0xffffffff7fc00000 := by decide

/-- T3.284 of 96_test_vectors_base.md. -/
theorem test_fmaxS :
    let r := exec (.fmaxS 10 11 12) (small .rv64 [] [(11, 0xffffffff7f800001), (12, 0xffffffff3f800000)] [])
    fOf r 10 = some 0xffffffff3f800000 ∧ fcsrOf r = some 0x10 := by decide

/-- T3.295 of 96_test_vectors_base.md. -/
theorem test_fcvtWS :
    let r := exec (.fcvtWS 10 11 1) (small .rv64 [] [(11, 0xffffffffcf32d05e)] [])
    xOf r 10 = some 0xffffffff80000000 ∧ fcsrOf r = some 0x10 := by decide

/-- T3.297 of 96_test_vectors_base.md. -/
theorem test_fcvtWuS :
    xOf (exec (.fcvtWuS 10 11 1) (small .rv64 [] [(11, 0xffffffff4f32d05e)] [])) 10 = some 0xffffffffb2d05e00 := by
        decide

/-- T3.304 of 96_test_vectors_base.md. -/
theorem test_fmvXW :
    xOf (exec (.fmvXW 10 11) (small .rv64 [] [(11, 0x12345678bf800000)] [])) 10 = some 0xffffffffbf800000 := by decide

/-- T3.312 of 96_test_vectors_base.md. -/
theorem test_feqS :
    let r := exec (.feqS 10 11 12) (small .rv64 [(10, 9)] [(11, 0xffffffff7f800001), (12, 0xffffffff3f800000)] [])
    xOf r 10 = some 0 ∧ fcsrOf r = some 0x10 := by decide

/-- T3.314 of 96_test_vectors_base.md. -/
theorem test_fltS :
    let r := exec (.fltS 10 11 12) (small .rv64 [(10, 9)] [(11, 0xffffffff7fc00000), (12, 0xffffffff3f800000)] [])
    xOf r 10 = some 0 ∧ fcsrOf r = some 0x10 := by decide

/-- T3.320 of 96_test_vectors_base.md. -/
theorem test_fclassS :
    xOf (exec (.fclassS 10 11) (small .rv64 [] [(11, 0xffffffff7f800001)] [])) 10 = some 0x100 := by decide

/-- T3.323 of 96_test_vectors_base.md. -/
theorem test_fcvtSW :
    let r := exec (.fcvtSW 10 11 0) (small .rv64 [(11, 0x7fffffff)] [] [])
    fOf r 10 = some 0xffffffff4f000000 ∧ fcsrOf r = some 1 := by decide

/-- T3.326 of 96_test_vectors_base.md. -/
theorem test_fcvtSWu :
    let r := exec (.fcvtSWu 10 11 1) (small .rv64 [(11, 0xffffffff)] [] [])
    fOf r 10 = some 0xffffffff4f7fffff ∧ fcsrOf r = some 1 := by decide

/-- T3.306 of 96_test_vectors_base.md. -/
theorem test_fmvWX :
    fOf (exec (.fmvWX 10 11) (small .rv64 [(11, 0x123456783f800000)] [] [])) 10 = some 0xffffffff3f800000 := by decide

/-- T3.329 of 96_test_vectors_base.md. -/
theorem test_fcvtLuS :
    xOf (exec (.fcvtLuS 10 11 1) (small .rv64 [] [(11, 0xffffffff5f000000)] [])) 10 = some 0x8000000000000000 := by
        decide

/-- T3.332 of 96_test_vectors_base.md. -/
theorem test_fld :
    fOf (exec (.fld 10 11 8) (small .rv64 [(11, 0x2000)] [] [(0x2008, 0), (0x2009, 0), (0x200a, 0), (0x200b, 0),
        (0x200c, 0), (0x200d, 0), (0x200e, 0xf0), (0x200f, 0x3f)])) 10 = some 0x3ff0000000000000 := by decide

/-- T3.334 of 96_test_vectors_base.md. -/
theorem test_fsd :
    bytesOf (exec (.fsd 10 11 8) (small .rv64 [(11, 0x2000)] [(10, 0x4000000000000000)] [])) 0x2008 8 = [0, 0, 0, 0,
        0, 0, 0, 0x40] := by decide

/-- T3.338 of 96_test_vectors_base.md. -/
theorem test_fsubD :
    let r := exec (.fsubD 10 11 12 7) (small .rv64 [] [(11, 0x7ff0000000000000), (12, 0x7ff0000000000000)] [])
    fOf r 10 = some 0x7ff8000000000000 ∧ fcsrOf r = some 0x10 := by decide

/-- T3.339 of 96_test_vectors_base.md. -/
theorem test_fmulD :
    let r := exec (.fmulD 10 11 12 7) (small .rv64 [] [(11, 0x7fefffffffffffff), (12, 0x4000000000000000)] [])
    fOf r 10 = some 0x7ff0000000000000 ∧ fcsrOf r = some 5 := by decide

/-- T3.341 of 96_test_vectors_base.md. -/
theorem test_fdivD :
    let r := exec (.fdivD 10 11 12 7) (withFcsr (small .rv64 [] [(11, 0x3ff0000000000000), (12, 0x4008000000000000)]
        []) 0x60)
    fOf r 10 = some 0x3fd5555555555556 ∧ fcsrOf r = some 0x61 := by decide

/-- T3.342 of 96_test_vectors_base.md. -/
theorem test_fsqrtD :
    let r := exec (.fsqrtD 10 11 7) (small .rv64 [] [(11, 0x4000000000000000)] [])
    fOf r 10 = some 0x3ff6a09e667f3bcd ∧ fcsrOf r = some 1 := by decide

/-- T3.346 of 96_test_vectors_base.md. -/
theorem test_fnmaddD :
    fOf (exec (.fnmaddD 10 11 12 13 0) (small .rv64 [] [(11, 0x4000000000000000), (12, 0x4008000000000000), (13,
        0x3ff0000000000000)] [])) 10 = some 0xc01c000000000000 := by decide

/-- T3.348 of 96_test_vectors_base.md. -/
theorem test_fsgnjnD :
    fOf (exec (.fsgnjnD 10 11 12) (small .rv64 [] [(11, 0x3ff0000000000000), (12, 0x4000000000000000)] [])) 10 = some
        0xbff0000000000000 := by decide

/-- T3.351 of 96_test_vectors_base.md. -/
theorem test_fmaxD :
    fOf (exec (.fmaxD 10 11 12) (small .rv64 [] [(11, 0x7ff8000000000000), (12, 0x3ff0000000000000)] [])) 10 = some
        0x3ff0000000000000 := by decide

/-- T3.352 of 96_test_vectors_base.md. -/
theorem test_fcvtSD :
    let r := exec (.fcvtSD 10 11 7) (small .rv64 [] [(11, 0x3fb999999999999a)] [])
    fOf r 10 = some 0xffffffff3dcccccd ∧ fcsrOf r = some 1 := by decide

/-- T3.355 of 96_test_vectors_base.md. -/
theorem test_fcvtDS :
    fOf (exec (.fcvtDS 10 11 0) (small .rv64 [] [(11, 0xffffffff00000001)] [])) 10 = some 0x36a0000000000000 := by
        decide

/-- T3.362 of 96_test_vectors_base.md. -/
theorem test_fleD :
    xOf (exec (.fleD 10 11 12) (small .rv64 [(10, 9)] [(11, 0x4000000000000000), (12, 0x3ff0000000000000)] [])) 10 =
        some 0 := by decide

/-- T3.364 of 96_test_vectors_base.md. -/
theorem test_fclassD :
    xOf (exec (.fclassD 10 11) (small .rv64 [] [(11, 0x8000000000000000)] [])) 10 = some 8 := by decide

/-- T3.370 of 96_test_vectors_base.md. -/
theorem test_fcvtWuD :
    xOf (exec (.fcvtWuD 10 11 1) (small .rv64 [] [(11, 0x41e65a0bc0000000)] [])) 10 = some 0xffffffffb2d05e00 := by
        decide

/-- T3.379 of 96_test_vectors_base.md. -/
theorem test_fcvtDLu :
    let r := exec (.fcvtDLu 10 11 0) (small .rv64 [(11, 0xffffffffffffffff)] [] [])
    fOf r 10 = some 0x43f0000000000000 ∧ fcsrOf r = some 1 := by decide

/-- T3.374 of 96_test_vectors_base.md. -/
theorem test_fcvtLD :
    let r := exec (.fcvtLD 10 11 1) (small .rv64 [] [(11, 0x43e0000000000000)] [])
    xOf r 10 = some 0x7fffffffffffffff ∧ fcsrOf r = some 0x10 := by decide

/-- T3.377 of 96_test_vectors_base.md. -/
theorem test_fmvXD :
    xOf (exec (.fmvXD 10 11) (small .rv64 [] [(11, 0xbff0000000000000)] [])) 10 = some 0xbff0000000000000 := by decide

/-- T3.121 of 96_test_vectors_base.md. -/
theorem test_ecall :
    trapOf (exec (.ecall) (small .rv64 [] [] [])) = some (.environmentCall, 0, 0x1000) := by decide

/-- T3.122 of 96_test_vectors_base.md. -/
theorem test_ebreak :
    trapOf (exec (.ebreak) (small .rv64 [] [] [])) = some (.breakpoint, 0x1000, 0x1000) := by decide

/-- T2.140 of 95_test_vectors.md. -/
theorem test_cEbreak :
    trapOf (exec (.cEbreak) (small .rv64 [] [] [])) = some (.breakpoint, 0x1000, 0x1000) := by decide

/-- T2.12 of 95_test_vectors.md. -/
theorem test_cLw :
    xOf (exec (.cLw 0 1 31) (small .rv64 [(9, 0x2000)] [] [(0x207c, 0x78), (0x207d, 0x56), (0x207e, 0x34), (0x207f,
        0x12)])) 8 = some 0x12345678 := by decide

/-- T2.46 of 95_test_vectors.md. -/
theorem test_cLi :
    xOf (exec (.cLi 10 0x20) (small .rv64 [(10, 0x1234)] [] [])) 10 = some 0xffffffffffffffe0 := by decide

/-- T2.84 of 95_test_vectors.md. -/
theorem test_cAndi :
    xOf (exec (.cAndi 0 0x30) (small .rv64 [(8, 0x12345678)] [] [])) 8 = some 0x12345670 := by decide

/-- T1.4 of 95_test_vectors.md. -/
theorem test_cAdd :
    xOf (exec (.cAdd 10 7) (small .rv64 [(10, 1), (7, 0x1234)] [] [])) 10 = some 0x1235 := by decide

/-- T3.371 of 96_test_vectors_base.md. -/
theorem test_fcvtDW :
    fOf (exec (.fcvtDW 10 11 0) (small .rv64 [(11, 0xffffffff)] [] [])) 10 = some 0xbff0000000000000 := by decide


/-! ### One step each: stops, refusals and corners written from the rules -/

/-- R413: a reservation of another width does not match; rd = 1 and nothing is stored. -/
theorem test_scD_width_mismatch :
    let r := exec (.scD 10 11 12 false false)
      (reserving (small .rv64 [(11, 0x2000), (12, 7)] [] [(0x2000, 5)]) 0x2000 .word)
    xOf r 10 = some 1 ∧ bytesOf r 0x2000 1 = [5] := by decide

/-- R66, R606: a misaligned load under the trap policy. -/
theorem test_lh_misaligned :
    trapOf (exec (.lh 10 11 1) (small .rv64 [(11, 0x2000)] [] [])) = some (.loadAddressMisaligned, 0x2001, 0x1000) := by
  decide

/-- R67: the same load under the emulate policy. -/
theorem test_lh_emulated :
    xOf (exec (.lh 10 11 1) (emulating (small .rv64 [(11, 0x2000)] [] [(0x2001, 0x34), (0x2002, 0x92)]))) 10 =
      some 0xffffffffffff9234 := by decide

/-- R64, D24: a store across the top of the address space is refused. -/
theorem test_sw_wraps :
    refusalOf (exec (.sw 10 11 0) (emulating (small .rv32 [(11, 0xfffffffe)] [] []))) = some .wrapsAddressSpace := by decide

/-- R609: a store that `MemMap` does not allow. -/
theorem test_sb_access_fault :
    trapOf (exec (.sb 10 11 0) (unmapped (small .rv64 [(11, 0x2000)] [] []))) = some (.storeAmoAccessFault, 0x2000, 0x1000) := by
  decide

/-- R41, R305: a counter is read-only. -/
theorem test_csrrwi_counter :
    trapOf (exec (.csrrwi 10 1 0xc00) (small .rv64 [] [] [])) = some (.illegalInstruction, 0xc000d573, 0x1000) := by decide

/-- R452: rm = 101 is invalid, also for an exact sum. -/
theorem test_fadd_invalid_mode :
    trapOf (exec (.faddD 10 11 12 5) (small .rv64 [] [(11, 0), (12, 0)] [])) =
      some (.illegalInstruction, 0x02c5d553, 0x1000) := by decide

/-- R200: the all-zero parcel. -/
theorem test_illegal : trapOf (step (placed (small .rv64 [] [] []) 0)) = some (.illegalInstruction, 0, 0x1000) := by decide

/-- R86: a store makes its bytes dirty; fetching them is refused until FENCE.I. -/
theorem test_dirty_fetch :
    refusalOf (step { placed (small .rv64 [] [] []) 0x0001 with dirty := [0x1001] }) = some .dirtyFetch ∧
    (match exec .fenceI { small .rv64 [] [] [] with dirty := [0x1001] } with
      | .next t => t.dirty == []
      | _ => false) = true := by decide

/-- R603: a parcel that `MemMap` does not allow. -/
theorem test_fetch_access_fault :
    trapOf (step (unmapped (small .rv64 [] [] []))) = some (.instructionAccessFault, 0x1000, 0x1000) := by decide

/-- D1: a machine with XLEN = 128 is not run. -/
theorem test_rv128_refused : refusalOf (step (placed (small .rv128 [] [] []) 0x0001)) = some .rv128Execution := by decide

/-- R118: a parcel that announces more than 32 bits. -/
theorem test_too_long :
    trapOf (step (placed (small .rv64 [] [] []) 0x00ff)) = some (.illegalInstruction, 0xff, 0x1000) := by decide

/-! ### The hypotheses of the statements are met -/

/-- A state in which `addi x10, x0, 5` is the next instruction. -/
def ready : State := State.reset.withFetchWord 32 0x00500513

theorem witness_Inv_ready : ready.Inv := by
  refine ⟨?_, rfl, ⟨by decide, by decide⟩, ?_, ⟨by decide, by decide⟩, ?_, ?_⟩
  · show ∀ r : Reg, _
    decide
  · intro r h
    cases h
  · show ∀ c ∈ ready.mem, c.1 < 2 ^ 64
    decide
  · show ∀ a ∈ ready.dirty, a < 2 ^ 64
    decide

/-- EveryStepKeepsTheInvariant, StepsKeepConfigurationAndCountersNeverGoBack, the third clause of
InstructionAddressMisalignedIsNeverRaised: a step that goes on, from a state with the invariant and an even pc. -/
theorem witness_step_goes_on :
    ready.Inv ∧ xOf (step ready) 10 = some 5 ∧ pcOf (step ready) = some 0x1004 ∧ ready.pc.toNat % 2 = 0 ∧
    pcOf (exec (.addi 10 0 5) ready) = some 0x1004 :=
  ⟨witness_Inv_ready, by decide, by decide, by decide, by decide⟩

/-- TrapsCarryThePcOfTheRaisingInstruction: a step that traps. -/
theorem witness_TrapsCarryThePc :
    step (State.reset.withFetchWord 32 0x73) = .fault (.trap .environmentCall 0 0x1000) := by
  rfl

/-- DecodingInvertsEncoding and EncodingInvertsDecoding: a parcel and a word. -/
theorem witness_decoding :
    Instr.wellFormed (cfg .rv64) (.cLui 31 0x3f) = true ∧ Instr.wellFormed (cfg .rv32) (.slliRv32 31 31 31) = true ∧
    decode (cfg .rv64) [0xfd, 0x7f, 0xaa] = .instr (.cLui 31 0x3f) ∧
    decode (cfg .rv32) [0x93, 0x9f, 0xff, 0x01] = .instr (.slliRv32 31 31 31) := by decide

/-- HintParcelsOnlyAdvancePc: the boundary parcels of each line of R135. -/
theorem witness_HintParcels :
    isHintParcel .rv64 0x0081 ∧ isHintParcel .rv32 0x0f81 ∧ isHintParcel .rv64 0x4001 ∧ isHintParcel .rv128 0x507d ∧
    isHintParcel .rv64 0x6005 ∧ isHintParcel .rv64 0x707d ∧ isHintParcel .rv64 0x8001 ∧ isHintParcel .rv32 0x8781 ∧
    isHintParcel .rv64 0x0002 ∧ isHintParcel .rv128 0x107e ∧ isHintParcel .rv64 0x0082 ∧ isHintParcel .rv32 0x0f82 ∧
    isHintParcel .rv64 0x8006 ∧ isHintParcel .rv64 0x907e ∧
    decode16 (cfg .rv64) 0x0081 = .instr (.cAddi 1 0) ∧ Instr.isHint (cfg .rv64) (.cAddi 1 0) = true := by
  simp +decide [isHintParcel]

/-- StepRunsTheDecodedInstruction: a 32-bit and a 16-bit instruction. -/
theorem witness_StepRuns :
    fetchable ready ready.rpc.toNat ∧ fetchable ready (ready.rpc.toNat + 2) ∧
    decode ready.cfg (bytesAt ready 4 ready.rpc.toNat) = .instr (.addi 10 0 5) ∧
    fetchable (placed State.reset 0x4515) 0x1000 ∧
    decode resetConfig (bytesAt (placed State.reset 0x4515) 2 0x1000) = .instr (.cLi 10 5) := by
  unfold fetchable
  refine ⟨⟨by decide, by decide, ?_⟩, ⟨by decide, by decide, ?_⟩, by decide, ⟨by decide, by decide, ?_⟩, by decide⟩ <;>
    intro b h <;> cases h

/-- UndecodableBitsRaiseIllegalInstruction: a parcel, a length above 32 bits, a word. -/
theorem witness_Undecodable :
    let p := placed State.reset 0x0004
    let q := placed State.reset 0x001f
    let w := placed State.reset 0x30200073
    (fetchable p 0x1000 ∧ decode16 p.cfg (parcelAt p 0x1000) = .bad .reserved ∧ (parcelAt p 0x1000).toNat % 4 ≠ 3) ∧
    (fetchable q 0x1000 ∧ (parcelAt q 0x1000).toNat % 32 = 31) ∧
    (fetchable w 0x1000 ∧ fetchable w 0x1002 ∧ (parcelAt w 0x1000).toNat % 4 = 3 ∧
      (parcelAt w 0x1000).toNat % 32 ≠ 31 ∧ decode32 w.cfg (parcelAt w 0x1002 ++ parcelAt w 0x1000) = .bad .noRow) := by
  unfold fetchable
  refine ⟨⟨⟨by decide, by decide, ?_⟩, by decide, by decide⟩, ⟨⟨by decide, by decide, ?_⟩, by decide⟩,
    ⟨by decide, by decide, ?_⟩, ⟨by decide, by decide, ?_⟩, by decide, by decide, by decide⟩ <;> intro b h <;> cases h

/-- The low half of `addi x10, x0, 5` in the last parcel of a 32-bit address space. -/
def atTop : State := { small .rv32 [] [] [(0xfffffffe, 0x13), (0xffffffff, 0x05)] with pc := 0xfffffffe }

/-- A region for the first parcel alone. -/
def halfMapped : State :=
  { ready with cfg := { ready.cfg with memMap := [Region.ofSize 0x1000 2] } }

/-- FetchStopsAsSpecified: each clause. -/
theorem witness_FetchStops :
    (cfg .rv128).xlen = .rv128 ∧
    (unmapped ready).memValid .fetch 2 (unmapped ready).rpc.toNat = false ∧
    (ready.memValid .fetch 2 ready.rpc.toNat = true ∧ ready.rpc.toNat ≤ 0x1001 ∧ 0x1001 < ready.rpc.toNat + 2) ∧
    (atTop.rpc.toNat + 2 ≤ 2 ^ atTop.width ∧ 2 ^ atTop.width < atTop.rpc.toNat + 4 ∧
      (parcelAt atTop atTop.rpc.toNat).toNat % 4 = 3 ∧ (parcelAt atTop atTop.rpc.toNat).toNat % 32 ≠ 31) ∧
    (halfMapped.memValid .fetch 2 0x1000 = true ∧ halfMapped.memValid .fetch 2 0x1002 = false ∧
      (parcelAt halfMapped 0x1000).toNat % 4 = 3 ∧ (parcelAt halfMapped 0x1000).toNat % 32 ≠ 31) ∧
    (ready.memValid .fetch 2 0x1002 = true ∧ (parcelAt ready 0x1000).toNat % 4 = 3 ∧
      (parcelAt ready 0x1000).toNat % 32 ≠ 31) := by decide

/-- The parameters the hypotheses of the instruction statements ask for, alone or together with the rest of a witness
below: XLEN 32, 64 and 128, M, A, F and D present, D absent, both values of the unlisted policy. -/
theorem witness_parameters :
    (cfg .rv32).is32or64 = true ∧ (cfg .rv64).is32or64 = true ∧ (cfg .rv32).xlen = .rv32 ∧ (cfg .rv64).xlen = .rv64 ∧
    (cfg .rv64).xlen ≠ .rv32 ∧ (cfg .rv128).xlen ≠ .rv32 ∧ (cfg .rv32).xlen ≠ .rv128 ∧ (cfg .rv128).xlen = .rv128 ∧
    (cfg .rv64).extM = true ∧ (cfg .rv64).extA = true ∧ (cfg .rv32).extF = true ∧ (cfg .rv64).hasD = true ∧
    (withFD State.reset true false).cfg.extF = true ∧ (withFD State.reset true false).cfg.hasD = false ∧
    (cfg .rv64).unlisted = .illegal ∧ ({ cfg .rv64 with unlisted := .nop } : Config).unlisted = .nop := by decide

/-- SingleOperandsAreUnboxed: FLEN 64 and FLEN 32, each in a machine that R7 admits. -/
theorem witness_flen :
    State.reset.cfg.flen = .f64 ∧ legalParameters State.reset.cfg ∧ (withFD State.reset true false).cfg.flen = .f32 ∧
    legalParameters (withFD State.reset true false).cfg := by
  unfold legalParameters
  decide

/-- AbsentInstructionsAreIllegal: an RV64 row at XLEN 32, a row of an absent extension. -/
theorem witness_AbsentInstructions :
    Instr.wellFormed (small .rv32 [] [] []).cfg (.addw 1 2 3) = false ∧ Instr.addw 1 2 3 ≠ .ecall ∧
    Instr.addw 1 2 3 ≠ .ebreak ∧ Instr.wellFormed (withFD State.reset false true).cfg (.fld 1 2 3) = false := by decide

/-- OperandsAndAddresses: the widest immediates fit (20 bits above 12 zero bits at XLEN 32). -/
theorem witness_OperandsAndAddresses : 20 + 12 ≤ (small .rv32 [] [] []).width := by decide

/-- ReadsReturnTheLastWrite: the widest access and its last byte, a byte outside. -/
theorem witness_ReadsReturn : 16 ≤ 16 ∧ 15 < 16 ∧ 15 + 1 ≤ 16 ∧ 0x200f < 0x2010 ∧ 0x2010 + 16 ≤ 0x2020 := by decide

/-- LoadsAndStoresStopAsSpecified, CompressedAccessesStopAsSpecified: a misaligned address under the trap policy, an access
beyond the top under the emulate policy, one outside `MemMap` under either. -/
theorem witness_stops :
    (let s := small .rv64 [(8, 0x2004), (2, 0x2004), (11, 0x2001)] [] []
     ((s.rx 11 + signedImm s.width 0#12 0).toNat % 2 ≠ 0 ∧ (s.rx 11 + signedImm s.width 0#12 0).toNat % 8 ≠ 0 ∧
      (s.rx (primed 0) + unsignedImm s.width 0#5 3).toNat % 8 ≠ 0 ∧ (s.rx 2 + unsignedImm s.width 0#6 3).toNat % 8 ≠ 0 ∧
      s.cfg.misaligned = .trap)) ∧
    (let s := emulating (small .rv64 [(8, 2 ^ 64 - 1), (2, 2 ^ 64 - 1), (11, 2 ^ 64 - 1)] [] [])
     (2 ^ s.width < (s.rx 11 + signedImm s.width 0#12 0).toNat + 2 ∧
      2 ^ s.width < (s.rx (primed 0) + unsignedImm s.width 0#5 2).toNat + 4 ∧
      2 ^ s.width < (s.rx 2 + unsignedImm s.width 0#6 2).toNat + 4 ∧ s.cfg.misaligned = .emulate)) ∧
    (let s := unmapped (small .rv64 [(8, 0x2000), (2, 0x2000), (11, 0x2000)] [] [])
     ((s.rx 11 + signedImm s.width 0#12 0).toNat % 8 = 0 ∧ (s.rx 11 + signedImm s.width 0#12 0).toNat + 8 ≤ 2 ^ s.width ∧
      s.memValid .load 8 (s.rx 11 + signedImm s.width 0#12 0).toNat = false ∧
      s.memValid .store 4 (s.rx (primed 0) + unsignedImm s.width 0#5 2).toNat = false)) := by decide

/-- A MemMap that goes by width: words may be loaded and stored whole, nothing else is allowed (R61). -/
theorem test_memMap_by_width :
    let rs : List Region := [{ base := 0x2000, size := 16, fetch := [], load := [4], store := [4], amo := [] }]
    memMapValid rs .load 4 0x200c = true ∧ memMapValid rs .load 4 0x200d = false ∧ memMapValid rs .load 8 0x2000 = false ∧
    memMapValid rs .load 1 0x2000 = false ∧ memMapValid rs .store 4 0x2000 = true ∧ memMapValid rs .amo 4 0x2000 = false ∧
    memMapValid rs .fetch 2 0x2000 = false := by decide

/-- The hypotheses on one access, for `decide`. -/
def canAccess (s : State) (kind : Access) (n a : Nat) : Bool :=
  decide (a % n = 0) && decide (a + n ≤ 2 ^ s.width) && s.memValid kind n a

theorem canAccess_iff (s : State) (kind : Access) (n a : Nat) :
    canAccess s kind n a = true ↔ accessibleAtomic s kind n a := by
  simp [canAccess, accessibleAtomic, and_assoc]

/-- A state with one base register for every addressing form, at the last doubleword of memory. -/
def based (x : Xlen) : State := small x [(8, 2 ^ x.bits - 8), (2, 2 ^ x.bits - 8), (11, 2 ^ x.bits - 8)] [] []

/-- IntegerLoads, IntegerStores, FloatLoadsAndStores, CompressedLoadsAndStores: accesses that are allowed, at the last bytes of
the address space. -/
theorem witness_accesses :
    (let s := based .rv64
     let a := (s.rx 11 + signedImm s.width 0#12 0).toNat
     canAccess s .load 1 (a + 7) ∧ canAccess s .load 2 (a + 6) ∧ canAccess s .load 4 (a + 4) ∧ canAccess s .load 8 a ∧
     canAccess s .store 1 (a + 7) ∧ canAccess s .store 2 (a + 6) ∧ canAccess s .store 4 (a + 4) ∧ canAccess s .store 8 a ∧
     canAccess s .load 4 (s.rx (primed 0) + unsignedImm s.width 1#5 2).toNat ∧
     canAccess s .store 8 (s.rx (primed 0) + unsignedImm s.width 0#5 3).toNat ∧
     canAccess s .load 4 (s.rx 2 + unsignedImm s.width 1#6 2).toNat ∧
     canAccess s .store 8 (s.rx 2 + unsignedImm s.width 0#6 3).toNat) ∧
    (let s := based .rv32
     canAccess s .load 4 (s.rx (primed 0) + unsignedImm s.width 1#5 2).toNat ∧
     canAccess s .store 4 (s.rx 2 + unsignedImm s.width 1#6 2).toNat ∧
     canAccess s .load 8 (s.rx 11 + signedImm s.width 0#12 0).toNat) ∧
    (let s := small .rv128 [(8, 0x2000), (2, 0x2000)] [] []
     canAccess s .load 16 (s.rx (primed 0) + unsignedImm s.width 0#5 4).toNat ∧
     canAccess s .store 16 (s.rx 2 + unsignedImm s.width 0#6 4).toNat) := by decide

/-- The same as the hypothesis of the statements. -/
theorem witness_accessible : accessible (based .rv64) .load 8 (2 ^ 64 - 8) ∧ accessibleAtomic (based .rv64) .amo 8 (2 ^ 64 - 8) :=
  ⟨⟨.inl (by decide), by decide, by decide⟩, (canAccess_iff _ _ _ _).1 (by decide)⟩

/-- LoadReserved, StoreConditional, AtomicReadModifyWrite: allowed and misaligned addresses, both widths; for an SC a
reservation that matches, one that does not, and none. -/
theorem witness_atomics :
    (let s := based .rv64
     canAccess s .load 8 (s.rx 11).toNat ∧ canAccess s .amo 8 (s.rx 11).toNat ∧ canAccess s .amo 4 (s.rx 11).toNat) ∧
    (let s := small .rv64 [(11, 0x2004)] [] []
     (s.rx 11).toNat % 8 ≠ 0 ∧ canAccess s .load 4 (s.rx 11).toNat) ∧
    (reserving (based .rv64) 0x2000 .word).resv = some { addr := BitVec.ofNat 128 0x2000, width := .word } ∧
    (reserving (based .rv64) 0x2000 .double).resv ≠ some { addr := BitVec.ofNat 128 0x2000, width := .word } ∧
    (based .rv64).resv ≠ some { addr := BitVec.ofNat 128 0x2000, width := .word } ∧
    State.reset.cfg.scMayFail = true := by decide

/-- FloatCsrInstructions, CounterCsrs, UnimplementedCsrsRaise: every number of R37, and numbers beside them. -/
theorem witness_csrs :
    (isFpCsr 0x001 ∧ isFpCsr 0x002 ∧ isFpCsr 0x003) ∧
    (isCounterCsr (cfg .rv64) 0xC00 ∧ isCounterCsr (cfg .rv64) 0xC02 ∧ isCounterCsr (cfg .rv32) 0xC80 ∧
      isCounterCsr (cfg .rv32) 0xC82) ∧
    (¬ isFpCsr 0x000 ∧ ¬ isFpCsr 0x004 ∧ ¬ isCounterCsr (cfg .rv64) 0xC80 ∧ ¬ isCounterCsr (cfg .rv64) 0xC03 ∧
      ¬ isCounterCsr (cfg .rv64) 0x001) ∧
    csrOf (cfg .rv64) 0x001 = some .fflags ∧ csrOf (cfg .rv32) 0xC82 = some .instreth := by
  simp +decide [isFpCsr, isCounterCsr]

/-- Branches, shifts and compressed forms: the restrictions on operands. -/
theorem witness_operands :
    (1 : Reg) ≠ 0 ∧ (1 : BitVec 6) ≠ 0 ∧ (63 : BitVec 6) ≠ 0 ∧ (1 : BitVec 8) ≠ 0 ∧ (31 : Reg) ≠ 2 ∧
    (31 : BitVec 6).toNat < 32 ∧ compressedShift .rv128 32 = 96 ∧ compressedShift .rv128 31 = 31 := by decide

/-- The five rounding modes through the field and through frm, and the invalid ones (FloatArithmeticInstructions,
InvalidRoundingModesRaise and the conversions). -/
theorem witness_rounding_modes :
    modeField 0 0 = modeCode .rne ∧ modeField 1 0 = modeCode .rtz ∧ modeField 2 0 = modeCode .rdn ∧
    modeField 3 0 = modeCode .rup ∧ modeField 4 0 = modeCode .rmm ∧ modeField 7 4 = modeCode .rmm ∧
    4 < modeField 5 0 ∧ 4 < modeField 6 0 ∧ 4 < modeField 7 5 ∧ 4 < modeField 7 7 := by decide

/-- The patterns of the real-number statements: infinities, quiet and signaling NaNs of both formats. -/
theorem witness_special_patterns :
    isFormat binary32 32 ∧ isFormat binary64 64 ∧
    isInfinity binary32 (0x7f800000#32) ∧ isInfinity binary32 (0xff800000#32) ∧ isInfinity binary64 (0x7ff0000000000000#64) ∧
    isNan binary32 (0x7fc00000#32) ∧ ¬ isSignaling binary32 (0x7fc00000#32) ∧ isSignaling binary32 (0x7f800001#32) ∧
    isSignaling binary32 (0x7fbfffff#32) ∧ isSignaling binary64 (0xfff7ffffffffffff#64) ∧
    ¬ isNan binary32 (0x7f7fffff#32) ∧ ¬ isInfinity binary32 (0x7f7fffff#32) := by
  unfold isFormat isSignaling isNan isInfinity
  decide

/-- The value of a zero pattern, in either format and with either sign. -/
theorem hasValue_zero :
    hasValue binary32 (0#32) 0 ∧ hasValue binary32 (0x80000000#32) 0 ∧ hasValue binary64 (0#64) 0 := by
  refine ⟨⟨by decide, ?_⟩, ⟨by decide, ?_⟩, ⟨by decide, ?_⟩⟩ <;>
    norm_num [signField, exponentField, fractionField, binary32, binary64]

/-- The values 1 and -1. -/
theorem hasValue_one :
    hasValue binary32 (0x3f800000#32) 1 ∧ hasValue binary32 (0xbf800000#32) (-1) ∧
    hasValue binary64 (0x3ff0000000000000#64) 1 := by
  refine ⟨⟨by decide, ?_⟩, ⟨by decide, ?_⟩, ⟨by decide, ?_⟩⟩ <;>
    norm_num [signField, exponentField, fractionField, binary32, binary64, FloatFormat.bias]

/-- The smallest subnormal single, 2^-149. -/
theorem hasValue_least : hasValue binary32 (1#32) (2 ^ (-149 : ℤ)) := by
  refine ⟨by decide, ?_⟩
  norm_num [signField, exponentField, fractionField, binary32, FloatFormat.bias]

/-- SumsAndProductsAreRoundedOnce, FusedMultiplyAddRoundsOnce: operands whose sum, difference, product and fused result is zero,
and operands whose is not. -/
theorem witness_sums :
    (hasValue binary32 (0x3f800000#32) 1 ∧ hasValue binary32 (0xbf800000#32) (-1) ∧ (1 : ℝ) + -1 = 0 ∧ (1 : ℝ) - -1 ≠ 0 ∧
      (1 : ℝ) * -1 ≠ 0) ∧
    (hasValue binary32 (0#32) 0 ∧ (1 : ℝ) + 0 ≠ 0 ∧ (1 : ℝ) * 0 = 0 ∧ (1 : ℝ) - 1 = 0) ∧
    ((1 : ℝ) * 1 + -1 = 0 ∧ -((1 : ℝ) * 1) + -1 ≠ 0) := by
  refine ⟨⟨hasValue_one.1, hasValue_one.2.1, ?_, ?_, ?_⟩, ⟨hasValue_zero.1, ?_, ?_, ?_⟩, ?_, ?_⟩ <;> norm_num

/-- QuotientsAreRoundedOnce: the four cases of zero and nonzero operands; SquareRootsAreRoundedOnce: the three signs. -/
theorem witness_quotients_and_roots :
    hasValue binary32 (0x3f800000#32) 1 ∧ hasValue binary32 (1#32) (2 ^ (-149 : ℤ)) ∧ (2 : ℝ) ^ (-149 : ℤ) ≠ 0 ∧
    hasValue binary32 (0x80000000#32) 0 ∧ (0 : ℝ) < 1 ∧ hasValue binary32 (0xbf800000#32) (-1) ∧ (-1 : ℝ) < 0 :=
  ⟨hasValue_one.1, hasValue_least, by positivity, hasValue_zero.2.1, one_pos, hasValue_one.2.1, by norm_num⟩

/-- RoundingIsCorrect: the least number, an overflowing one and a tie are among the premises (k ≠ 0). -/
theorem witness_RoundingIsCorrect :
    isFormat binary32 32 ∧ (1 : Nat) ≠ 0 ∧ fpRound binary32 32 .rne false 1 (-149) = (1, 0) ∧
    fpRound binary32 32 .rne true 1 128 = (0xff800000, flagOF ||| flagNX) ∧
    fpRound binary32 32 .rne false 3 (-150) = (2, flagUF ||| flagNX) :=
  ⟨.inl ⟨rfl, rfl⟩, by decide, by decide, by decide, by decide⟩

/-- FusedMultiplyAddOfInfinities, NanAndInfinityRules: an infinite product (infinity times one), zero times infinity, and finite
operands beside an infinite addend. -/
theorem witness_infinities :
    (isInfinity binary32 (0x7f800000#32) ∧ ¬ isNan binary32 (0x3f800000#32) ∧ ¬ hasValue binary32 (0x3f800000#32) 0) ∧
    (isInfinity binary32 (0x7f800000#32) ∧ hasValue binary32 (0#32) 0) ∧
    (hasValue binary32 (0x3f800000#32) 1 ∧ hasValue binary32 (0xbf800000#32) (-1) ∧ isInfinity binary32 (0xff800000#32)) := by
  have h : ¬ hasValue binary32 (0x3f800000#32) 0 := by
    rintro ⟨-, h⟩
    have h1 := hasValue_one.1.2
    rw [← h1] at h
    norm_num at h
  unfold isNan isInfinity
  exact ⟨⟨by decide, by decide, h⟩, ⟨by decide, hasValue_zero.1⟩, hasValue_one.1, hasValue_one.2.1, by decide⟩

end Sys2Proof.Tests
end

