-- ==== Sys2Proof/Proofs/UnimplementedCsrs.lean ====
section
/-! O42. The nine CSR numbers of R37 read off `csrOf` once; a CSR instruction that names any other number, or one that
does not exist under the configuration, raises IllegalInstruction at the existence check of R305. -/

namespace Sys2Proof.Proofs

open Sys2Proof.Machine Sys2Proof.Laws

/-! ### The numbers of R37 -/

/-- The number column of R37. -/
def csrNumber : Csr → CsrNum
  | .fflags => 0x001
  | .frm => 0x002
  | .fcsr => 0x003
  | .cycle => 0xC00
  | .time => 0xC01
  | .instret => 0xC02
  | .cycleh => 0xC80
  | .timeh => 0xC81
  | .instreth => 0xC82

/-- The column "exists when" of R37. -/
def csrExists (c : Config) : Csr → Prop
  | .fflags | .frm | .fcsr => c.extF = true
  | .cycle | .time | .instret => True
  | .cycleh | .timeh | .instreth => c.xlen = .rv32

/-- A CSR that exists is found under its number (R37). -/
theorem csrOf_csrNumber {c : Config} {k : Csr} (h : csrExists c k) : csrOf c (csrNumber k) = some k := by
  cases k with
  | fflags | frm | fcsr => exact if_pos h
  | cycle | time | instret => rfl
  | cycleh | timeh | instreth => exact if_pos h

/-- A CSR that is found stands under its own number, and its condition holds (R37, R43). -/
theorem number_and_exists_of_csrOf {c : Config} {n : CsrNum} {k : Csr} (h : csrOf c n = some k) :
    n = csrNumber k ∧ csrExists c k := by
  unfold csrOf at h
  split at h
  case h_4 | h_5 | h_6 => cases h; exact ⟨rfl, trivial⟩
  case h_10 => cases h
  all_goals
    obtain ⟨hc, hk⟩ := Option.ite_none_right_eq_some.1 h
    cases hk
    exact ⟨rfl, hc⟩

/-- The lookup by number is the table of R37. -/
theorem csrOf_eq_some_iff {c : Config} {n : CsrNum} {k : Csr} :
    csrOf c n = some k ↔ n = csrNumber k ∧ csrExists c k := by
  refine ⟨number_and_exists_of_csrOf, ?_⟩
  rintro ⟨rfl, h⟩
  exact csrOf_csrNumber h

/-- The number of a CSR that exists, in the vocabulary of the statements: a floating-point CSR with F, or a counter. -/
theorem isFpCsr_or_isCounterCsr {c : Config} {k : Csr} (h : csrExists c k) :
    (isFpCsr (csrNumber k) ∧ c.extF = true) ∨ isCounterCsr c (csrNumber k) := by
  cases k with
  | fflags | frm | fcsr => exact .inl ⟨by simp [isFpCsr, csrNumber], h⟩
  | cycle | time | instret => exact .inr (by simp [isCounterCsr, csrNumber])
  | cycleh | timeh | instreth => exact .inr (.inr (.inr (.inr ⟨h, by simp [csrNumber]⟩)))

/-- A number that is neither a floating-point CSR under F nor a counter names no CSR (R43). -/
theorem csrOf_eq_none {c : Config} {n : CsrNum} (hfp : ¬ (isFpCsr n ∧ c.extF = true)) (hcounter : ¬ isCounterCsr c n) :
    csrOf c n = none := by
  by_contra hsome
  obtain ⟨k, hk⟩ := Option.ne_none_iff_exists'.1 hsome
  obtain ⟨rfl, hexists⟩ := csrOf_eq_some_iff.1 hk
  exact (isFpCsr_or_isCounterCsr hexists).elim hfp hcounter

/-- Bits 11:10 of a CSR's number are 11 exactly when it is read-only (R37, R43). -/
theorem readOnly_iff_number_high (k : Csr) : k.readOnly = true ↔ (csrNumber k).extractLsb 11 10 = 0b11 := by
  cases k <;> decide

/-- Bits 9:8 of a CSR's number are 00 (R37, R43). -/
theorem csrNumber_extractLsb_9_8 (k : Csr) : (csrNumber k).extractLsb 9 8 = 0b00 := by
  cases k <;> decide

/-! ### The existence check -/

/-- A CSR instruction of the configuration whose number names no CSR raises IllegalInstruction with its bits, before
anything is read or written (R43, R305). -/
theorem onRow_csrAccess_of_none {i : Instr} {n : CsrNum} {rd : Reg} {reads writes : Bool} {s : State}
    {new : BitVec s.width → BitVec s.width} (hn : csrOf s.cfg n = none) (hi : i.wellFormed s.cfg = true) :
    trapsWith s .illegalInstruction i.encode.info (onRow i s (csrAccess i n rd reads writes s new)) := by
  rw [onRow_ok _ hi, csrAccess, hn]
  rfl

/-- Settles O42: the six forms are one `csrAccess` each, which the missing CSR stops; the bits of the nine numbers are
those of the table. -/
theorem unimplementedCsrsRaise : Obligations.UnimplementedCsrsRaise := by
  refine ⟨fun s rd rs1 zimm n hx hfp hcounter i hi => ?_, fun c n k hk => ?_⟩
  · have hn : csrOf s.cfg n = none := csrOf_eq_none hfp hcounter
    simp only [List.mem_cons, List.not_mem_nil, or_false] at hi
    obtain rfl | rfl | rfl | rfl | rfl | rfl := hi <;> exact onRow_csrAccess_of_none hn hx
  · obtain ⟨rfl, -⟩ := csrOf_eq_some_iff.1 hk
    exact ⟨readOnly_iff_number_high k, csrNumber_extractLsb_9_8 k⟩

end Sys2Proof.Proofs
end

