-- ==== Sys2Proof/Proofs/Division.lean ====
section
/-! O36. The four division operations of R391 at any width L, case by case, as integers and natural numbers; the eight
rows are these operations at XLEN, or at 32 bits on the low words with the result sign-extended. -/

namespace Sys2Proof.Proofs

open Sys2Proof.Machine Sys2Proof.Laws

/-! ### Signed division at L bits -/

/-- The overflow test, on values: -2^(L-1) by -1 (R391). -/
theorem divOverflows_iff {w : Nat} (hw : 0 < w) (a b : BitVec w) :
    divOverflows a b = true ↔ a.toInt = -(2 ^ (w - 1)) ∧ b.toInt = -1 := by
  have hmin : (BitVec.intMin w).toInt = -(2 ^ (w - 1)) := BitVec.toInt_intMin_of_pos hw
  have hones : (BitVec.allOnes w).toInt = -1 := by rw [BitVec.toInt_allOnes, if_pos hw]
  rw [← hmin, ← hones, BitVec.toInt_inj, BitVec.toInt_inj]
  simp [divOverflows]

/-- The quotient of a division that does not overflow fits in L bits: it is the integer quotient, rounded toward
zero. -/
theorem divSigned_toInt {w : Nat} {a b : BitVec w} (hb : b ≠ 0) (hover : ¬ divOverflows a b = true) :
    (divSigned a b).toInt = a.toInt.tdiv b.toInt := by
  have hfits : a ≠ BitVec.intMin w ∨ b ≠ -1#w := by
    rw [BitVec.neg_one_eq_allOnes, ← not_and_or]
    simpa [divOverflows] using hover
  rw [divSigned, if_neg hb, if_neg hover, BitVec.toInt_ofInt, ← BitVec.toInt_sdiv,
    BitVec.toInt_sdiv_of_ne_or_ne a b hfits]

/-- The remainder of a division that does not overflow is the integer remainder. -/
theorem remSigned_toInt {w : Nat} {a b : BitVec w} (hb : b ≠ 0) (hover : ¬ divOverflows a b = true) :
    (remSigned a b).toInt = a.toInt.tmod b.toInt := by
  rw [remSigned, if_neg hb, if_neg hover, BitVec.toInt_ofInt, ← BitVec.toInt_srem, BitVec.toInt_bmod_cancel]

/-- A remainder is smaller than the divisor. -/
theorem abs_tmod_lt_abs (a : Int) {b : Int} (hb : b ≠ 0) : |a.tmod b| < |b| := by
  rw [Int.abs_eq_natAbs, Int.abs_eq_natAbs, Int.natAbs_tmod, Int.ofNat_lt]
  exact Nat.mod_lt _ (Int.natAbs_pos.2 hb)

/-- A remainder is zero or has the sign of the dividend. -/
theorem tmod_eq_zero_or_sign (a b : Int) : a.tmod b = 0 ∨ (a.tmod b < 0 ↔ a < 0) := by
  have hsign := Int.sign_tmod a b
  split at hsign
  · exact .inl (Int.sign_eq_zero_iff_zero.1 hsign)
  · rw [← Int.sign_eq_neg_one_iff_neg, hsign, Int.sign_eq_neg_one_iff_neg]
    exact .inr Iff.rfl

/-- DIV and REM at any width are the signed division of R391. -/
theorem signedDivision_divSigned_remSigned {w : Nat} (hw : 0 < w) (a b : BitVec w) :
    signedDivision w a.toInt b.toInt (divSigned a b).toInt (remSigned a b).toInt := by
  unfold signedDivision
  by_cases hb : b = 0
  case pos =>
    have hq : divSigned a b = BitVec.allOnes w := if_pos hb
    have hr : remSigned a b = a := if_pos hb
    rw [hq, hr, BitVec.toInt_allOnes, if_pos hw, hb]
    simp
  have hb' : b.toInt ≠ 0 := by rwa [← BitVec.toInt_zero (w := w), BitVec.toInt_ne]
  rw [if_neg hb']
  by_cases hover : divOverflows a b = true
  · have hq : divSigned a b = a := by rw [divSigned, if_neg hb, if_pos hover]
    have hr : remSigned a b = 0 := by rw [remSigned, if_neg hb, if_pos hover]
    have hvalues := (divOverflows_iff hw a b).1 hover
    rw [if_pos hvalues, hq, hr]
    exact ⟨hvalues.1, BitVec.toInt_zero⟩
  · rw [if_neg (mt (divOverflows_iff hw a b).2 hover), divSigned_toInt hb hover, remSigned_toInt hb hover]
    exact ⟨(Int.tdiv_mul_add_tmod _ _).symm, abs_tmod_lt_abs _ hb', tmod_eq_zero_or_sign _ _⟩

/-! ### Unsigned division at L bits -/

/-- DIVU and REMU at any width are the unsigned division of R391. -/
theorem unsignedDivision_divUnsigned_remUnsigned {w : Nat} (a b : BitVec w) :
    unsignedDivision w a.toNat b.toNat (divUnsigned a b).toNat (remUnsigned a b).toNat := by
  unfold unsignedDivision
  by_cases hb : b = 0
  · have hq : divUnsigned a b = BitVec.allOnes w := if_pos hb
    have hr : remUnsigned a b = a := if_pos hb
    rw [hq, hr, BitVec.toNat_allOnes, hb]
    simp
  · have hb' : b.toNat ≠ 0 := by rwa [← BitVec.toNat_zero (w := w), BitVec.toNat_ne_iff_ne]
    have hq : (divUnsigned a b).toNat = a.toNat / b.toNat := by
      rw [divUnsigned, if_neg hb, BitVec.toNat_ofNat, Nat.mod_eq_of_lt (a.isLt.trans_le' (Nat.div_le_self _ _))]
    have hr : (remUnsigned a b).toNat = a.toNat % b.toNat := by
      rw [remUnsigned, if_neg hb, BitVec.toNat_ofNat, Nat.mod_eq_of_lt (a.isLt.trans_le' (Nat.mod_le _ _))]
    rw [if_neg hb', hq, hr]
    exact ⟨(Nat.div_add_mod' _ _).symm, Nat.mod_lt _ (Nat.pos_of_ne_zero hb')⟩

/-! ### W forms: the low words as operands, the result sign-extended -/

/-- The signed value of the low word (R391, L = 32). -/
theorem toInt_setWidth_of_le {w v : Nat} (x : BitVec w) (h : v ≤ w) : (x.setWidth v).toInt = x.toInt.bmod (2 ^ v) := by
  rw [← BitVec.signExtend_eq_setWidth_of_le x h, BitVec.toInt_signExtend, Nat.min_eq_left h]

/-- The sign-extended word, from its signed value (R360). -/
theorem wordResult_toInt (w : Nat) (v : BitVec 32) : wordResult w v.toInt = sextWord w v := by
  rw [wordResult, BitVec.toInt_bmod_cancel]
  rfl

/-- The sign-extended word, from its unsigned value (R360). -/
theorem wordResult_toNat (w : Nat) (v : BitVec 32) : wordResult w (v.toNat : Int) = sextWord w v := by
  rw [wordResult, ← BitVec.toInt_eq_toNat_bmod]
  rfl

/-! ### The eight rows -/

/-- A row of the configuration that completes with a register result writes it and moves pc, nothing else (R12, R21). -/
theorem onRow_completeX_setsX {i : Instr} {s : State} (hi : i.wellFormed s.cfg = true) (n : Nat) (rd : Reg)
    (v : BitVec s.width) : setsX s rd v (s.pcAfter n) (onRow i s (completeX n rd v s)) := by
  rw [onRow_ok _ hi]
  exact completeX_setsX n rd s v

/-- With M, a machine of XLEN 32 or 64 has the four rows of RV32M (R390). -/
theorem division_wellFormed {c : Config} (hM : c.extM = true) (hx : c.is32or64 = true) (rd rs1 rs2 : Reg) :
    (Instr.div rd rs1 rs2).wellFormed c = true ∧ (Instr.rem rd rs1 rs2).wellFormed c = true ∧
    (Instr.divu rd rs1 rs2).wellFormed c = true ∧ (Instr.remu rd rs1 rs2).wellFormed c = true := by
  have hexists : (c.is32or64 && c.extM) = true := by simp [hM, hx]
  exact ⟨hexists, hexists, hexists, hexists⟩

/-- With M, a machine of XLEN 64 has the four rows of RV64M (R390). -/
theorem wordDivision_wellFormed {c : Config} (hM : c.extM = true) (hx : c.xlen = .rv64) (rd rs1 rs2 : Reg) :
    (Instr.divw rd rs1 rs2).wellFormed c = true ∧ (Instr.remw rd rs1 rs2).wellFormed c = true ∧
    (Instr.divuw rd rs1 rs2).wellFormed c = true ∧ (Instr.remuw rd rs1 rs2).wellFormed c = true := by
  have hexists : (c.xlen == .rv64 && c.extM) = true := by simp [hM, hx]
  exact ⟨hexists, hexists, hexists, hexists⟩

/-- DIV, REM, DIVU and REMU write what the four operations answer at XLEN (R396-R399). -/
theorem exec_division_setsX {s : State} (hM : s.cfg.extM = true) (hx : s.cfg.is32or64 = true) (rd rs1 rs2 : Reg) :
    setsX s rd (divSigned (s.rx rs1) (s.rx rs2)) (s.pcAfter 4) (exec (.div rd rs1 rs2) s) ∧
    setsX s rd (remSigned (s.rx rs1) (s.rx rs2)) (s.pcAfter 4) (exec (.rem rd rs1 rs2) s) ∧
    setsX s rd (divUnsigned (s.rx rs1) (s.rx rs2)) (s.pcAfter 4) (exec (.divu rd rs1 rs2) s) ∧
    setsX s rd (remUnsigned (s.rx rs1) (s.rx rs2)) (s.pcAfter 4) (exec (.remu rd rs1 rs2) s) := by
  obtain ⟨hdiv, hrem, hdivu, hremu⟩ := division_wellFormed hM hx rd rs1 rs2
  exact ⟨onRow_completeX_setsX hdiv 4 rd _, onRow_completeX_setsX hrem 4 rd _, onRow_completeX_setsX hdivu 4 rd _,
    onRow_completeX_setsX hremu 4 rd _⟩

/-- DIVW, REMW, DIVUW and REMUW write the sign-extended answers of the four operations on the low words
(R401-R404). -/
theorem exec_wordDivision_setsX {s : State} (hM : s.cfg.extM = true) (hx : s.cfg.xlen = .rv64) (rd rs1 rs2 : Reg) :
    let a := (s.rx rs1).setWidth 32
    let b := (s.rx rs2).setWidth 32
    setsX s rd (sextWord s.width (divSigned a b)) (s.pcAfter 4) (exec (.divw rd rs1 rs2) s) ∧
    setsX s rd (sextWord s.width (remSigned a b)) (s.pcAfter 4) (exec (.remw rd rs1 rs2) s) ∧
    setsX s rd (sextWord s.width (divUnsigned a b)) (s.pcAfter 4) (exec (.divuw rd rs1 rs2) s) ∧
    setsX s rd (sextWord s.width (remUnsigned a b)) (s.pcAfter 4) (exec (.remuw rd rs1 rs2) s) := by
  obtain ⟨hdivw, hremw, hdivuw, hremuw⟩ := wordDivision_wellFormed hM hx rd rs1 rs2
  exact ⟨onRow_completeX_setsX hdivw 4 rd _, onRow_completeX_setsX hremw 4 rd _, onRow_completeX_setsX hdivuw 4 rd _,
    onRow_completeX_setsX hremuw 4 rd _⟩

/-- Settles O36: q and r are the values of what the model's operations answer, which meet R391 at XLEN and at 32
bits. -/
theorem divisionResults : Obligations.DivisionResults := by
  intro s rd rs1 rs2 hM
  refine ⟨fun hx => ?_, fun hx => ?_⟩
  · obtain ⟨hdiv, hrem, hdivu, hremu⟩ := exec_division_setsX hM hx rd rs1 rs2
    refine ⟨⟨_, _, signedDivision_divSigned_remSigned (Nat.zero_lt_of_lt (width_pos s)) _ _, ?_, ?_⟩,
      ⟨_, _, unsignedDivision_divUnsigned_remUnsigned _ _, ?_, ?_⟩⟩
    · rwa [BitVec.ofInt_toInt]
    · rwa [BitVec.ofInt_toInt]
    · rwa [BitVec.ofNat_toNat, BitVec.setWidth_eq]
    · rwa [BitVec.ofNat_toNat, BitVec.setWidth_eq]
  · have hwidth : 32 ≤ s.width := by simp [State.width, hx, Xlen.bits]
    obtain ⟨hdivw, hremw, hdivuw, hremuw⟩ := exec_wordDivision_setsX hM hx rd rs1 rs2
    rw [← toInt_setWidth_of_le _ hwidth, ← toInt_setWidth_of_le _ hwidth, ← BitVec.toNat_setWidth,
      ← BitVec.toNat_setWidth]
    refine ⟨⟨_, _, signedDivision_divSigned_remSigned (by decide) _ _, ?_, ?_⟩,
      ⟨_, _, unsignedDivision_divUnsigned_remUnsigned _ _, ?_, ?_⟩⟩
    · rwa [wordResult_toInt]
    · rwa [wordResult_toInt]
    · rwa [wordResult_toNat]
    · rwa [wordResult_toNat]

end Sys2Proof.Proofs
end

