-- ==== Sys2Proof/Proofs/AtomicReadModifyWrite.lean ====
section
/-! O39. The eighteen AMO rows are nine operations at two widths: each row is `amo` of its operation, once for all; what
an accessible `amo` does is stated for any operation, and each operation is the one R422-R430 name on values. -/

namespace Sys2Proof.Proofs

open Sys2Proof.Machine Sys2Proof.Laws

/-! ### The nine operations -/

/-- The operations of R422-R430 and R433-R441. -/
inductive AmoOp where
  | swap | add | xor | and | or | min | max | minu | maxu

/-- The row of an operation at a width. -/
def AmoOp.instr (rd rs1 rs2 : Reg) (aq rl : Bool) : AtomicWidth → AmoOp → Instr
  | .word, .swap => .amoswapW rd rs1 rs2 aq rl
  | .word, .add => .amoaddW rd rs1 rs2 aq rl
  | .word, .xor => .amoxorW rd rs1 rs2 aq rl
  | .word, .and => .amoandW rd rs1 rs2 aq rl
  | .word, .or => .amoorW rd rs1 rs2 aq rl
  | .word, .min => .amominW rd rs1 rs2 aq rl
  | .word, .max => .amomaxW rd rs1 rs2 aq rl
  | .word, .minu => .amominuW rd rs1 rs2 aq rl
  | .word, .maxu => .amomaxuW rd rs1 rs2 aq rl
  | .double, .swap => .amoswapD rd rs1 rs2 aq rl
  | .double, .add => .amoaddD rd rs1 rs2 aq rl
  | .double, .xor => .amoxorD rd rs1 rs2 aq rl
  | .double, .and => .amoandD rd rs1 rs2 aq rl
  | .double, .or => .amoorD rd rs1 rs2 aq rl
  | .double, .min => .amominD rd rs1 rs2 aq rl
  | .double, .max => .amomaxD rd rs1 rs2 aq rl
  | .double, .minu => .amominuD rd rs1 rs2 aq rl
  | .double, .maxu => .amomaxuD rd rs1 rs2 aq rl

/-- op(t, src) on words of w bits, as the model computes it. -/
def AmoOp.apply {w : Nat} : AmoOp → BitVec w → BitVec w → BitVec w
  | .swap, _, src => src
  | .add, t, src => t + src
  | .xor, t, src => t ^^^ src
  | .and, t, src => t &&& src
  | .or, t, src => t ||| src
  | .min, t, src => if t.slt src then t else src
  | .max, t, src => if t.slt src then src else t
  | .minu, t, src => if t.ult src then t else src
  | .maxu, t, src => if t.ult src then src else t

/-- op(t, v) on the values of w-bit words, as R422-R430 state it; only the low w bits count. -/
def AmoOp.value (w : Nat) : AmoOp → Nat → Nat → Nat
  | .swap, _, v => v
  | .add, t, v => t + v
  | .xor, t, v => t ^^^ v
  | .and, t, v => t &&& v
  | .or, t, v => t ||| v
  | .min, t, v => if (t : Int).bmod (2 ^ w) < (v : Int).bmod (2 ^ w) then t else v
  | .max, t, v => if (t : Int).bmod (2 ^ w) < (v : Int).bmod (2 ^ w) then v else t
  | .minu, t, v => if t < v then t else v
  | .maxu, t, v => if t < v then v else t

/-- Each operation on words is the one on values, modulo 2^w. -/
theorem AmoOp.apply_toNat {w : Nat} (op : AmoOp) (t u : BitVec w) :
    (op.apply t u).toNat = op.value w t.toNat u.toNat % 2 ^ w := by
  cases op with
  | swap => exact (Nat.mod_eq_of_lt u.isLt).symm
  | add => exact BitVec.toNat_add t u
  | xor | and | or =>
    simp only [apply, value, ← BitVec.toNat_xor, ← BitVec.toNat_and, ← BitVec.toNat_or]
    exact (Nat.mod_eq_of_lt (BitVec.isLt _)).symm
  | min | max =>
    simp only [apply, value, BitVec.slt_eq_decide, BitVec.toInt_eq_toNat_bmod, decide_eq_true_eq,
      ← apply_ite BitVec.toNat]
    exact (Nat.mod_eq_of_lt (BitVec.isLt _)).symm
  | minu | maxu =>
    simp only [apply, value, BitVec.ult_eq_decide, decide_eq_true_eq, ← apply_ite BitVec.toNat]
    exact (Nat.mod_eq_of_lt (BitVec.isLt _)).symm

/-! ### One read-modify-write -/

/-- The k-th of n bytes does not depend on what lies above them. -/
theorem byte_mod {n k : Nat} (h : k < n) (v : Nat) : v % 2 ^ (8 * n) / 256 ^ k % 256 = v / 256 ^ k % 256 := by
  obtain ⟨m, rfl⟩ := Nat.exists_eq_add_of_lt h
  have hsplit : 2 ^ (8 * (k + m + 1)) = 256 ^ k * 256 ^ (m + 1) := by
    rw [Nat.pow_mul, ← Nat.pow_add, Nat.add_assoc]
  rw [hsplit, Nat.mod_mul_right_div_self, Nat.mod_mod_of_dvd _ (dvd_pow_self 256 m.succ_ne_zero)]

/-- A store of n bytes stores the low n bytes of its value (R64). -/
theorem storesBytes_mod_iff {s t : State} {n a v : Nat} :
    storesBytes s t n a (v % 2 ^ (8 * n)) ↔ storesBytes s t n a v := by
  refine and_congr_left' (forall₂_congr fun k hk => ?_)
  rw [byte_mod hk]

/-- Completing with a register result after a store keeps the store's effects. -/
theorem storesBytes_completed {s t : State} {n a v : Nat} (h : storesBytes s t n a v) (rd : Reg) {w : Nat}
    (x : BitVec w) (len : Nat) : storesBytes s ((t.setX rd x).advance len) n a v := by
  simpa [storesBytes, keepsMemoryBut] using h

/-- Sign extension, from the unsigned value (R414). -/
theorem signExtend_eq_signExtended (w : Nat) {n : Nat} (x : BitVec (8 * n)) :
    x.signExtend w = signExtended w n x.toNat := by
  rw [signExtended, ← BitVec.toInt_eq_toNat_bmod]
  rfl

/-- An accessible AMO stores what its operation gives for the old value and the low bits of rs2, and hands the old value
to rd (R414). -/
theorem amo_modifies {s : State} {wd : AtomicWidth} {rs1 : Reg}
    (h : accessibleAtomic s .amo wd.bytes (s.rx rs1).toNat) (rd rs2 : Reg)
    (op : BitVec (8 * wd.bytes) → BitVec (8 * wd.bytes) → BitVec (8 * wd.bytes)) :
    modifies s wd.bytes rd (s.rx rs1).toNat
      (op (Memory.read s.mem wd.bytes (s.rx rs1).toNat) ((s.rx rs2).setWidth (8 * wd.bytes))).toNat
      (amo wd rd rs1 rs2 op s) := by
  have hfits : 8 * wd.bytes ≤ 128 := by cases wd <;> decide
  refine ⟨_, access_atomic_ok _ h, storesBytes_completed ?_ rd _ 4, fun hrd => ?_, fun q hq => setX_other _ rd q _ hq,
    ?_, by simp, by simp, by simp [keepsSystem]⟩
  · rw [← BitVec.toNat_setWidth_of_le hfits]
    exact storeBytes_storesBytes s _ _ _
  · rw [advance_getX, getX_setX_same _ rd _ hrd (width_le s), signExtend_eq_signExtended, read_valueAt]
  · rw [advance_pcAfter]
    simp [State.pcAfter]

/-! ### The eighteen rows -/

/-- Each row is `amo` of its operation, whatever aq and rl are (R411, R422-R430, R433-R441). -/
theorem exec_amoInstr (wd : AtomicWidth) (op : AmoOp) (rd rs1 rs2 : Reg) (aq rl : Bool) (s : State) :
    exec (op.instr rd rs1 rs2 aq rl wd) s =
      onRow (op.instr rd rs1 rs2 aq rl wd) s (amo wd rd rs1 rs2 op.apply s) := by
  cases wd <;> cases op <;> rfl

/-- With A, a machine of XLEN 32 or 64 has every AMO of a word (R410). -/
theorem amoInstr_word_wellFormed {c : Config} (hA : c.extA = true) (hx : c.is32or64 = true) (op : AmoOp)
    (rd rs1 rs2 : Reg) (aq rl : Bool) : (op.instr rd rs1 rs2 aq rl .word).wellFormed c = true := by
  have hexists : (c.is32or64 && c.extA) = true := by rw [hA, hx]; rfl
  cases op <;> exact hexists

/-- With A, a machine of XLEN 64 has every AMO of a doubleword (R410). -/
theorem amoInstr_double_wellFormed {c : Config} (hA : c.extA = true) (hx : c.xlen = .rv64) (op : AmoOp)
    (rd rs1 rs2 : Reg) (aq rl : Bool) : (op.instr rd rs1 rs2 aq rl .double).wellFormed c = true := by
  have hexists : (c.xlen == .rv64 && c.extA) = true := by rw [hA, hx]; rfl
  cases op <;> exact hexists

section

variable {s : State} {wd : AtomicWidth} {op : AmoOp} {rd rs1 rs2 : Reg} {aq rl : Bool}

/-- How an AMO of the configuration stops: always aligned, and allowed for AMO (R412). -/
theorem exec_amoInstr_stopsAt (hi : (op.instr rd rs1 rs2 aq rl wd).wellFormed s.cfg = true) :
    stopsAt s .amo true wd.bytes (s.rx rs1).toNat (exec (op.instr rd rs1 rs2 aq rl wd) s) := by
  rw [exec_amoInstr, onRow_ok _ hi]
  exact access_stops _ _ _ _ _ _

/-- An accessible AMO of the configuration stores its operation's value on the old bytes and the low bits of rs2
(R414). -/
theorem exec_amoInstr_modifies (hi : (op.instr rd rs1 rs2 aq rl wd).wellFormed s.cfg = true)
    (h : accessibleAtomic s .amo wd.bytes (s.rx rs1).toNat) :
    modifies s wd.bytes rd (s.rx rs1).toNat
      (op.value (8 * wd.bytes) (valueAt s wd.bytes (s.rx rs1).toNat) ((s.rx rs2).toNat % 2 ^ (8 * wd.bytes)))
      (exec (op.instr rd rs1 rs2 aq rl wd) s) := by
  obtain ⟨t, hnext, hstores, hrest⟩ := amo_modifies h rd rs2 op.apply
  rw [op.apply_toNat, read_valueAt, BitVec.toNat_setWidth, storesBytes_mod_iff] at hstores
  rw [exec_amoInstr, onRow_ok _ hi]
  exact ⟨t, hnext, hstores, hrest⟩

end

/-- The nine AMOs of one width, when the configuration has them. -/
theorem amosOfWidth_of_wellFormed {s : State} {wd : AtomicWidth} {rd rs1 rs2 : Reg} {aq rl : Bool}
    (hi : ∀ op : AmoOp, (op.instr rd rs1 rs2 aq rl wd).wellFormed s.cfg = true) :
    let row := AmoOp.instr rd rs1 rs2 aq rl wd
    amosOfWidth s wd.bytes rd (s.rx rs1).toNat (s.rx rs2).toNat (row .swap) (row .add) (row .xor) (row .and) (row .or)
      (row .min) (row .max) (row .minu) (row .maxu) := by
  refine ⟨fun i hmem => ?_, fun h => ?_⟩
  · simp only [List.mem_cons, List.not_mem_nil, or_false] at hmem
    obtain rfl | rfl | rfl | rfl | rfl | rfl | rfl | rfl | rfl := hmem <;> exact exec_amoInstr_stopsAt (hi _)
  · have hop (op : AmoOp) := exec_amoInstr_modifies (hi op) h
    exact ⟨hop .swap, hop .add, hop .xor, hop .and, hop .or, hop .min, hop .max, hop .minu, hop .maxu⟩

/-- Settles O39: the rows of either width are the nine operations of one read-modify-write. -/
theorem atomicReadModifyWrite : Obligations.AtomicReadModifyWrite := by
  intro s rd rs1 rs2 aq rl hA
  refine ⟨fun hx => ?_, fun hx => ?_⟩
  · exact amosOfWidth_of_wellFormed (wd := .word) fun op => amoInstr_word_wellFormed hA hx op rd rs1 rs2 aq rl
  · exact amosOfWidth_of_wellFormed (wd := .double) fun op => amoInstr_double_wellFormed hA hx op rd rs1 rs2 aq rl

end Sys2Proof.Proofs
end

