-- ==== Sys2Proof/Proofs/FloatDecoding.lean ====
section
/-! R451, R501. What `fpDecode` answers, by the three fields of the pattern, in every format. -/

namespace Sys2Proof.Proofs

open Sys2Proof.Machine Sys2Proof.Laws

variable {F : FloatFormat} {n : Nat} {b : BitVec n}

/-! ### The fields -/

theorem fpMag_div (F : FloatFormat) (b : BitVec n) : fpMag F b / 2 ^ F.fracBits = exponentField F b := by
  rw [fpMag, exponentField, Nat.add_comm, Nat.pow_add, Nat.mod_mul_right_div_self]

theorem fpMag_mod (F : FloatFormat) (b : BitVec n) : fpMag F b % 2 ^ F.fracBits = fractionField F b :=
  Nat.mod_mod_of_dvd _ (Nat.pow_dvd_pow 2 (Nat.le_add_left _ _))

theorem signField_eq_toNat (F : FloatFormat) (b : BitVec n) : signField F b = (fpSign F b).toNat :=
  (Nat.toNat_testBit _ _).symm

/-- The sign field is 1 exactly when the sign bit is set. -/
theorem signField_eq_one_iff (F : FloatFormat) (b : BitVec n) : signField F b = 1 ↔ fpSign F b = true := by
  rw [signField_eq_toNat, Bool.toNat_eq_one]

/-- The exponent of the smallest normal number, from the bias. -/
theorem minExp_eq (F : FloatFormat) : F.minExp = 1 - (F.bias : ℤ) := by
  have hpos : 1 ≤ 2 ^ (F.expBits - 1) := Nat.one_le_two_pow
  rw [FloatFormat.minExp, FloatFormat.bias, Nat.cast_sub hpos]
  push_cast
  ring

/-! ### The three kinds of pattern -/

theorem fpDecode_of_isNan (h : isNan F b) :
    fpDecode F b = .nan (decide (fractionField F b < 2 ^ (F.fracBits - 1))) := by
  obtain ⟨hexp, hfrac⟩ := h
  simp only [fpDecode, fpMag_div, fpMag_mod]
  rw [if_pos hexp, if_neg hfrac]

theorem fpDecode_of_isInfinity (h : isInfinity F b) : fpDecode F b = .inf (fpSign F b) := by
  obtain ⟨hexp, hfrac⟩ := h
  simp only [fpDecode, fpMag_div, fpMag_mod]
  rw [if_pos hexp, if_pos hfrac]

theorem two_zpow_sub_natCast (e : ℤ) (k : ℕ) : (2 : ℝ) ^ (e - k) = 2 ^ e / 2 ^ k := by
  rw [zpow_sub₀ two_ne_zero, zpow_natCast]

/-- A finite pattern decodes to a sign, an integer and an exponent that make up its value. -/
theorem fpDecode_of_hasValue {x : ℝ} (h : hasValue F b x) :
    ∃ m e, fpDecode F b = .finite (fpSign F b) m e ∧ x = (-1) ^ (fpSign F b).toNat * (m * (2 : ℝ) ^ e) := by
  obtain ⟨hexp, hx⟩ := h
  simp only [fpDecode, fpMag_div, fpMag_mod]
  rw [if_neg hexp]
  rw [signField_eq_toNat] at hx
  by_cases hsub : exponentField F b = 0
  · rw [if_pos hsub] at hx ⊢
    refine ⟨_, _, rfl, hx.trans ?_⟩
    rw [two_zpow_sub_natCast _ F.fracBits, minExp_eq]
    ring
  · rw [if_neg hsub] at hx ⊢
    refine ⟨_, _, rfl, hx.trans ?_⟩
    have hscale : F.minExp + ((exponentField F b : ℤ) - 1) = exponentField F b - F.bias := by
      rw [minExp_eq]
      ring
    rw [two_zpow_sub_natCast _ F.fracBits, hscale]
    push_cast
    field_simp

end Sys2Proof.Proofs
end

