-- ==== Sys2Proof/Proofs/IntegerRounding.lean ====
section
/-! R456, R490. The integer that `atQuantum` answers is the real number rounded in the mode, and `atQuantum` reports
inexactness rightly. The real-number content lies in `roundsUp`, which says when a mode takes an integer and a fraction
up; negative numbers are the positive ones in the mirrored mode. -/

namespace Sys2Proof.Proofs

open Sys2Proof.Machine Sys2Proof.Laws

/-! ### When an integer is a real number rounded -/

section

variable {x : ℝ} {z : ℤ}

/-- No other integer is nearer than one within a half; another one as near makes a tie. -/
theorem abs_sub_lt_or_tie (h : |z - x| ≤ 1 / 2) {y : ℤ} (hne : y ≠ z) :
    |z - x| < |y - x| ∨ (|z - x| = 1 / 2 ∧ |y - x| = 1 / 2) := by
  have hapart : (1 : ℝ) ≤ |(y : ℝ) - z| := by exact_mod_cast Int.one_le_abs (sub_ne_zero.2 hne)
  have htriangle : |(y : ℝ) - z| ≤ |y - x| + |z - x| := by
    rw [abs_sub_comm (z : ℝ) x]
    exact abs_sub_le _ _ _
  rcases lt_or_ge |z - x| |y - x| with hlt | hge
  · exact .inl hlt
  · exact .inr ⟨by linarith, by linarith⟩

theorem isRoundedInteger_rne (h : |z - x| ≤ 1 / 2) (htie : |z - x| = 1 / 2 → z % 2 = 0) :
    isRoundedInteger .rne x z := by
  intro y
  rcases eq_or_ne y z with rfl | hne
  · exact .inr ⟨rfl, .inl rfl⟩
  · exact (abs_sub_lt_or_tie h hne).imp_right fun ⟨hz, hy⟩ => ⟨hz.trans hy.symm, .inr (htie hz)⟩

theorem isRoundedInteger_rmm (h : |z - x| ≤ 1 / 2) (htie : |z - x| = 1 / 2 → 0 ≤ x ∧ x ≤ z) :
    isRoundedInteger .rmm x z := by
  intro y
  rcases eq_or_ne y z with rfl | hne
  · exact .inr ⟨rfl, le_rfl⟩
  · refine (abs_sub_lt_or_tie h hne).imp_right fun ⟨hz, hy⟩ => ⟨hz.trans hy.symm, ?_⟩
    obtain ⟨hx, hxz⟩ := htie hz
    rw [abs_of_nonneg (sub_nonneg.2 hxz)] at hz
    rw [abs_of_nonneg (hx.trans hxz)]
    rw [abs_eq (by norm_num)] at hy
    exact abs_le.2 (by constructor <;> rcases hy with hy | hy <;> linarith)

theorem isRoundedInteger_rtz (hz : 0 ≤ z) (hle : z ≤ x) (hlt : x < z + 1) : isRoundedInteger .rtz x z := by
  have hz' : (0 : ℝ) ≤ z := by exact_mod_cast hz
  have hx : 0 ≤ x := hz'.trans hle
  refine ⟨by rwa [abs_of_nonneg hz', abs_of_nonneg hx], mul_nonneg hz' hx, fun y hy => ?_⟩
  rw [abs_of_nonneg hx] at hy
  rw [abs_of_nonneg hz']
  have : |y| < z + 1 := by exact_mod_cast hy.trans_lt hlt
  exact_mod_cast Int.lt_add_one_iff.1 this

theorem isRoundedInteger_rdn (hle : z ≤ x) (hlt : x < z + 1) : isRoundedInteger .rdn x z := by
  refine ⟨hle, fun y hy => Int.lt_add_one_iff.1 ?_⟩
  exact_mod_cast hy.trans_lt hlt

theorem isRoundedInteger_rup (hle : x ≤ z) (hlt : z - 1 < x) : isRoundedInteger .rup x z := by
  refine ⟨hle, fun y hy => Int.sub_one_lt_iff.1 ?_⟩
  exact_mod_cast hlt.trans_le hy

/-- The mode that rounds -x as the given one rounds x. -/
def mirror : RoundingMode → RoundingMode
  | .rdn => .rup
  | .rup => .rdn
  | rm => rm

theorem isRoundedInteger_neg {rm : RoundingMode} (h : isRoundedInteger (mirror rm) x z) :
    isRoundedInteger rm (-x) (-z) := by
  have hdist (w : ℤ) : |((-w : ℤ) : ℝ) - -x| = |w - x| := by
    push_cast
    rw [neg_sub_neg, abs_sub_comm]
  cases rm with
  | rne =>
    intro y
    have hy := h (-y)
    rw [← hdist, ← hdist, neg_neg] at hy
    exact hy.imp_right (And.imp_right (Or.imp (by omega) (by omega)))
  | rmm =>
    intro y
    have hy := h (-y)
    rw [← hdist, ← hdist, neg_neg] at hy
    simpa using hy
  | rtz => simpa [isRoundedInteger, mirror] using h
  | rdn =>
    obtain ⟨hle, hleast⟩ := h
    refine ⟨by push_cast; linarith, fun y hy => ?_⟩
    have := hleast (-y) (by push_cast; linarith)
    omega
  | rup =>
    obtain ⟨hle, hgreatest⟩ := h
    refine ⟨by push_cast; linarith, fun y hy => ?_⟩
    have := hgreatest (-y) (by push_cast; linarith)
    omega

/-- A natural number is itself rounded, in every mode. -/
theorem isRoundedInteger_natCast (rm : RoundingMode) (k : ℕ) : isRoundedInteger rm (k : ℝ) k := by
  have hdist : |((k : ℤ) : ℝ) - k| < 1 / 2 := by norm_num
  cases rm with
  | rne => exact isRoundedInteger_rne hdist.le fun htie => absurd htie hdist.ne
  | rmm => exact isRoundedInteger_rmm hdist.le fun htie => absurd htie hdist.ne
  | rtz => exact isRoundedInteger_rtz (by omega) (by simp) (by simp)
  | rdn => exact isRoundedInteger_rdn (by simp) (by simp)
  | rup => exact isRoundedInteger_rup (by simp) (by simp)

end

/-! ### The rounded quotient m / 2^d -/

/-- R456: the mode takes q + f, for an integer q and a fraction f, up to q + 1. -/
def roundsUp (rm : RoundingMode) (q : ℕ) (f : ℝ) : Prop :=
  match rm with
  | .rne => 1 / 2 < f ∨ (f = 1 / 2 ∧ q % 2 = 1)
  | .rtz | .rdn => False
  | .rup => f ≠ 0
  | .rmm => 1 / 2 ≤ f

section

variable {rm : RoundingMode} {q : ℕ} {f : ℝ}

theorem ne_zero_of_roundsUp (h : roundsUp rm q f) : f ≠ 0 := by
  rintro rfl
  cases rm <;> norm_num [roundsUp] at h

theorem isRoundedInteger_of_roundsUp (hnonneg : 0 ≤ f) (hlt : f < 1) (h : roundsUp rm q f) :
    isRoundedInteger rm (q + f) (q + 1 : ℕ) := by
  have hdist : |(((q + 1 : ℕ) : ℤ) : ℝ) - (q + f)| = 1 - f := by
    rw [Int.cast_natCast, Nat.cast_succ, add_sub_add_left_eq_sub, abs_of_pos (sub_pos.2 hlt)]
  cases rm with
  | rne =>
    have hhalf : 1 / 2 ≤ f := h.elim le_of_lt fun ⟨htie, _⟩ => htie.ge
    refine isRoundedInteger_rne (by linarith) fun htie => ?_
    rcases h with hmore | ⟨-, hodd⟩
    · linarith
    · omega
  | rtz | rdn => exact h.elim
  | rup =>
    have hpos : 0 < f := hnonneg.lt_of_ne' h
    refine isRoundedInteger_rup ?_ ?_ <;> push_cast <;> linarith
  | rmm =>
    have hhalf : 1 / 2 ≤ f := h
    refine isRoundedInteger_rmm (by linarith) fun _ => ⟨by positivity, ?_⟩
    push_cast
    linarith

theorem isRoundedInteger_of_not_roundsUp (hnonneg : 0 ≤ f) (hlt : f < 1) (h : ¬ roundsUp rm q f) :
    isRoundedInteger rm (q + f) q := by
  have hdist : |((q : ℤ) : ℝ) - (q + f)| = f := by
    rw [Int.cast_natCast, sub_add_cancel_left, abs_neg, abs_of_nonneg hnonneg]
  cases rm with
  | rne =>
    have hhalf : f ≤ 1 / 2 := not_lt.1 fun hmore => h (.inl hmore)
    refine isRoundedInteger_rne (by linarith) fun htie => ?_
    have hodd : ¬ q % 2 = 1 := fun hodd => h (.inr ⟨by linarith, hodd⟩)
    omega
  | rtz => exact isRoundedInteger_rtz (by omega) (by simpa) (by simpa)
  | rdn => exact isRoundedInteger_rdn (by simpa) (by simpa)
  | rup =>
    have hzero : f = 0 := not_not.1 h
    rw [hzero, add_zero]
    exact isRoundedInteger_natCast .rup q
  | rmm =>
    have hhalf : f < 1 / 2 := not_le.1 h
    exact isRoundedInteger_rmm (by linarith) fun htie => by linarith

end

section

variable {m d t : Nat}

/-- The quotient is the integer part plus the fraction that the remainder makes. -/
theorem div_two_pow_eq (m d : Nat) : (m : ℝ) / 2 ^ d = (m / 2 ^ d : ℕ) + (m % 2 ^ d : ℕ) / 2 ^ d := by
  have hsplit : (m : ℝ) = 2 ^ d * (m / 2 ^ d : ℕ) + (m % 2 ^ d : ℕ) := by
    exact_mod_cast (Nat.div_add_mod m (2 ^ d)).symm
  rw [eq_comm, add_div' _ _ _ (by positivity), mul_comm, ← hsplit]

theorem half_lt_fraction_iff : 2 ^ d < 2 * t ↔ (1 / 2 : ℝ) < t / 2 ^ d := by
  rw [div_lt_div_iff₀ two_pos (by positivity), one_mul, mul_comm (t : ℝ)]
  exact_mod_cast Iff.rfl

theorem half_le_fraction_iff : 2 ^ d ≤ 2 * t ↔ (1 / 2 : ℝ) ≤ t / 2 ^ d := by
  rw [div_le_div_iff₀ two_pos (by positivity), one_mul, mul_comm (t : ℝ)]
  exact_mod_cast Iff.rfl

theorem fraction_eq_half_iff : 2 * t = 2 ^ d ↔ (t / 2 ^ d : ℝ) = 1 / 2 := by
  rw [div_eq_div_iff (by positivity) two_ne_zero, one_mul, mul_comm (t : ℝ)]
  exact_mod_cast Iff.rfl

theorem fraction_ne_zero_iff : t ≠ 0 ↔ (t / 2 ^ d : ℝ) ≠ 0 := by simp

theorem fraction_lt_one (m d : Nat) : ((m % 2 ^ d : ℕ) / 2 ^ d : ℝ) < 1 := by
  rw [div_lt_one (by positivity)]
  exact_mod_cast Nat.mod_lt m (Nat.two_pow_pos d)

/-- `roundShift` of a positive number adds one to the integer part just when the mode rounds its fraction up. -/
theorem roundShift_fst_cases (rm : RoundingMode) (m d : Nat) :
    (roundsUp rm (m / 2 ^ d) ((m % 2 ^ d : ℕ) / 2 ^ d) → (roundShift rm false m d).1 = m / 2 ^ d + 1) ∧
    (¬ roundsUp rm (m / 2 ^ d) ((m % 2 ^ d : ℕ) / 2 ^ d) → (roundShift rm false m d).1 = m / 2 ^ d) := by
  cases rm with
  | rne =>
    simp only [roundsUp, roundShift, ← half_lt_fraction_iff, ← fraction_eq_half_iff, Bool.or_eq_true,
      Bool.and_eq_true, decide_eq_true_eq]
    exact ⟨fun h => if_pos h, fun h => if_neg h⟩
  | rtz | rdn => exact ⟨False.elim, fun _ => rfl⟩
  | rup =>
    simp only [roundsUp, roundShift, ← fraction_ne_zero_iff, Bool.not_false, Bool.true_and, decide_eq_true_eq]
    exact ⟨fun h => if_pos h, fun h => if_neg h⟩
  | rmm =>
    simp only [roundsUp, roundShift, ← half_le_fraction_iff, decide_eq_true_eq]
    exact ⟨fun h => if_pos h, fun h => if_neg h⟩

/-- `roundShift` of a positive number rounds it in the mode. -/
theorem isRoundedInteger_roundShift (rm : RoundingMode) (m d : Nat) :
    isRoundedInteger rm ((m : ℝ) / 2 ^ d) (roundShift rm false m d).1 := by
  obtain ⟨hup, hdown⟩ := roundShift_fst_cases rm m d
  rw [div_two_pow_eq]
  by_cases h : roundsUp rm (m / 2 ^ d) ((m % 2 ^ d : ℕ) / 2 ^ d)
  · rw [hup h]
    exact isRoundedInteger_of_roundsUp (by positivity) (fraction_lt_one m d) h
  · rw [hdown h]
    exact isRoundedInteger_of_not_roundsUp (by positivity) (fraction_lt_one m d) h

/-- A negative number is rounded as its magnitude is in the mirrored mode. -/
theorem roundShift_true (rm : RoundingMode) (m d : Nat) :
    roundShift rm true m d = roundShift (mirror rm) false m d := by
  cases rm <;> rfl

/-- Inexactness is reported just when the integer is not the quotient. -/
theorem roundShift_snd_iff (rm : RoundingMode) (neg : Bool) (m d : Nat) :
    (roundShift rm neg m d).2 = true ↔ ((roundShift rm neg m d).1 : ℝ) ≠ m / 2 ^ d := by
  have hpos (rm : RoundingMode) :
      (roundShift rm false m d).2 = true ↔ ((roundShift rm false m d).1 : ℝ) ≠ m / 2 ^ d := by
    obtain ⟨hup, hdown⟩ := roundShift_fst_cases rm m d
    have hsnd : (roundShift rm false m d).2 = true ↔ ((m % 2 ^ d : ℕ) / 2 ^ d : ℝ) ≠ 0 :=
      decide_eq_true_iff.trans fraction_ne_zero_iff
    rw [hsnd, div_two_pow_eq m d]
    by_cases h : roundsUp rm (m / 2 ^ d) ((m % 2 ^ d : ℕ) / 2 ^ d)
    · rw [hup h, Nat.cast_succ, Ne, Ne, add_right_inj]
      exact iff_of_true (ne_zero_of_roundsUp h) (fraction_lt_one m d).ne'
    · rw [hdown h, Ne, Ne, left_eq_add]
  cases neg with
  | false => exact hpos rm
  | true =>
    rw [roundShift_true]
    exact hpos (mirror rm)

end

/-! ### A number as a multiple of a quantum -/

theorem atQuantum_true (rm : RoundingMode) (m : Nat) (e q : Int) :
    atQuantum rm true m e q = atQuantum (mirror rm) false m e q := by
  simp only [atQuantum, roundShift_true]

/-- m * 2^e counted in quanta of 2^q that divide it is an integer. -/
theorem quanta_of_le {q e : ℤ} (m : ℕ) (h : q ≤ e) : (m : ℝ) * 2 ^ (e - q) = (m * 2 ^ (e - q).toNat : ℕ) := by
  push_cast
  rw [← zpow_natCast, Int.toNat_sub_of_le h]

/-- m * 2^e counted in coarser quanta of 2^q is a quotient by a power of two. -/
theorem quanta_of_lt {q e : ℤ} (m : ℕ) (h : e < q) : (m : ℝ) * 2 ^ (e - q) = m / 2 ^ (q - e).toNat := by
  rw [← neg_sub, zpow_neg, ← div_eq_mul_inv, ← zpow_natCast, Int.toNat_sub_of_le h.le]

/-- The integer that `atQuantum` answers, with the number's sign. -/
def signedAtQuantum (rm : RoundingMode) (neg : Bool) (m : ℕ) (e q : ℤ) : ℤ :=
  if neg then -(atQuantum rm neg m e q).1 else (atQuantum rm neg m e q).1

/-- `atQuantum` rounds the number, counted in quanta, in the mode. -/
theorem isRoundedInteger_signedAtQuantum (rm : RoundingMode) (neg : Bool) (m : ℕ) (e q : ℤ) :
    isRoundedInteger rm ((-1) ^ neg.toNat * (m * (2 : ℝ) ^ (e - q))) (signedAtQuantum rm neg m e q) := by
  have hpos (rm : RoundingMode) : isRoundedInteger rm (m * (2 : ℝ) ^ (e - q)) (atQuantum rm false m e q).1 := by
    unfold atQuantum
    split
    case isTrue hle =>
      rw [quanta_of_le m hle]
      exact isRoundedInteger_natCast rm _
    case isFalse hlt =>
      rw [quanta_of_lt m (not_le.1 hlt)]
      exact isRoundedInteger_roundShift rm m _
  cases neg with
  | false => simpa [signedAtQuantum] using hpos rm
  | true => simpa [signedAtQuantum, atQuantum_true] using isRoundedInteger_neg (hpos (mirror rm))

/-- `atQuantum` reports inexactness just when its integer is not the number. -/
theorem atQuantum_snd_iff (rm : RoundingMode) (neg : Bool) (m : ℕ) (e q : ℤ) :
    (atQuantum rm neg m e q).2 = true ↔
      (signedAtQuantum rm neg m e q : ℝ) ≠ (-1) ^ neg.toNat * (m * (2 : ℝ) ^ (e - q)) := by
  have hmag : (atQuantum rm neg m e q).2 = true ↔ ((atQuantum rm neg m e q).1 : ℝ) ≠ m * (2 : ℝ) ^ (e - q) := by
    unfold atQuantum
    split
    case isTrue hle => simp [quanta_of_le m hle]
    case isFalse hlt =>
      rw [quanta_of_lt m (not_le.1 hlt)]
      exact roundShift_snd_iff rm neg m _
  rw [hmag]
  cases neg <;> simp [signedAtQuantum]

end Sys2Proof.Proofs
end

