-- ==== Sys2Proof/Proofs/FloatToInteger.lean ====
section
/-! O50. `to_int` of R490 by the kind of the pattern, the finite ones through the rounding to an integer; the eight rows
are `to_int` between their limits. -/

namespace Sys2Proof.Proofs

open Sys2Proof.Machine Sys2Proof.Laws

/-! ### `to_int` -/

/-- The conversion of a finite number: the range test is made on the rounded value (R490). -/
theorem fpToInt_of_finite {F : FloatFormat} {n : Nat} {b : BitVec n} {neg : Bool} {m : ℕ} {e : ℤ}
    (h : fpDecode F b = .finite neg m e) (rm : RoundingMode) (lo hi : ℤ) :
    fpToInt F rm lo hi b =
      if hi < signedAtQuantum rm neg m e 0 then (hi, flagNV)
      else if signedAtQuantum rm neg m e 0 < lo then (lo, flagNV)
      else (signedAtQuantum rm neg m e 0, if (atQuantum rm neg m e 0).2 then flagNX else 0) := by
  rw [fpToInt, h]
  rfl

/-- The model's conversion is `to_int` of R490. -/
theorem isToInt_fpToInt (F : FloatFormat) (rm : RoundingMode) (lo hi : ℤ) {n : Nat} (b : BitVec n) :
    isToInt F rm lo hi b (fpToInt F rm lo hi b).1 (fpToInt F rm lo hi b).2 := by
  refine ⟨fun hnan => ?_, fun hinf => ?_, fun x hx => ?_⟩
  · simp only [fpToInt, fpDecode_of_isNan hnan, and_self]
  · simp only [fpToInt, fpDecode_of_isInfinity hinf, signField_eq_one_iff, and_self]
  · obtain ⟨m, e, hdecode, rfl⟩ := fpDecode_of_hasValue hx
    have hround := isRoundedInteger_signedAtQuantum rm (fpSign F b) m e 0
    have hinexact := atQuantum_snd_iff rm (fpSign F b) m e 0
    rw [sub_zero] at hround hinexact
    refine ⟨_, hround, ?_⟩
    rw [fpToInt_of_finite hdecode]
    by_cases habove : hi < signedAtQuantum rm (fpSign F b) m e 0
    · simp only [if_pos habove, and_self]
    by_cases hbelow : signedAtQuantum rm (fpSign F b) m e 0 < lo
    · simp only [if_neg habove, if_pos hbelow, and_self]
    · simp only [if_neg habove, if_neg hbelow]
      exact ⟨trivial, fun h => if_pos (hinexact.2 h), fun h => if_neg (mt hinexact.1 (not_not.2 h))⟩

/-- A conversion raises NV alone, NX alone, or nothing (R490). -/
theorem fpToInt_flags (F : FloatFormat) (rm : RoundingMode) (lo hi : ℤ) {n : Nat} (b : BitVec n) :
    (fpToInt F rm lo hi b).2 = flagNV ∨ (fpToInt F rm lo hi b).2 = flagNX ∨ (fpToInt F rm lo hi b).2 = 0 := by
  cases hdecode : fpDecode F b with
  | nan signaling => simp [fpToInt, hdecode]
  | inf neg => simp [fpToInt, hdecode]
  | finite neg m e =>
    rw [fpToInt_of_finite hdecode]
    split_ifs <;> simp

theorem fpToInt_not_NV_and_NX (F : FloatFormat) (rm : RoundingMode) (lo hi : ℤ) {n : Nat} (b : BitVec n) :
    (fpToInt F rm lo hi b).2 &&& (flagNV ||| flagNX) ≠ flagNV ||| flagNX := by
  rcases fpToInt_flags F rm lo hi b with h | h | h <;> rw [h] <;> decide

/-! ### The eight rows -/

theorem decodeMode_of_toNat {v : RmField} {m : RoundingMode} (h : v.toNat = modeCode m) : decodeMode v = some m := by
  have hv : v = BitVec.ofNat 3 (modeCode m) := by rw [← h, BitVec.ofNat_toNat, BitVec.setWidth_eq]
  rw [hv]
  cases m <;> rfl

/-- The field of a mode resolves to the mode (R39, R452). -/
theorem resolveMode_of_modeField {rm frm : RmField} {m : RoundingMode} (h : modeField rm frm = modeCode m) :
    resolveMode rm frm = some m := by
  unfold modeField at h
  unfold resolveMode
  split
  case isTrue hdyn => exact decodeMode_of_toNat (by rwa [if_pos hdyn] at h)
  case isFalse hstatic => exact decodeMode_of_toNat (by rwa [if_neg hstatic] at h)

theorem wordResult_eq_sextWord (w : Nat) (z : ℤ) : wordResult w z = sextWord w (BitVec.ofInt 32 z) := by
  rw [← wordResult_toInt, BitVec.toInt_ofInt, wordResult, wordResult, Int.bmod_bmod]

/-- The pattern `b` becomes `to_int(m, b, lo, hi)`, put in x[rd], with its flags, of which NV and NX are not both
set. -/
def convertsToInteger (F : FloatFormat) (s : State) (rd : Reg) (m : RoundingMode) {n : Nat} (b : BitVec n) (lo hi : ℤ)
    (put : ℤ → BitVec s.width) (r : Result) : Prop :=
  ∃ z fl, isToInt F m lo hi b z fl ∧ fl &&& (flagNV ||| flagNX) ≠ flagNV ||| flagNX ∧
    setsXFlags s rd (put z) fl (s.pcAfter 4) r

/-- A row that answers `fpToInt` in the resolved mode converts by R490. -/
theorem onRow_convertsToInteger {i : Instr} {s : State} {rm : RmField} {m : RoundingMode}
    (hrow : i.wellFormed s.cfg = true) (hm : resolveMode rm s.frm = some m) (F : FloatFormat) (rd : Reg) {n : Nat}
    (b : BitVec n) (lo hi : ℤ) (put : ℤ → BitVec s.width) :
    convertsToInteger F s rd m b lo hi put
      (onRow i s (withMode i rm s fun m =>
        completeFpX rd (put (fpToInt F m lo hi b).1) (fpToInt F m lo hi b).2 s)) := by
  rw [onRow_ok _ hrow, withMode_ok _ hm]
  exact ⟨_, _, isToInt_fpToInt F m lo hi b, fpToInt_not_NV_and_NX F m lo hi b, completeFpX_setsXFlags rd s _ _⟩

/-- Settles O50: every row is `fpToInt` between its limits in the resolved mode, and that is `to_int`. -/
theorem floatToInteger : Obligations.FloatToInteger := by
  intro s rd rs1 rm m hx hmode
  have hm := resolveMode_of_modeField hmode
  have hput : wordResult s.width = fun z => sextWord s.width (BitVec.ofInt 32 z) :=
    funext (wordResult_eq_sextWord s.width)
  rw [hput]
  refine ⟨fun hF => ?_, fun hD => ?_⟩
  · have hword : (s.cfg.is32or64 && s.cfg.extF) = true := by simp [hx, hF]
    refine ⟨onRow_convertsToInteger (i := .fcvtWS rd rs1 rm) hword hm ..,
      onRow_convertsToInteger (i := .fcvtWuS rd rs1 rm) hword hm .., fun h64 => ?_⟩
    have hlong : (s.cfg.xlen == .rv64 && s.cfg.extF) = true := by simp [h64, hF]
    exact ⟨onRow_convertsToInteger (i := .fcvtLS rd rs1 rm) hlong hm ..,
      onRow_convertsToInteger (i := .fcvtLuS rd rs1 rm) hlong hm ..⟩
  · have hword : (s.cfg.is32or64 && s.cfg.hasD) = true := by simp [hx, hD]
    refine ⟨onRow_convertsToInteger (i := .fcvtWD rd rs1 rm) hword hm ..,
      onRow_convertsToInteger (i := .fcvtWuD rd rs1 rm) hword hm .., fun h64 => ?_⟩
    have hlong : (s.cfg.xlen == .rv64 && s.cfg.hasD) = true := by simp [h64, hD]
    exact ⟨onRow_convertsToInteger (i := .fcvtLD rd rs1 rm) hlong hm ..,
      onRow_convertsToInteger (i := .fcvtLuD rd rs1 rm) hlong hm ..⟩

end Sys2Proof.Proofs
end

