-- ==== Sys2Proof/Proofs/InstructionAlignment.lean ====
section
/-! O6. One predicate on outcomes, closed under every shared operation the meanings are made of: the outcome is not the
trap InstructionAddressMisaligned, and a completion from an even pc leaves an even pc. Each row of `exec` is a
composition of those operations, and its offset, if it has one, is a multiple of two (R602). -/

namespace Sys2Proof.Proofs

open Sys2Proof.Machine Sys2Proof.Laws

/-! ### Even words -/

theorem mod_two_pow_even {w n : Nat} (hw : 0 < w) (h : n % 2 = 0) : n % 2 ^ w % 2 = 0 := by
  rw [Nat.mod_mod_of_dvd _ (dvd_pow_self 2 hw.ne'), h]

theorem setWidth_even {w v : Nat} (hv : 0 < v) {x : BitVec w} (h : x.toNat % 2 = 0) :
    (x.setWidth v).toNat % 2 = 0 := by
  rw [BitVec.toNat_setWidth]
  exact mod_two_pow_even hv h

/-- An immediate encoded without its bit 0 is even (R116). -/
theorem signedImm_one_even {w k : Nat} (hw : 0 < w) (i : BitVec k) : (signedImm w i 1).toNat % 2 = 0 := by
  obtain ⟨v, rfl⟩ := Nat.exists_eq_add_of_lt hw
  have hdouble : i.toInt * 2 ^ 1 % (2 ^ (0 + v + 1) : Nat) = 2 * (i.toInt % 2 ^ v) := by
    rw [← Int.mul_emod_mul_of_pos _ _ two_pos]
    push_cast
    ring_nf
  rw [signedImm_eq, BitVec.toNat_ofInt, hdouble]
  omega

theorem evenTarget_even {w : Nat} (x : BitVec w) : (evenTarget x).toNat % 2 = 0 := by
  rw [evenTarget_toNat]
  omega

/-- An even distance from an even pc is even, also when it wraps (R27). -/
theorem rpc_add_even {s : State} (hpc : s.pc.toNat % 2 = 0) {v : BitVec s.width} (hv : v.toNat % 2 = 0) :
    (s.rpc + v).toNat % 2 = 0 := by
  have hw : 0 < s.width := Nat.zero_lt_of_lt (width_pos s)
  have hrpc : s.rpc.toNat % 2 = 0 := setWidth_even hw hpc
  rw [BitVec.toNat_add]
  exact mod_two_pow_even hw (by omega)

/-! ### Outcomes that respect the alignment of instructions -/

/-- The outcome `r` of an instruction at the pc of `s` respects R602. -/
def staysAligned (s : State) : Result → Prop
  | .next t => s.pc.toNat % 2 = 0 → t.pc.toNat % 2 = 0
  | .fault (.trap e _ _) => e ≠ .instructionAddressMisaligned
  | .refused _ => True

theorem staysAligned_ne_misaligned {s : State} {r : Result} (h : staysAligned s r) (info p : Word) :
    r ≠ .fault (.trap .instructionAddressMisaligned info p) := by
  rintro rfl
  exact h rfl

theorem raise_staysAligned {e : Cause} (he : e ≠ .instructionAddressMisaligned) (info : Word) (s : State) :
    staysAligned s (raise e info s) := he

theorem raiseIllegal_staysAligned (i : Instr) (s : State) : staysAligned s (raiseIllegal i s) :=
  raise_staysAligned (by decide) _ s

theorem reservedEncoding_staysAligned (info : Word) (s : State) : staysAligned s (reservedEncoding info s) := by
  rw [reservedEncoding_eq]
  exact raise_staysAligned (by decide) info s

/-! ### Guards -/

theorem ite_staysAligned {p : Prop} [Decidable p] {s : State} {r q : Result} (hr : staysAligned s r)
    (hq : staysAligned s q) : staysAligned s (if p then r else q) := by
  split
  · exact hr
  · exact hq

theorem onRow_staysAligned {i : Instr} {s : State} {k : Result} (h : staysAligned s k) :
    staysAligned s (onRow i s k) :=
  ite_staysAligned h (raiseIllegal_staysAligned i s)

theorem withMode_staysAligned {i : Instr} {rm : RmField} {s : State} {k : RoundingMode → Result}
    (h : ∀ m, staysAligned s (k m)) : staysAligned s (withMode i rm s k) := by
  unfold withMode
  split
  · exact h _
  · exact raiseIllegal_staysAligned i s

/-- A data access is not a fetch, so its misaligned cause is that of loads or of stores and AMOs (R66, R69). -/
theorem access_staysAligned {kind : Access} (hkind : kind ≠ .fetch) {strict : Bool} {n a : Nat} {s : State} {k : Result}
    (h : staysAligned s k) : staysAligned s (access kind strict n a s k) := by
  have hmisaligned : misalignedCause kind ≠ .instructionAddressMisaligned := by
    cases kind with
    | fetch => exact absurd rfl hkind
    | load | store | amo => decide
  have hfault : accessFaultCause kind ≠ .instructionAddressMisaligned := by cases kind <;> decide
  exact ite_staysAligned (raise_staysAligned hmisaligned _ s)
    (ite_staysAligned trivial (ite_staysAligned (raise_staysAligned hfault _ s) h))

/-! ### Completions -/

section

variable {s : State} {n : Nat}

/-- Advancing by an even length, whatever else the instruction wrote (R12). -/
theorem next_advance_staysAligned (hn : n % 2 = 0) {u : State} (hu : u.pc = s.pc) :
    staysAligned s (.next (u.advance n)) := by
  intro hpc
  rw [← hu] at hpc
  have hlength : (BitVec.ofNat u.width n).toNat % 2 = 0 := by
    rw [BitVec.toNat_ofNat]
    exact mod_two_pow_even (Nat.zero_lt_of_lt (width_pos u)) hn
  rw [advance_pc]
  exact setWidth_even (by decide) (rpc_add_even hpc hlength)

theorem complete_staysAligned (hn : n % 2 = 0) : staysAligned s (complete n s) :=
  next_advance_staysAligned hn rfl

theorem completeX_staysAligned (hn : n % 2 = 0) {u : State} (hu : u.pc = s.pc) {rd : Reg} {w : Nat} {v : BitVec w} :
    staysAligned s (completeX n rd v u) :=
  next_advance_staysAligned hn (by rw [setX_pc, hu])

theorem completeD_staysAligned (hn : n % 2 = 0) {u : State} (hu : u.pc = s.pc) {rd : Reg} {v : Double} :
    staysAligned s (completeD n rd v u) :=
  next_advance_staysAligned hn hu

theorem completeS_staysAligned (hn : n % 2 = 0) {u : State} (hu : u.pc = s.pc) {rd : Reg} {v : Single} :
    staysAligned s (completeS n rd v u) :=
  next_advance_staysAligned hn hu

theorem completeFpX_staysAligned {rd : Reg} {w : Nat} {v : BitVec w} {fl : FpFlags} :
    staysAligned s (completeFpX rd v fl s) :=
  completeX_staysAligned rfl (accrue_pc s fl)

theorem completeFpD_staysAligned {rd : Reg} {r : Double × FpFlags} : staysAligned s (completeFpD rd r s) :=
  completeD_staysAligned rfl (accrue_pc s r.2)

theorem completeFpS_staysAligned {rd : Reg} {r : Single × FpFlags} : staysAligned s (completeFpS rd r s) :=
  completeS_staysAligned rfl (accrue_pc s r.2)

/-! ### Control transfers -/

theorem jump_staysAligned {w : Nat} {t : BitVec w} (ht : s.pc.toNat % 2 = 0 → t.toNat % 2 = 0) :
    staysAligned s (jump t s) :=
  fun hpc => setWidth_even (by decide) (ht hpc)

theorem jumpLink_staysAligned {rd : Reg} {w : Nat} {t : BitVec w} (ht : s.pc.toNat % 2 = 0 → t.toNat % 2 = 0) :
    staysAligned s (jumpLink n rd t s) :=
  fun hpc => setWidth_even (by decide) (ht hpc)

/-- A pc-relative target is even (R304). -/
theorem offset_target_even {k : Nat} (i : BitVec k) (hpc : s.pc.toNat % 2 = 0) :
    (s.rpc + signedImm s.width i 1).toNat % 2 = 0 :=
  rpc_add_even hpc (signedImm_one_even (Nat.zero_lt_of_lt (width_pos s)) i)

theorem branch_staysAligned (hn : n % 2 = 0) {taken : Bool} {k : Nat} {i : BitVec k} :
    staysAligned s (branch n taken s (signedImm s.width i 1)) :=
  ite_staysAligned (jump_staysAligned (offset_target_even i)) (complete_staysAligned hn)

/-! ### Memory and CSRs -/

theorem load_staysAligned {w : Nat} {a : BitVec w} {k : BitVec (8 * n) → Result} (h : ∀ v, staysAligned s (k v)) :
    staysAligned s (load n a s k) :=
  access_staysAligned (by decide) (h _)

theorem store_staysAligned {len : Nat} (hlen : len % 2 = 0) {w u : Nat} {a : BitVec w} {v : BitVec u} :
    staysAligned s (store len n a v s) :=
  access_staysAligned (by decide) (next_advance_staysAligned hlen rfl)

theorem loadReserve_staysAligned {wd : AtomicWidth} {rd rs1 : Reg} : staysAligned s (loadReserve wd rd rs1 s) :=
  access_staysAligned (by decide) (completeX_staysAligned rfl (by rfl))

theorem storeConditional_staysAligned {wd : AtomicWidth} {rd rs1 rs2 : Reg} :
    staysAligned s (storeConditional wd rd rs1 rs2 s) := by
  refine access_staysAligned (by decide) (next_advance_staysAligned rfl ?_)
  rw [setX_pc, apply_ite State.pc, storeBytes_pc, ite_self]

theorem amo_staysAligned {wd : AtomicWidth} {rd rs1 rs2 : Reg}
    {op : BitVec (8 * wd.bytes) → BitVec (8 * wd.bytes) → BitVec (8 * wd.bytes)} :
    staysAligned s (amo wd rd rs1 rs2 op s) :=
  access_staysAligned (by decide) (completeX_staysAligned rfl (storeBytes_pc ..))

theorem csrAccess_staysAligned {i : Instr} {c : CsrNum} {rd : Reg} {reads writes : Bool}
    {new : BitVec s.width → BitVec s.width} : staysAligned s (csrAccess i c rd reads writes s new) := by
  unfold csrAccess
  split
  · exact raiseIllegal_staysAligned i s
  · refine ite_staysAligned (raiseIllegal_staysAligned i s) (next_advance_staysAligned rfl ?_)
    simp only [setX_pc, apply_ite State.pc, csrWrite_pc, csrDraw_pc, ite_self]

end

/-! ### Every row, and the step around it -/

/-- Every instruction is one of the compositions above (R602). -/
theorem exec_staysAligned (i : Instr) (s : State) : staysAligned s (exec i s) := by
  unfold exec
  cases i with
  | illegal => exact raiseIllegal_staysAligned _ s
  | reservedQ0 | reservedQ1a | reservedQ1b => exact reservedEncoding_staysAligned _ s
  | cEbreak | ecall | ebreak => exact raise_staysAligned (by decide) _ s
  | unlisted =>
    exact onRow_staysAligned (ite_staysAligned (complete_staysAligned rfl) (raiseIllegal_staysAligned _ s))
  | cJ => exact onRow_staysAligned (jump_staysAligned (offset_target_even _))
  | cJal | jal => exact onRow_staysAligned (jumpLink_staysAligned (offset_target_even _))
  | cJr => exact onRow_staysAligned (jump_staysAligned fun _ => evenTarget_even _)
  | cJalr | jalr => exact onRow_staysAligned (jumpLink_staysAligned fun _ => evenTarget_even _)
  | cBeqz | cBnez | beq | bne | blt | bge | bltu | bgeu => exact onRow_staysAligned (branch_staysAligned rfl)
  | cNop => exact onRow_staysAligned (complete_staysAligned rfl)
  | fenceI => exact onRow_staysAligned (next_advance_staysAligned rfl rfl)
  | fence pred succ =>
    change staysAligned s (execFence pred succ s)
    rw [execFence_eq]
    exact onRow_staysAligned (complete_staysAligned rfl)
  | cAddi | cLi | cLui | cSlli | cMv | cAdd =>
    exact onRow_staysAligned (ite_staysAligned (complete_staysAligned rfl) (completeX_staysAligned rfl rfl))
  | cSrli64 | cSrai64 | cSlli64 =>
    exact onRow_staysAligned (ite_staysAligned (completeX_staysAligned rfl rfl) (complete_staysAligned rfl))
  | cAddi4spn | cAddiw | cAddi16sp | cSrli | cSrai | cAndi | cSub | cXor | cOr | cAnd | cSubw | cAddw | lui | auipc
  | addi | slti | sltiu | xori | ori | andi | slliRv32 | srliRv32 | sraiRv32 | add | sub | sll | slt | sltu | xor | srl
  | sra | or | and | slliRv64 | srliRv64 | sraiRv64 | addiw | slliw | srliw | sraiw | addw | subw | sllw | srlw | sraw
  | mul | mulh | mulhsu | mulhu | div | divu | rem | remu | mulw | divw | divuw | remw | remuw
  | fmvXW | fclassS | fclassD | fmvXD => exact onRow_staysAligned (completeX_staysAligned rfl rfl)
  | cLq | cLw | cLd | cLqsp | cLwsp | cLdsp | lb | lh | lw | lbu | lhu | lwu | ld =>
    exact onRow_staysAligned (load_staysAligned fun _ => completeX_staysAligned rfl rfl)
  | cFld | cFldsp | fld => exact onRow_staysAligned (load_staysAligned fun _ => completeD_staysAligned rfl rfl)
  | cFlw | cFlwsp | flw => exact onRow_staysAligned (load_staysAligned fun _ => completeS_staysAligned rfl rfl)
  | cFsd | cSq | cSw | cFsw | cSd | cFsdsp | cSqsp | cSwsp | cFswsp | cSdsp | sb | sh | sw | sd | fsw | fsd =>
    exact onRow_staysAligned (store_staysAligned rfl)
  | csrrw | csrrs | csrrc | csrrwi | csrrsi | csrrci => exact onRow_staysAligned csrAccess_staysAligned
  | lrW | lrD => exact onRow_staysAligned loadReserve_staysAligned
  | scW | scD => exact onRow_staysAligned storeConditional_staysAligned
  | amoswapW | amoaddW | amoxorW | amoandW | amoorW | amominW | amomaxW | amominuW | amomaxuW
  | amoswapD | amoaddD | amoxorD | amoandD | amoorD | amominD | amomaxD | amominuD | amomaxuD =>
    exact onRow_staysAligned amo_staysAligned
  | fsgnjS | fsgnjnS | fsgnjxS | fmvWX => exact onRow_staysAligned (completeS_staysAligned rfl rfl)
  | fsgnjD | fsgnjnD | fsgnjxD | fmvDX => exact onRow_staysAligned (completeD_staysAligned rfl rfl)
  | fminS | fmaxS => exact onRow_staysAligned completeFpS_staysAligned
  | fminD | fmaxD => exact onRow_staysAligned completeFpD_staysAligned
  | feqS | fltS | fleS | feqD | fltD | fleD => exact onRow_staysAligned completeFpX_staysAligned
  | fmaddS | fmsubS | fnmsubS | fnmaddS | faddS | fsubS | fmulS | fdivS | fsqrtS | fcvtSW | fcvtSWu | fcvtSL | fcvtSLu
  | fcvtSD => exact onRow_staysAligned (withMode_staysAligned fun _ => completeFpS_staysAligned)
  | fmaddD | fmsubD | fnmsubD | fnmaddD | faddD | fsubD | fmulD | fdivD | fsqrtD | fcvtDS | fcvtDW | fcvtDWu | fcvtDL
  | fcvtDLu => exact onRow_staysAligned (withMode_staysAligned fun _ => completeFpD_staysAligned)
  | fcvtWS | fcvtWuS | fcvtLS | fcvtLuS | fcvtWD | fcvtWuD | fcvtLD | fcvtLuD =>
    exact onRow_staysAligned (withMode_staysAligned fun _ => completeFpX_staysAligned)

/-- A parcel that cannot be fetched is an access fault or a refusal, at any address (R63, R603). -/
theorem fetchParcel_stop_staysAligned {s : State} {a : Nat} {r : Result} (h : fetchParcel s a = .stop r) :
    staysAligned s r := by
  unfold fetchParcel at h
  split_ifs at h <;> cases h
  · trivial
  · exact raise_staysAligned (by decide) _ s
  · trivial

/-- A fetch stops as one of its parcels does, or on bits longer than ILEN (R63, R118). -/
theorem fetch_stop_staysAligned {s : State} {r : Result} (h : fetch s = .stop r) : staysAligned s r := by
  unfold fetch at h
  split at h
  · split_ifs at h
    · cases h
      exact raise_staysAligned (by decide) _ s
    · split at h
      · cases h
      · cases h
        exact fetchParcel_stop_staysAligned ‹_›
  · exact fetchParcel_stop_staysAligned h

theorem step_staysAligned (s : State) : staysAligned s (step s) := by
  unfold step runInstruction
  refine ite_staysAligned trivial ?_
  split
  · exact fetch_stop_staysAligned ‹_›
  next bs _ =>
    cases hdecode : decode s.cfg bs with
    | instr i =>
      rw [decodeFetched_instr hdecode]
      exact exec_staysAligned i s
    | bad e =>
      rw [decodeFetched_bad hdecode]
      exact raise_staysAligned (by decide) _ s

/-- Settles O6: every step and every instruction respects R602. -/
theorem instructionAddressMisalignedIsNeverRaised : Obligations.InstructionAddressMisalignedIsNeverRaised := by
  refine ⟨fun s => staysAligned_ne_misaligned (step_staysAligned s),
    fun i s => staysAligned_ne_misaligned (exec_staysAligned i s), fun i s t hpc hnext => ?_⟩
  have haligned := exec_staysAligned i s
  rw [hnext] at haligned
  exact haligned hpc

end Sys2Proof.Proofs
end

