-- ==== Sys2Proof/Proofs/StepInvariant.lean ====
section
/-! O2, O3, O4, O5. One predicate on outcomes, closed under every shared operation the meanings are made of: a trap names
the pc it was raised at; a completion changes no launch parameter, takes no counter back and keeps the invariant. The
invariant is kept update by update: each named update of a state is a move that keeps it, and moves compose. -/

namespace Sys2Proof.Proofs

open Sys2Proof.Machine Sys2Proof.Laws

/-! ### Moves between states -/

/-- The parameters are the old ones and no counter is below its old value (R7, R41). -/
def keepsParameters (s t : State) : Prop :=
  t.cfg = s.cfg ∧ s.cycle.toNat ≤ t.cycle.toNat ∧ s.time.toNat ≤ t.time.toNat ∧ s.instret.toNat ≤ t.instret.toNat

/-- A move that a completing instruction may make. -/
def movesTo (s t : State) : Prop := keepsParameters s t ∧ (s.Inv → t.Inv)

theorem movesTo_trans {s t u : State} (hst : movesTo s t) (htu : movesTo t u) : movesTo s u := by
  obtain ⟨⟨hcfg, hcycle, htime, hinstret⟩, hinv⟩ := hst
  obtain ⟨⟨hcfg', hcycle', htime', hinstret'⟩, hinv'⟩ := htu
  exact ⟨⟨hcfg'.trans hcfg, hcycle.trans hcycle', htime.trans htime', hinstret.trans hinstret'⟩, hinv' ∘ hinv⟩

/-- The invariant reads the parameters, the integer registers, pc, the reservation, memory and the `dirty` set. -/
theorem inv_congr {s t : State} (hcfg : t.cfg = s.cfg) (hx : t.x = s.x) (hpc : t.pc = s.pc) (hresv : t.resv = s.resv)
    (hmem : t.mem = s.mem) (hdirty : t.dirty = s.dirty) : t.Inv ↔ s.Inv := by
  simp only [State.Inv, State.regsFit, State.zeroHeld, State.pcLegal, State.resvLegal, State.storesCanonical,
    State.storesInRange, State.width, hcfg, hx, hpc, hresv, hmem, hdirty]

/-! ### The named updates -/

section

variable {s : State}

theorem movesTo_refl (s : State) : movesTo s s := ⟨⟨rfl, le_rfl, le_rfl, le_rfl⟩, id⟩

theorem setF_movesTo (r : Reg) (v : FWord) : movesTo s (s.setF r v) := movesTo_refl s

theorem setSingle_movesTo (r : Reg) (v : Single) : movesTo s (s.setSingle r v) := movesTo_refl s

theorem accrue_movesTo (fl : FpFlags) : movesTo s (s.accrue fl) := movesTo_refl s

/-- A value of XLEN bits goes to a register that fits it, and none to the slot of x0 (R21). -/
theorem setX_movesTo (rd : Reg) {w : Nat} (v : BitVec w) (hw : w ≤ s.width) : movesTo s (s.setX rd v) := by
  refine ⟨by simp [keepsParameters], fun ⟨hfit, hzero, hpc, hresv, hcanonical, hrange⟩ =>
    ⟨fun q => ?_, ?_, ?_, ?_, ?_, ?_⟩⟩
  · rw [setX_width]
    by_cases hq : q ≠ rd ∨ q = 0
    · rw [setX_other s rd q v hq]
      exact hfit q
    · obtain ⟨rfl, hq0⟩ := not_or.1 hq |>.imp_left not_not.1
      rw [setX_same s q v hq0, BitVec.toNat_setWidth]
      exact (Nat.mod_le _ _).trans_lt (v.isLt.trans_le (Nat.pow_le_pow_right two_pos hw))
  · exact (setX_other s rd 0 v (.inr rfl)).trans hzero
  · simpa [State.pcLegal] using hpc
  · simpa [State.resvLegal] using hresv
  · simpa [State.storesCanonical] using hcanonical
  · simpa [State.storesInRange] using hrange

/-- A target of XLEN bits that is even when pc was (R26, R62). -/
theorem setPc_movesTo {w : Nat} (p : BitVec w) (hw : w ≤ s.width) (hp : s.pc.toNat % 2 = 0 → p.toNat % 2 = 0) :
    movesTo s (s.setPc p) := by
  refine ⟨⟨rfl, le_rfl, le_rfl, le_rfl⟩, fun ⟨hfit, hzero, ⟨_, heven⟩, hrest⟩ => ⟨hfit, hzero, ⟨?_, ?_⟩, hrest⟩⟩
  · rw [setPc_pc, BitVec.toNat_setWidth, setPc_width]
    exact (Nat.mod_le _ _).trans_lt (p.isLt.trans_le (Nat.pow_le_pow_right two_pos hw))
  · rw [ialign_bytes] at heven ⊢
    exact setWidth_even (by decide) (hp heven)

theorem advance_movesTo {n : Nat} (hn : n % 2 = 0) : movesTo s (s.advance n) := by
  have hlength : (BitVec.ofNat s.width n).toNat % 2 = 0 := by
    rw [BitVec.toNat_ofNat]
    exact mod_two_pow_even (Nat.zero_lt_of_lt (width_pos s)) hn
  exact setPc_movesTo _ le_rfl fun hpc => rpc_add_even hpc hlength

/-- A store keeps or ends the reservation (R413). -/
theorem resvAfterStore_eq_some {r : Option Reservation} {n a : Nat} {q : Reservation}
    (h : resvAfterStore r n a = some q) : r = some q := by
  cases r with
  | none => cases h
  | some p => exact (Option.ite_none_left_eq_some.1 h).2

/-- A store inside the address space (R60, R86). -/
theorem storeBytes_movesTo {n a : Nat} (v : Word) (htop : a + n ≤ 2 ^ s.width) : movesTo s (s.storeBytes n a v) := by
  refine ⟨⟨rfl, le_rfl, le_rfl, le_rfl⟩, fun ⟨hfit, hzero, hpc, hresv, hcanonical, hmem, hdirty⟩ =>
    ⟨hfit, hzero, hpc, fun q hq => hresv q (resvAfterStore_eq_some hq), storeBytes_canonical s n a v hcanonical,
      fun c hc => ?_, fun b hb => ?_⟩⟩
  · rcases mem_write _ _ _ _ _ hc with ⟨-, hlt⟩ | hc
    · exact hlt.trans_le htop
    · exact hmem c hc
  · rcases (addrSet_mem_insertRange _ _ _ _).1 hb with hb | ⟨-, hlt⟩
    · exact hdirty b hb
    · exact hlt.trans_le htop

/-- A reservation of an aligned address of XLEN bits (R45, R412). -/
theorem reserve_movesTo {wd : AtomicWidth} (a : BitVec s.width) (haligned : a.toNat % wd.bytes = 0) :
    movesTo s { s with resv := some { addr := a.setWidth 128, width := wd } } := by
  have ha : (a.setWidth 128).toNat = a.toNat := BitVec.toNat_setWidth_of_le (width_le s)
  refine ⟨⟨rfl, le_rfl, le_rfl, le_rfl⟩, fun ⟨hfit, hzero, hpc, _, hrest⟩ => ⟨hfit, hzero, hpc, fun q hq => ?_, hrest⟩⟩
  cases hq
  exact ⟨by rwa [ha], by rw [ha]; exact a.isLt⟩

/-- An SC ends the reservation and counts its draw (R413). -/
theorem unreserve_movesTo (draws : Nat) : movesTo s { s with resv := none, draws := draws } :=
  ⟨⟨rfl, le_rfl, le_rfl, le_rfl⟩, fun ⟨hfit, hzero, hpc, _, hrest⟩ =>
    ⟨hfit, hzero, hpc, (fun _ hq => nomatch hq), hrest⟩⟩

/-- FENCE.I empties the `dirty` set (R86). -/
theorem clean_movesTo : movesTo s { s with dirty := [] } :=
  ⟨⟨rfl, le_rfl, le_rfl, le_rfl⟩, fun ⟨hfit, hzero, hpc, hresv, ⟨hmem, _⟩, hrange, _⟩ =>
    ⟨hfit, hzero, hpc, hresv, ⟨hmem, rfl⟩, hrange, fun _ hb => by cases hb⟩⟩

/-- A draw takes no counter back (R41). -/
theorem csrDraw_movesTo (c : Csr) : movesTo s (s.csrDraw c) := by
  refine ⟨?_, (inv_congr (by simp) (by simp) (by simp) (by simp) (by simp) (by simp)).2⟩
  cases c with
  | fflags | frm | fcsr => exact ⟨rfl, le_rfl, le_rfl, le_rfl⟩
  | cycle | cycleh => exact ⟨rfl, counterDraw_le s.cfg.counterRead _ _, le_rfl, le_rfl⟩
  | time | timeh => exact ⟨rfl, le_rfl, counterDraw_le s.cfg.counterRead _ _, le_rfl⟩
  | instret | instreth => exact ⟨rfl, le_rfl, le_rfl, counterDraw_le s.cfg.counterRead _ _⟩

theorem csrWrite_movesTo {w : Nat} (v : BitVec w) (c : Csr) : movesTo s (s.csrWrite v c) :=
  ⟨by simp [keepsParameters], (inv_congr (by simp) (by simp) (by simp) (by simp) (by simp) (by simp)).2⟩

theorem ite_movesTo {p : Prop} [Decidable p] {t u : State} (ht : movesTo s t) (hu : movesTo s u) :
    movesTo s (if p then t else u) := by
  split
  · exact ht
  · exact hu

end

/-! ### Outcomes that respect the machine -/

/-- The outcome `r` of an instruction in `s`: a trap carries the pc of `s` (R610), a completion is a move. -/
def respectsMachine (s : State) : Result → Prop
  | .next t => movesTo s t
  | .fault (.trap _ _ p) => p = s.pc
  | .refused _ => True

section

variable {s : State}

theorem raise_respects (e : Cause) (info : Word) (s : State) : respectsMachine s (raise e info s) := rfl

theorem raiseIllegal_respects (i : Instr) (s : State) : respectsMachine s (raiseIllegal i s) := rfl

theorem reservedEncoding_respects (info : Word) (s : State) : respectsMachine s (reservedEncoding info s) := rfl

theorem ite_respects {p : Prop} [Decidable p] {r q : Result} (hr : respectsMachine s r) (hq : respectsMachine s q) :
    respectsMachine s (if p then r else q) := by
  split
  · exact hr
  · exact hq

theorem onRow_respects {i : Instr} {k : Result} (h : respectsMachine s k) : respectsMachine s (onRow i s k) :=
  ite_respects h (raiseIllegal_respects i s)

theorem withMode_respects {i : Instr} {rm : RmField} {k : RoundingMode → Result} (h : ∀ m, respectsMachine s (k m)) :
    respectsMachine s (withMode i rm s k) := by
  unfold withMode
  split
  · exact h _
  · exact raiseIllegal_respects i s

/-- An access goes on only inside the address space, and when strict only at an aligned address (R64, R69). -/
theorem access_respects {kind : Access} {strict : Bool} {n a : Nat} {k : Result}
    (h : a + n ≤ 2 ^ s.width → (strict = true → a % n = 0) → respectsMachine s k) :
    respectsMachine s (access kind strict n a s k) := by
  unfold access
  split_ifs with hmisaligned htop
  · exact raise_respects ..
  · trivial
  · exact raise_respects ..
  · exact h (not_lt.1 htop) fun hstrict => not_not.1 fun ha => hmisaligned ⟨ha, .inl hstrict⟩

/-! ### Completions and control transfers -/

section

variable {n : Nat} {u : State}

/-- An instruction of an even length completes after a move. -/
theorem next_advance_respects (hn : n % 2 = 0) (hu : movesTo s u) : respectsMachine s (.next (u.advance n)) :=
  movesTo_trans hu (advance_movesTo hn)

theorem complete_respects (hn : n % 2 = 0) (hu : movesTo s u) : respectsMachine s (complete n u) :=
  next_advance_respects hn hu

theorem completeX_respects (hn : n % 2 = 0) (hu : movesTo s u) {rd : Reg} {w : Nat} (hw : w ≤ u.width) {v : BitVec w} :
    respectsMachine s (completeX n rd v u) :=
  next_advance_respects hn (movesTo_trans hu (setX_movesTo rd v hw))

theorem completeD_respects (hn : n % 2 = 0) (hu : movesTo s u) {rd : Reg} {v : Double} :
    respectsMachine s (completeD n rd v u) :=
  next_advance_respects hn (movesTo_trans hu (setF_movesTo rd v))

theorem completeS_respects (hn : n % 2 = 0) (hu : movesTo s u) {rd : Reg} {v : Single} :
    respectsMachine s (completeS n rd v u) :=
  next_advance_respects hn (movesTo_trans hu (setSingle_movesTo rd v))

/-- An integer result of an instruction that writes nothing else. -/
theorem result_respects (hn : n % 2 = 0) {rd : Reg} {v : BitVec s.width} : respectsMachine s (completeX n rd v s) :=
  completeX_respects hn (movesTo_refl s) le_rfl

theorem nop_respects (hn : n % 2 = 0) : respectsMachine s (complete n s) := complete_respects hn (movesTo_refl s)

theorem completeFpX_respects {rd : Reg} {v : BitVec s.width} {fl : FpFlags} :
    respectsMachine s (completeFpX rd v fl s) :=
  completeX_respects rfl (accrue_movesTo fl) le_rfl

theorem completeFpD_respects {rd : Reg} {r : Double × FpFlags} : respectsMachine s (completeFpD rd r s) :=
  completeD_respects rfl (accrue_movesTo r.2)

theorem completeFpS_respects {rd : Reg} {r : Single × FpFlags} : respectsMachine s (completeFpS rd r s) :=
  completeS_respects rfl (accrue_movesTo r.2)

theorem jump_respects {p : BitVec s.width} (hp : s.pc.toNat % 2 = 0 → p.toNat % 2 = 0) :
    respectsMachine s (jump p s) :=
  setPc_movesTo p le_rfl hp

theorem jumpLink_respects {rd : Reg} {p : BitVec s.width} (hp : s.pc.toNat % 2 = 0 → p.toNat % 2 = 0) :
    respectsMachine s (jumpLink n rd p s) :=
  movesTo_trans (setX_movesTo rd _ le_rfl) (setPc_movesTo p (setX_width ..).ge (by rwa [setX_pc]))

theorem branch_respects (hn : n % 2 = 0) {taken : Bool} {k : Nat} {i : BitVec k} :
    respectsMachine s (branch n taken s (signedImm s.width i 1)) :=
  ite_respects (jump_respects (offset_target_even i)) (nop_respects hn)

end

/-! ### Memory and CSRs -/

theorem load_respects {n w : Nat} {a : BitVec w} {k : BitVec (8 * n) → Result} (h : ∀ v, respectsMachine s (k v)) :
    respectsMachine s (load n a s k) :=
  access_respects fun _ _ => h _

theorem store_respects {len n : Nat} (hlen : len % 2 = 0) {w u : Nat} {a : BitVec w} {v : BitVec u} :
    respectsMachine s (store len n a v s) :=
  access_respects fun htop _ => next_advance_respects hlen (storeBytes_movesTo _ htop)

theorem loadReserve_respects {wd : AtomicWidth} {rd rs1 : Reg} : respectsMachine s (loadReserve wd rd rs1 s) :=
  access_respects fun _ haligned => completeX_respects rfl (reserve_movesTo _ (haligned rfl)) (le_of_eq rfl)

theorem storeConditional_respects {wd : AtomicWidth} {rd rs1 rs2 : Reg} :
    respectsMachine s (storeConditional wd rd rs1 rs2 s) := by
  refine access_respects fun htop _ => next_advance_respects rfl ?_
  have hstored := ite_movesTo (p := scSucceeds s wd ((s.rx rs1).setWidth 128) = true)
    (storeBytes_movesTo ((s.rx rs2).setWidth 128) htop) (movesTo_refl s)
  refine movesTo_trans (movesTo_trans hstored (unreserve_movesTo (s.draws + 1))) (setX_movesTo rd _ (le_of_eq ?_))
  obtain ⟨⟨hcfg, -⟩, -⟩ := hstored
  exact congrArg (Xlen.bits ∘ Config.xlen) hcfg.symm

theorem amo_respects {wd : AtomicWidth} {rd rs1 rs2 : Reg}
    {op : BitVec (8 * wd.bytes) → BitVec (8 * wd.bytes) → BitVec (8 * wd.bytes)} :
    respectsMachine s (amo wd rd rs1 rs2 op s) :=
  access_respects fun htop _ => completeX_respects rfl (storeBytes_movesTo _ htop) (le_of_eq rfl)

theorem csrAccess_respects {i : Instr} {n : CsrNum} {rd : Reg} {reads writes : Bool}
    {new : BitVec s.width → BitVec s.width} : respectsMachine s (csrAccess i n rd reads writes s new) := by
  unfold csrAccess
  split
  · exact raiseIllegal_respects i s
  next c _ =>
    have hread := ite_movesTo (p := reads = true) (csrDraw_movesTo c) (movesTo_refl s)
    have hwritten (v : BitVec s.width) :=
      ite_movesTo (p := writes = true) (movesTo_trans hread (csrWrite_movesTo v c)) hread
    refine ite_respects (raiseIllegal_respects i s) (next_advance_respects rfl (movesTo_trans (hwritten _)
      (setX_movesTo rd _ (le_of_eq ?_))))
    obtain ⟨⟨hcfg, -⟩, -⟩ := hwritten
      (new ((if reads then s.csrDraw c else s).csrValue s.width c))
    exact congrArg (Xlen.bits ∘ Config.xlen) hcfg.symm

end

/-! ### Every row, and the step around it -/

/-- Every instruction is a composition of the operations above. -/
theorem exec_respects (i : Instr) (s : State) : respectsMachine s (exec i s) := by
  unfold exec
  cases i with
  | illegal => exact raiseIllegal_respects _ s
  | reservedQ0 | reservedQ1a | reservedQ1b => exact reservedEncoding_respects _ s
  | cEbreak | ecall | ebreak => exact raise_respects _ _ s
  | unlisted => exact onRow_respects (ite_respects (nop_respects rfl) (raiseIllegal_respects _ s))
  | cJ => exact onRow_respects (jump_respects (offset_target_even _))
  | cJal | jal => exact onRow_respects (jumpLink_respects (offset_target_even _))
  | cJr => exact onRow_respects (jump_respects fun _ => evenTarget_even _)
  | cJalr | jalr => exact onRow_respects (jumpLink_respects fun _ => evenTarget_even _)
  | cBeqz | cBnez | beq | bne | blt | bge | bltu | bgeu => exact onRow_respects (branch_respects rfl)
  | cNop => exact onRow_respects (nop_respects rfl)
  | fenceI => exact onRow_respects (complete_respects rfl clean_movesTo)
  | fence pred succ =>
    change respectsMachine s (execFence pred succ s)
    rw [execFence_eq]
    exact onRow_respects (nop_respects rfl)
  | cAddi | cLi | cLui | cSlli | cMv | cAdd =>
    exact onRow_respects (ite_respects (nop_respects rfl) (result_respects rfl))
  | cSrli64 | cSrai64 | cSlli64 => exact onRow_respects (ite_respects (result_respects rfl) (nop_respects rfl))
  | cAddi4spn | cAddiw | cAddi16sp | cSrli | cSrai | cAndi | cSub | cXor | cOr | cAnd | cSubw | cAddw | lui | auipc
  | addi | slti | sltiu | xori | ori | andi | slliRv32 | srliRv32 | sraiRv32 | add | sub | sll | slt | sltu | xor | srl
  | sra | or | and | slliRv64 | srliRv64 | sraiRv64 | addiw | slliw | srliw | sraiw | addw | subw | sllw | srlw | sraw
  | mul | mulh | mulhsu | mulhu | div | divu | rem | remu | mulw | divw | divuw | remw | remuw
  | fmvXW | fclassS | fclassD | fmvXD => exact onRow_respects (result_respects rfl)
  | cLq | cLw | cLd | cLqsp | cLwsp | cLdsp | lb | lh | lw | lbu | lhu | lwu | ld =>
    exact onRow_respects (load_respects fun _ => result_respects rfl)
  | cFld | cFldsp | fld =>
    exact onRow_respects (load_respects fun _ => completeD_respects rfl (movesTo_refl s))
  | cFlw | cFlwsp | flw =>
    exact onRow_respects (load_respects fun _ => completeS_respects rfl (movesTo_refl s))
  | cFsd | cSq | cSw | cFsw | cSd | cFsdsp | cSqsp | cSwsp | cFswsp | cSdsp | sb | sh | sw | sd | fsw | fsd =>
    exact onRow_respects (store_respects rfl)
  | csrrw | csrrs | csrrc | csrrwi | csrrsi | csrrci => exact onRow_respects csrAccess_respects
  | lrW | lrD => exact onRow_respects loadReserve_respects
  | scW | scD => exact onRow_respects storeConditional_respects
  | amoswapW | amoaddW | amoxorW | amoandW | amoorW | amominW | amomaxW | amominuW | amomaxuW
  | amoswapD | amoaddD | amoxorD | amoandD | amoorD | amominD | amomaxD | amominuD | amomaxuD =>
    exact onRow_respects amo_respects
  | fsgnjS | fsgnjnS | fsgnjxS | fmvWX => exact onRow_respects (completeS_respects rfl (movesTo_refl s))
  | fsgnjD | fsgnjnD | fsgnjxD | fmvDX => exact onRow_respects (completeD_respects rfl (movesTo_refl s))
  | fminS | fmaxS => exact onRow_respects completeFpS_respects
  | fminD | fmaxD => exact onRow_respects completeFpD_respects
  | feqS | fltS | fleS | feqD | fltD | fleD => exact onRow_respects completeFpX_respects
  | fmaddS | fmsubS | fnmsubS | fnmaddS | faddS | fsubS | fmulS | fdivS | fsqrtS | fcvtSW | fcvtSWu | fcvtSL | fcvtSLu
  | fcvtSD => exact onRow_respects (withMode_respects fun _ => completeFpS_respects)
  | fmaddD | fmsubD | fnmsubD | fnmaddD | faddD | fsubD | fmulD | fdivD | fsqrtD | fcvtDS | fcvtDW | fcvtDWu | fcvtDL
  | fcvtDLu => exact onRow_respects (withMode_respects fun _ => completeFpD_respects)
  | fcvtWS | fcvtWuS | fcvtLS | fcvtLuS | fcvtWD | fcvtWuD | fcvtLD | fcvtLuD =>
    exact onRow_respects (withMode_respects fun _ => completeFpX_respects)

/-- A parcel that cannot be fetched is an access fault at pc or a refusal (R63, R603). -/
theorem fetchParcel_stop_respects {s : State} {a : Nat} {r : Result} (h : fetchParcel s a = .stop r) :
    respectsMachine s r := by
  unfold fetchParcel at h
  split_ifs at h <;> cases h
  · trivial
  · exact raise_respects _ _ s
  · trivial

/-- A fetch stops as one of its parcels does, or on bits longer than ILEN (R63, R118). -/
theorem fetch_stop_respects {s : State} {r : Result} (h : fetch s = .stop r) : respectsMachine s r := by
  unfold fetch at h
  split at h
  · split_ifs at h
    · cases h
      exact raise_respects _ _ s
    · split at h
      · cases h
      · cases h
        exact fetchParcel_stop_respects ‹_›
  · exact fetchParcel_stop_respects h

theorem step_respects (s : State) : respectsMachine s (step s) := by
  unfold step runInstruction
  refine ite_respects trivial ?_
  split
  · exact fetch_stop_respects ‹_›
  next bs _ =>
    cases hdecode : decode s.cfg bs with
    | instr i =>
      rw [decodeFetched_instr hdecode]
      exact exec_respects i s
    | bad e =>
      rw [decodeFetched_bad hdecode]
      exact raise_respects _ _ s

/-- Settles O3: a step that goes on is a move, and a move keeps the invariant. -/
theorem everyStepKeepsTheInvariant : Obligations.EveryStepKeepsTheInvariant := by
  intro s t hinv hstep
  have hmoves := step_respects s
  rw [hstep] at hmoves
  exact hmoves.2 hinv

/-- Settles O4: a move keeps the parameters and takes no counter back. -/
theorem stepsKeepConfigurationAndCountersNeverGoBack : Obligations.StepsKeepConfigurationAndCountersNeverGoBack := by
  intro s t hstep
  have hmoves := step_respects s
  rw [hstep] at hmoves
  exact hmoves.1

/-- Settles O5: every trap of a step is raised at its pc. -/
theorem trapsCarryThePcOfTheRaisingInstruction : Obligations.TrapsCarryThePcOfTheRaisingInstruction := by
  intro s e info p hstep
  have htrap := step_respects s
  rw [hstep] at htrap
  exact htrap

/-! ### The state that reset leaves -/

theorem reset_getX_fits (r : Reg) : (State.reset.x[r.toNat]'r.isLt).toNat < 2 ^ State.reset.width := by
  revert r
  decide

/-- Settles O2: the conditions on registers are finite, there is no reservation, and no byte is written or dirty. -/
theorem invariantHoldsAtReset : Obligations.InvariantHoldsAtReset := by
  refine ⟨reset_getX_fits, rfl, ⟨by decide, rfl⟩, fun q hq => ?_, ⟨rfl, rfl⟩, fun c hc => ?_, fun a ha => ?_⟩
  · cases hq
  · cases hc
  · cases ha

end Sys2Proof.Proofs
end

