-- ==== Sys2Proof/Proofs/WordEncoding.lean ====
section
/-! The 32-bit half of O7 and O8. Each format puts its operands into fields that `wordRow` reads back, and a word is its
fields put together in the format of its opcode; each row function is then compared with the encoder row by row. -/

namespace Sys2Proof.Proofs

open Sys2Proof.Machine Sys2Proof.Laws

/-! ### Fields of a concatenation -/

theorem toNat_append_add {m n : Nat} (x : BitVec m) (y : BitVec n) : (x ++ y).toNat = x.toNat * 2 ^ n + y.toNat := by
  rw [BitVec.toNat_append, Nat.shiftLeft_eq, Nat.mul_comm, ← Nat.two_pow_add_eq_or_of_lt y.isLt, Nat.mul_comm]

theorem extractLsb_toNat_div {n : Nat} (hi lo : Nat) (x : BitVec n) :
    (x.extractLsb hi lo).toNat = x.toNat / 2 ^ lo % 2 ^ (hi - lo + 1) := by
  rw [BitVec.extractLsb_toNat, Nat.shiftRight_eq_div_pow]

section

variable (op f7 : BitVec 7) (f5 rd rs1 rs2 rs3 : Reg) (f3 : BitVec 3) (fmt : BitVec 2) (aq rl : Bool)

/-- The fields of an I-type word (R115). -/
theorem iType_fields (imm : BitVec 12) :
    ∃ w, iType imm rs1 f3 rd op = .word w ∧ w.extractLsb 6 0 = op ∧ w.extractLsb 11 7 = rd ∧
      w.extractLsb 14 12 = f3 ∧ w.extractLsb 19 15 = rs1 ∧ w.extractLsb 31 20 = imm := by
  refine ⟨_, rfl, ?_, ?_, ?_, ?_, ?_⟩ <;> apply BitVec.eq_of_toNat_eq <;>
    simp only [toNat_append_add, extractLsb_toNat_div] <;> omega

/-- The fields of an R-type word (R115). -/
theorem rType_fields :
    ∃ w, rType f7 rs2 rs1 f3 rd op = .word w ∧ w.extractLsb 6 0 = op ∧ w.extractLsb 11 7 = rd ∧
      w.extractLsb 14 12 = f3 ∧ w.extractLsb 19 15 = rs1 ∧ w.extractLsb 24 20 = rs2 ∧ w.extractLsb 31 25 = f7 := by
  refine ⟨_, rfl, ?_, ?_, ?_, ?_, ?_, ?_⟩ <;> apply BitVec.eq_of_toNat_eq <;>
    simp only [toNat_append_add, extractLsb_toNat_div] <;> omega

/-- The fields of an R4-type word (R115). -/
theorem r4Type_fields :
    ∃ w, r4Type rs3 fmt rs2 rs1 f3 rd op = .word w ∧ w.extractLsb 6 0 = op ∧ w.extractLsb 11 7 = rd ∧
      w.extractLsb 14 12 = f3 ∧ w.extractLsb 19 15 = rs1 ∧ w.extractLsb 24 20 = rs2 ∧ w.extractLsb 26 25 = fmt ∧
      w.extractLsb 31 27 = rs3 := by
  refine ⟨_, rfl, ?_, ?_, ?_, ?_, ?_, ?_, ?_⟩ <;> apply BitVec.eq_of_toNat_eq <;>
    simp only [toNat_append_add, extractLsb_toNat_div] <;> omega

/-- The fields of an atomic word (R119). -/
theorem amoType_fields :
    ∃ w, amoType f5 aq rl rs2 rs1 f3 rd op = .word w ∧ w.extractLsb 6 0 = op ∧ w.extractLsb 11 7 = rd ∧
      w.extractLsb 14 12 = f3 ∧ w.extractLsb 19 15 = rs1 ∧ w.extractLsb 24 20 = rs2 ∧ w.getLsbD 25 = rl ∧
      w.getLsbD 26 = aq ∧ w.extractLsb 31 27 = f5 := by
  refine ⟨_, rfl, ?_, ?_, ?_, ?_, ?_, ?_, ?_, ?_⟩
  case refine_6 | refine_7 => simp only [BitVec.getLsbD_append]; simp
  all_goals
    apply BitVec.eq_of_toNat_eq
    simp only [toNat_append_add, extractLsb_toNat_div]
    omega

/-- The fields of a U-type word (R115). -/
theorem uType_fields (imm : BitVec 20) :
    ∃ w, uType imm rd op = .word w ∧ w.extractLsb 6 0 = op ∧ w.extractLsb 11 7 = rd ∧ w.extractLsb 31 12 = imm := by
  refine ⟨_, rfl, ?_, ?_, ?_⟩ <;> apply BitVec.eq_of_toNat_eq <;>
    simp only [toNat_append_add, extractLsb_toNat_div] <;> omega

/-- The fields of an S-type word (R115): those of the R-type word with the halves of the immediate in f7 and rd. -/
theorem sType_fields (imm : BitVec 12) :
    ∃ w, sType imm rs2 rs1 f3 op = .word w ∧ w.extractLsb 6 0 = op ∧ w.extractLsb 14 12 = f3 ∧
      w.extractLsb 19 15 = rs1 ∧ w.extractLsb 24 20 = rs2 ∧ w.extractLsb 31 25 ++ w.extractLsb 11 7 = imm := by
  obtain ⟨w, hw, hop, hlow, hf3, hrs1, hrs2, hhigh⟩ :=
    rType_fields op (imm.extractLsb 11 5) (imm.extractLsb 4 0) rs1 rs2 f3
  refine ⟨w, hw, hop, hf3, hrs1, hrs2, ?_⟩
  rw [hlow, hhigh]
  apply BitVec.eq_of_toNat_eq
  simp only [toNat_append_add, extractLsb_toNat_div]
  omega

/-- A B-type word is the R-type word with the pieces of the offset in f7 and rd (R115). -/
theorem bType_eq_rType (offset : BitVec 12) (rs2 rs1 : Reg) (f3 : BitVec 3) (op : BitVec 7) :
    bType offset rs2 rs1 f3 op =
      rType (offset.extractLsb 11 11 ++ offset.extractLsb 9 4) rs2 rs1 f3
        (offset.extractLsb 3 0 ++ offset.extractLsb 10 10) op := by
  refine congrArg Encoding.word (BitVec.eq_of_toNat_eq ?_)
  simp only [toNat_append_add]
  ring

/-- The fields of a B-type word (R115), the offset bit by bit. -/
theorem bType_fields (offset : BitVec 12) :
    ∃ w, bType offset rs2 rs1 f3 op = .word w ∧ w.extractLsb 6 0 = op ∧ w.extractLsb 14 12 = f3 ∧
      w.extractLsb 19 15 = rs1 ∧ w.extractLsb 24 20 = rs2 ∧
      w.extractLsb 31 31 ++ w.extractLsb 7 7 ++ w.extractLsb 30 25 ++ w.extractLsb 11 8 = offset := by
  obtain ⟨w, hw, hop, -, hf3, hrs1, hrs2, -⟩ := rType_fields op (offset.extractLsb 11 11 ++ offset.extractLsb 9 4)
    (offset.extractLsb 3 0 ++ offset.extractLsb 10 10) rs1 rs2 f3
  rw [← bType_eq_rType] at hw
  refine ⟨w, hw, hop, hf3, hrs1, hrs2, BitVec.eq_of_getLsbD_eq fun k hk => ?_⟩
  cases hw
  interval_cases k <;> simp only [BitVec.getLsbD_append, BitVec.getLsbD_extractLsb] <;> rfl

/-- The fields of a J-type word (R115), those of the U-type word with the pieces of the offset as immediate. -/
theorem jType_fields (offset : BitVec 20) :
    ∃ w, jType offset rd op = .word w ∧ w.extractLsb 6 0 = op ∧ w.extractLsb 11 7 = rd ∧
      w.extractLsb 31 31 ++ w.extractLsb 19 12 ++ w.extractLsb 20 20 ++ w.extractLsb 30 21 = offset := by
  obtain ⟨w, hw, hop, hrd, -⟩ := uType_fields op rd (offset.extractLsb 19 19 ++ offset.extractLsb 9 0 ++
    offset.extractLsb 10 10 ++ offset.extractLsb 18 11)
  refine ⟨w, hw, hop, hrd, BitVec.eq_of_getLsbD_eq fun k hk => ?_⟩
  cases hw
  interval_cases k <;> simp only [BitVec.getLsbD_append, BitVec.getLsbD_extractLsb] <;> rfl

end

/-! ### A word is its fields, in every format -/

section

variable (w : BitVec 32)

theorem rType_of_fields :
    rType (w.extractLsb 31 25) (w.extractLsb 24 20) (w.extractLsb 19 15) (w.extractLsb 14 12) (w.extractLsb 11 7)
      (w.extractLsb 6 0) = .word w := by
  unfold rType BitVec.extractLsb
  iterate 5 rw [BitVec.extractLsb'_append_extractLsb'_eq_extractLsb' (by rfl)]
  exact congrArg Encoding.word BitVec.extractLsb'_eq_self

theorem r4Type_of_fields :
    r4Type (w.extractLsb 31 27) (w.extractLsb 26 25) (w.extractLsb 24 20) (w.extractLsb 19 15) (w.extractLsb 14 12)
      (w.extractLsb 11 7) (w.extractLsb 6 0) = .word w := by
  unfold r4Type BitVec.extractLsb
  iterate 6 rw [BitVec.extractLsb'_append_extractLsb'_eq_extractLsb' (by rfl)]
  exact congrArg Encoding.word BitVec.extractLsb'_eq_self

theorem iType_of_fields :
    iType (w.extractLsb 31 20) (w.extractLsb 19 15) (w.extractLsb 14 12) (w.extractLsb 11 7) (w.extractLsb 6 0) =
      .word w := by
  unfold iType BitVec.extractLsb
  iterate 4 rw [BitVec.extractLsb'_append_extractLsb'_eq_extractLsb' (by rfl)]
  exact congrArg Encoding.word BitVec.extractLsb'_eq_self

theorem uType_of_fields : uType (w.extractLsb 31 12) (w.extractLsb 11 7) (w.extractLsb 6 0) = .word w := by
  unfold uType BitVec.extractLsb
  iterate 2 rw [BitVec.extractLsb'_append_extractLsb'_eq_extractLsb' (by rfl)]
  exact congrArg Encoding.word BitVec.extractLsb'_eq_self

/-- The aq and rl bits of an atomic word stand where an R4-type word has fmt (R119). -/
theorem amoType_of_fields :
    amoType (w.extractLsb 31 27) (w.getLsbD 26) (w.getLsbD 25) (w.extractLsb 24 20) (w.extractLsb 19 15)
      (w.extractLsb 14 12) (w.extractLsb 11 7) (w.extractLsb 6 0) = .word w := by
  have hfmt : BitVec.ofBool (w.getLsbD 26) ++ BitVec.ofBool (w.getLsbD 25) = w.extractLsb 26 25 := by
    refine BitVec.eq_of_getLsbD_eq fun k hk => ?_
    interval_cases k <;> simp only [BitVec.getLsbD_append, BitVec.getLsbD_extractLsb, BitVec.getLsbD_ofBool] <;> rfl
  rw [← r4Type_of_fields w, ← hfmt]
  refine congrArg Encoding.word (BitVec.eq_of_toNat_eq ?_)
  simp only [toNat_append_add]
  ring

theorem sType_of_fields :
    sType (w.extractLsb 31 25 ++ w.extractLsb 11 7) (w.extractLsb 24 20) (w.extractLsb 19 15) (w.extractLsb 14 12)
      (w.extractLsb 6 0) = .word w := by
  have hhalves (a : BitVec 7) (b : BitVec 5) : (a ++ b).extractLsb 11 5 = a ∧ (a ++ b).extractLsb 4 0 = b := by
    constructor <;> apply BitVec.eq_of_toNat_eq <;> simp only [toNat_append_add, extractLsb_toNat_div] <;> omega
  obtain ⟨hhigh, hlow⟩ := hhalves (w.extractLsb 31 25) (w.extractLsb 11 7)
  rw [sType, hhigh, hlow]
  exact rType_of_fields w

/-- The pieces of an offset of 12 bits in a B-type word (R115). -/
theorem bType_pieces (a b : BitVec 1) (c : BitVec 6) (d : BitVec 4) :
    (a ++ b ++ c ++ d).extractLsb 11 11 = a ∧ (a ++ b ++ c ++ d).extractLsb 10 10 = b ∧
      (a ++ b ++ c ++ d).extractLsb 9 4 = c ∧ (a ++ b ++ c ++ d).extractLsb 3 0 = d := by
  refine ⟨?_, ?_, ?_, ?_⟩ <;> apply BitVec.eq_of_toNat_eq <;>
    simp only [toNat_append_add, extractLsb_toNat_div] <;> omega

theorem bType_of_fields :
    bType (w.extractLsb 31 31 ++ w.extractLsb 7 7 ++ w.extractLsb 30 25 ++ w.extractLsb 11 8) (w.extractLsb 24 20)
      (w.extractLsb 19 15) (w.extractLsb 14 12) (w.extractLsb 6 0) = .word w := by
  obtain ⟨h11, h10, h9, h3⟩ :=
    bType_pieces (w.extractLsb 31 31) (w.extractLsb 7 7) (w.extractLsb 30 25) (w.extractLsb 11 8)
  rw [bType_eq_rType, h11, h10, h9, h3]
  have hhigh : w.extractLsb 31 31 ++ w.extractLsb 30 25 = w.extractLsb 31 25 :=
    BitVec.extractLsb'_append_extractLsb'_eq_extractLsb' rfl
  have hlow : w.extractLsb 11 8 ++ w.extractLsb 7 7 = w.extractLsb 11 7 :=
    BitVec.extractLsb'_append_extractLsb'_eq_extractLsb' rfl
  rw [hhigh, hlow]
  exact rType_of_fields w

/-- The pieces of an offset of 20 bits in a J-type word (R115). -/
theorem jType_pieces (a : BitVec 1) (b : BitVec 8) (c : BitVec 1) (d : BitVec 10) :
    (a ++ b ++ c ++ d).extractLsb 19 19 = a ∧ (a ++ b ++ c ++ d).extractLsb 18 11 = b ∧
      (a ++ b ++ c ++ d).extractLsb 10 10 = c ∧ (a ++ b ++ c ++ d).extractLsb 9 0 = d := by
  refine ⟨?_, ?_, ?_, ?_⟩ <;> apply BitVec.eq_of_toNat_eq <;>
    simp only [toNat_append_add, extractLsb_toNat_div] <;> omega

theorem jType_of_fields :
    jType (w.extractLsb 31 31 ++ w.extractLsb 19 12 ++ w.extractLsb 20 20 ++ w.extractLsb 30 21) (w.extractLsb 11 7)
      (w.extractLsb 6 0) = .word w := by
  obtain ⟨h19, h18, h10, h9⟩ :=
    jType_pieces (w.extractLsb 31 31) (w.extractLsb 19 12) (w.extractLsb 20 20) (w.extractLsb 30 21)
  rw [jType, h19, h18, h10, h9]
  unfold BitVec.extractLsb
  iterate 5 rw [BitVec.extractLsb'_append_extractLsb'_eq_extractLsb' (by rfl)]
  exact congrArg Encoding.word BitVec.extractLsb'_eq_self

end

/-! ### What each major opcode selects (R117) -/

/-- The row that the bits of an encoding match, when it is a word. -/
def rowOf (c : Config) : Encoding → Option Instr
  | .parcel _ => none
  | .word w => wordRow c w

section

variable (c : Config) (f7 : BitVec 7) (f5 rd rs1 rs2 rs3 : Reg) (f3 : BitVec 3) (fmt : BitVec 2) (aq rl : Bool)

theorem rowOf_load (imm : BitVec 12) : rowOf c (iType imm rs1 f3 rd 0b0000011) = loadRow f3 imm rs1 rd := by
  obtain ⟨w, hw, hop, hrd, hf3, hrs1, himm⟩ := iType_fields 0b0000011 rd rs1 f3 imm
  rw [hw]
  simp [rowOf, wordRow, hop, hrd, hf3, hrs1, himm]

theorem rowOf_loadFp (imm : BitVec 12) : rowOf c (iType imm rs1 f3 rd 0b0000111) = loadFpRow f3 imm rs1 rd := by
  obtain ⟨w, hw, hop, hrd, hf3, hrs1, himm⟩ := iType_fields 0b0000111 rd rs1 f3 imm
  rw [hw]
  simp [rowOf, wordRow, hop, hrd, hf3, hrs1, himm]

theorem rowOf_miscMem (imm : BitVec 12) : rowOf c (iType imm rs1 f3 rd 0b0001111) = miscMemRow f3 imm rs1 rd := by
  obtain ⟨w, hw, hop, hrd, hf3, hrs1, himm⟩ := iType_fields 0b0001111 rd rs1 f3 imm
  rw [hw]
  simp [rowOf, wordRow, hop, hrd, hf3, hrs1, himm]

theorem rowOf_opImm (imm : BitVec 12) : rowOf c (iType imm rs1 f3 rd 0b0010011) = opImmRow c f3 imm rs1 rd := by
  obtain ⟨w, hw, hop, hrd, hf3, hrs1, himm⟩ := iType_fields 0b0010011 rd rs1 f3 imm
  rw [hw]
  simp [rowOf, wordRow, hop, hrd, hf3, hrs1, himm]

theorem rowOf_opImm32 (imm : BitVec 12) : rowOf c (iType imm rs1 f3 rd 0b0011011) = opImm32Row f3 imm rs1 rd := by
  obtain ⟨w, hw, hop, hrd, hf3, hrs1, himm⟩ := iType_fields 0b0011011 rd rs1 f3 imm
  rw [hw]
  simp [rowOf, wordRow, hop, hrd, hf3, hrs1, himm]

theorem rowOf_jalr (imm : BitVec 12) : rowOf c (iType imm rs1 0 rd 0b1100111) = some (.jalr rd rs1 imm) := by
  obtain ⟨w, hw, hop, hrd, hf3, hrs1, himm⟩ := iType_fields 0b1100111 rd rs1 0 imm
  rw [hw]
  simp [rowOf, wordRow, hop, hrd, hf3, hrs1, himm]

theorem rowOf_system (imm : BitVec 12) : rowOf c (iType imm rs1 f3 rd 0b1110011) = systemRow f3 imm rs1 rd := by
  obtain ⟨w, hw, hop, hrd, hf3, hrs1, himm⟩ := iType_fields 0b1110011 rd rs1 f3 imm
  rw [hw]
  simp [rowOf, wordRow, hop, hrd, hf3, hrs1, himm]

theorem rowOf_auipc (imm : BitVec 20) : rowOf c (uType imm rd 0b0010111) = some (.auipc rd imm) := by
  obtain ⟨w, hw, hop, hrd, himm⟩ := uType_fields 0b0010111 rd imm
  rw [hw]
  simp [rowOf, wordRow, hop, hrd, himm]

theorem rowOf_lui (imm : BitVec 20) : rowOf c (uType imm rd 0b0110111) = some (.lui rd imm) := by
  obtain ⟨w, hw, hop, hrd, himm⟩ := uType_fields 0b0110111 rd imm
  rw [hw]
  simp [rowOf, wordRow, hop, hrd, himm]

theorem rowOf_store (imm : BitVec 12) : rowOf c (sType imm rs2 rs1 f3 0b0100011) = storeRow f3 imm rs2 rs1 := by
  obtain ⟨w, hw, hop, hf3, hrs1, hrs2, himm⟩ := sType_fields 0b0100011 rs1 rs2 f3 imm
  rw [hw]
  simp [rowOf, wordRow, hop, hf3, hrs1, hrs2, himm]

theorem rowOf_storeFp (imm : BitVec 12) : rowOf c (sType imm rs2 rs1 f3 0b0100111) = storeFpRow f3 imm rs2 rs1 := by
  obtain ⟨w, hw, hop, hf3, hrs1, hrs2, himm⟩ := sType_fields 0b0100111 rs1 rs2 f3 imm
  rw [hw]
  simp [rowOf, wordRow, hop, hf3, hrs1, hrs2, himm]

theorem rowOf_branch (offset : BitVec 12) : rowOf c (bType offset rs2 rs1 f3 0b1100011) =
      branchRow f3 offset rs2 rs1 := by
  obtain ⟨w, hw, hop, hf3, hrs1, hrs2, hoffset⟩ := bType_fields 0b1100011 rs1 rs2 f3 offset
  rw [hw]
  simp [rowOf, wordRow, hop, hf3, hrs1, hrs2, hoffset]

theorem rowOf_jal (offset : BitVec 20) : rowOf c (jType offset rd 0b1101111) = some (.jal rd offset) := by
  obtain ⟨w, hw, hop, hrd, hoffset⟩ := jType_fields 0b1101111 rd offset
  rw [hw]
  simp [rowOf, wordRow, hop, hrd, hoffset]

theorem rowOf_amo : rowOf c (amoType f5 aq rl rs2 rs1 f3 rd 0b0101111) = amoRow f5 aq rl f3 rs2 rs1 rd := by
  obtain ⟨w, hw, hop, hrd, hf3, hrs1, hrs2, hrl, haq, hf5⟩ := amoType_fields 0b0101111 f5 rd rs1 rs2 f3 aq rl
  rw [hw]
  simp [← hrl, ← haq, rowOf, wordRow, hop, hrd, hf3, hrs1, hrs2, hf5]

theorem rowOf_op : rowOf c (rType f7 rs2 rs1 f3 rd 0b0110011) = opRow f7 f3 rs2 rs1 rd := by
  obtain ⟨w, hw, hop, hrd, hf3, hrs1, hrs2, hf7⟩ := rType_fields 0b0110011 f7 rd rs1 rs2 f3
  rw [hw]
  simp [rowOf, wordRow, hop, hrd, hf3, hrs1, hrs2, hf7]

theorem rowOf_op32 : rowOf c (rType f7 rs2 rs1 f3 rd 0b0111011) = op32Row f7 f3 rs2 rs1 rd := by
  obtain ⟨w, hw, hop, hrd, hf3, hrs1, hrs2, hf7⟩ := rType_fields 0b0111011 f7 rd rs1 rs2 f3
  rw [hw]
  simp [rowOf, wordRow, hop, hrd, hf3, hrs1, hrs2, hf7]

theorem rowOf_opFp : rowOf c (rType f7 rs2 rs1 f3 rd 0b1010011) =
      firstRow (fpArithRow f7 rs2 rs1 f3 rd) (fpUnaryRow f7 rs2 rs1 f3 rd)
      (fpCompareRow f7 f3 rs2 rs1 rd) (fpMoveRow f7 rs2 f3 rs1 rd) := by
  obtain ⟨w, hw, hop, hrd, hf3, hrs1, hrs2, hf7⟩ := rType_fields 0b1010011 f7 rd rs1 rs2 f3
  rw [hw]
  simp [rowOf, wordRow, hop, hrd, hf3, hrs1, hrs2, hf7]

theorem rowOf_fma (op : BitVec 7) (h : op ∈ [0b1000011, 0b1000111, 0b1001011, 0b1001111]) :
    rowOf c (r4Type rs3 fmt rs2 rs1 f3 rd op) = fmaRow op fmt rs3 rs2 rs1 f3 rd := by
  obtain ⟨w, hw, hop, hrd, hf3, hrs1, hrs2, hfmt, hrs3⟩ := r4Type_fields op rd rs1 rs2 rs3 f3 fmt
  rw [hw]
  simp only [List.mem_cons, List.not_mem_nil, or_false] at h
  obtain rfl | rfl | rfl | rfl := h <;> simp [rowOf, wordRow, hop, hrd, hf3, hrs1, hrs2, hfmt, hrs3]

end

end Sys2Proof.Proofs
end

