-- ==== Sys2Proof/Proofs/WordDecoding.lean ====
section
/-! The words of O7 and O8: the encoder and the decoder compared row by row, and the bytes of a word. -/

namespace Sys2Proof.Proofs

open Sys2Proof.Machine Sys2Proof.Laws

/-! ### Every row function answers only instructions whose encoding has the row's fields -/

section

variable {c : Config} {f7 op : BitVec 7} {f5 rd rs1 rs2 rs3 sub : Reg} {f3 rm : BitVec 3} {fmt : BitVec 2} {aq rl : Bool}
  {imm : BitVec 12} {i : Instr}

theorem encode_of_loadRow (h : loadRow f3 imm rs1 rd = some i) : i.encode = iType imm rs1 f3 rd 0b0000011 := by
  unfold loadRow at h
  split at h <;> cases h <;> rfl

theorem encode_of_loadFpRow (h : loadFpRow f3 imm rs1 rd = some i) : i.encode = iType imm rs1 f3 rd 0b0000111 := by
  unfold loadFpRow at h
  split at h <;> cases h <;> rfl

theorem encode_of_storeRow (h : storeRow f3 imm rs2 rs1 = some i) : i.encode = sType imm rs2 rs1 f3 0b0100011 := by
  unfold storeRow at h
  split at h <;> cases h <;> rfl

theorem encode_of_storeFpRow (h : storeFpRow f3 imm rs2 rs1 = some i) : i.encode = sType imm rs2 rs1 f3 0b0100111 := by
  unfold storeFpRow at h
  split at h <;> cases h <;> rfl

theorem encode_of_branchRow (h : branchRow f3 imm rs2 rs1 = some i) : i.encode = bType imm rs2 rs1 f3 0b1100011 := by
  unfold branchRow at h
  split at h <;> cases h <;> rfl

theorem encode_of_opRow (h : opRow f7 f3 rs2 rs1 rd = some i) : i.encode = rType f7 rs2 rs1 f3 rd 0b0110011 := by
  unfold opRow at h
  split at h <;> cases h <;> rfl

theorem encode_of_op32Row (h : op32Row f7 f3 rs2 rs1 rd = some i) : i.encode = rType f7 rs2 rs1 f3 rd 0b0111011 := by
  unfold op32Row at h
  split at h <;> cases h <;> rfl

theorem encode_of_fmaRow (h : fmaRow op fmt rs3 rs2 rs1 rm rd = some i) :
    i.encode = r4Type rs3 fmt rs2 rs1 rm rd op := by
  unfold fmaRow at h
  split at h <;> cases h <;> rfl

/-- The two LR rows also have a constant in the rs2 field (R119). -/
theorem encode_of_amoRow (h : amoRow f5 aq rl f3 rs2 rs1 rd = some i) :
    i.encode = amoType f5 aq rl rs2 rs1 f3 rd 0b0101111 := by
  unfold amoRow at h
  split at h
  case h_1 | h_12 =>
    split_ifs at h with hrs2
    cases h
    subst hrs2
    rfl
  all_goals cases h <;> rfl

theorem encode_of_fpArithRow (h : fpArithRow f7 rs2 rs1 rm rd = some i) :
    i.encode = rType f7 rs2 rs1 rm rd 0b1010011 := by
  unfold fpArithRow at h
  split at h <;> cases h <;> rfl

theorem encode_of_fpUnaryRow (h : fpUnaryRow f7 sub rs1 rm rd = some i) :
    i.encode = rType f7 sub rs1 rm rd 0b1010011 := by
  unfold fpUnaryRow at h
  split at h <;> cases h <;> rfl

theorem encode_of_fpCompareRow (h : fpCompareRow f7 f3 rs2 rs1 rd = some i) :
    i.encode = rType f7 rs2 rs1 f3 rd 0b1010011 := by
  unfold fpCompareRow at h
  split at h <;> cases h <;> rfl

theorem encode_of_fpMoveRow (h : fpMoveRow f7 sub f3 rs1 rd = some i) :
    i.encode = rType f7 sub rs1 f3 rd 0b1010011 := by
  unfold fpMoveRow at h
  split at h <;> cases h <;> rfl

/-- The first row is one of the four. -/
theorem firstRow_some {a b d e : Option Instr} (h : firstRow a b d e = some i) :
    a = some i ∨ b = some i ∨ d = some i ∨ e = some i := by
  cases a <;> cases b <;> cases d <;> simp_all [firstRow]

/-- The shift-immediate words as I-type words (R119). -/
theorem rType_eq_iType (f7 : BitVec 7) (shamt rs1 : Reg) (f3 : BitVec 3) (rd : Reg) (op : BitVec 7) :
    rType f7 shamt rs1 f3 rd op = iType (f7 ++ shamt) rs1 f3 rd op :=
  rfl

/-- An immediate of 12 bits is its upper seven and its lower five. -/
theorem imm12_split5 (imm : BitVec 12) : imm.extractLsb 11 5 ++ imm.extractLsb 4 0 = imm :=
  (BitVec.extractLsb'_append_extractLsb'_eq_extractLsb' rfl).trans BitVec.extractLsb'_eq_self

/-- An immediate of 12 bits is its upper six and its lower six. -/
theorem imm12_split6 (imm : BitVec 12) : imm.extractLsb 11 6 ++ imm.extractLsb 5 0 = imm :=
  (BitVec.extractLsb'_append_extractLsb'_eq_extractLsb' rfl).trans BitVec.extractLsb'_eq_self

/-- An immediate of 12 bits is its three fields of FENCE. -/
theorem imm12_split4 (imm : BitVec 12) : imm.extractLsb 11 8 ++ imm.extractLsb 7 4 ++ imm.extractLsb 3 0 = imm := by
  unfold BitVec.extractLsb
  iterate 2 rw [BitVec.extractLsb'_append_extractLsb'_eq_extractLsb' (by rfl)]
  exact BitVec.extractLsb'_eq_self

/-- A shift word of the seven-bit layout, from the two halves of its immediate (R119). -/
theorem shift5_eq_iType (hf7 : imm.extractLsb 11 5 = f7) :
    rType f7 (imm.extractLsb 4 0) rs1 f3 rd op = iType imm rs1 f3 rd op := by
  rw [rType_eq_iType, ← hf7, imm12_split5]

/-- A shift word of the six-bit layout, from the two halves of its immediate (R119). -/
theorem shift6_eq_iType {f6 : BitVec 6} (hf6 : imm.extractLsb 11 6 = f6) :
    iType (f6 ++ imm.extractLsb 5 0) rs1 f3 rd op = iType imm rs1 f3 rd op := by
  rw [← hf6, imm12_split6]

theorem encode_of_opImmRow (h : opImmRow c f3 imm rs1 rd = some i) : i.encode = iType imm rs1 f3 rd 0b0010011 := by
  unfold opImmRow at h
  split at h
  case h_7 =>
    split_ifs at h with hx hf7 hf6 <;> cases h
    · exact shift5_eq_iType hf7
    · exact shift6_eq_iType hf6
  case h_8 h0 h2 h3 h4 h6 h7 h1 =>
    obtain rfl : f3 = 0b101 := by
      revert f3
      decide
    split_ifs at h with hx hf7 hf7 hf6 hf6 <;> cases h
    · exact shift5_eq_iType hf7
    · exact shift5_eq_iType hf7
    · exact shift6_eq_iType hf6
    · exact shift6_eq_iType hf6
  all_goals
    cases h
    rfl

theorem encode_of_opImm32Row (h : opImm32Row f3 imm rs1 rd = some i) : i.encode = iType imm rs1 f3 rd 0b0011011 := by
  unfold opImm32Row at h
  split at h
  case h_1 => cases h; rfl
  case h_2 | h_3 => split_ifs at h <;> cases h <;> exact shift5_eq_iType ‹_›
  case h_4 => cases h

theorem encode_of_systemRow (h : systemRow f3 imm rs1 rd = some i) : i.encode = iType imm rs1 f3 rd 0b1110011 := by
  unfold systemRow at h
  split at h
  case h_1 =>
    split_ifs at h with hregs himm himm <;> cases h
    all_goals
      obtain ⟨rfl, rfl⟩ := hregs
      subst himm
      rfl
  all_goals cases h <;> rfl

theorem encode_of_miscMemRow (h : miscMemRow f3 imm rs1 rd = some i) : i.encode = iType imm rs1 f3 rd 0b0001111 := by
  unfold miscMemRow at h
  split at h
  case h_1 =>
    split_ifs at h with hconst
    obtain ⟨hfm, rfl, rfl⟩ := hconst
    cases h
    have himm : 0#4 ++ imm.extractLsb 7 4 ++ imm.extractLsb 3 0 = imm := by
      have hsplit := imm12_split4 imm
      rwa [hfm] at hsplit
    calc (Instr.fence (imm.extractLsb 7 4) (imm.extractLsb 3 0)).encode
      _ = iType (0#4 ++ imm.extractLsb 7 4 ++ imm.extractLsb 3 0) 0 0 0 0b0001111 := rfl
      _ = iType imm 0 0 0 0b0001111 := by rw [himm]
  case h_2 =>
    split_ifs at h with hconst
    obtain ⟨rfl, rfl, rfl⟩ := hconst
    cases h
    rfl
  case h_3 => cases h

/-- A word whose row is `i` is the encoding of `i`. -/
theorem encode_of_wordRow {w : BitVec 32} (h : wordRow c w = some i) : i.encode = .word w := by
  have hI := iType_of_fields w
  have hR := rType_of_fields w
  have hR4 := r4Type_of_fields w
  have hA := amoType_of_fields w
  have hU := uType_of_fields w
  have hS := sType_of_fields w
  have hB := bType_of_fields w
  have hJ := jType_of_fields w
  unfold wordRow at h
  dsimp only at h
  generalize hop : w.extractLsb 6 0 = op at h hI hR hR4 hA hU hS hB hJ
  split at h
  case h_1 => exact (encode_of_loadRow h).trans hI
  case h_2 => exact (encode_of_loadFpRow h).trans hI
  case h_3 => exact (encode_of_miscMemRow h).trans hI
  case h_4 => exact (encode_of_opImmRow h).trans hI
  case h_5 => exact Option.some.inj h ▸ hU
  case h_6 => exact (encode_of_opImm32Row h).trans hI
  case h_7 => exact (encode_of_storeRow h).trans hS
  case h_8 => exact (encode_of_storeFpRow h).trans hS
  case h_9 => exact (encode_of_amoRow h).trans hA
  case h_10 => exact (encode_of_opRow h).trans hR
  case h_11 => exact Option.some.inj h ▸ hU
  case h_12 => exact (encode_of_op32Row h).trans hR
  case h_13 | h_14 | h_15 | h_16 => exact (encode_of_fmaRow h).trans hR4
  case h_17 =>
    obtain h | h | h | h := firstRow_some h
    · exact (encode_of_fpArithRow h).trans hR
    · exact (encode_of_fpUnaryRow h).trans hR
    · exact (encode_of_fpCompareRow h).trans hR
    · exact (encode_of_fpMoveRow h).trans hR
  case h_18 => exact (encode_of_branchRow h).trans hB
  case h_19 =>
    split_ifs at h with hf3
    rw [hf3] at hI
    exact Option.some.inj h ▸ hI
  case h_20 => exact Option.some.inj h ▸ hJ
  case h_21 => exact (encode_of_systemRow h).trans hI
  case h_22 => cases h

end

/-! ### The row of every encoding is its instruction -/

/-- The halves of the immediate of a shift word (R119). -/
theorem shift5_pieces (f7 : BitVec 7) (shamt : BitVec 5) :
    (f7 ++ shamt).extractLsb 11 5 = f7 ∧ (f7 ++ shamt).extractLsb 4 0 = shamt := by
  constructor <;> apply BitVec.eq_of_toNat_eq <;> simp only [toNat_append_add, extractLsb_toNat_div] <;> omega

theorem shift6_pieces (f6 shamt : BitVec 6) :
    (f6 ++ shamt).extractLsb 11 6 = f6 ∧ (f6 ++ shamt).extractLsb 5 0 = shamt := by
  constructor <;> apply BitVec.eq_of_toNat_eq <;> simp only [toNat_append_add, extractLsb_toNat_div] <;> omega

/-- The fields of the immediate of FENCE (R347). -/
theorem fence_pieces (pred succ : BitVec 4) :
    (0#4 ++ pred ++ succ).extractLsb 11 8 = 0 ∧ (0#4 ++ pred ++ succ).extractLsb 7 4 = pred ∧
      (0#4 ++ pred ++ succ).extractLsb 3 0 = succ := by
  refine ⟨?_, ?_, ?_⟩ <;> apply BitVec.eq_of_toNat_eq <;> simp only [toNat_append_add, extractLsb_toNat_div] <;>
    simp <;> omega

/-- The row of an encoding is its instruction; XLEN selects between the two layouts of the shifts (C13). -/
theorem rowOf_encode {c : Config} {i : Instr} {w : BitVec 32} (hwf : i.wellFormed c = true) (hw : i.encode = .word w) :
    rowOf c i.encode = some i := by
  cases i with
  | lb | lh | lw | lbu | lhu | lwu | ld => exact rowOf_load ..
  | sb | sh | sw | sd => exact rowOf_store ..
  | flw | fld => exact rowOf_loadFp ..
  | fsw | fsd => exact rowOf_storeFp ..
  | fence pred succ => exact (rowOf_miscMem c 0 0 0 (0#4 ++ pred ++ succ)).trans (by simp [miscMemRow, fence_pieces])
  | fenceI => rfl
  | addi | slti | sltiu | xori | ori | andi => exact rowOf_opImm ..
  | slliRv32 | srliRv32 | sraiRv32 =>
    have hx : c.xlen = .rv32 := by simpa [Instr.wellFormed] using hwf
    exact (rowOf_opImm ..).trans (by simp [opImmRow, hx, shift5_pieces])
  | slliRv64 | srliRv64 | sraiRv64 =>
    have hx : c.xlen = .rv64 := by simpa [Instr.wellFormed] using hwf
    exact (rowOf_opImm ..).trans (by simp [opImmRow, hx, shift6_pieces])
  | lui => exact rowOf_lui ..
  | auipc => exact rowOf_auipc ..
  | jal => exact rowOf_jal ..
  | jalr => exact rowOf_jalr ..
  | beq | bne | blt | bge | bltu | bgeu => exact rowOf_branch ..
  | add | sub | sll | slt | sltu | xor | srl | sra | or | and | mul | mulh | mulhsu | mulhu | div | divu | rem | remu =>
    exact rowOf_op ..
  | addw | subw | sllw | srlw | sraw | mulw | divw | divuw | remw | remuw => exact rowOf_op32 ..
  | addiw => exact rowOf_opImm32 ..
  | slliw | srliw | sraiw => exact (rowOf_opImm32 ..).trans (by simp [opImm32Row, shift5_pieces])
  | ecall | ebreak => rfl
  | csrrw | csrrs | csrrc | csrrwi | csrrsi | csrrci => exact rowOf_system ..
  | lrW | scW | amoswapW | amoaddW | amoxorW | amoandW | amoorW | amominW | amomaxW | amominuW | amomaxuW
  | lrD | scD | amoswapD | amoaddD | amoxorD | amoandD | amoorD | amominD | amomaxD | amominuD | amomaxuD =>
    exact rowOf_amo ..
  | fmaddS | fmsubS | fnmsubS | fnmaddS | fmaddD | fmsubD | fnmsubD | fnmaddD =>
    exact rowOf_fma _ _ _ _ _ _ _ _ (by decide)
  | faddS | fsubS | fmulS | fdivS | fsqrtS | fsgnjS | fsgnjnS | fsgnjxS | fminS | fmaxS | fcvtWS | fcvtWuS | fmvXW | feqS
  | fltS | fleS | fclassS | fcvtSW | fcvtSWu | fmvWX | fcvtLS | fcvtLuS | fcvtSL | fcvtSLu => exact rowOf_opFp ..
  | faddD | fsubD | fmulD | fdivD | fsqrtD | fsgnjD | fsgnjnD | fsgnjxD | fminD | fmaxD | fcvtSD | fcvtDS | feqD
  | fltD | fleD | fclassD | fcvtWD | fcvtWuD | fcvtDW | fcvtDWu | fcvtLD | fcvtLuD | fmvXD | fcvtDL | fcvtDLu | fmvDX =>
    exact rowOf_opFp ..
  | _ => cases hw

/-! ### From bytes to parcels and words (R63, R101) -/

/-- The decoder on the bits of an instruction. -/
def decodeBits (c : Config) : Encoding → Decoded
  | .parcel p => decode16 c p
  | .word w => decode32 c w

theorem extractLsb_low_extractLsb {n k hi lo : Nat} (x : BitVec n) (h : lo + (hi - lo + 1) ≤ k - 0 + 1) :
    (x.extractLsb k 0).extractLsb hi lo = x.extractLsb hi lo := by
  unfold BitVec.extractLsb
  rw [BitVec.extractLsb'_extractLsb'_of_le h]

/-- A word with a row announces a length of 32 bits (R101). -/
theorem lowBits_of_wordRow {c : Config} {w : BitVec 32} {i : Instr} (h : wordRow c w = some i) :
    w.extractLsb 1 0 = 3 ∧ w.extractLsb 4 2 ≠ 7 := by
  have hlow : w.extractLsb 1 0 = (w.extractLsb 6 0).extractLsb 1 0 := (extractLsb_low_extractLsb w (by decide)).symm
  have hmid : w.extractLsb 4 2 = (w.extractLsb 6 0).extractLsb 4 2 := (extractLsb_low_extractLsb w (by decide)).symm
  unfold wordRow at h
  dsimp only at h
  rw [hlow, hmid]
  generalize w.extractLsb 6 0 = op at h ⊢
  split at h
  case h_22 => cases h
  all_goals decide

theorem low_parcel_of_word (w : BitVec 32) : w.extractLsb 15 8 ++ w.extractLsb 7 0 = w.extractLsb 15 0 :=
  BitVec.extractLsb'_append_extractLsb'_eq_extractLsb' rfl

theorem word_of_bytes (w : BitVec 32) :
    w.extractLsb 31 24 ++ w.extractLsb 23 16 ++ w.extractLsb 15 8 ++ w.extractLsb 7 0 = w := by
  unfold BitVec.extractLsb
  iterate 3 rw [BitVec.extractLsb'_append_extractLsb'_eq_extractLsb' (by rfl)]
  exact BitVec.extractLsb'_eq_self

theorem parcel_of_bytes (p : BitVec 16) : p.extractLsb 15 8 ++ p.extractLsb 7 0 = p :=
  (BitVec.extractLsb'_append_extractLsb'_eq_extractLsb' rfl).trans BitVec.extractLsb'_eq_self

theorem bytes_of_parcel (b1 b0 : Byte) : (Encoding.parcel (b1 ++ b0)).bytes = [b0, b1] := by
  have h0 : (b1 ++ b0).extractLsb 7 0 = b0 := by
    apply BitVec.eq_of_toNat_eq
    simp only [toNat_append_add, extractLsb_toNat_div]
    omega
  have h1 : (b1 ++ b0).extractLsb 15 8 = b1 := by
    apply BitVec.eq_of_toNat_eq
    simp only [toNat_append_add, extractLsb_toNat_div]
    omega
  rw [Encoding.bytes, h0, h1]

theorem bytes_of_word (b3 b2 b1 b0 : Byte) : (Encoding.word (b3 ++ b2 ++ b1 ++ b0)).bytes = [b0, b1, b2, b3] := by
  simp only [Encoding.bytes, List.cons.injEq, and_true]
  refine ⟨?_, ?_, ?_, ?_⟩ <;> apply BitVec.eq_of_toNat_eq <;>
    simp only [toNat_append_add, extractLsb_toNat_div] <;> omega

theorem decode_word_bytes (c : Config) (w : BitVec 32) (rest : List Byte) (hlow : w.extractLsb 1 0 = 3)
    (hmid : w.extractLsb 4 2 ≠ 7) : decode c ((Encoding.word w).bytes ++ rest) = decode32 c w := by
  have hwide : isWide (w.extractLsb 15 0) = true := by
    have : (w.extractLsb 15 0).extractLsb 1 0 = w.extractLsb 1 0 := (extractLsb_low_extractLsb w (by decide))
    rw [isWide, this, hlow]
    rfl
  have hlong : isTooLong c (w.extractLsb 15 0) = false := by
    have : (w.extractLsb 15 0).extractLsb 4 2 = w.extractLsb 4 2 := (extractLsb_low_extractLsb w (by decide))
    rw [isTooLong_eq, this, hwide, Bool.true_and, beq_eq_false_iff_ne]
    exact hmid
  simp only [Encoding.bytes, List.cons_append, decode, low_parcel_of_word, hlong, hwide, word_of_bytes]
  rfl

theorem decode_parcel_bytes (c : Config) (p : BitVec 16) (rest : List Byte) (hlow : p.extractLsb 1 0 ≠ 3) :
    decode c ((Encoding.parcel p).bytes ++ rest) = decode16 c p := by
  have hwide : isWide p = false := beq_eq_false_iff_ne.mpr hlow
  have hlong : isTooLong c p = false := by rw [isTooLong_eq, hwide, Bool.false_and]
  simp only [Encoding.bytes, List.cons_append, decode, parcel_of_bytes, hlong, hwide]
  rfl

theorem decode_eq_decodeBits {c : Config} {e : Encoding} {i : Instr} (rest : List Byte) (h : decodeBits c e = .instr i) :
    decode c (e.bytes ++ rest) = .instr i := by
  cases e with
  | parcel p =>
    refine (decode_parcel_bytes c p rest fun hlow => ?_).trans h
    have h : decode16 c p = .instr i := h
    rw [decode16_eq, hlow] at h
    cases h
  | word w =>
    obtain ⟨j, hrow⟩ : ∃ j, wordRow c w = some j := by
      cases hrow : wordRow c w with
      | some j => exact ⟨j, rfl⟩
      | none =>
        simp only [decodeBits, decode32, hrow] at h
        cases h
    obtain ⟨hlow, hmid⟩ := lowBits_of_wordRow hrow
    exact (decode_word_bytes c w rest hlow hmid).trans h

/-- Bytes that decode to an instruction begin with a parcel or a word that does. -/
theorem decodeBits_of_decode {c : Config} {bs : List Byte} {i : Instr} (h : decode c bs = .instr i) :
    ∃ e rest, bs = Encoding.bytes e ++ rest ∧ decodeBits c e = .instr i := by
  unfold decode at h
  split at h
  case h_2 => cases h
  case h_1 b0 b1 rest =>
    split_ifs at h with hlong hwide
    · split at h
      case h_2 => cases h
      case h_1 b2 b3 rest => exact ⟨.word (b3 ++ b2 ++ b1 ++ b0), rest, by rw [bytes_of_word]; rfl, h⟩
    · exact ⟨.parcel (b1 ++ b0), rest, by rw [bytes_of_parcel]; rfl, h⟩

end Sys2Proof.Proofs
end

