-- ==== Sys2Proof/Proofs/ParcelEncoding.lean ====
section
/-! The 16-bit half of O7 and O8: the fields of every compressed format, and every scattered immediate put together
again. -/

namespace Sys2Proof.Proofs

open Sys2Proof.Machine Sys2Proof.Laws

/-! ### The formats of R104 to R112 put their operands into the fields the decoder reads -/

section

variable (f1 : BitVec 1) (f2 op : BitVec 2) (f3 : BitVec 3) (r s : Reg) (rd rs : CReg)

theorem crType_fields :
    ∃ p, crType f1 r s = .parcel p ∧ p.extractLsb 1 0 = 2 ∧ p.extractLsb 15 13 = 4 ∧ p.extractLsb 12 12 = f1 ∧
      p.extractLsb 11 7 = r ∧ p.extractLsb 6 2 = s := by
  refine ⟨_, rfl, ?_, ?_, ?_, ?_, ?_⟩ <;> refine BitVec.eq_of_getLsbD_eq fun k hk => ?_ <;> interval_cases k <;>
    simp only [BitVec.getLsbD_append, BitVec.getLsbD_extractLsb] <;> rfl

theorem ciType_fields (imm : BitVec 6) :
    ∃ p, ciType f3 imm r op = .parcel p ∧ p.extractLsb 1 0 = op ∧ p.extractLsb 15 13 = f3 ∧ p.extractLsb 11 7 = r ∧
      imm6 p = imm := by
  refine ⟨_, rfl, ?_, ?_, ?_, ?_⟩ <;> refine BitVec.eq_of_getLsbD_eq fun k hk => ?_ <;> interval_cases k <;>
    simp only [imm6, BitVec.getLsbD_append, BitVec.getLsbD_extractLsb] <;> rfl

theorem cssType_fields (imm : BitVec 6) :
    ∃ p, cssType f3 imm s = .parcel p ∧ p.extractLsb 1 0 = 2 ∧ p.extractLsb 15 13 = f3 ∧ p.extractLsb 6 2 = s ∧
      p.extractLsb 12 7 = imm := by
  refine ⟨_, rfl, ?_, ?_, ?_, ?_⟩ <;> refine BitVec.eq_of_getLsbD_eq fun k hk => ?_ <;> interval_cases k <;>
    simp only [BitVec.getLsbD_append, BitVec.getLsbD_extractLsb] <;> rfl

theorem ciwType_fields (imm : BitVec 8) :
    ∃ p, ciwType f3 imm rd op = .parcel p ∧ p.extractLsb 1 0 = op ∧ p.extractLsb 15 13 = f3 ∧ p.extractLsb 4 2 = rd ∧
      p.extractLsb 12 5 = imm := by
  refine ⟨_, rfl, ?_, ?_, ?_, ?_⟩ <;> refine BitVec.eq_of_getLsbD_eq fun k hk => ?_ <;> interval_cases k <;>
    simp only [BitVec.getLsbD_append, BitVec.getLsbD_extractLsb] <;> rfl

theorem clType_fields (imm : BitVec 5) :
    ∃ p, clType f3 imm rs rd = .parcel p ∧ p.extractLsb 1 0 = 0 ∧ p.extractLsb 15 13 = f3 ∧ p.extractLsb 9 7 = rs ∧
      p.extractLsb 4 2 = rd ∧ p.extractLsb 12 10 ++ p.extractLsb 6 5 = imm := by
  refine ⟨_, rfl, ?_, ?_, ?_, ?_, ?_⟩ <;> refine BitVec.eq_of_getLsbD_eq fun k hk => ?_ <;> interval_cases k <;>
    simp only [BitVec.getLsbD_append, BitVec.getLsbD_extractLsb] <;> rfl

theorem reservedQ0_fields (payload : BitVec 11) :
    ∃ p, (Instr.reservedQ0 payload).encode = .parcel p ∧ p.extractLsb 1 0 = 0 ∧ p.extractLsb 15 13 = 4 ∧
      p.extractLsb 12 2 = payload := by
  refine ⟨_, rfl, ?_, ?_, ?_⟩ <;> refine BitVec.eq_of_getLsbD_eq fun k hk => ?_ <;> interval_cases k <;>
    simp only [BitVec.getLsbD_append, BitVec.getLsbD_extractLsb] <;> rfl

theorem caType_fields :
    ∃ p, caType f1 rd f2 rs = .parcel p ∧ p.extractLsb 1 0 = 1 ∧ p.extractLsb 15 13 = 4 ∧ p.extractLsb 11 10 = 3 ∧
      p.extractLsb 12 12 = f1 ∧ p.extractLsb 9 7 = rd ∧ p.extractLsb 6 5 = f2 ∧ p.extractLsb 4 2 = rs := by
  refine ⟨_, rfl, ?_, ?_, ?_, ?_, ?_, ?_, ?_⟩ <;> refine BitVec.eq_of_getLsbD_eq fun k hk => ?_ <;> interval_cases k <;>
    simp only [BitVec.getLsbD_append, BitVec.getLsbD_extractLsb] <;> rfl

theorem cbType_fields (imm : BitVec 6) :
    ∃ p, cbType f2 imm rd = .parcel p ∧ p.extractLsb 1 0 = 1 ∧ p.extractLsb 15 13 = 4 ∧ p.extractLsb 11 10 = f2 ∧
      p.extractLsb 9 7 = rd ∧ imm6 p = imm := by
  refine ⟨_, rfl, ?_, ?_, ?_, ?_, ?_⟩ <;> refine BitVec.eq_of_getLsbD_eq fun k hk => ?_ <;> interval_cases k <;>
    simp only [imm6, BitVec.getLsbD_append, BitVec.getLsbD_extractLsb] <;> rfl

theorem cbBranch_fields (offset : BitVec 8) :
    ∃ p, cbBranch f3 offset rs = .parcel p ∧ p.extractLsb 1 0 = 1 ∧ p.extractLsb 15 13 = f3 ∧ p.extractLsb 9 7 = rs ∧
      p.extractLsb 12 10 ++ p.extractLsb 6 2 = scatterCb offset := by
  unfold cbBranch
  generalize scatterCb offset = pieces
  refine ⟨_, rfl, ?_, ?_, ?_, ?_⟩ <;> refine BitVec.eq_of_getLsbD_eq fun k hk => ?_ <;> interval_cases k <;>
    simp only [BitVec.getLsbD_append, BitVec.getLsbD_extractLsb] <;> rfl

theorem cjType_fields (offset : BitVec 11) :
    ∃ p, cjType f3 offset = .parcel p ∧ p.extractLsb 1 0 = 1 ∧ p.extractLsb 15 13 = f3 ∧
      p.extractLsb 12 2 = scatterCj offset := by
  unfold cjType
  generalize scatterCj offset = pieces
  refine ⟨_, rfl, ?_, ?_, ?_⟩ <;> refine BitVec.eq_of_getLsbD_eq fun k hk => ?_ <;> interval_cases k <;>
    simp only [BitVec.getLsbD_append, BitVec.getLsbD_extractLsb] <;> rfl

end

/-! ### Scattering the immediate that the decoder gathered gives the field back (R113) -/

section

variable (p : BitVec 16)

theorem scatterCiw_immCiw : scatterCiw (immCiw p) = p.extractLsb 12 5 := by
  refine BitVec.eq_of_getLsbD_eq fun k hk => ?_
  interval_cases k <;> simp only [scatterCiw, immCiw, BitVec.getLsbD_append, BitVec.getLsbD_extractLsb] <;> rfl

theorem scatterLw_immLw : scatterLw (immLw p) = p.extractLsb 12 10 ++ p.extractLsb 6 5 := by
  refine BitVec.eq_of_getLsbD_eq fun k hk => ?_
  interval_cases k <;> simp only [scatterLw, immLw, BitVec.getLsbD_append, BitVec.getLsbD_extractLsb] <;> rfl

theorem scatterLd_immLd : scatterLd (immLd p) = p.extractLsb 12 10 ++ p.extractLsb 6 5 := by
  refine BitVec.eq_of_getLsbD_eq fun k hk => ?_
  interval_cases k <;> simp only [scatterLd, immLd, BitVec.getLsbD_append, BitVec.getLsbD_extractLsb] <;> rfl

theorem scatterLq_immLq : scatterLq (immLq p) = p.extractLsb 12 10 ++ p.extractLsb 6 5 := by
  refine BitVec.eq_of_getLsbD_eq fun k hk => ?_
  interval_cases k <;> simp only [scatterLq, immLq, BitVec.getLsbD_append, BitVec.getLsbD_extractLsb] <;> rfl

theorem scatterSp16_immSp16 : scatterSp16 (immSp16 p) = imm6 p := by
  refine BitVec.eq_of_getLsbD_eq fun k hk => ?_
  interval_cases k <;> simp only [scatterSp16, immSp16, imm6, BitVec.getLsbD_append, BitVec.getLsbD_extractLsb] <;> rfl

theorem scatterLwsp_immLwsp : scatterLwsp (immLwsp p) = imm6 p := by
  refine BitVec.eq_of_getLsbD_eq fun k hk => ?_
  interval_cases k <;> simp only [scatterLwsp, immLwsp, imm6, BitVec.getLsbD_append, BitVec.getLsbD_extractLsb] <;> rfl

theorem scatterLdsp_immLdsp : scatterLdsp (immLdsp p) = imm6 p := by
  refine BitVec.eq_of_getLsbD_eq fun k hk => ?_
  interval_cases k <;> simp only [scatterLdsp, immLdsp, imm6, BitVec.getLsbD_append, BitVec.getLsbD_extractLsb] <;> rfl

theorem scatterLqsp_immLqsp : scatterLqsp (immLqsp p) = imm6 p := by
  refine BitVec.eq_of_getLsbD_eq fun k hk => ?_
  interval_cases k <;> simp only [scatterLqsp, immLqsp, imm6, BitVec.getLsbD_append, BitVec.getLsbD_extractLsb] <;> rfl

theorem scatterSwsp_immSwsp : scatterSwsp (immSwsp p) = p.extractLsb 12 7 := by
  refine BitVec.eq_of_getLsbD_eq fun k hk => ?_
  interval_cases k <;> simp only [scatterSwsp, immSwsp, BitVec.getLsbD_append, BitVec.getLsbD_extractLsb] <;> rfl

theorem scatterSdsp_immSdsp : scatterSdsp (immSdsp p) = p.extractLsb 12 7 := by
  refine BitVec.eq_of_getLsbD_eq fun k hk => ?_
  interval_cases k <;> simp only [scatterSdsp, immSdsp, BitVec.getLsbD_append, BitVec.getLsbD_extractLsb] <;> rfl

theorem scatterSqsp_immSqsp : scatterSqsp (immSqsp p) = p.extractLsb 12 7 := by
  refine BitVec.eq_of_getLsbD_eq fun k hk => ?_
  interval_cases k <;> simp only [scatterSqsp, immSqsp, BitVec.getLsbD_append, BitVec.getLsbD_extractLsb] <;> rfl

theorem scatterCb_immCb : scatterCb (immCb p) = p.extractLsb 12 10 ++ p.extractLsb 6 2 := by
  refine BitVec.eq_of_getLsbD_eq fun k hk => ?_
  interval_cases k <;> simp only [scatterCb, immCb, BitVec.getLsbD_append, BitVec.getLsbD_extractLsb] <;> rfl

theorem scatterCj_immCj : scatterCj (immCj p) = p.extractLsb 12 2 := by
  refine BitVec.eq_of_getLsbD_eq fun k hk => ?_
  interval_cases k <;> simp only [scatterCj, immCj, BitVec.getLsbD_append, BitVec.getLsbD_extractLsb] <;> rfl

end

/-! ### Gathering a scattered immediate gives it back -/

/-- A scattering that undoes a gathering of every parcel is surjective, so it is injective and undone by it. -/
theorem gather_eq_of_field {n : Nat} {scatter : BitVec n → BitVec n} {gather field : BitVec 16 → BitVec n}
    (hscatter : ∀ p, scatter (gather p) = field p) (hfield : ∀ x, ∃ p, field p = x) {p : BitVec 16} {imm : BitVec n}
    (h : field p = scatter imm) : gather p = imm := by
  have hsurj : Function.Surjective scatter := fun x => by
    obtain ⟨q, hq⟩ := hfield x
    exact ⟨gather q, (hscatter q).trans hq⟩
  exact Finite.injective_iff_surjective.mpr hsurj ((hscatter p).trans h)

theorem exists_clField (x : BitVec 5) : ∃ p : BitVec 16, p.extractLsb 12 10 ++ p.extractLsb 6 5 = x := by
  obtain ⟨p, -, -, -, -, -, h⟩ := clType_fields 0 0 0 x
  exact ⟨p, h⟩

theorem exists_imm6 (x : BitVec 6) : ∃ p : BitVec 16, imm6 p = x := by
  obtain ⟨p, -, -, -, -, h⟩ := ciType_fields 0 0 0 x
  exact ⟨p, h⟩

theorem exists_cssField (x : BitVec 6) : ∃ p : BitVec 16, p.extractLsb 12 7 = x := by
  obtain ⟨p, -, -, -, -, h⟩ := cssType_fields 0 0 x
  exact ⟨p, h⟩

theorem exists_ciwField (x : BitVec 8) : ∃ p : BitVec 16, p.extractLsb 12 5 = x := by
  obtain ⟨p, -, -, -, -, h⟩ := ciwType_fields 0 0 0 x
  exact ⟨p, h⟩

/-- The offset field of a branch takes every value (R111 a). -/
theorem exists_cbField (x : BitVec 8) : ∃ p : BitVec 16, p.extractLsb 12 10 ++ p.extractLsb 6 2 = x := by
  refine ⟨0#3 ++ x.extractLsb 7 5 ++ 0#3 ++ x.extractLsb 4 0 ++ 0#2, BitVec.eq_of_getLsbD_eq fun k hk => ?_⟩
  interval_cases k <;> simp only [BitVec.getLsbD_append, BitVec.getLsbD_extractLsb] <;> rfl

/-- The offset field of a jump takes every value (R112). -/
theorem exists_cjField (x : BitVec 11) : ∃ p : BitVec 16, p.extractLsb 12 2 = x := by
  refine ⟨0#3 ++ x ++ 0#2, BitVec.eq_of_getLsbD_eq fun k hk => ?_⟩
  interval_cases k <;> simp only [BitVec.getLsbD_append, BitVec.getLsbD_extractLsb] <;> rfl

section

variable {p : BitVec 16}

theorem immLw_eq {imm : BitVec 5} (h : p.extractLsb 12 10 ++ p.extractLsb 6 5 = scatterLw imm) : immLw p = imm :=
  gather_eq_of_field scatterLw_immLw exists_clField h

theorem immLd_eq {imm : BitVec 5} (h : p.extractLsb 12 10 ++ p.extractLsb 6 5 = scatterLd imm) : immLd p = imm :=
  gather_eq_of_field scatterLd_immLd exists_clField h

theorem immLq_eq {imm : BitVec 5} (h : p.extractLsb 12 10 ++ p.extractLsb 6 5 = scatterLq imm) : immLq p = imm :=
  gather_eq_of_field scatterLq_immLq exists_clField h

theorem immSp16_eq {imm : BitVec 6} (h : imm6 p = scatterSp16 imm) : immSp16 p = imm :=
  gather_eq_of_field scatterSp16_immSp16 exists_imm6 h

theorem immLwsp_eq {imm : BitVec 6} (h : imm6 p = scatterLwsp imm) : immLwsp p = imm :=
  gather_eq_of_field scatterLwsp_immLwsp exists_imm6 h

theorem immLdsp_eq {imm : BitVec 6} (h : imm6 p = scatterLdsp imm) : immLdsp p = imm :=
  gather_eq_of_field scatterLdsp_immLdsp exists_imm6 h

theorem immLqsp_eq {imm : BitVec 6} (h : imm6 p = scatterLqsp imm) : immLqsp p = imm :=
  gather_eq_of_field scatterLqsp_immLqsp exists_imm6 h

theorem immSwsp_eq {imm : BitVec 6} (h : p.extractLsb 12 7 = scatterSwsp imm) : immSwsp p = imm :=
  gather_eq_of_field scatterSwsp_immSwsp exists_cssField h

theorem immSdsp_eq {imm : BitVec 6} (h : p.extractLsb 12 7 = scatterSdsp imm) : immSdsp p = imm :=
  gather_eq_of_field scatterSdsp_immSdsp exists_cssField h

theorem immSqsp_eq {imm : BitVec 6} (h : p.extractLsb 12 7 = scatterSqsp imm) : immSqsp p = imm :=
  gather_eq_of_field scatterSqsp_immSqsp exists_cssField h

theorem immCiw_eq {imm : BitVec 8} (h : p.extractLsb 12 5 = scatterCiw imm) : immCiw p = imm :=
  gather_eq_of_field scatterCiw_immCiw exists_ciwField h

theorem immCb_eq {imm : BitVec 8} (h : p.extractLsb 12 10 ++ p.extractLsb 6 2 = scatterCb imm) : immCb p = imm :=
  gather_eq_of_field scatterCb_immCb exists_cbField h

theorem immCj_eq {imm : BitVec 11} (h : p.extractLsb 12 2 = scatterCj imm) : immCj p = imm :=
  gather_eq_of_field scatterCj_immCj exists_cjField h

end

/-! ### A parcel is its fields, in every format -/

section

variable (p : BitVec 16)

theorem crType_of_fields (hf3 : p.extractLsb 15 13 = 0b100#3) (hop : p.extractLsb 1 0 = 0b10#2) :
    crType (p.extractLsb 12 12) (p.extractLsb 11 7) (p.extractLsb 6 2) = .parcel p := by
  rw [crType, ← hf3, ← hop]
  refine congrArg Encoding.parcel (BitVec.eq_of_getLsbD_eq fun k hk => ?_)
  interval_cases k <;> simp only [BitVec.getLsbD_append, BitVec.getLsbD_extractLsb] <;> rfl

theorem ciType_of_fields :
    ciType (p.extractLsb 15 13) (imm6 p) (p.extractLsb 11 7) (p.extractLsb 1 0) = .parcel p := by
  rw [ciType]
  refine congrArg Encoding.parcel (BitVec.eq_of_getLsbD_eq fun k hk => ?_)
  interval_cases k <;> simp only [imm6, BitVec.getLsbD_append, BitVec.getLsbD_extractLsb] <;> rfl

theorem cssType_of_fields (hop : p.extractLsb 1 0 = 0b10#2) :
    cssType (p.extractLsb 15 13) (p.extractLsb 12 7) (p.extractLsb 6 2) = .parcel p := by
  rw [cssType, ← hop]
  refine congrArg Encoding.parcel (BitVec.eq_of_getLsbD_eq fun k hk => ?_)
  interval_cases k <;> simp only [BitVec.getLsbD_append, BitVec.getLsbD_extractLsb] <;> rfl

theorem ciwType_of_fields :
    ciwType (p.extractLsb 15 13) (p.extractLsb 12 5) (p.extractLsb 4 2) (p.extractLsb 1 0) = .parcel p := by
  rw [ciwType]
  refine congrArg Encoding.parcel (BitVec.eq_of_getLsbD_eq fun k hk => ?_)
  interval_cases k <;> simp only [BitVec.getLsbD_append, BitVec.getLsbD_extractLsb] <;> rfl

theorem clType_of_fields (hop : p.extractLsb 1 0 = 0b00#2) :
    clType (p.extractLsb 15 13) (p.extractLsb 12 10 ++ p.extractLsb 6 5) (p.extractLsb 9 7) (p.extractLsb 4 2) =
      .parcel p := by
  rw [clType, ← hop]
  refine congrArg Encoding.parcel (BitVec.eq_of_getLsbD_eq fun k hk => ?_)
  interval_cases k <;> simp only [BitVec.getLsbD_append, BitVec.getLsbD_extractLsb] <;> rfl

theorem reservedQ0_of_fields (hop : p.extractLsb 1 0 = 0b00#2) (hf3 : p.extractLsb 15 13 = 0b100#3) :
    (Instr.reservedQ0 (p.extractLsb 12 2)).encode = .parcel p := by
  rw [Instr.encode, ← hf3, ← hop]
  refine congrArg Encoding.parcel (BitVec.eq_of_getLsbD_eq fun k hk => ?_)
  interval_cases k <;> simp only [BitVec.getLsbD_append, BitVec.getLsbD_extractLsb] <;> rfl

theorem caType_of_fields (hf3 : p.extractLsb 15 13 = 0b100#3) (hf2 : p.extractLsb 11 10 = 0b11#2)
    (hop : p.extractLsb 1 0 = 0b01#2) :
    caType (p.extractLsb 12 12) (p.extractLsb 9 7) (p.extractLsb 6 5) (p.extractLsb 4 2) = .parcel p := by
  rw [caType, ← hf3, ← hf2, ← hop]
  refine congrArg Encoding.parcel (BitVec.eq_of_getLsbD_eq fun k hk => ?_)
  interval_cases k <;> simp only [BitVec.getLsbD_append, BitVec.getLsbD_extractLsb] <;> rfl

theorem cbType_of_fields (hf3 : p.extractLsb 15 13 = 0b100#3) (hop : p.extractLsb 1 0 = 0b01#2) :
    cbType (p.extractLsb 11 10) (imm6 p) (p.extractLsb 9 7) = .parcel p := by
  rw [cbType, ← hf3, ← hop]
  refine congrArg Encoding.parcel (BitVec.eq_of_getLsbD_eq fun k hk => ?_)
  interval_cases k <;> simp only [imm6, BitVec.getLsbD_append, BitVec.getLsbD_extractLsb] <;> rfl

theorem cbBranch_of_fields (hop : p.extractLsb 1 0 = 0b01#2) :
    cbBranch (p.extractLsb 15 13) (immCb p) (p.extractLsb 9 7) = .parcel p := by
  rw [cbBranch, scatterCb_immCb, ← hop]
  refine congrArg Encoding.parcel (BitVec.eq_of_getLsbD_eq fun k hk => ?_)
  interval_cases k <;> simp only [BitVec.getLsbD_append, BitVec.getLsbD_extractLsb] <;> rfl

theorem cjType_of_fields (hop : p.extractLsb 1 0 = 0b01#2) :
    cjType (p.extractLsb 15 13) (immCj p) = .parcel p := by
  rw [cjType, scatterCj_immCj, ← hop]
  refine congrArg Encoding.parcel (BitVec.eq_of_getLsbD_eq fun k hk => ?_)
  interval_cases k <;> simp only [BitVec.getLsbD_append, BitVec.getLsbD_extractLsb] <;> rfl

end

end Sys2Proof.Proofs
end

