-- ==== Sys2Proof/Proofs/ParcelDecoding.lean ====
section
/-! O7, O8 and O9: the encoder and the decoder of parcels compared row by row, and both directions put together with
those of words. -/

namespace Sys2Proof.Proofs

open Sys2Proof.Machine Sys2Proof.Laws

section

variable {c : Config} {D : Decoded}

theorem decodeBits_quadrant0 {p : BitVec 16} (h : p.extractLsb 1 0 = 0) :
    decodeBits c (.parcel p) = quadrant0 c p := by
  simp [decodeBits, decode16_eq, h]

theorem decodeBits_quadrant1 {p : BitVec 16} (h : p.extractLsb 1 0 = 1) :
    decodeBits c (.parcel p) = quadrant1 c p := by
  simp [decodeBits, decode16_eq, h]

theorem decodeBits_quadrant2 {p : BitVec 16} (h : p.extractLsb 1 0 = 2) :
    decodeBits c (.parcel p) = quadrant2 c p := by
  simp [decodeBits, decode16_eq, h]

theorem decodeBits_clType {f3 : BitVec 3} {imm : BitVec 5} {rs rd : CReg}
    (h : ∀ p : BitVec 16, p.extractLsb 15 13 = f3 → p.extractLsb 9 7 = rs → p.extractLsb 4 2 = rd →
      p.extractLsb 12 10 ++ p.extractLsb 6 5 = imm → quadrant0 c p = D) :
    decodeBits c (clType f3 imm rs rd) = D := by
  obtain ⟨p, hp, hop, hf3, hrs, hrd, himm⟩ := clType_fields f3 rd rs imm
  rw [hp, decodeBits_quadrant0 hop, h p hf3 hrs hrd himm]

theorem decodeBits_ciType1 {f3 : BitVec 3} {imm : BitVec 6} {r : Reg}
    (h : ∀ p : BitVec 16, p.extractLsb 15 13 = f3 → p.extractLsb 11 7 = r → imm6 p = imm → quadrant1 c p = D) :
    decodeBits c (ciType f3 imm r 0b01) = D := by
  obtain ⟨p, hp, hop, hf3, hr, himm⟩ := ciType_fields 0b01 f3 r imm
  rw [hp, decodeBits_quadrant1 hop, h p hf3 hr himm]

theorem decodeBits_ciType2 {f3 : BitVec 3} {imm : BitVec 6} {r : Reg}
    (h : ∀ p : BitVec 16, p.extractLsb 15 13 = f3 → p.extractLsb 11 7 = r → imm6 p = imm → quadrant2 c p = D) :
    decodeBits c (ciType f3 imm r 0b10) = D := by
  obtain ⟨p, hp, hop, hf3, hr, himm⟩ := ciType_fields 0b10 f3 r imm
  rw [hp, decodeBits_quadrant2 hop, h p hf3 hr himm]

theorem decodeBits_cssType {f3 : BitVec 3} {imm : BitVec 6} {s : Reg}
    (h : ∀ p : BitVec 16, p.extractLsb 15 13 = f3 → p.extractLsb 6 2 = s → p.extractLsb 12 7 = imm → quadrant2 c p = D) :
    decodeBits c (cssType f3 imm s) = D := by
  obtain ⟨p, hp, hop, hf3, hs, himm⟩ := cssType_fields f3 s imm
  rw [hp, decodeBits_quadrant2 hop, h p hf3 hs himm]

theorem decodeBits_cjType {f3 : BitVec 3} {offset : BitVec 11}
    (h : ∀ p : BitVec 16, p.extractLsb 15 13 = f3 → immCj p = offset → quadrant1 c p = D) :
    decodeBits c (cjType f3 offset) = D := by
  obtain ⟨p, hp, hop, hf3, himm⟩ := cjType_fields f3 offset
  rw [hp, decodeBits_quadrant1 hop, h p hf3 (immCj_eq himm)]

theorem decodeBits_cbBranch {f3 : BitVec 3} {offset : BitVec 8} {rs : CReg}
    (h : ∀ p : BitVec 16, p.extractLsb 15 13 = f3 → p.extractLsb 9 7 = rs → immCb p = offset → quadrant1 c p = D) :
    decodeBits c (cbBranch f3 offset rs) = D := by
  obtain ⟨p, hp, hop, hf3, hrs, himm⟩ := cbBranch_fields f3 rs offset
  rw [hp, decodeBits_quadrant1 hop, h p hf3 hrs (immCb_eq himm)]

theorem decodeBits_cbType {f2 : BitVec 2} {imm : BitVec 6} {rd : CReg}
    (h : ∀ p : BitVec 16, p.extractLsb 11 10 = f2 → p.extractLsb 9 7 = rd → imm6 p = imm → miscAlu c p = D) :
    decodeBits c (cbType f2 imm rd) = D := by
  obtain ⟨p, hp, hop, hf3, hf2, hrd, himm⟩ := cbType_fields f2 rd imm
  rw [hp, decodeBits_quadrant1 hop, ← h p hf2 hrd himm]
  simp [quadrant1, hf3]

theorem decodeBits_caType {f1 : BitVec 1} {f2 : BitVec 2} {rd rs : CReg}
    (h : ∀ p : BitVec 16, p.extractLsb 11 10 = 3 → p.extractLsb 12 12 = f1 → p.extractLsb 9 7 = rd →
      p.extractLsb 6 5 = f2 → p.extractLsb 4 2 = rs → miscAlu c p = D) :
    decodeBits c (caType f1 rd f2 rs) = D := by
  obtain ⟨p, hp, hop, hf3, hhigh, hf1, hrd, hf2, hrs⟩ := caType_fields f1 f2 rd rs
  rw [hp, decodeBits_quadrant1 hop, ← h p hhigh hf1 hrd hf2 hrs]
  simp [quadrant1, hf3]

theorem decodeBits_crType {f1 : BitVec 1} {r s : Reg}
    (h : ∀ p : BitVec 16, p.extractLsb 12 12 = f1 → p.extractLsb 11 7 = r → p.extractLsb 6 2 = s → jumpMoveAdd p = D) :
    decodeBits c (crType f1 r s) = D := by
  obtain ⟨p, hp, hop, hf3, hf1, hr, hs⟩ := crType_fields f1 r s
  rw [hp, decodeBits_quadrant2 hop, ← h p hf1 hr hs]
  simp [quadrant2, hf3]

/-- A valid shift amount is not zero, and below 32 when XLEN = 32 (R114, R134). -/
theorem shamtOk_iff (c : Config) (shamt : BitVec 6) :
    c.shamtOk shamt = true ↔ shamt ≠ 0#6 ∧ ¬(c.xlen = .rv32 ∧ shamt.extractLsb 5 5 = 1#1) := by
  have htop : shamt < 32 ↔ ¬ shamt.extractLsb 5 5 = 1#1 := by
    revert shamt
    decide
  simp only [Config.shamtOk, Bool.and_eq_true, Bool.or_eq_true, bne_iff_ne, decide_eq_true_eq, htop]
  tauto

theorem imm6_top (p : BitVec 16) : (imm6 p).extractLsb 5 5 = p.extractLsb 12 12 := by
  refine BitVec.eq_of_getLsbD_eq fun k hk => ?_
  interval_cases k
  simp only [imm6, BitVec.getLsbD_append, BitVec.getLsbD_extractLsb]
  rfl

theorem xlen_ne_rv128 (h : c.is32or64 = true) : c.xlen ≠ .rv128 := by
  intro hx
  simp [Config.is32or64, hx] at h

/-- A row that exists decodes from its parcel. -/
theorem decodeBits_parcel {i : Instr} {p : BitVec 16} (hwf : i.wellFormed c = true) (hp : i.encode = .parcel p) :
    decodeBits c i.encode = .instr i := by
  cases i with
  | illegal => exact decodeBits_quadrant0 rfl
  | cAddi4spn rd nzuimm =>
    have himm : nzuimm ≠ 0#8 := by simpa [Instr.wellFormed] using hwf
    obtain ⟨p, hp, hop, hf3, hrd, hfield⟩ := ciwType_fields 0 0 rd (scatterCiw nzuimm)
    have hgather : immCiw p = nzuimm := immCiw_eq hfield
    have hp0 : p ≠ 0#16 := by
      rintro rfl
      exact himm (hgather.symm.trans (by decide))
    refine (congrArg _ hp).trans ((decodeBits_quadrant0 hop).trans ?_)
    simp [quadrant0, hf3, hrd, hgather, himm, hp0]
  | cLw rd rs uimm | cSw rd rs uimm =>
    refine decodeBits_clType fun p hf3 hrs hrd himm => ?_
    simp [quadrant0, hf3, hrs, hrd, immLw_eq himm]
  | cFld rd rs uimm | cFsd rd rs uimm =>
    obtain ⟨hx, hD⟩ : c.is32or64 = true ∧ c.hasD = true := by simpa [Instr.wellFormed] using hwf
    refine decodeBits_clType fun p hf3 hrs hrd himm => ?_
    simp [quadrant0, hf3, hrs, hrd, immLd_eq himm, xlen_ne_rv128 hx, hD, Config.gate]
  | cLq rd rs uimm | cSq rd rs uimm =>
    have hx : c.xlen = .rv128 := by simpa [Instr.wellFormed] using hwf
    refine decodeBits_clType fun p hf3 hrs hrd himm => ?_
    simp [quadrant0, hf3, hrs, hrd, immLq_eq himm, hx]
  | cFlw rd rs uimm | cFsw rd rs uimm =>
    obtain ⟨hx, hF⟩ : c.xlen = .rv32 ∧ c.extF = true := by simpa [Instr.wellFormed] using hwf
    refine decodeBits_clType fun p hf3 hrs hrd himm => ?_
    simp [quadrant0, hf3, hrs, hrd, immLw_eq himm, hx, hF, Config.gate]
  | cLd rd rs uimm | cSd rd rs uimm =>
    have hx : c.xlen ≠ .rv32 := by simpa [Instr.wellFormed] using hwf
    refine decodeBits_clType fun p hf3 hrs hrd himm => ?_
    simp [quadrant0, hf3, hrs, hrd, immLd_eq himm, hx]
  | reservedQ0 payload =>
    obtain ⟨p, hp, hop, hf3, hpayload⟩ := reservedQ0_fields payload
    refine (congrArg _ hp).trans ((decodeBits_quadrant0 hop).trans ?_)
    simp [quadrant0, hf3, hpayload]
  | cNop =>
    refine decodeBits_ciType1 fun p hf3 hr himm => ?_
    simp [quadrant1, hf3, hr, himm]
  | unlisted imm =>
    have himm0 : imm ≠ 0#6 := by simpa [Instr.wellFormed] using hwf
    refine decodeBits_ciType1 fun p hf3 hr himm => ?_
    simp [quadrant1, hf3, hr, himm, himm0]
  | cAddi r imm =>
    have hr0 : r ≠ 0#5 := by simpa [Instr.wellFormed] using hwf
    refine decodeBits_ciType1 fun p hf3 hr himm => ?_
    simp [quadrant1, hf3, hr, himm, hr0]
  | cJal offset =>
    have hx : c.xlen = .rv32 := by simpa [Instr.wellFormed] using hwf
    refine decodeBits_cjType fun p hf3 himm => ?_
    simp [quadrant1, hf3, himm, hx]
  | cAddiw r imm =>
    obtain ⟨hx, hr0⟩ : c.xlen ≠ .rv32 ∧ r ≠ 0#5 := by simpa [Instr.wellFormed] using hwf
    refine decodeBits_ciType1 fun p hf3 hr himm => ?_
    simp [quadrant1, hf3, hr, himm, hx, hr0]
  | cLi r imm =>
    refine decodeBits_ciType1 fun p hf3 hr himm => ?_
    simp [quadrant1, hf3, hr, himm]
  | cAddi16sp imm =>
    have himm0 : imm ≠ 0#6 := by simpa [Instr.wellFormed] using hwf
    refine decodeBits_ciType1 fun p hf3 hr himm => ?_
    have hfield : imm6 p ≠ 0#6 := fun h => himm0 ((immSp16_eq himm).symm.trans (immSp16_eq (h.trans (by decide))))
    simp [quadrant1, hf3, hr, hfield, immSp16_eq himm]
  | cLui r imm =>
    obtain ⟨hr2, himm0⟩ : r ≠ 2#5 ∧ imm ≠ 0#6 := by simpa [Instr.wellFormed] using hwf
    refine decodeBits_ciType1 fun p hf3 hr himm => ?_
    simp [quadrant1, hf3, hr, himm, hr2, himm0]
  | cSrli rd shamt | cSrai rd shamt =>
    obtain ⟨hne, hvalid⟩ := (shamtOk_iff c shamt).mp hwf
    refine decodeBits_cbType fun p hf2 hrd himm => ?_
    simp [miscAlu, hf2, hrd, himm, shiftRow, hne, hvalid]
  | cSrli64 rd | cSrai64 rd =>
    refine decodeBits_cbType fun p hf2 hrd himm => ?_
    simp [miscAlu, hf2, hrd, himm, shiftRow]
  | cAndi rd imm =>
    refine decodeBits_cbType fun p hf2 hrd himm => ?_
    simp [miscAlu, hf2, hrd, himm]
  | cSub rd rs | cXor rd rs | cOr rd rs | cAnd rd rs | reservedQ1a rd rs | reservedQ1b rd rs =>
    refine decodeBits_caType fun p hhigh hf1 hrd hf2 hrs => ?_
    simp [miscAlu, hhigh, hf1, hrd, hf2, hrs]
  | cSubw rd rs | cAddw rd rs =>
    have hx : c.xlen ≠ .rv32 := by simpa [Instr.wellFormed] using hwf
    refine decodeBits_caType fun p hhigh hf1 hrd hf2 hrs => ?_
    simp [miscAlu, hhigh, hf1, hrd, hf2, hrs, hx]
  | cJ offset =>
    refine decodeBits_cjType fun p hf3 himm => ?_
    simp [quadrant1, hf3, himm]
  | cBeqz rs offset | cBnez rs offset =>
    refine decodeBits_cbBranch fun p hf3 hrs himm => ?_
    simp [quadrant1, hf3, hrs, himm]
  | cSlli r shamt =>
    refine decodeBits_ciType2 fun p hf3 hr himm => ?_
    by_cases hr0 : r = 0#5
    · have hne : shamt ≠ 0#6 := by simpa [Instr.wellFormed, hr0] using hwf
      simp [quadrant2, hf3, hr, himm, hr0, hne]
    · obtain ⟨hne, hvalid⟩ := (shamtOk_iff c shamt).mp ((if_neg hr0).symm.trans hwf)
      rw [← himm, imm6_top] at hvalid
      simp [quadrant2, hf3, hr, himm, hr0, hne, hvalid]
  | cSlli64 r =>
    refine decodeBits_ciType2 fun p hf3 hr himm => ?_
    simp [quadrant2, hf3, hr, himm]
  | cFldsp r uimm =>
    obtain ⟨hx, hD⟩ : c.is32or64 = true ∧ c.hasD = true := by simpa [Instr.wellFormed] using hwf
    refine decodeBits_ciType2 fun p hf3 hr himm => ?_
    simp [quadrant2, hf3, hr, immLdsp_eq himm, xlen_ne_rv128 hx, hD, Config.gate]
  | cLqsp r uimm =>
    obtain ⟨hx, hr0⟩ : c.xlen = .rv128 ∧ r ≠ 0#5 := by simpa [Instr.wellFormed] using hwf
    refine decodeBits_ciType2 fun p hf3 hr himm => ?_
    simp [quadrant2, hf3, hr, immLqsp_eq himm, hx, hr0]
  | cLwsp r uimm =>
    have hr0 : r ≠ 0#5 := by simpa [Instr.wellFormed] using hwf
    refine decodeBits_ciType2 fun p hf3 hr himm => ?_
    simp [quadrant2, hf3, hr, immLwsp_eq himm, hr0]
  | cFlwsp r uimm =>
    obtain ⟨hx, hF⟩ : c.xlen = .rv32 ∧ c.extF = true := by simpa [Instr.wellFormed] using hwf
    refine decodeBits_ciType2 fun p hf3 hr himm => ?_
    simp [quadrant2, hf3, hr, immLwsp_eq himm, hx, hF, Config.gate]
  | cLdsp r uimm =>
    obtain ⟨hx, hr0⟩ : c.xlen ≠ .rv32 ∧ r ≠ 0#5 := by simpa [Instr.wellFormed] using hwf
    refine decodeBits_ciType2 fun p hf3 hr himm => ?_
    simp [quadrant2, hf3, hr, immLdsp_eq himm, hx, hr0]
  | cJr r | cJalr r =>
    have hr0 : r ≠ 0#5 := by simpa [Instr.wellFormed] using hwf
    refine decodeBits_crType fun p hf1 hr hs => ?_
    simp [jumpMoveAdd, hf1, hr, hs, hr0]
  | cMv r s | cAdd r s =>
    have hs0 : s ≠ 0#5 := by simpa [Instr.wellFormed] using hwf
    refine decodeBits_crType fun p hf1 hr hs => ?_
    simp [jumpMoveAdd, hf1, hr, hs, hs0]
  | cEbreak =>
    refine decodeBits_crType fun p hf1 hr hs => ?_
    simp [jumpMoveAdd, hf1, hr, hs]
  | cFsdsp s uimm =>
    obtain ⟨hx, hD⟩ : c.is32or64 = true ∧ c.hasD = true := by simpa [Instr.wellFormed] using hwf
    refine decodeBits_cssType fun p hf3 hs himm => ?_
    simp [quadrant2, hf3, hs, immSdsp_eq himm, xlen_ne_rv128 hx, hD, Config.gate]
  | cSqsp s uimm =>
    have hx : c.xlen = .rv128 := by simpa [Instr.wellFormed] using hwf
    refine decodeBits_cssType fun p hf3 hs himm => ?_
    simp [quadrant2, hf3, hs, immSqsp_eq himm, hx]
  | cSwsp s uimm =>
    refine decodeBits_cssType fun p hf3 hs himm => ?_
    simp [quadrant2, hf3, hs, immSwsp_eq himm]
  | cFswsp s uimm =>
    obtain ⟨hx, hF⟩ : c.xlen = .rv32 ∧ c.extF = true := by simpa [Instr.wellFormed] using hwf
    refine decodeBits_cssType fun p hf3 hs himm => ?_
    simp [quadrant2, hf3, hs, immSwsp_eq himm, hx, hF, Config.gate]
  | cSdsp s uimm =>
    have hx : c.xlen ≠ .rv32 := by simpa [Instr.wellFormed] using hwf
    refine decodeBits_cssType fun p hf3 hs himm => ?_
    simp [quadrant2, hf3, hs, immSdsp_eq himm, hx]
  | _ => cases hp

theorem decodeBits_word {i : Instr} {w : BitVec 32} (hwf : i.wellFormed c = true) (hw : i.encode = .word w) :
    decodeBits c i.encode = .instr i := by
  have hrow : wordRow c w = some i := by
    have h := rowOf_encode hwf hw
    rwa [hw] at h
  simp [hw, decodeBits, decode32, hrow, Config.gate, hwf]

end

/-- Settles O7: every format puts the operands where the decoder reads them, row by row. -/
theorem decodingInvertsEncoding : Obligations.DecodingInvertsEncoding := by
  intro c i rest hwf
  refine decode_eq_decodeBits rest ?_
  cases henc : i.encode with
  | parcel p => exact henc ▸ decodeBits_parcel hwf henc
  | word w => exact henc ▸ decodeBits_word hwf henc

/-! ### The other direction -/

section

variable {c : Config} {p : BitVec 16} {i : Instr}

theorem gate_instr {present : Bool} {j : Instr} (h : Config.gate present j = .instr i) : present = true ∧ j = i := by
  cases present <;> simp_all [Config.gate]

/-- The last of the eight values of funct3. -/
theorem eq_seven {f3 : BitVec 3} (h0 : f3 = 0b000#3 → False) (h1 : f3 = 0b001#3 → False) (h2 : f3 = 0b010#3 → False)
    (h3 : f3 = 0b011#3 → False) (h4 : f3 = 0b100#3 → False) (h5 : f3 = 0b101#3 → False)
    (h6 : f3 = 0b110#3 → False) : f3 = 0b111#3 := by
  revert f3
  decide

/-- The last of the four values of a field of two bits. -/
theorem eq_three {f2 : BitVec 2} (h0 : f2 = 0b00#2 → False) (h1 : f2 = 0b01#2 → False) (h2 : f2 = 0b10#2 → False) :
    f2 = 0b11#2 := by
  revert f2
  decide

theorem eq_one {f1 : BitVec 1} (h0 : f1 = 0b0#1 → False) : f1 = 0b1#1 := by
  revert f1
  decide

theorem is32or64_of_ne (hx : c.xlen ≠ .rv128) : c.is32or64 = true := by
  cases h : c.xlen <;> simp_all [Config.is32or64]

theorem hasD_row_exists (hx : c.xlen ≠ .rv128) (hD : c.hasD = true) : (c.is32or64 && c.hasD) = true := by
  rw [is32or64_of_ne hx, hD]
  rfl

/-- A parcel of quadrant 0 that decodes to `i` is the encoding of `i`, and `i` exists. -/
theorem encode_of_quadrant0 (hop : p.extractLsb 1 0 = 0b00#2) (h : quadrant0 c p = .instr i) :
    i.wellFormed c = true ∧ i.encode = .parcel p := by
  have hLw := clType_of_fields p hop
  have hLd := hLw
  have hLq := hLw
  have hCiw := ciwType_of_fields p
  have hpayload := reservedQ0_of_fields p hop
  rw [← scatterLw_immLw] at hLw
  rw [← scatterLd_immLd] at hLd
  rw [← scatterLq_immLq] at hLq
  rw [hop, ← scatterCiw_immCiw] at hCiw
  unfold quadrant0 at h
  dsimp only at h
  generalize p.extractLsb 15 13 = f3 at h hLw hLd hLq hCiw hpayload
  split at h
  case h_1 =>
    split_ifs at h with hzero himm <;> cases h
    · exact ⟨rfl, hzero ▸ rfl⟩
    · exact ⟨bne_iff_ne.mpr himm, hCiw⟩
  case h_2 | h_6 =>
    split_ifs at h with hx
    · cases h
      exact ⟨beq_iff_eq.mpr hx, hLq⟩
    · obtain ⟨hD, rfl⟩ := gate_instr h
      exact ⟨hasD_row_exists hx hD, hLd⟩
  case h_3 | h_7 =>
    cases h
    exact ⟨rfl, hLw⟩
  case h_4 =>
    split_ifs at h with hx
    · obtain ⟨hF, rfl⟩ := gate_instr h
      exact ⟨Bool.and_eq_true_iff.mpr ⟨beq_iff_eq.mpr hx, hF⟩, hLw⟩
    · cases h
      exact ⟨bne_iff_ne.mpr hx, hLd⟩
  case h_5 =>
    cases h
    exact ⟨rfl, hpayload rfl⟩
  case h_8 h0 h1 h2 h3 h4 h5 h6 =>
    obtain rfl := eq_seven h0 h1 h2 h3 h4 h5 h6
    split_ifs at h with hx
    · obtain ⟨hF, rfl⟩ := gate_instr h
      exact ⟨Bool.and_eq_true_iff.mpr ⟨beq_iff_eq.mpr hx, hF⟩, hLw⟩
    · cases h
      exact ⟨bne_iff_ne.mpr hx, hLd⟩

/-- A parcel of the MISC-ALU group that decodes to `i` is the encoding of `i`, and `i` exists. -/
theorem encode_of_miscAlu (hop : p.extractLsb 1 0 = 0b01#2) (hf3 : p.extractLsb 15 13 = 0b100#3)
    (h : miscAlu c p = .instr i) : i.wellFormed c = true ∧ i.encode = .parcel p := by
  have hcb := cbType_of_fields p hf3 hop
  have hca := caType_of_fields p hf3
  unfold miscAlu at h
  dsimp only at h
  generalize p.extractLsb 11 10 = f2 at h hcb hca
  split at h
  case h_1 | h_2 =>
    unfold shiftRow at h
    split_ifs at h with hzero hnse <;> cases h
    · rw [hzero] at hcb
      exact ⟨rfl, hcb⟩
    · exact ⟨(shamtOk_iff ..).mpr ⟨hzero, hnse⟩, hcb⟩
  case h_3 =>
    cases h
    exact ⟨rfl, hcb⟩
  case h_4 h0 h1 h2 =>
    obtain rfl := eq_three h0 h1 h2
    have hca := hca rfl hop
    generalize p.extractLsb 12 12 = f1 at h hca
    generalize p.extractLsb 6 5 = f2 at h hca
    split at h
    case h_1 | h_2 | h_3 =>
      cases h
      exact ⟨rfl, hca⟩
    case h_4 h0 h1 h2 =>
      obtain rfl := eq_three h0 h1 h2
      cases h
      exact ⟨rfl, hca⟩
    case h_5 h0 | h_6 h0 =>
      obtain rfl := eq_one h0
      split_ifs at h with hx
      cases h
      exact ⟨bne_iff_ne.mpr hx, hca⟩
    case h_7 h0 =>
      obtain rfl := eq_one h0
      cases h
      exact ⟨rfl, hca⟩
    case h_8 hbit h0 h1 h2 _ _ _ =>
      obtain rfl := eq_one hbit
      obtain rfl := eq_three h0 h1 h2
      cases h
      exact ⟨rfl, hca⟩

/-- A parcel of quadrant 1 that decodes to `i` is the encoding of `i`, and `i` exists. -/
theorem encode_of_quadrant1 (hop : p.extractLsb 1 0 = 0b01#2) (h : quadrant1 c p = .instr i) :
    i.wellFormed c = true ∧ i.encode = .parcel p := by
  have hci := ciType_of_fields p
  have hcj := cjType_of_fields p hop
  have hcb := cbBranch_of_fields p hop
  have halu := encode_of_miscAlu (c := c) (i := i) hop
  rw [hop] at hci
  unfold quadrant1 at h
  dsimp only at h
  generalize p.extractLsb 15 13 = f3 at h hci hcj hcb halu
  split at h
  case h_1 =>
    split_ifs at h with hr himm <;> cases h
    · rw [hr, himm] at hci
      exact ⟨rfl, hci⟩
    · rw [hr] at hci
      exact ⟨bne_iff_ne.mpr himm, hci⟩
    · exact ⟨bne_iff_ne.mpr hr, hci⟩
  case h_2 =>
    split_ifs at h with hx hr <;> cases h
    · exact ⟨beq_iff_eq.mpr hx, hcj⟩
    · exact ⟨Bool.and_eq_true_iff.mpr ⟨bne_iff_ne.mpr hx, bne_iff_ne.mpr hr⟩, hci⟩
  case h_3 =>
    cases h
    exact ⟨rfl, hci⟩
  case h_4 =>
    split_ifs at h with himm hr <;> cases h
    · rw [hr, ← scatterSp16_immSp16] at hci
      refine ⟨bne_iff_ne.mpr fun h => himm ?_, hci⟩
      rw [← scatterSp16_immSp16, h]
      rfl
    · exact ⟨Bool.and_eq_true_iff.mpr ⟨bne_iff_ne.mpr hr, bne_iff_ne.mpr himm⟩, hci⟩
  case h_5 => exact halu rfl h
  case h_6 =>
    cases h
    exact ⟨rfl, hcj⟩
  case h_7 =>
    cases h
    exact ⟨rfl, hcb⟩
  case h_8 h0 h1 h2 h3 h4 h5 h6 =>
    obtain rfl := eq_seven h0 h1 h2 h3 h4 h5 h6
    cases h
    exact ⟨rfl, hcb⟩

/-- A parcel of the jump, move and add group that decodes to `i` is the encoding of `i`, and `i` exists. -/
theorem encode_of_jumpMoveAdd (hop : p.extractLsb 1 0 = 0b10#2) (hf3 : p.extractLsb 15 13 = 0b100#3)
    (h : jumpMoveAdd p = .instr i) : i.wellFormed c = true ∧ i.encode = .parcel p := by
  have hcr := crType_of_fields p hf3 hop
  unfold jumpMoveAdd at h
  dsimp only at h
  split_ifs at h with hf1 hs hr hs hr <;> cases h
  · rw [hf1, hs] at hcr
    exact ⟨bne_iff_ne.mpr hr, hcr⟩
  · rw [hf1] at hcr
    exact ⟨bne_iff_ne.mpr hs, hcr⟩
  · rw [eq_one hf1, hs, hr] at hcr
    exact ⟨rfl, hcr⟩
  · rw [eq_one hf1, hs] at hcr
    exact ⟨bne_iff_ne.mpr hr, hcr⟩
  · rw [eq_one hf1] at hcr
    exact ⟨bne_iff_ne.mpr hs, hcr⟩

/-- A parcel of quadrant 2 that decodes to `i` is the encoding of `i`, and `i` exists. -/
theorem encode_of_quadrant2 (hop : p.extractLsb 1 0 = 0b10#2) (h : quadrant2 c p = .instr i) :
    i.wellFormed c = true ∧ i.encode = .parcel p := by
  have hci := ciType_of_fields p
  rw [hop] at hci
  have hLwsp := hci
  have hLdsp := hci
  have hLqsp := hci
  have hSwsp := cssType_of_fields p hop
  have hSdsp := hSwsp
  have hSqsp := hSwsp
  rw [← scatterLwsp_immLwsp] at hLwsp
  rw [← scatterLdsp_immLdsp] at hLdsp
  rw [← scatterLqsp_immLqsp] at hLqsp
  rw [← scatterSwsp_immSwsp] at hSwsp
  rw [← scatterSdsp_immSdsp] at hSdsp
  rw [← scatterSqsp_immSqsp] at hSqsp
  have hjump := encode_of_jumpMoveAdd (c := c) (i := i) hop
  unfold quadrant2 at h
  dsimp only at h
  generalize p.extractLsb 15 13 = f3 at h hci hLwsp hLdsp hLqsp hSwsp hSdsp hSqsp hjump
  split at h
  case h_1 =>
    split_ifs at h with himm hr hnse <;> cases h
    · rw [himm] at hci
      exact ⟨rfl, hci⟩
    · exact ⟨(if_pos hr).trans (bne_iff_ne.mpr himm), hci⟩
    · rw [← imm6_top] at hnse
      exact ⟨(if_neg hr).trans ((shamtOk_iff ..).mpr ⟨himm, hnse⟩), hci⟩
  case h_2 =>
    split_ifs at h with hx hr
    · cases h
      exact ⟨Bool.and_eq_true_iff.mpr ⟨beq_iff_eq.mpr hx, bne_iff_ne.mpr hr⟩, hLqsp⟩
    · obtain ⟨hD, rfl⟩ := gate_instr h
      exact ⟨hasD_row_exists hx hD, hLdsp⟩
  case h_3 =>
    split_ifs at h with hr
    cases h
    exact ⟨bne_iff_ne.mpr hr, hLwsp⟩
  case h_4 =>
    split_ifs at h with hx hr
    · obtain ⟨hF, rfl⟩ := gate_instr h
      exact ⟨Bool.and_eq_true_iff.mpr ⟨beq_iff_eq.mpr hx, hF⟩, hLwsp⟩
    · cases h
      exact ⟨Bool.and_eq_true_iff.mpr ⟨bne_iff_ne.mpr hx, bne_iff_ne.mpr hr⟩, hLdsp⟩
  case h_5 => exact hjump rfl h
  case h_6 =>
    split_ifs at h with hx
    · cases h
      exact ⟨beq_iff_eq.mpr hx, hSqsp⟩
    · obtain ⟨hD, rfl⟩ := gate_instr h
      exact ⟨hasD_row_exists hx hD, hSdsp⟩
  case h_7 =>
    cases h
    exact ⟨rfl, hSwsp⟩
  case h_8 h0 h1 h2 h3 h4 h5 h6 =>
    obtain rfl := eq_seven h0 h1 h2 h3 h4 h5 h6
    split_ifs at h with hx
    · obtain ⟨hF, rfl⟩ := gate_instr h
      exact ⟨Bool.and_eq_true_iff.mpr ⟨beq_iff_eq.mpr hx, hF⟩, hSwsp⟩
    · cases h
      exact ⟨bne_iff_ne.mpr hx, hSdsp⟩

/-- Bits that decode to `i` are the encoding of `i`, and `i` exists. -/
theorem encode_of_decodeBits {e : Encoding} (h : decodeBits c e = .instr i) :
    i.wellFormed c = true ∧ i.encode = e := by
  cases e with
  | parcel p =>
    have h : decode16 c p = .instr i := h
    rw [decode16_eq] at h
    split_ifs at h with h0 h1 h2
    · exact encode_of_quadrant0 h0 h
    · exact encode_of_quadrant1 h1 h
    · exact encode_of_quadrant2 h2 h
  | word w =>
    have h : decode32 c w = .instr i := h
    unfold decode32 at h
    split at h
    case h_1 j hrow =>
      obtain ⟨hwf, rfl⟩ := gate_instr h
      exact ⟨hwf, encode_of_wordRow hrow⟩
    case h_2 => cases h

end

/-- Settles O8: a parcel or a word that decodes is put together again from its fields, row by row. -/
theorem encodingInvertsDecoding : Obligations.EncodingInvertsDecoding := by
  intro c bs i h
  obtain ⟨e, rest, rfl, hbits⟩ := decodeBits_of_decode h
  obtain ⟨hwf, rfl⟩ := encode_of_decodeBits hbits
  exact ⟨hwf, rest, rfl⟩

/-- Settles O9: each word decodes by evaluation. -/
theorem exampleWordsDecode : Obligations.ExampleWordsDecode := by
  unfold Obligations.ExampleWordsDecode
  decide

end Sys2Proof.Proofs
end

