-- ==== Sys2Proof/Proofs/IntegerRows.lean ====
section
/-! The integer rows of RV32I, RV64I, RV32M and RVC that write a register or move pc (O20-O26, O31-O33, O35): each row
completes with the expression of its meaning, which the lemmas about words turn into numbers. -/

namespace Sys2Proof.Proofs

open Sys2Proof.Machine Sys2Proof.Laws

/-! ### Words as numbers -/

section

variable {w : Nat} (x y : BitVec w)

theorem add_eq_ofInt (z : Int) : x + BitVec.ofInt w z = BitVec.ofInt w (x.toInt + z) := by
  rw [BitVec.ofInt_add, BitVec.ofInt_toInt]

theorem sub_eq_ofInt : x - y = BitVec.ofInt w (x.toInt - y.toInt) := by
  rw [← BitVec.toInt_inj, BitVec.toInt_sub, BitVec.toInt_ofInt]

theorem add_eq_ofNat (z : Nat) : x + BitVec.ofNat w z = BitVec.ofNat w (x.toNat + z) := by
  rw [BitVec.ofNat_add, BitVec.ofNat_toNat, BitVec.setWidth_eq]

theorem ofNat_toNat_self : BitVec.ofNat w x.toNat = x := by
  rw [BitVec.ofNat_toNat, BitVec.setWidth_eq]

theorem and_eq_ofNat : x &&& y = BitVec.ofNat w (x.toNat &&& y.toNat) := by
  rw [← BitVec.toNat_and, ofNat_toNat_self]

theorem or_eq_ofNat : x ||| y = BitVec.ofNat w (x.toNat ||| y.toNat) := by
  rw [← BitVec.toNat_or, ofNat_toNat_self]

theorem xor_eq_ofNat : x ^^^ y = BitVec.ofNat w (x.toNat ^^^ y.toNat) := by
  rw [← BitVec.toNat_xor, ofNat_toNat_self]

theorem eq_zero_iff_toNat : x = 0 ↔ x.toNat = 0 := by
  rw [← BitVec.toNat_inj]
  simp

/-- The truth value of a signed comparison. -/
theorem boolValue_slt : boolValue w (x.slt y) = if x.toInt < y.toInt then 1 else 0 := by
  by_cases h : x.toInt < y.toInt <;> simp [boolValue, BitVec.slt, h]

/-- The truth value of an unsigned comparison. -/
theorem boolValue_ult : boolValue w (x.ult y) = if x.toNat < y.toNat then 1 else 0 := by
  by_cases h : x.toNat < y.toNat <;> simp [boolValue, BitVec.ult, h]

end

/-- A signed immediate that fits has the value of its bits. -/
theorem signedImm_toInt {w k z : Nat} (i : BitVec k) (h : k + z ≤ w) : (signedImm w i z).toInt = i.toInt * 2 ^ z := by
  rw [signedImm, BitVec.toInt_signExtend_of_le h, append_zero_toInt]

theorem unsignedImm_toNat {w k z : Nat} (i : BitVec k) (h : k + z ≤ w) :
    (unsignedImm w i z).toNat = i.toNat * 2 ^ z := by
  rw [unsignedImm, BitVec.toNat_setWidth_of_le h, BitVec.toNat_append, BitVec.toNat_zero, Nat.or_zero, Nat.shiftLeft_eq]

theorem width_ge (s : State) : 32 ≤ s.width := by
  unfold State.width
  cases s.cfg.xlen <;> decide

/-- The low word of a signed value, sign-extended (R360). -/
theorem sextWord_ofInt {w : Nat} (v : Nat) (hw : 32 ≤ v) (z : Int) :
    sextWord w ((BitVec.ofInt v z).setWidth 32) = wordResult w z := by
  rw [← wordResult_toInt, toInt_setWidth_of_le _ hw, BitVec.toInt_ofInt, wordResult, wordResult, Int.bmod_bmod]
  rw [Int.bmod_bmod_of_dvd (pow_dvd_pow 2 hw)]

/-! ### Rows that write a register -/

section

variable {s : State} {i : Instr} {v v' : BitVec s.width} {p p' : Word} {r : Result}

/-- A row that completes with a register result, its value in another form. -/
theorem row_setsX (hwf : i.wellFormed s.cfg = true) (n : Nat) (rd : Reg) (hv : v = v') :
    setsX s rd v' (s.pcAfter n) (onRow i s (completeX n rd v s)) :=
  hv ▸ onRow_completeX_setsX hwf n rd v

/-- A row that moves pc, the target in another form. -/
theorem row_setsPc (hwf : i.wellFormed s.cfg = true) (h : setsPc s p r) (hp : p = p') : setsPc s p' (onRow i s r) := by
  rw [onRow_ok _ hwf, ← hp]
  exact h

/-- Completing without an effect writes any value into x0. -/
theorem setsX_zero (v : BitVec s.width) (h : setsPc s p r) : setsX s 0 v p r := by
  obtain ⟨t, hr, hpc, hx, hf, hfcsr, hmem, hsys⟩ := h
  refine ⟨t, hr, fun hne => absurd rfl hne, fun q _ => ?_, hpc, hf, hfcsr, hmem, hsys⟩
  simp only [hx]

/-- Completing without an effect writes back the old value. -/
theorem setsX_old (rd : Reg) (h : setsPc s p r) : setsX s rd (s.rx rd) p r := by
  obtain ⟨t, hr, hpc, hx, hf, hfcsr, hmem, hsys⟩ := h
  refine ⟨t, hr, fun _ => ?_, fun q _ => ?_, hpc, hf, hfcsr, hmem, hsys⟩
  · simp only [State.rx, State.getX, hx]
  · simp only [hx]

/-- A row that is a HINT when rd is x0 (R135). -/
theorem row_hint_setsX (hwf : i.wellFormed s.cfg = true) (n : Nat) (rd : Reg) (hv : v = v') :
    setsX s rd v' (s.pcAfter n) (onRow i s (if rd = 0 then complete n s else completeX n rd v s)) := by
  rw [onRow_ok _ hwf, ← hv]
  split
  next hrd => exact hrd ▸ setsX_zero v (complete_setsPc n s)
  next => exact completeX_setsX n rd s v

end

/-- Settles O20: each row writes one register. -/
theorem upperImmediates : Obligations.UpperImmediates := by
  intro s rd imm hx
  have himm : signedImm s.width imm 12 = BitVec.ofInt s.width (imm.toInt * 4096) := signedImm_eq s.width imm 12
  refine ⟨row_setsX (i := .lui rd imm) hx 4 rd himm, row_setsX (i := .auipc rd imm) hx 4 rd ?_⟩
  rw [himm, rpc_ofNat, BitVec.ofInt_add, BitVec.ofInt_natCast]

/-- Settles O21: each row writes the link, if any, and the pc. -/
theorem jumpsAndLinks : Obligations.JumpsAndLinks := by
  intro s rd rs1
  have hlink {i : Instr} (hwf : i.wellFormed s.cfg = true) (n : Nat) (rd : Reg) {t : BitVec s.width} {p : Word}
      (hp : t.setWidth 128 = p) :
      setsX s rd (BitVec.ofNat s.width (s.pc.toNat + n)) p (onRow i s (jumpLink n rd t s)) := by
    rw [onRow_ok _ hwf, ← hp]
    exact jumpLink_setsX n rd s t
  refine ⟨fun o hx => ?_, fun o hx => ?_, fun o hx => ?_, fun o => ?_, fun h => ?_, fun h => ?_⟩
  · exact hlink (i := .jal rd o) hx 4 rd (target_eq s o 1)
  · refine hlink (i := .jalr rd rs1 o) hx 4 rd ?_
    rw [evenTarget_eq, signedImm_zero]
  · exact hlink (i := .cJal o) (beq_iff_eq.mpr hx) 2 1 (target_eq s o 1)
  · exact row_setsPc (i := .cJ o) rfl (jump_setsPc _ s) (target_eq s o 1)
  · exact row_setsPc (i := .cJr rs1) (bne_iff_ne.mpr h) (jump_setsPc _ s) (evenTarget_eq s _)
  · exact hlink (i := .cJalr rs1) (bne_iff_ne.mpr h) 2 1 (evenTarget_eq s _)

/-- The target of a branch row, taken or not. -/
theorem branchTarget_eq (s : State) {k : Nat} (o : BitVec k) (n : Nat) {taken : Bool} {P : Prop} [Decidable P]
    (h : taken = true ↔ P) :
    (if taken then (s.rpc + signedImm s.width o 1).setWidth 128 else s.pcAfter n) =
      if P then s.pcOffset (o.toInt * 2) else s.pcAfter n := by
  have htarget : (s.rpc + signedImm s.width o 1).setWidth 128 = s.pcOffset (o.toInt * 2) := target_eq s o 1
  simp only [h, htarget]

/-- Settles O22: each condition on words is the one on numbers. -/
theorem conditionalBranches : Obligations.ConditionalBranches := by
  intro s rs1 rs2 o r o8
  have hbranch {i : Instr} (hwf : i.wellFormed s.cfg = true) (n : Nat) {k : Nat} (o : BitVec k) {taken : Bool}
      {P : Prop} [Decidable P] (h : taken = true ↔ P) :
      setsPc s (if P then s.pcOffset (o.toInt * 2) else s.pcAfter n)
        (onRow i s (branch n taken s (signedImm s.width o 1))) :=
    row_setsPc hwf (branch_setsPc n taken s _) (branchTarget_eq s o n h)
  refine ⟨fun hx => ⟨?_, ?_, ?_, ?_, ?_, ?_⟩, ?_, ?_⟩
  · exact hbranch (i := .beq rs1 rs2 o) hx 4 o (by rw [beq_iff_eq, BitVec.toNat_inj])
  · rw [← ite_not]
    exact hbranch (i := .bne rs1 rs2 o) hx 4 o (by rw [bne_iff_ne, ne_eq, BitVec.toNat_inj])
  · exact hbranch (i := .blt rs1 rs2 o) hx 4 o BitVec.slt_iff_toInt_lt
  · exact hbranch (i := .bge rs1 rs2 o) hx 4 o (by simp [BitVec.slt_iff_toInt_lt, ← Bool.not_eq_true])
  · exact hbranch (i := .bltu rs1 rs2 o) hx 4 o BitVec.ult_iff_toNat_lt
  · exact hbranch (i := .bgeu rs1 rs2 o) hx 4 o (by simp [BitVec.ult_iff_toNat_lt, ← Bool.not_eq_true])
  · exact hbranch (i := .cBeqz r o8) rfl 2 o8 (by rw [beq_iff_eq, eq_zero_iff_toNat])
  · rw [← ite_not]
    exact hbranch (i := .cBnez r o8) rfl 2 o8 (by rw [bne_iff_ne, ne_eq, eq_zero_iff_toNat])

/-- Settles O23: each value on words is the one on numbers. -/
theorem immediateArithmetic : Obligations.ImmediateArithmetic := by
  intro s rd rs1 imm hx
  have himm : signedImm s.width imm 0 = BitVec.ofInt s.width imm.toInt := signedImm_zero s.width imm
  have htoInt : (signedImm s.width imm 0).toInt = imm.toInt := by
    rw [signedImm_toInt imm (by have := width_ge s; omega), pow_zero, mul_one]
  refine ⟨row_setsX (i := .addi rd rs1 imm) hx 4 rd ?_, row_setsX (i := .slti rd rs1 imm) hx 4 rd ?_,
    row_setsX (i := .sltiu rd rs1 imm) hx 4 rd ?_, row_setsX (i := .xori rd rs1 imm) hx 4 rd ?_,
    row_setsX (i := .ori rd rs1 imm) hx 4 rd ?_, row_setsX (i := .andi rd rs1 imm) hx 4 rd ?_⟩
  · rw [himm, add_eq_ofInt]
  · rw [boolValue_slt, htoInt]
  · rw [himm, boolValue_ult]
  · rw [himm, xor_eq_ofNat]
  · rw [himm, or_eq_ofNat]
  · rw [himm, and_eq_ofNat]

/-- Settles O24: each value on words is the one on numbers. -/
theorem registerArithmetic : Obligations.RegisterArithmetic := by
  intro s rd rs1 rs2 hx
  refine ⟨row_setsX (i := .add rd rs1 rs2) hx 4 rd ?_, row_setsX (i := .sub rd rs1 rs2) hx 4 rd (sub_eq_ofInt ..),
    row_setsX (i := .slt rd rs1 rs2) hx 4 rd (boolValue_slt ..),
    row_setsX (i := .sltu rd rs1 rs2) hx 4 rd (boolValue_ult ..),
    row_setsX (i := .xor rd rs1 rs2) hx 4 rd (xor_eq_ofNat ..),
    row_setsX (i := .or rd rs1 rs2) hx 4 rd (or_eq_ofNat ..), row_setsX (i := .and rd rs1 rs2) hx 4 rd (and_eq_ofNat ..)⟩
  rw [← add_eq_ofNat, ofNat_toNat_self]

/-- Settles O25: a shift is a product or a floor quotient. -/
theorem shifts : Obligations.Shifts := by
  intro s rd rs1 rs2
  refine ⟨fun n hx => ?_, fun n hx => ?_, fun hx => ?_⟩
  · have hwf := beq_iff_eq.mpr hx
    exact ⟨row_setsX (i := .slliRv32 rd rs1 n) hwf 4 rd (shiftLeft_eq ..),
      row_setsX (i := .srliRv32 rd rs1 n) hwf 4 rd (ushiftRight_eq ..),
      row_setsX (i := .sraiRv32 rd rs1 n) hwf 4 rd (sshiftRight_eq ..)⟩
  · have hwf := beq_iff_eq.mpr hx
    exact ⟨row_setsX (i := .slliRv64 rd rs1 n) hwf 4 rd (shiftLeft_eq ..),
      row_setsX (i := .srliRv64 rd rs1 n) hwf 4 rd (ushiftRight_eq ..),
      row_setsX (i := .sraiRv64 rd rs1 n) hwf 4 rd (sshiftRight_eq ..)⟩
  · have hamount : (if s.cfg.xlen = .rv32 then (s.rx rs2).toNat % 32 else (s.rx rs2).toNat % 64) =
        regShamt s.cfg.xlen (s.rx rs2) := by
      rw [regShamt_eq]
      have hne := xlen_ne_rv128 hx
      cases h : s.cfg.xlen with
      | rv32 => rfl
      | rv64 => rfl
      | rv128 => exact absurd h hne
    rw [hamount]
    exact ⟨row_setsX (i := .sll rd rs1 rs2) hx 4 rd (shiftLeft_eq ..),
      row_setsX (i := .srl rd rs1 rs2) hx 4 rd (ushiftRight_eq ..),
      row_setsX (i := .sra rd rs1 rs2) hx 4 rd (sshiftRight_eq ..)⟩

/-! ### The W forms -/

/-- A 32-bit result, sign-extended (R360). -/
theorem sextWord_ofInt32 (w : Nat) (z : Int) : sextWord w (BitVec.ofInt 32 z) = wordResult w z := by
  rw [← wordResult_toInt, BitVec.toInt_ofInt, wordResult, wordResult, Int.bmod_bmod]

theorem sextWord_ofNat32 (w z : Nat) : sextWord w (BitVec.ofNat 32 z) = wordResult w (z : Int) := by
  rw [← sextWord_ofInt32, BitVec.ofInt_natCast]

section

variable {w : Nat} (x y : BitVec w) (n : Nat)

theorem sextWord_shiftLeft :
    sextWord w (x.setWidth 32 <<< n) = wordResult w ((x.toNat % 2 ^ 32 * 2 ^ n : Nat) : Int) := by
  rw [shiftLeft_eq, sextWord_ofNat32, BitVec.toNat_setWidth]

theorem sextWord_ushiftRight :
    sextWord w (x.setWidth 32 >>> n) = wordResult w ((x.toNat % 2 ^ 32 / 2 ^ n : Nat) : Int) := by
  rw [ushiftRight_eq, sextWord_ofNat32, BitVec.toNat_setWidth]

theorem sextWord_sshiftRight :
    sextWord w ((x.setWidth 32).sshiftRight n) =
      wordResult w (((x.toNat % 2 ^ 32 : Nat) : Int).bmod (2 ^ 32) / 2 ^ n) := by
  rw [sshiftRight_eq, sextWord_ofInt32, BitVec.toInt_eq_toNat_bmod, BitVec.toNat_setWidth]

theorem add_eq_ofInt_toInt : x + y = BitVec.ofInt w (x.toInt + y.toInt) := by
  rw [← add_eq_ofInt, BitVec.ofInt_toInt]

end

/-- Settles O26: the value on 32 bits, extended. -/
theorem wordArithmetic : Obligations.WordArithmetic := by
  intro s rd rs1 rs2 imm n hx a m
  have hwf := beq_iff_eq.mpr hx
  have hw := width_ge s
  have hm : m = ((s.rx rs2).setWidth 5).toNat := (BitVec.toNat_setWidth 5 (s.rx rs2)).symm
  rw [hm]
  refine ⟨row_setsX (i := .addiw rd rs1 imm) hwf 4 rd ?_,
    row_setsX (i := .slliw rd rs1 n) hwf 4 rd (sextWord_shiftLeft ..),
    row_setsX (i := .srliw rd rs1 n) hwf 4 rd (sextWord_ushiftRight ..),
    row_setsX (i := .sraiw rd rs1 n) hwf 4 rd (sextWord_sshiftRight ..),
    row_setsX (i := .addw rd rs1 rs2) hwf 4 rd ?_, row_setsX (i := .subw rd rs1 rs2) hwf 4 rd ?_,
    row_setsX (i := .sllw rd rs1 rs2) hwf 4 rd (sextWord_shiftLeft ..),
    row_setsX (i := .srlw rd rs1 rs2) hwf 4 rd (sextWord_ushiftRight ..),
    row_setsX (i := .sraw rd rs1 rs2) hwf 4 rd (sextWord_sshiftRight ..)⟩
  · rw [signedImm_zero, add_eq_ofInt, sextWord_ofInt _ hw]
  · rw [add_eq_ofInt_toInt, sextWord_ofInt _ hw]
  · rw [sub_eq_ofInt, sextWord_ofInt _ hw]

/-! ### Products -/

/-- Settles O35: the low half of a product is the product modulo 2^XLEN. -/
theorem multiplication : Obligations.Multiplication := by
  intro s rd rs1 rs2 hM
  refine ⟨fun hx => ?_, fun hx => ?_⟩
  · have hwf : (s.cfg.is32or64 && s.cfg.extM) = true := by rw [hx, hM]; rfl
    refine ⟨row_setsX (i := .mul rd rs1 rs2) hwf 4 rd ?_, row_setsX (i := .mulh rd rs1 rs2) hwf 4 rd rfl,
      row_setsX (i := .mulhsu rd rs1 rs2) hwf 4 rd rfl, row_setsX (i := .mulhu rd rs1 rs2) hwf 4 rd ?_⟩
    · rw [BitVec.ofNat_mul, ofNat_toNat_self, ofNat_toNat_self]
    · rw [mulHigh, ← BitVec.ofInt_natCast]
      push_cast
      rfl
  · have hwf : (s.cfg.xlen == .rv64 && s.cfg.extM) = true := by rw [hx, hM]; rfl
    refine row_setsX (i := .mulw rd rs1 rs2) hwf 4 rd ?_
    rw [← wordResult_toInt, BitVec.toInt_mul, toInt_setWidth_of_le _ (width_ge s), toInt_setWidth_of_le _ (width_ge s),
      wordResult, wordResult, Int.bmod_bmod, Int.bmod_mul_bmod, Int.mul_bmod_bmod]

/-! ### Compressed rows -/

/-- Settles O31: each row, HINT forms included, writes one register or none. -/
theorem compressedImmediateArithmetic : Obligations.CompressedImmediateArithmetic := by
  intro s r rd imm
  have hw := width_ge s
  refine ⟨row_setsPc (i := .cNop) rfl (complete_setsPc 2 s) rfl, fun z hz => ?_, fun hrd => ?_, fun hrd hx => ?_, ?_,
    fun himm => ?_, fun himm hrd => ?_, ?_⟩
  · refine row_setsX (i := .cAddi4spn r z) (bne_iff_ne.mpr hz) 2 (primed r) ?_
    rw [unsignedImm_eq, add_eq_ofNat]
    rfl
  · have hwf : (Instr.cAddi rd imm).wellFormed s.cfg = true := bne_iff_ne.mpr hrd
    by_cases himm : imm = 0
    · have hzero : (0 : BitVec 6).toInt = 0 := rfl
      have hold : BitVec.ofInt s.width ((s.rx rd).toInt + imm.toInt) = s.rx rd := by
        rw [himm, hzero, add_zero, BitVec.ofInt_toInt]
      rw [hold]
      refine setsX_old rd (row_setsPc hwf ?_ rfl)
      rw [if_pos himm]
      exact complete_setsPc 2 s
    · have hrun : exec (.cAddi rd imm) s =
          onRow (.cAddi rd imm) s (completeX 2 rd (s.rx rd + signedImm s.width imm 0) s) :=
        congrArg (onRow _ s) (if_neg himm)
      rw [hrun]
      refine row_setsX hwf 2 rd ?_
      rw [signedImm_zero, add_eq_ofInt]
  · refine row_setsX (i := .cAddiw rd imm) (Bool.and_eq_true_iff.mpr ⟨bne_iff_ne.mpr hx, bne_iff_ne.mpr hrd⟩) 2 rd ?_
    rw [signedImm_zero, add_eq_ofInt, sextWord_ofInt _ hw]
  · exact row_hint_setsX (i := .cLi rd imm) rfl 2 rd (signedImm_zero ..)
  · refine row_setsX (i := .cAddi16sp imm) (bne_iff_ne.mpr himm) 2 2 ?_
    rw [signedImm_eq, add_eq_ofInt]
    rfl
  · exact row_hint_setsX (i := .cLui rd imm) (Bool.and_eq_true_iff.mpr ⟨bne_iff_ne.mpr hrd, bne_iff_ne.mpr himm⟩) 2 rd
      (signedImm_eq ..)
  · refine row_setsX (i := .cAndi r imm) rfl 2 (primed r) ?_
    rw [signedImm_zero, and_eq_ofNat]

/-- Settles O32: each row writes one register or none. -/
theorem compressedRegisterArithmetic : Obligations.CompressedRegisterArithmetic := by
  intro s r q rd rs2 a b
  have hw := width_ge s
  refine ⟨row_setsX (i := .cSub r q) rfl 2 (primed r) (sub_eq_ofInt ..),
    row_setsX (i := .cXor r q) rfl 2 (primed r) (xor_eq_ofNat ..),
    row_setsX (i := .cOr r q) rfl 2 (primed r) (or_eq_ofNat ..),
    row_setsX (i := .cAnd r q) rfl 2 (primed r) (and_eq_ofNat ..), fun hx => ⟨?_, ?_⟩, fun hrs2 => ⟨?_, ?_⟩⟩
  · refine row_setsX (i := .cSubw r q) (bne_iff_ne.mpr hx) 2 (primed r) ?_
    rw [sub_eq_ofInt, sextWord_ofInt _ hw]
  · refine row_setsX (i := .cAddw r q) (bne_iff_ne.mpr hx) 2 (primed r) ?_
    rw [add_eq_ofInt_toInt, sextWord_ofInt _ hw]
  · exact row_hint_setsX (i := .cMv rd rs2) (bne_iff_ne.mpr hrs2) 2 rd rfl
  · refine row_hint_setsX (i := .cAdd rd rs2) (bne_iff_ne.mpr hrs2) 2 rd ?_
    rw [← add_eq_ofNat, ofNat_toNat_self]

/-- The amount of a nonzero field is the one the spec lists (R128). -/
theorem rvcShamt_eq (x : Xlen) {n : BitVec 6} (hn : n ≠ 0) : rvcShamt x n = compressedShift x n := by
  cases x with
  | rv32 => rfl
  | rv64 => rfl
  | rv128 =>
    revert n
    decide

/-- A row that shifts with XLEN = 128 and is a HINT otherwise (R228, R230). -/
theorem row_shift64_hint {s : State} {i : Instr} (hwf : i.wellFormed s.cfg = true) {P : Prop} [Decidable P] (hP : ¬P)
    (r : Result) : setsPc s (s.pcAfter 2) (onRow i s (if P then r else complete 2 s)) := by
  refine row_setsPc hwf ?_ rfl
  rw [if_neg hP]
  exact complete_setsPc 2 s

/-- The same row when it shifts. -/
theorem row_shift64_shifts {s : State} {i : Instr} (hwf : i.wellFormed s.cfg = true) {P : Prop} [Decidable P] (hP : P)
    (rd : Reg) {v v' : BitVec s.width} (hv : v = v') :
    setsX s rd v' (s.pcAfter 2) (onRow i s (if P then completeX 2 rd v s else complete 2 s)) := by
  rw [if_pos hP]
  exact row_setsX hwf 2 rd hv

/-- Settles O33: a shift by the amount encoded, or by 64. -/
theorem compressedShifts : Obligations.CompressedShifts := by
  intro s r rd n k
  refine ⟨fun hn h32 => ?_, fun hn => ?_, fun hx => ⟨?_, ?_, ?_⟩, fun hx => ?_⟩
  · have hok : s.cfg.shamtOk n = true := by
      simp only [Config.shamtOk, Bool.and_eq_true, Bool.or_eq_true, bne_iff_ne, decide_eq_true_eq]
      exact ⟨hn, or_iff_not_imp_left.mpr fun hx => h32 (not_not.mp hx)⟩
    have hk : rvcShamt s.cfg.xlen n = k := rvcShamt_eq _ hn
    rw [← hk]
    refine ⟨row_setsX (i := .cSrli r n) hok 2 (primed r) (ushiftRight_eq ..),
      row_setsX (i := .cSrai r n) hok 2 (primed r) (sshiftRight_eq ..),
      row_hint_setsX (i := .cSlli rd n) ?_ 2 rd (shiftLeft_eq ..)⟩
    by_cases hrd : rd = 0
    · exact (if_pos hrd).trans (bne_iff_ne.mpr hn)
    · exact (if_neg hrd).trans hok
  · exact row_setsPc (i := .cSlli 0 n) (bne_iff_ne.mpr hn) (complete_setsPc 2 s) rfl
  · exact row_shift64_hint (i := .cSrli64 r) rfl hx _
  · exact row_shift64_hint (i := .cSrai64 r) rfl hx _
  · exact row_shift64_hint (i := .cSlli64 rd) rfl (fun h => hx h.1) _
  · have hk : rvcShamt s.cfg.xlen 0 = 64 := by
      rw [hx]
      rfl
    rw [← hk]
    refine ⟨row_shift64_shifts (i := .cSrli64 r) rfl hx (primed r) (ushiftRight_eq ..),
      row_shift64_shifts (i := .cSrai64 r) rfl hx (primed r) (sshiftRight_eq ..), ?_⟩
    by_cases hrd : rd = 0
    · rw [hrd]
      exact setsX_zero _ (row_shift64_hint (i := .cSlli64 0) rfl (fun h => h.2 rfl) _)
    · exact row_shift64_shifts (i := .cSlli64 rd) rfl ⟨hx, hrd⟩ rd (shiftLeft_eq ..)

end Sys2Proof.Proofs
end

