-- ==== Sys2Proof/Proofs/ParcelTables.lean ====
section
/-! O10 and O11. The decode tree answers "reserved" and "non-standard" under conditions on the fields of the parcel; the
tables of the spec are the same conditions in numbers. -/

namespace Sys2Proof.Proofs

open Sys2Proof.Machine Sys2Proof.Laws

/-! ### Fields as numbers -/

theorem extractLsb_eq_iff {n : Nat} (hi lo : Nat) (x : BitVec n) (k : BitVec (hi - lo + 1)) :
    x.extractLsb hi lo = k ↔ x.toNat / 2 ^ lo % 2 ^ (hi - lo + 1) = k.toNat := by
  rw [← BitVec.toNat_inj, extractLsb_toNat_div]

section

variable (p : BitVec 16)

theorem op_eq_iff (k : BitVec 2) : p.extractLsb 1 0 = k ↔ p.toNat % 4 = k.toNat := by
  rw [extractLsb_eq_iff]
  simp

theorem funct3_eq_iff (k : BitVec 3) : p.extractLsb 15 13 = k ↔ p.toNat / 2 ^ 13 = k.toNat := by
  rw [extractLsb_eq_iff, Nat.mod_eq_of_lt (by omega)]

theorem rd_eq_iff (k : BitVec 5) : p.extractLsb 11 7 = k ↔ p.toNat / 2 ^ 7 % 32 = k.toNat := extractLsb_eq_iff 11 7 p k

theorem rs2_eq_iff (k : BitVec 5) : p.extractLsb 6 2 = k ↔ p.toNat / 4 % 32 = k.toNat := extractLsb_eq_iff 6 2 p k

theorem imm6_eq_iff (k : BitVec 6) :
    imm6 p = k ↔ p.toNat / 2 ^ 12 % 2 * 32 + p.toNat / 4 % 32 = k.toNat := by
  rw [← BitVec.toNat_inj, imm6, toNat_append_add, extractLsb_toNat_div, extractLsb_toNat_div]
  exact Iff.rfl

theorem immCiw_eq_zero_iff : immCiw p = 0#8 ↔ p.toNat / 2 ^ 5 % 256 = 0 := by
  have hfield : p.extractLsb 12 5 = scatterCiw 0#8 ↔ p.toNat / 2 ^ 5 % 256 = 0 := extractLsb_eq_iff 12 5 p 0#8
  rw [← hfield]
  refine ⟨fun h => ?_, immCiw_eq⟩
  rw [← scatterCiw_immCiw, h]

theorem bit12_eq_iff (k : BitVec 1) : p.extractLsb 12 12 = k ↔ p.toNat / 2 ^ 12 % 2 = k.toNat :=
  extractLsb_eq_iff 12 12 p k

theorem funct2_eq_iff (k : BitVec 2) : p.extractLsb 11 10 = k ↔ p.toNat / 2 ^ 10 % 4 = k.toNat :=
  extractLsb_eq_iff 11 10 p k

theorem funct2_low_eq_iff (k : BitVec 2) : p.extractLsb 6 5 = k ↔ p.toNat / 2 ^ 5 % 4 = k.toNat :=
  extractLsb_eq_iff 6 5 p k

theorem eq_iff_toNat (k : BitVec 16) : p = k ↔ p.toNat = k.toNat := BitVec.toNat_inj.symm

end

/-! ### Where the tree answers "reserved" and "non-standard" -/

section

variable {c : Config} {p : BitVec 16}

theorem gate_bad_iff {present : Bool} {i : Instr} {e : DecodeError} :
    Config.gate present i = .bad e ↔ present = false ∧ e = .noRow := by
  cases present <;> simp [Config.gate, eq_comm]

theorem quadrant0_reserved_iff :
    quadrant0 c p = .bad .reserved ↔ p.extractLsb 15 13 = 0#3 ∧ p ≠ 0#16 ∧ immCiw p = 0#8 := by
  unfold quadrant0
  dsimp only
  generalize p.extractLsb 15 13 = f3
  split
  case h_3 | h_5 | h_7 => simp
  all_goals split_ifs <;> simp_all [gate_bad_iff]

theorem quadrant0_nonStandard : quadrant0 c p ≠ .bad .nonStandard := by
  unfold quadrant0
  dsimp only
  split
  case h_3 | h_5 | h_7 => simp
  all_goals split_ifs <;> simp_all [gate_bad_iff]

theorem shiftRow_reserved {shamt : BitVec 6} {i j : Instr} : shiftRow c shamt i j ≠ .bad .reserved := by
  unfold shiftRow
  split_ifs <;> simp

theorem shiftRow_nonStandard_iff {shamt : BitVec 6} {i j : Instr} :
    shiftRow c shamt i j = .bad .nonStandard ↔ c.xlen = .rv32 ∧ shamt.extractLsb 5 5 = 1#1 := by
  unfold shiftRow
  split_ifs with hzero hnse
  · simp [hzero]
  · simpa using hnse
  · simpa using hnse

theorem miscAlu_reserved_iff :
    miscAlu c p = .bad .reserved ↔
      c.xlen = .rv32 ∧ p.extractLsb 11 10 = 3#2 ∧ p.extractLsb 12 12 = 1#1 ∧
        (p.extractLsb 6 5 = 0#2 ∨ p.extractLsb 6 5 = 1#2) := by
  unfold miscAlu
  dsimp only
  generalize p.extractLsb 11 10 = f2
  split
  case h_1 | h_2 | h_3 => simp [shiftRow_reserved]
  case h_4 h0 h1 h2 =>
    have hf2 := eq_three h0 h1 h2
    generalize p.extractLsb 12 12 = f1
    generalize p.extractLsb 6 5 = g2
    split
    case h_5 h | h_6 h => split_ifs <;> simp_all [eq_one h]
    all_goals simp_all

theorem miscAlu_nonStandard_iff :
    miscAlu c p = .bad .nonStandard ↔
      c.xlen = .rv32 ∧ p.extractLsb 12 12 = 1#1 ∧ (p.extractLsb 11 10 = 0#2 ∨ p.extractLsb 11 10 = 1#2) := by
  unfold miscAlu
  dsimp only
  generalize p.extractLsb 11 10 = f2
  split
  case h_1 | h_2 => simp [shiftRow_nonStandard_iff, imm6_top]
  case h_3 => simp
  case h_4 h0 h1 h2 =>
    rw [eq_three h0 h1 h2]
    split
    case h_5 | h_6 => split_ifs <;> simp
    all_goals simp

theorem quadrant1_reserved_iff :
    quadrant1 c p = .bad .reserved ↔
      (p.extractLsb 15 13 = 1#3 ∧ c.xlen ≠ .rv32 ∧ p.extractLsb 11 7 = 0#5) ∨
      (p.extractLsb 15 13 = 3#3 ∧ imm6 p = 0#6) ∨
      (p.extractLsb 15 13 = 4#3 ∧ c.xlen = .rv32 ∧ p.extractLsb 11 10 = 3#2 ∧ p.extractLsb 12 12 = 1#1 ∧
        (p.extractLsb 6 5 = 0#2 ∨ p.extractLsb 6 5 = 1#2)) := by
  rw [← miscAlu_reserved_iff]
  unfold quadrant1
  dsimp only
  generalize p.extractLsb 15 13 = f3
  split
  case h_3 | h_5 | h_6 | h_7 => simp
  case h_8 h0 h1 h2 h3 h4 h5 h6 => simp [eq_seven h0 h1 h2 h3 h4 h5 h6]
  all_goals split_ifs <;> simp_all

theorem quadrant1_nonStandard_iff :
    quadrant1 c p = .bad .nonStandard ↔
      p.extractLsb 15 13 = 4#3 ∧ c.xlen = .rv32 ∧ p.extractLsb 12 12 = 1#1 ∧
        (p.extractLsb 11 10 = 0#2 ∨ p.extractLsb 11 10 = 1#2) := by
  rw [← miscAlu_nonStandard_iff]
  unfold quadrant1
  dsimp only
  generalize p.extractLsb 15 13 = f3
  split
  case h_3 | h_5 | h_6 | h_7 => simp
  case h_8 h0 h1 h2 h3 h4 h5 h6 => simp [eq_seven h0 h1 h2 h3 h4 h5 h6]
  all_goals split_ifs <;> simp

theorem jumpMoveAdd_reserved_iff :
    jumpMoveAdd p = .bad .reserved ↔
      p.extractLsb 12 12 = 0#1 ∧ p.extractLsb 6 2 = 0#5 ∧ p.extractLsb 11 7 = 0#5 := by
  unfold jumpMoveAdd
  dsimp only
  split_ifs <;> simp_all

theorem jumpMoveAdd_nonStandard : jumpMoveAdd p ≠ .bad .nonStandard := by
  unfold jumpMoveAdd
  dsimp only
  split_ifs <;> simp

theorem quadrant2_reserved_iff :
    quadrant2 c p = .bad .reserved ↔
      (p.extractLsb 15 13 = 1#3 ∧ c.xlen = .rv128 ∧ p.extractLsb 11 7 = 0#5) ∨
      (p.extractLsb 15 13 = 2#3 ∧ p.extractLsb 11 7 = 0#5) ∨
      (p.extractLsb 15 13 = 3#3 ∧ c.xlen ≠ .rv32 ∧ p.extractLsb 11 7 = 0#5) ∨
      (p.extractLsb 15 13 = 4#3 ∧ p.extractLsb 12 12 = 0#1 ∧ p.extractLsb 6 2 = 0#5 ∧ p.extractLsb 11 7 = 0#5) := by
  rw [← jumpMoveAdd_reserved_iff]
  unfold quadrant2
  dsimp only
  generalize p.extractLsb 15 13 = f3
  split
  case h_5 | h_7 => simp
  case h_8 h0 h1 h2 h3 h4 h5 h6 => split_ifs <;> simp [gate_bad_iff, eq_seven h0 h1 h2 h3 h4 h5 h6]
  all_goals split_ifs <;> simp_all [gate_bad_iff]

theorem quadrant2_nonStandard_iff :
    quadrant2 c p = .bad .nonStandard ↔
      p.extractLsb 15 13 = 0#3 ∧ p.extractLsb 11 7 ≠ 0#5 ∧ c.xlen = .rv32 ∧ p.extractLsb 12 12 = 1#1 := by
  unfold quadrant2
  dsimp only
  generalize p.extractLsb 15 13 = f3
  split
  case h_1 =>
    split_ifs with himm hr hnse
    · have hbit : p.extractLsb 12 12 ≠ 1#1 := by
        rw [← imm6_top, himm]
        decide
      simp [hbit]
    all_goals simp_all
  case h_5 => simp [jumpMoveAdd_nonStandard]
  case h_7 => simp
  all_goals split_ifs <;> simp_all [gate_bad_iff]

end

/-! ### The tables, quadrant by quadrant -/

section

variable {c : Config} {p : BitVec 16}

theorem quadrant0_reserved_table (hop : p.extractLsb 1 0 = 0b00#2) :
    quadrant0 c p = .bad .reserved ↔ isReservedParcel c.xlen p := by
  rw [quadrant0_reserved_iff, isReservedParcel]
  cases c.xlen
  all_goals
    simp only [op_eq_iff, funct3_eq_iff, immCiw_eq_zero_iff, eq_iff_toNat p, BitVec.reduceToNat, reduceCtorEq, ne_eq,
      not_true_eq_false, not_false_eq_true, true_and, false_and, false_or] at hop ⊢
    omega

theorem quadrant1_reserved_table (hop : p.extractLsb 1 0 = 0b01#2) :
    quadrant1 c p = .bad .reserved ↔ isReservedParcel c.xlen p := by
  rw [quadrant1_reserved_iff, isReservedParcel]
  cases c.xlen
  all_goals
    simp only [op_eq_iff, funct3_eq_iff, rd_eq_iff, imm6_eq_iff, bit12_eq_iff, funct2_eq_iff, funct2_low_eq_iff,
      eq_iff_toNat p, BitVec.reduceToNat, reduceCtorEq, ne_eq, not_true_eq_false, not_false_eq_true, true_and, false_and,
      and_false, false_or, or_false] at hop ⊢
    simp only [hop, Nat.reduceEqDiff, true_and, false_and, false_or]
    omega

theorem quadrant1_nonStandard_table (hop : p.extractLsb 1 0 = 0b01#2) :
    quadrant1 c p = .bad .nonStandard ↔ isNonStandardParcel c.xlen p := by
  rw [quadrant1_nonStandard_iff, isNonStandardParcel]
  cases c.xlen
  all_goals
    simp only [op_eq_iff, funct3_eq_iff, bit12_eq_iff, funct2_eq_iff, BitVec.reduceToNat, reduceCtorEq, true_and,
      false_and, and_false] at hop ⊢
  omega

theorem quadrant2_reserved_table (hop : p.extractLsb 1 0 = 0b10#2) :
    quadrant2 c p = .bad .reserved ↔ isReservedParcel c.xlen p := by
  rw [quadrant2_reserved_iff, isReservedParcel]
  cases c.xlen
  all_goals
    simp only [op_eq_iff, funct3_eq_iff, rd_eq_iff, rs2_eq_iff, bit12_eq_iff, eq_iff_toNat p, BitVec.reduceToNat,
      reduceCtorEq, ne_eq, not_true_eq_false, not_false_eq_true, true_and, false_and, and_false, false_or] at hop ⊢
    simp only [hop, Nat.reduceEqDiff, true_and, false_and, false_or]
    omega

theorem quadrant2_nonStandard_table (hop : p.extractLsb 1 0 = 0b10#2) :
    quadrant2 c p = .bad .nonStandard ↔ isNonStandardParcel c.xlen p := by
  rw [quadrant2_nonStandard_iff, isNonStandardParcel]
  cases c.xlen
  all_goals
    simp only [op_eq_iff, funct3_eq_iff, rd_eq_iff, bit12_eq_iff, BitVec.reduceToNat, reduceCtorEq, ne_eq, true_and,
      false_and, and_false] at hop ⊢
  omega

/-- The tables list no parcel of another quadrant. -/
theorem table_low_bits {x : Xlen} (h : isReservedParcel x p ∨ isNonStandardParcel x p) :
    p.extractLsb 1 0 = 0b00#2 ∨ p.extractLsb 1 0 = 0b01#2 ∨ p.extractLsb 1 0 = 0b10#2 := by
  simp only [isReservedParcel, isNonStandardParcel, eq_iff_toNat p, BitVec.reduceToNat] at h
  simp only [op_eq_iff, BitVec.reduceToNat]
  omega

theorem nonStandard_low_bits {x : Xlen} (h : isNonStandardParcel x p) :
    p.extractLsb 1 0 = 0b01#2 ∨ p.extractLsb 1 0 = 0b10#2 := by
  obtain ⟨-, -, ⟨hop, -⟩ | ⟨hop, -⟩⟩ := h
  · exact .inl ((op_eq_iff p _).mpr hop)
  · exact .inr ((op_eq_iff p _).mpr hop)

end

/-- Settles O10: in each quadrant the tree's condition on the fields is the table's condition on the number. -/
theorem reservedParcelsAreExactlyTheListedOnes : Obligations.ReservedParcelsAreExactlyTheListedOnes := by
  intro c p
  rw [decode16_eq]
  split_ifs with h0 h1 h2
  · refine ⟨quadrant0_reserved_table h0, iff_of_false quadrant0_nonStandard fun h => ?_⟩
    have hlow := nonStandard_low_bits h
    rw [h0] at hlow
    revert hlow
    decide
  · exact ⟨quadrant1_reserved_table h1, quadrant1_nonStandard_table h1⟩
  · exact ⟨quadrant2_reserved_table h2, quadrant2_nonStandard_table h2⟩
  · have hnone {P : Prop} (hP : P → isReservedParcel c.xlen p ∨ isNonStandardParcel c.xlen p) : ¬P := fun h =>
      (table_low_bits (hP h)).elim h0 fun h => h.elim h1 h2
    exact ⟨iff_of_false (by simp) (hnone .inl), iff_of_false (by simp) (hnone .inr)⟩

/-! ### HINT parcels -/

/-- A HINT completes without an effect (R132, R135). -/
theorem hint_setsPc {s : State} {i : Instr} (hwf : i.wellFormed s.cfg = true) (hhint : i.isHint s.cfg = true) :
    setsPc s (s.pcAfter 2) (exec i s) := by
  have hnop {P : Prop} [Decidable P] (hP : P) (r : Result) : setsPc s (s.pcAfter 2) (if P then complete 2 s else r) := by
    rw [if_pos hP]
    exact complete_setsPc 2 s
  cases i with
  | cAddi rd nzimm =>
    obtain ⟨-, hz⟩ : rd ≠ 0 ∧ nzimm = 0 := by simpa [Instr.isHint] using hhint
    exact row_setsPc hwf (hnop hz _) rfl
  | cLi rd imm => exact row_setsPc hwf (hnop (beq_iff_eq.mp hhint) _) rfl
  | cLui rd nzimm =>
    obtain ⟨hrd, -⟩ : rd = 0 ∧ nzimm ≠ 0 := by simpa [Instr.isHint] using hhint
    exact row_setsPc hwf (hnop hrd _) rfl
  | cSrli64 | cSrai64 => exact row_shift64_hint hwf (bne_iff_ne.mp hhint) _
  | cSlli rd shamt => exact row_setsPc hwf (hnop (beq_iff_eq.mp hhint) _) rfl
  | cSlli64 rd =>
    have hhint : s.cfg.xlen ≠ .rv128 ∨ rd = 0 := by simpa [Instr.isHint] using hhint
    exact row_shift64_hint hwf (fun h => hhint.elim (· h.1) h.2) _
  | cMv rd rs2 | cAdd rd rs2 =>
    obtain ⟨hrd, -⟩ : rd = 0 ∧ rs2 ≠ 0 := by simpa [Instr.isHint] using hhint
    exact row_setsPc hwf (hnop hrd _) rfl
  | _ => cases hhint

/-- The instruction behind a HINT parcel is one that the model marks as a HINT (R135). -/
theorem hintParcel_isHint {c : Config} {p : BitVec 16} (h : isHintParcel c.xlen p) :
    ∃ i : Instr, i.encode = .parcel p ∧ i.wellFormed c = true ∧ i.isHint c = true := by
  have hci := ciType_of_fields p
  have hop (k : BitVec 2) (hk : p.toNat % 4 = k.toNat) : p.extractLsb 1 0 = k := (op_eq_iff p k).mpr hk
  have hf3 (k : BitVec 3) (hk : p.toNat / 2 ^ 13 = k.toNat) : p.extractLsb 15 13 = k := (funct3_eq_iff p k).mpr hk
  have hr : p.toNat / 2 ^ 7 % 32 = 0 ↔ p.extractLsb 11 7 = 0#5 := (rd_eq_iff p 0#5).symm
  have hs : p.toNat / 4 % 32 = 0 ↔ p.extractLsb 6 2 = 0#5 := (rs2_eq_iff p 0#5).symm
  have himm : p.toNat / 2 ^ 12 % 2 * 32 + p.toNat / 4 % 32 = 0 ↔ imm6 p = 0#6 := (imm6_eq_iff p 0#6).symm
  obtain ⟨ho, hf, hr0, hz⟩ | ⟨ho, hf, hr0⟩ | ⟨ho, hf, hr0, hz⟩ | ⟨hx, ho, hf, hf2, hz⟩ | ⟨ho, hf, hr0⟩ |
    ⟨hx, ho, hf, hr0, hz⟩ | ⟨ho, hf, hr0, hs0⟩ := h
  · rw [hop 0b01 ho, hf3 0b000 hf, himm.mp hz] at hci
    rw [ne_eq, hr] at hr0
    exact ⟨.cAddi (p.extractLsb 11 7) 0, hci, bne_iff_ne.mpr hr0, by simpa [Instr.isHint] using hr0⟩
  · rw [hop 0b01 ho, hf3 0b010 hf, hr.mp hr0] at hci
    exact ⟨.cLi 0 (imm6 p), hci, rfl, rfl⟩
  · rw [hop 0b01 ho, hf3 0b011 hf, hr.mp hr0] at hci
    rw [ne_eq, himm] at hz
    refine ⟨.cLui 0 (imm6 p), hci, by simpa [Instr.wellFormed] using hz, by simpa [Instr.isHint] using hz⟩
  · have hcb := cbType_of_fields p (hf3 0b100 hf) (hop 0b01 ho)
    rw [himm.mp hz] at hcb
    have hhint : (c.xlen != .rv128) = true := bne_iff_ne.mpr hx
    obtain hf2 | hf2 : p.extractLsb 11 10 = 0b00#2 ∨ p.extractLsb 11 10 = 0b01#2 := by
      simp only [funct2_eq_iff, BitVec.reduceToNat]
      omega
    · rw [hf2] at hcb
      exact ⟨.cSrli64 (p.extractLsb 9 7), hcb, rfl, hhint⟩
    · rw [hf2] at hcb
      exact ⟨.cSrai64 (p.extractLsb 9 7), hcb, rfl, hhint⟩
  · rw [hop 0b10 ho, hf3 0b000 hf, hr.mp hr0] at hci
    by_cases hz : imm6 p = 0#6
    · rw [hz] at hci
      exact ⟨.cSlli64 0, hci, rfl, Bool.or_true _⟩
    · exact ⟨.cSlli 0 (imm6 p), hci, bne_iff_ne.mpr hz, rfl⟩
  · rw [hop 0b10 ho, hf3 0b000 hf, himm.mp hz] at hci
    refine ⟨.cSlli64 (p.extractLsb 11 7), hci, rfl, ?_⟩
    simp [Instr.isHint, hx]
  · have hcr := crType_of_fields p (hf3 0b100 hf) (hop 0b10 ho)
    rw [ne_eq, hs] at hs0
    rw [hr.mp hr0] at hcr
    have hhint : ((0 : Reg) == 0 && p.extractLsb 6 2 != 0) = true := bne_iff_ne.mpr hs0
    by_cases hbit : p.extractLsb 12 12 = 0#1
    · rw [hbit] at hcr
      exact ⟨.cMv 0 (p.extractLsb 6 2), hcr, hhint, hhint⟩
    · rw [eq_one hbit] at hcr
      exact ⟨.cAdd 0 (p.extractLsb 6 2), hcr, hhint, hhint⟩

/-- The numbers of a parcel of format CI (R105). -/
theorem ciParcel_numbers {f3 : BitVec 3} {imm : BitVec 6} {r : Reg} {op : BitVec 2} {p : BitVec 16}
    (h : ciType f3 imm r op = .parcel p) :
    p.toNat % 4 = op.toNat ∧ p.toNat / 2 ^ 13 = f3.toNat ∧ p.toNat / 2 ^ 7 % 32 = r.toNat ∧
      p.toNat / 2 ^ 12 % 2 * 32 + p.toNat / 4 % 32 = imm.toNat := by
  obtain ⟨q, hq, hop, hf3, hr, himm⟩ := ciType_fields op f3 r imm
  obtain rfl := Encoding.parcel.inj (h.symm.trans hq)
  exact ⟨(op_eq_iff p op).mp hop, (funct3_eq_iff p f3).mp hf3, (rd_eq_iff p r).mp hr, (imm6_eq_iff p imm).mp himm⟩

/-- An instruction that the model marks as a HINT has a parcel of the table (R135). -/
theorem isHintParcel_of_isHint {c : Config} {i : Instr} {p : BitVec 16} (henc : i.encode = .parcel p)
    (hhint : i.isHint c = true) : isHintParcel c.xlen p := by
  unfold isHintParcel
  dsimp only
  cases i with
  | cAddi rd nzimm =>
    obtain ⟨hrd, rfl⟩ : rd ≠ 0#5 ∧ nzimm = 0 := by simpa [Instr.isHint] using hhint
    obtain ⟨hop, hf3, hr, himm⟩ := ciParcel_numbers henc
    rw [ne_eq, ← BitVec.toNat_inj, ← hr] at hrd
    exact .inl ⟨hop, hf3, hrd, himm⟩
  | cLi rd imm =>
    obtain rfl : rd = 0 := beq_iff_eq.mp hhint
    obtain ⟨hop, hf3, hr, -⟩ := ciParcel_numbers henc
    exact .inr (.inl ⟨hop, hf3, hr⟩)
  | cLui rd nzimm =>
    obtain ⟨rfl, hz⟩ : rd = 0 ∧ nzimm ≠ 0#6 := by simpa [Instr.isHint] using hhint
    obtain ⟨hop, hf3, hr, himm⟩ := ciParcel_numbers henc
    rw [ne_eq, ← BitVec.toNat_inj, ← himm] at hz
    exact .inr (.inr (.inl ⟨hop, hf3, hr, hz⟩))
  | cSrli64 rd | cSrai64 rd =>
    obtain ⟨q, hq, hop, hf3, hf2, -, himm⟩ := cbType_fields _ rd 0
    obtain rfl := Encoding.parcel.inj (henc.symm.trans hq)
    rw [op_eq_iff] at hop
    rw [funct3_eq_iff] at hf3
    rw [funct2_eq_iff] at hf2
    rw [imm6_eq_iff] at himm
    exact .inr (.inr (.inr (.inl ⟨bne_iff_ne.mp hhint, hop, hf3, hf2.trans_lt (by decide), himm⟩)))
  | cSlli rd shamt =>
    obtain rfl : rd = 0 := beq_iff_eq.mp hhint
    obtain ⟨hop, hf3, hr, -⟩ := ciParcel_numbers henc
    exact .inr (.inr (.inr (.inr (.inl ⟨hop, hf3, hr⟩))))
  | cSlli64 rd =>
    have hhint : c.xlen ≠ .rv128 ∨ rd = 0#5 := by simpa [Instr.isHint] using hhint
    obtain ⟨hop, hf3, hr, himm⟩ := ciParcel_numbers henc
    by_cases hrd : rd = 0#5
    · exact .inr (.inr (.inr (.inr (.inl ⟨hop, hf3, hr.trans (congrArg _ hrd)⟩))))
    · have hx := hhint.resolve_right hrd
      rw [← BitVec.toNat_inj, ← hr] at hrd
      exact .inr (.inr (.inr (.inr (.inr (.inl ⟨hx, hop, hf3, hrd, himm⟩)))))
  | cMv rd rs2 | cAdd rd rs2 =>
    obtain ⟨rfl, hs⟩ : rd = 0 ∧ rs2 ≠ 0#5 := by simpa [Instr.isHint] using hhint
    obtain ⟨q, hq, hop, hf3, -, hr, hrs2⟩ := crType_fields _ 0 rs2
    obtain rfl := Encoding.parcel.inj (henc.symm.trans hq)
    rw [op_eq_iff] at hop
    rw [funct3_eq_iff] at hf3
    rw [rd_eq_iff] at hr
    rw [rs2_eq_iff] at hrs2
    rw [ne_eq, ← BitVec.toNat_inj, ← hrs2] at hs
    exact .inr (.inr (.inr (.inr (.inr (.inr ⟨hop, hf3, hr, hs⟩)))))
  | _ => cases hhint

/-- Settles O11: the tree reaches a HINT exactly under the conditions of the table. -/
theorem hintParcelsOnlyAdvancePc : Obligations.HintParcelsOnlyAdvancePc := by
  intro s p
  constructor
  · intro h
    obtain ⟨i, henc, hwf, hhint⟩ := hintParcel_isHint h
    refine ⟨i, ?_, hhint, hint_setsPc hwf hhint⟩
    have hdec := decodeBits_parcel hwf henc
    rwa [henc] at hdec
  · intro i hdec hhint
    obtain ⟨-, henc⟩ := encode_of_decodeBits (e := .parcel p) hdec
    exact isHintParcel_of_isHint henc hhint

end Sys2Proof.Proofs
end

