-- ==== Sys2Proof/Proofs/Steps.lean ====
section
/-! O12 to O15. A step is its fetch, then the decoder, then `exec`: how each fetch ends, and what the step answers for
it. -/

namespace Sys2Proof.Proofs

open Sys2Proof.Machine Sys2Proof.Laws

/-! ### The length that a parcel announces -/

theorem isWide_iff (p : BitVec 16) : isWide p = true ↔ p.toNat % 4 = 3 := by
  rw [isWide, beq_iff_eq, op_eq_iff]
  exact Iff.rfl

theorem isTooLong_iff (c : Config) (p : BitVec 16) : isTooLong c p = true ↔ p.toNat % 32 = 31 := by
  have hmid : p.extractLsb 4 2 = 0b111#3 ↔ p.toNat / 4 % 8 = 7 := extractLsb_eq_iff 4 2 p 0b111#3
  rw [isTooLong_eq, Bool.and_eq_true, isWide_iff, beq_iff_eq]
  exact (and_congr_right' hmid).trans (by omega)

/-! ### Fetching -/

section

variable {s : State} {a : Nat}

/-- The parcel at `a` touches no dirty byte, in the words of the fetch procedure. -/
theorem touches_two_iff : AddrSet.touches s.dirty 2 a = true ↔ ∃ b ∈ s.dirty, a ≤ b ∧ b < a + 2 := by
  simp [AddrSet.touches]

theorem fetchParcel_wraps (h : 2 ^ s.width < a + 2) : fetchParcel s a = .stop (.refused .wrapsAddressSpace) := if_pos h

theorem fetchParcel_invalid (htop : a + 2 ≤ 2 ^ s.width) (hvalid : s.memValid .fetch 2 a = false) :
    fetchParcel s a = .stop (raise .instructionAccessFault (BitVec.ofNat 128 a) s) := by
  rw [fetchParcel, if_neg (by omega), if_pos hvalid]

theorem fetchParcel_dirty (htop : a + 2 ≤ 2 ^ s.width) (hvalid : s.memValid .fetch 2 a = true)
    (hdirty : ∃ b ∈ s.dirty, a ≤ b ∧ b < a + 2) : fetchParcel s a = .stop (.refused .dirtyFetch) := by
  rw [fetchParcel, if_neg (by omega), if_neg (by simp [hvalid]), if_pos (touches_two_iff.mpr hdirty)]

theorem fetchParcel_ok (h : fetchable s a) :
    fetchParcel s a = .bytes [Memory.readByte s.mem a, Memory.readByte s.mem (a + 1)] := by
  obtain ⟨htop, hvalid, hclean⟩ := h
  have hdirty : ¬ AddrSet.touches s.dirty 2 a = true := by
    rw [touches_two_iff]
    rintro ⟨b, hb, hlow, hhigh⟩
    have := hclean b hb
    omega
  rw [fetchParcel, if_neg (by omega), if_neg (by simp [hvalid]), if_neg hdirty]

end

section

variable {s : State} {r : Result}

/-- A first parcel that cannot be fetched stops the fetch. -/
theorem fetch_of_first_stop (h : fetchParcel s s.rpc.toNat = .stop r) : fetch s = .stop r := by
  simp only [fetch, h]

theorem fetch_tooLong (h : fetchable s s.rpc.toNat) (hlong : (parcelAt s s.rpc.toNat).toNat % 32 = 31) :
    fetch s = .stop (raise .illegalInstruction ((parcelAt s s.rpc.toNat).setWidth 128) s) := by
  rw [← isTooLong_iff s.cfg, parcelAt] at hlong
  simp only [fetch, fetchParcel_ok h, hlong, if_true, parcelAt]

theorem fetch_narrow (h : fetchable s s.rpc.toNat) (hnarrow : (parcelAt s s.rpc.toNat).toNat % 4 ≠ 3) :
    fetch s = .bytes (bytesAt s 2 s.rpc.toNat) := by
  have hwide : ¬ isWide (parcelAt s s.rpc.toNat) = true := by rwa [isWide_iff]
  have hlong : ¬ isTooLong s.cfg (parcelAt s s.rpc.toNat) = true := by
    rw [isTooLong_iff]
    omega
  simp only [parcelAt] at hwide hlong
  simp only [fetch, fetchParcel_ok h, hlong, hwide, bytesAt]
  rfl

section

variable (h : fetchable s s.rpc.toNat) (hwide : (parcelAt s s.rpc.toNat).toNat % 4 = 3)
  (hlong : (parcelAt s s.rpc.toNat).toNat % 32 ≠ 31)

include h hwide hlong

/-- The second parcel of a 32-bit instruction stops the fetch. -/
theorem fetch_of_second_stop (hstop : fetchParcel s (s.rpc.toNat + 2) = .stop r) : fetch s = .stop r := by
  rw [← isWide_iff, parcelAt] at hwide
  rw [ne_eq, ← isTooLong_iff s.cfg, parcelAt] at hlong
  simp only [fetch, fetchParcel_ok h, hlong, hwide, hstop]
  rfl

theorem fetch_wide (hsecond : fetchable s (s.rpc.toNat + 2)) : fetch s = .bytes (bytesAt s 4 s.rpc.toNat) := by
  rw [← isWide_iff, parcelAt] at hwide
  rw [ne_eq, ← isTooLong_iff s.cfg, parcelAt] at hlong
  simp only [fetch, fetchParcel_ok h, hlong, hwide, fetchParcel_ok hsecond, bytesAt]
  rfl

end

/-! ### The step after its fetch -/

theorem step_of_stop (hx : s.cfg.xlen ≠ .rv128) (h : fetch s = .stop r) : step s = r := by
  simp only [step, runInstruction, if_neg hx, h]

theorem step_of_bytes {bs : List Byte} (hx : s.cfg.xlen ≠ .rv128) (h : fetch s = .bytes bs) :
    step s = decodeFetched bs s fun i => exec i s := by
  simp only [step, runInstruction, if_neg hx, h]

end

/-! ### The bytes of a parcel and of a word -/

theorem bytesAt_two (s : State) (a : Nat) : bytesAt s 2 a = (Encoding.parcel (parcelAt s a)).bytes := by
  rw [parcelAt, bytes_of_parcel]
  rfl

theorem bytesAt_four (s : State) (a : Nat) :
    bytesAt s 4 a = (Encoding.word (parcelAt s (a + 2) ++ parcelAt s a)).bytes := by
  have happend (b3 b2 b1 b0 : Byte) : (b3 ++ b2 : BitVec 16) ++ (b1 ++ b0 : BitVec 16) = b3 ++ b2 ++ b1 ++ b0 := by
    apply BitVec.eq_of_toNat_eq
    simp only [toNat_append_add]
    ring
  rw [parcelAt, parcelAt, happend, bytes_of_word]
  rfl

/-- The number of the bytes of a parcel or a word is the info of its exception (R601, R604). -/
theorem bytesValue_bytes (e : Encoding) : BitVec.ofNat 128 (bytesValue e.bytes) = e.info := by
  cases e with
  | parcel p =>
    have hvalue : bytesValue (Encoding.parcel p).bytes = p.toNat := by
      simp only [Encoding.bytes, bytesValue, extractLsb_toNat_div]
      omega
    rw [hvalue, Encoding.info, BitVec.ofNat_toNat]
  | word w =>
    have hvalue : bytesValue (Encoding.word w).bytes = w.toNat := by
      simp only [Encoding.bytes, bytesValue, extractLsb_toNat_div]
      omega
    rw [hvalue, Encoding.info, BitVec.ofNat_toNat]

theorem bytes_length (e : Encoding) : e.bytes.length = e.length := by
  cases e <;> rfl

theorem bytesAt_length (s : State) (n a : Nat) : (bytesAt s n a).length = n := by
  induction n generalizing a with
  | zero => rfl
  | succ n ih => exact congrArg (· + 1) (ih (a + 1))

/-- Bytes determine the parcel or the word they lie in memory for. -/
theorem bytes_injective {e e' : Encoding} (h : e.bytes = e'.bytes) : e = e' := by
  cases e with
  | parcel p =>
    cases e' with
    | parcel q =>
      simp only [Encoding.bytes, List.cons.injEq, and_true] at h
      rw [← parcel_of_bytes p, ← parcel_of_bytes q, h.1, h.2]
    | word w => simp [Encoding.bytes] at h
  | word v =>
    cases e' with
    | parcel q => simp [Encoding.bytes] at h
    | word w =>
      simp only [Encoding.bytes, List.cons.injEq, and_true] at h
      obtain ⟨h0, h1, h2, h3⟩ := h
      rw [← word_of_bytes v, ← word_of_bytes w, h0, h1, h2, h3]

/-- Bytes of the length of the instruction that they decode to are its encoding. -/
theorem bytesAt_eq_bytes {s : State} {a : Nat} {i : Instr} (h : decode s.cfg (bytesAt s i.length a) = .instr i) :
    bytesAt s i.length a = i.bytes := by
  obtain ⟨-, rest, hrest⟩ := encodingInvertsDecoding _ _ _ h
  have hlength := congrArg List.length hrest
  rw [bytesAt_length, List.length_append, Instr.bytes, bytes_length, Instr.length] at hlength
  obtain rfl : rest = [] := List.eq_nil_of_length_eq_zero (by omega)
  rwa [List.append_nil] at hrest

theorem word_toNat_low (hi lo : BitVec 16) :
    (hi ++ lo).toNat % 4 = lo.toNat % 4 ∧ (hi ++ lo).toNat % 32 = lo.toNat % 32 := by
  rw [toNat_append_add]
  omega

/-- The low bits of a word that announces 32 bits (R101). -/
theorem word_lowBits_iff (w : BitVec 32) :
    (w.extractLsb 1 0 = 3 ↔ w.toNat % 4 = 3) ∧ (w.extractLsb 4 2 = 7 ↔ w.toNat / 4 % 8 = 7) := by
  refine ⟨?_, extractLsb_eq_iff 4 2 w 7⟩
  refine (extractLsb_eq_iff 1 0 w 3).trans ?_
  rw [pow_zero, Nat.div_one]
  exact Iff.rfl

/-- Settles O12: bytes that decode announce the length of their instruction, so the fetch hands over just them. -/
theorem stepRunsTheDecodedInstruction : Obligations.StepRunsTheDecodedInstruction := by
  intro s i hx hfirst hsecond hdec
  have hbytes := bytesAt_eq_bytes hdec
  obtain ⟨hwf, -⟩ := encodingInvertsDecoding _ _ _ hdec
  have hfetch : fetch s = .bytes (bytesAt s i.length s.rpc.toNat) := by
    rw [Instr.bytes] at hbytes
    rw [Instr.length] at hbytes hsecond ⊢
    cases henc : i.encode with
    | parcel p =>
      rw [henc, Encoding.length, bytesAt_two] at hbytes
      obtain rfl := Encoding.parcel.inj (bytes_injective hbytes)
      refine fetch_narrow hfirst fun hwide => ?_
      have hdec := decodeBits_parcel hwf henc
      rw [henc, decodeBits, decode16_eq, (op_eq_iff _ 3).mpr hwide] at hdec
      cases hdec
    | word w =>
      rw [henc, Encoding.length, bytesAt_four] at hbytes
      obtain rfl := Encoding.word.inj (bytes_injective hbytes)
      have hrow := rowOf_encode hwf henc
      rw [henc] at hrow
      obtain ⟨hlow, hmid⟩ := lowBits_of_wordRow hrow
      obtain ⟨hlow_iff, hmid_iff⟩ := word_lowBits_iff (parcelAt s (s.rpc.toNat + 2) ++ parcelAt s s.rpc.toNat)
      obtain ⟨hfour, hthirtytwo⟩ := word_toNat_low (parcelAt s (s.rpc.toNat + 2)) (parcelAt s s.rpc.toNat)
      rw [hlow_iff] at hlow
      rw [ne_eq, hmid_iff] at hmid
      exact fetch_wide hfirst (by omega) (by omega) (hsecond (by rw [henc]; rfl))
  rw [step_of_bytes hx hfetch, decodeFetched_instr hdec]

/-- Settles O13: the fetch hands over the bits that decode to nothing. -/
theorem undecodableBitsRaiseIllegalInstruction : Obligations.UndecodableBitsRaiseIllegalInstruction := by
  intro s hx hfirst
  refine ⟨fun e hnarrow hbad => ?_, fun hlong => ?_, fun e hwide hlong hsecond hbad => ?_⟩
  · have hdec : decode s.cfg (bytesAt s 2 s.rpc.toNat) = .bad e := by
      rw [bytesAt_two, ← List.append_nil (Encoding.bytes _),
        decode_parcel_bytes _ _ _ (mt (op_eq_iff _ 3).mp hnarrow), hbad]
    rw [step_of_bytes hx (fetch_narrow hfirst hnarrow), decodeFetched_bad hdec, bytesAt_two, bytesValue_bytes]
    rfl
  · rw [step_of_stop hx (fetch_tooLong hfirst hlong)]
    rfl
  · have hdec : decode s.cfg (bytesAt s 4 s.rpc.toNat) = .bad e := by
      obtain ⟨hlow_iff, hmid_iff⟩ := word_lowBits_iff (parcelAt s (s.rpc.toNat + 2) ++ parcelAt s s.rpc.toNat)
      obtain ⟨hfour, hthirtytwo⟩ := word_toNat_low (parcelAt s (s.rpc.toNat + 2)) (parcelAt s s.rpc.toNat)
      rw [bytesAt_four, ← List.append_nil (Encoding.bytes _), decode_word_bytes, hbad]
      · rw [hlow_iff]
        omega
      · rw [ne_eq, hmid_iff]
        omega
    rw [step_of_bytes hx (fetch_wide hfirst hwide hlong hsecond), decodeFetched_bad hdec, bytesAt_four,
      bytesValue_bytes]
    rfl

/-- Settles O14: by the checks of the fetch in their order. -/
theorem fetchStopsAsSpecified : Obligations.FetchStopsAsSpecified := by
  intro s
  refine ⟨fun hx => if_pos hx, fun hx htop hvalid => ?_, fun hx htop hvalid hdirty => ?_,
    fun hx hfirst hwide hlong => ⟨fun htop => ?_, fun htop hvalid => ?_, fun htop hvalid hdirty => ?_⟩⟩
  · exact step_of_stop hx (fetch_of_first_stop (fetchParcel_invalid htop hvalid))
  · exact step_of_stop hx (fetch_of_first_stop (fetchParcel_dirty htop hvalid hdirty))
  · exact step_of_stop hx (fetch_of_second_stop hfirst hwide hlong (fetchParcel_wraps htop))
  · exact step_of_stop hx (fetch_of_second_stop hfirst hwide hlong (fetchParcel_invalid htop hvalid))
  · exact step_of_stop hx (fetch_of_second_stop hfirst hwide hlong (fetchParcel_dirty htop hvalid hdirty))

/-- Settles O15: every other row is guarded by its own existence. -/
theorem absentInstructionsAreIllegal : Obligations.AbsentInstructionsAreIllegal := by
  intro i s habsent hecall hebreak
  cases i with
  | ecall => exact absurd rfl hecall
  | ebreak => exact absurd rfl hebreak
  | illegal | reservedQ0 | reservedQ1a | reservedQ1b | cEbreak => cases habsent
  | _ => exact onRow_bad _ habsent

end Sys2Proof.Proofs
end

