-- ==== Sys2Proof/Proofs/OperandsAndMemory.lean ====
section
/-! O1, O16, O17, O29, O30 and O43: the state at reset, operands, bytes of memory, fences and the rows that always
raise. -/

namespace Sys2Proof.Proofs

open Sys2Proof.Machine Sys2Proof.Laws

/-! ### Operands -/

/-- Settles O16: fields and immediates by their bits. -/
theorem operandsAndAddresses : Obligations.OperandsAndAddresses := by
  refine ⟨fun r => ?_, fun s w => if_pos rfl, fun s k z i h => signedImm_toInt i h,
    fun s k z i h => unsignedImm_toNat i h, fun s r i => ?_⟩
  · rw [primed, toNat_append_add]
    rfl
  · rw [signedImm_zero, BitVec.toNat_add]
    push_cast
    rw [BitVec.toNat_ofInt, Int.toNat_of_nonneg (Int.emod_nonneg _ (by positivity))]
    push_cast
    rw [Int.add_emod_emod]

/-- The halves of a floating-point register as numbers. -/
theorem fword_halves (v : FWord) :
    (v.extractLsb 31 0).toNat = v.toNat % 2 ^ 32 ∧ (v.extractLsb 63 32).toNat = v.toNat / 2 ^ 32 := by
  rw [extractLsb_toNat_div, extractLsb_toNat_div]
  omega

/-- Settles O43: by the two lengths of FLEN. -/
theorem singleOperandsAreUnboxed : Obligations.SingleOperandsAreUnboxed := by
  intro s r
  obtain ⟨hlow, hhigh⟩ := fword_halves (s.getF r)
  refine ⟨hlow, fun hflen => ?_, fun hflen => ?_, fun v => ?_⟩
  · have hbox : (s.getF r).extractLsb 63 32 = 0xffffffff#32 ↔ (s.getF r).toNat / 2 ^ 32 = 0xffffffff := by
      rw [← BitVec.toNat_inj, hhigh]
      rfl
    simp only [State.getSingle, unbox, hflen, apply_ite BitVec.toNat, hlow, hbox]
    rfl
  · simp only [State.getSingle, unbox, hflen, hlow]
  · simp only [State.getSingle, State.setSingle, getF_setF_same, setF_cfg, unbox_box]

/-! ### Bytes of memory -/

theorem readByte_write_toNat (m : List Host.Cell) {n a k : Nat} (v : Word) (hk : k < n) :
    (Memory.readByte (Memory.write m n a v) (a + k)).toNat = v.toNat / 256 ^ k % 256 := by
  rw [readByte_write_inside _ _ _ _ _ hk, byte_toNat]

/-- A read inside a write gives the bits of the value (R64). -/
theorem read_write_toNat (m : List Host.Cell) (n a : Nat) (v : Word) (k p : Nat) (h : k + p ≤ n) :
    (Memory.read (Memory.write m n a v) p (a + k)).toNat = v.toNat / 256 ^ k % 256 ^ p := by
  induction p generalizing k with
  | zero => rw [pow_zero, Nat.mod_one]; rfl
  | succ p ih =>
    rw [read_toNat_succ, Nat.add_assoc, ih (k + 1) (by omega), readByte_write_toNat m v (by omega), pow_succ 256 k,
      ← Nat.div_div_eq_div_mul, pow_succ', Nat.mod_mul]

/-- Settles O17: by the rules of reads and writes. -/
theorem readsReturnTheLastWrite : Obligations.ReadsReturnTheLastWrite := by
  intro m n a v hn
  refine ⟨?_, fun k hk => readByte_write_toNat m v hk, fun k p h => read_write_toNat m n a v k p h,
    fun b hb => readByte_write_outside m n a b v hb⟩
  have hwhole := read_write_toNat m n a v 0 n (by omega)
  rwa [pow_zero, Nat.div_one, Nat.add_zero, show 256 = 2 ^ 8 from rfl, ← pow_mul] at hwhole

/-! ### Reset -/

/-- Settles O1: the reset state is a numeral. -/
theorem resetStateIsAsSpecified : Obligations.ResetStateIsAsSpecified := by
  refine ⟨?_, rfl, by decide, by decide, fun w => if_pos rfl, by decide, by decide, by decide, by decide, by decide,
    by decide, by decide, by decide, rfl, rfl, fun a => rfl⟩
  unfold legalParameters
  decide

/-! ### Fences and the rows that always raise -/

/-- Settles O29: both rows complete. -/
theorem fencesAndInstructionFence : Obligations.FencesAndInstructionFence := by
  intro s hx
  refine ⟨fun pred succ => ?_, _, onRow_ok _ hx, rfl, ?_, rfl, rfl, rfl, rfl, fun b => rfl, rfl, rfl, rfl, rfl, rfl⟩
  · have hrun : exec (.fence pred succ) s = onRow (.fence pred succ) s (complete 4 s) := execFence_eq pred succ s
    rw [hrun]
    exact row_setsPc hx (complete_setsPc 4 s) rfl
  · exact advance_pcAfter s 4

/-- Settles O30: what each row does, and that the bits it reports are those of the parcel. -/
theorem raisingAndUnlistedRows : Obligations.RaisingAndUnlistedRows := by
  intro s payload hi lo imm
  have hbits {i : Instr} {p : BitVec 16} (henc : i.encode = .parcel p) {k : Nat} (hk : p.toNat = k) :
      i.encode.info = BitVec.ofNat 128 k := by
    rw [henc, Encoding.info, ← hk, BitVec.ofNat_toNat]
  refine ⟨rfl, ?_, ?_, ?_, rfl, rfl, rfl, fun himm hnop => ?_, fun himm hill => ?_⟩
  · rw [← hbits (i := .reservedQ0 payload) rfl (by simp only [toNat_append_add, BitVec.reduceToNat]; omega)]
    rfl
  · rw [← hbits (i := .reservedQ1a hi lo) rfl (by simp only [toNat_append_add, BitVec.reduceToNat]; omega)]
    rfl
  · rw [← hbits (i := .reservedQ1b hi lo) rfl (by simp only [toNat_append_add, BitVec.reduceToNat]; omega)]
    rfl
  · refine row_setsPc (i := .unlisted imm) (bne_iff_ne.mpr himm) ?_ rfl
    rw [if_pos hnop]
    exact complete_setsPc 2 s
  · rw [← hbits (i := .unlisted imm) rfl
      (by simp only [toNat_append_add, extractLsb_toNat_div, BitVec.reduceToNat]; omega)]
    have hrun : exec (.unlisted imm) s = onRow (.unlisted imm) s (raiseIllegal (.unlisted imm) s) :=
      congrArg (onRow _ s) (if_neg (by rw [hill]; decide))
    have hwf : (Instr.unlisted imm).wellFormed s.cfg = true := bne_iff_ne.mpr himm
    rw [hrun, onRow_ok _ hwf]
    rfl

end Sys2Proof.Proofs
end

