-- ==== Sys2Proof/Proofs/MemoryRows.lean ====
section
/-! The loads and stores of every extension (O18, O19, O27, O28, O34, O44): a row that exists runs one `load` or one
`store`, which stops or completes as the laws of the accesses say. -/

namespace Sys2Proof.Proofs

open Sys2Proof.Machine Sys2Proof.Laws

/-! ### A row that loads or stores -/

section

variable {s : State} {i : Instr} {n : Nat} {a : BitVec s.width}

theorem row_load_stops {k : BitVec (8 * n) → Result} (hwf : i.wellFormed s.cfg = true) :
    stopsAt s .load false n a.toNat (onRow i s (load n a s k)) := by
  rw [onRow_ok _ hwf]
  exact access_stops ..

theorem row_store_stops {len u : Nat} {v : BitVec u} (hwf : i.wellFormed s.cfg = true) :
    stopsAt s .store false n a.toNat (onRow i s (store len n a v s)) := by
  rw [onRow_ok _ hwf]
  exact access_stops ..

theorem row_loads_signed {len : Nat} {rd : Reg} (hwf : i.wellFormed s.cfg = true) (h : accessible s .load n a.toNat) :
    setsX s rd (signExtended s.width n (valueAt s n a.toNat)) (s.pcAfter len)
      (onRow i s (load n a s fun v => completeX len rd (v.signExtend s.width) s)) := by
  rw [onRow_ok _ hwf, load_ok _ h, signExtend_eq_signExtended, read_valueAt]
  exact completeX_setsX len rd s _

theorem row_loads_unsigned {len : Nat} {rd : Reg} (hwf : i.wellFormed s.cfg = true)
    (h : accessible s .load n a.toNat) :
    setsX s rd (BitVec.ofNat s.width (valueAt s n a.toNat)) (s.pcAfter len)
      (onRow i s (load n a s fun v => completeX len rd (v.setWidth s.width) s)) := by
  rw [onRow_ok _ hwf, load_ok _ h, ← read_valueAt, BitVec.ofNat_toNat]
  exact completeX_setsX len rd s _

theorem row_stores {len u : Nat} {v : BitVec u} (hu : u ≤ 128) (hwf : i.wellFormed s.cfg = true)
    (h : accessible s .store n a.toNat) :
    stores s n a.toNat v.toNat (s.pcAfter len) (onRow i s (store len n a v s)) := by
  rw [onRow_ok _ hwf]
  exact store_stores len n a v s hu h

theorem row_loads_single {len : Nat} {rd : Reg} {a : BitVec s.width} (hwf : i.wellFormed s.cfg = true)
    (h : accessible s .load 4 a.toNat) :
    setsS s rd (BitVec.ofNat 32 (valueAt s 4 a.toNat)) 0 (s.pcAfter len)
      (onRow i s (load 4 a s fun v => completeS len rd v s)) := by
  rw [onRow_ok _ hwf, load_ok _ h, ← read_valueAt, ofNat_toNat_self (w := 32)]
  exact completeS_setsS len rd _ s

theorem row_loads_double {len : Nat} {rd : Reg} {a : BitVec s.width} (hwf : i.wellFormed s.cfg = true)
    (h : accessible s .load 8 a.toNat) :
    setsD s rd (BitVec.ofNat 64 (valueAt s 8 a.toNat)) 0 (s.pcAfter len)
      (onRow i s (load 8 a s fun v => completeD len rd v s)) := by
  rw [onRow_ok _ hwf, load_ok _ h, ← read_valueAt, ofNat_toNat_self (w := 64)]
  exact completeD_setsD len rd _ s

/-- Storing the low half of a register stores the register's low four bytes (R461). -/
theorem row_stores_single {len : Nat} {rs2 : Reg} {a : BitVec s.width} (hwf : i.wellFormed s.cfg = true)
    (h : accessible s .store 4 a.toNat) :
    stores s 4 a.toNat (s.getF rs2).toNat (s.pcAfter len) (onRow i s (store len 4 a (s.getSingleBits rs2) s)) := by
  obtain ⟨t, hr, hbytes, hrest⟩ := row_stores (len := len) (v := s.getSingleBits rs2) (by decide) hwf h
  refine ⟨t, hr, ?_, hrest⟩
  have hlow : (s.getSingleBits rs2).toNat = (s.getF rs2).toNat % 2 ^ (8 * 4) := (fword_halves _).1
  rwa [hlow, storesBytes_mod_iff] at hbytes

end

section

variable {c : Config}

theorem rv64_row_exists (hx : c.xlen = .rv64) : (c.xlen == .rv64) = true := beq_iff_eq.mpr hx

theorem float_row_exists (hx : c.is32or64 = true) (hF : c.extF = true) : (c.is32or64 && c.extF) = true := by
  rw [hx, hF]
  rfl

theorem double_row_exists (hx : c.is32or64 = true) (hD : c.hasD = true) : (c.is32or64 && c.hasD) = true := by
  rw [hx, hD]
  rfl

theorem rv32_float_row_exists (hx : c.xlen = .rv32) (hF : c.extF = true) : (c.xlen == .rv32 && c.extF) = true := by
  rw [hx, hF]
  rfl

theorem not_rv32_load_exists (hx : c.xlen ≠ .rv32) {q : Reg} (hq : q ≠ 0) : (c.xlen != .rv32 && q != 0) = true :=
  Bool.and_eq_true_iff.mpr ⟨bne_iff_ne.mpr hx, bne_iff_ne.mpr hq⟩

end

/-- Settles O18: every row is one access of its kind. -/
theorem loadsAndStoresStopAsSpecified : Obligations.LoadsAndStoresStopAsSpecified := by
  intro s r rs1 imm a
  refine ⟨fun hx => ⟨?_, ?_, ?_, ?_, ?_, ?_, ?_, ?_⟩, fun hx => ⟨?_, ?_, ?_⟩, fun hx hF => ⟨?_, ?_⟩,
    fun hx hD => ⟨?_, ?_⟩⟩
  · exact row_load_stops (i := .lb r rs1 imm) hx
  · exact row_load_stops (i := .lh r rs1 imm) hx
  · exact row_load_stops (i := .lw r rs1 imm) hx
  · exact row_load_stops (i := .lbu r rs1 imm) hx
  · exact row_load_stops (i := .lhu r rs1 imm) hx
  · exact row_store_stops (i := .sb r rs1 imm) hx
  · exact row_store_stops (i := .sh r rs1 imm) hx
  · exact row_store_stops (i := .sw r rs1 imm) hx
  · exact row_load_stops (i := .lwu r rs1 imm) (rv64_row_exists hx)
  · exact row_load_stops (i := .ld r rs1 imm) (rv64_row_exists hx)
  · exact row_store_stops (i := .sd r rs1 imm) (rv64_row_exists hx)
  · exact row_load_stops (i := .flw r rs1 imm) (float_row_exists hx hF)
  · exact row_store_stops (i := .fsw r rs1 imm) (float_row_exists hx hF)
  · exact row_load_stops (i := .fld r rs1 imm) (double_row_exists hx hD)
  · exact row_store_stops (i := .fsd r rs1 imm) (double_row_exists hx hD)

/-- Settles O19: every row is one access of its kind. -/
theorem compressedAccessesStopAsSpecified : Obligations.CompressedAccessesStopAsSpecified := by
  intro s r r1 q o5 o6
  refine ⟨?_, ?_, fun hq => ?_, ?_, fun hx => ⟨?_, ?_, fun hq => ?_, ?_⟩, fun hx hF => ⟨?_, ?_, ?_, ?_⟩,
    fun hx hD => ⟨?_, ?_, ?_, ?_⟩⟩
  · exact row_load_stops (i := .cLw r r1 o5) (k := fun v => completeX 2 (primed r) (v.signExtend s.width) s) rfl
  · exact row_store_stops (i := .cSw r r1 o5) rfl
  · exact row_load_stops (i := .cLwsp q o6) (bne_iff_ne.mpr hq)
  · exact row_store_stops (i := .cSwsp q o6) rfl
  · exact row_load_stops (i := .cLd r r1 o5) (bne_iff_ne.mpr hx)
  · exact row_store_stops (i := .cSd r r1 o5) (bne_iff_ne.mpr hx)
  · exact row_load_stops (i := .cLdsp q o6) (not_rv32_load_exists hx hq)
  · exact row_store_stops (i := .cSdsp q o6) (bne_iff_ne.mpr hx)
  · exact row_load_stops (i := .cFlw r r1 o5) (rv32_float_row_exists hx hF)
  · exact row_store_stops (i := .cFsw r r1 o5) (rv32_float_row_exists hx hF)
  · exact row_load_stops (i := .cFlwsp q o6) (rv32_float_row_exists hx hF)
  · exact row_store_stops (i := .cFswsp q o6) (rv32_float_row_exists hx hF)
  · exact row_load_stops (i := .cFld r r1 o5) (double_row_exists hx hD)
  · exact row_store_stops (i := .cFsd r r1 o5) (double_row_exists hx hD)
  · exact row_load_stops (i := .cFldsp q o6) (double_row_exists hx hD)
  · exact row_store_stops (i := .cFsdsp q o6) (double_row_exists hx hD)

/-- Settles O27: every row is a load, extended. -/
theorem integerLoads : Obligations.IntegerLoads := by
  intro s rd rs1 imm a
  refine ⟨fun hx => ⟨fun h => ⟨?_, ?_⟩, fun h => ⟨?_, ?_⟩, fun h => ?_⟩, fun hx => ⟨fun h => ?_, fun h => ?_⟩⟩
  · exact row_loads_signed (i := .lb rd rs1 imm) hx h
  · exact row_loads_unsigned (i := .lbu rd rs1 imm) hx h
  · exact row_loads_signed (i := .lh rd rs1 imm) hx h
  · exact row_loads_unsigned (i := .lhu rd rs1 imm) hx h
  · exact row_loads_signed (i := .lw rd rs1 imm) hx h
  · exact row_loads_unsigned (i := .lwu rd rs1 imm) (rv64_row_exists hx) h
  · have hw : s.width ≤ 8 * 8 := by simp [State.width, hx, Xlen.bits]
    have hvalue : signExtended s.width 8 (valueAt s 8 a) = BitVec.ofNat s.width (valueAt s 8 a) := by
      rw [← read_valueAt, ← signExtend_eq_signExtended, BitVec.signExtend_eq_setWidth_of_le _ hw, BitVec.ofNat_toNat]
    rw [← hvalue]
    exact row_loads_signed (i := .ld rd rs1 imm) (rv64_row_exists hx) h

/-- Settles O28: every row is a store. -/
theorem integerStores : Obligations.IntegerStores := by
  intro s rs2 rs1 imm a
  have hw := width_le s
  refine ⟨fun hx => ⟨fun h => ?_, fun h => ?_, fun h => ?_⟩, fun hx h => ?_⟩
  · exact row_stores (i := .sb rs2 rs1 imm) hw hx h
  · exact row_stores (i := .sh rs2 rs1 imm) hw hx h
  · exact row_stores (i := .sw rs2 rs1 imm) hw hx h
  · exact row_stores (i := .sd rs2 rs1 imm) hw (rv64_row_exists hx) h

/-- Settles O34: every row is a load or a store. -/
theorem compressedLoadsAndStores : Obligations.CompressedLoadsAndStores := by
  intro s r r1 q o o6 a b
  have hw := width_le s
  refine ⟨fun h => ?_, fun h => ?_, fun hq h => ?_, fun h => ?_,
    fun hx => ⟨fun h => ?_, fun h => ?_, fun hq h => ?_, fun h => ?_⟩,
    fun hx => ⟨fun h => ?_, fun h => ?_, fun hq h => ?_, fun h => ?_⟩⟩
  · exact row_loads_signed (i := .cLw r r1 o) rfl h
  · exact row_stores (i := .cSw r r1 o) hw rfl h
  · exact row_loads_signed (i := .cLwsp q o6) (bne_iff_ne.mpr hq) h
  · exact row_stores (i := .cSwsp q o6) hw rfl h
  · exact row_loads_signed (i := .cLd r r1 o) (bne_iff_ne.mpr hx) h
  · exact row_stores (i := .cSd r r1 o) hw (bne_iff_ne.mpr hx) h
  · exact row_loads_signed (i := .cLdsp q o6) (not_rv32_load_exists hx hq) h
  · exact row_stores (i := .cSdsp q o6) hw (bne_iff_ne.mpr hx) h
  · exact row_loads_unsigned (i := .cLq r r1 o) (beq_iff_eq.mpr hx) h
  · exact row_stores (i := .cSq r r1 o) hw (beq_iff_eq.mpr hx) h
  · exact row_loads_unsigned (i := .cLqsp q o6) (Bool.and_eq_true_iff.mpr ⟨beq_iff_eq.mpr hx, bne_iff_ne.mpr hq⟩) h
  · exact row_stores (i := .cSqsp q o6) hw (beq_iff_eq.mpr hx) h

/-- Settles O44: every row is a load or a store of the bits. -/
theorem floatLoadsAndStores : Obligations.FloatLoadsAndStores := by
  intro s r r1 q rs1 imm o o6 a
  have h64 : 64 ≤ 128 := by decide
  refine ⟨fun hx hF => ⟨fun h => ?_, fun h => ?_⟩,
    fun hx hD => ⟨fun h => ?_, fun h => ?_, fun h => ?_, fun h => ?_, fun h => ?_, fun h => ?_⟩,
    fun hx hF => ⟨fun h => ?_, fun h => ?_, fun h => ?_, fun h => ?_⟩⟩
  · exact row_loads_single (i := .flw q rs1 imm) (float_row_exists hx hF) h
  · exact row_stores_single (i := .fsw q rs1 imm) (float_row_exists hx hF) h
  · exact row_loads_double (i := .fld q rs1 imm) (double_row_exists hx hD) h
  · exact row_stores (i := .fsd q rs1 imm) h64 (double_row_exists hx hD) h
  · exact row_loads_double (i := .cFld r r1 o) (double_row_exists hx hD) h
  · exact row_stores (i := .cFsd r r1 o) h64 (double_row_exists hx hD) h
  · exact row_loads_double (i := .cFldsp q o6) (double_row_exists hx hD) h
  · exact row_stores (i := .cFsdsp q o6) h64 (double_row_exists hx hD) h
  · exact row_loads_single (i := .cFlw r r1 o) (rv32_float_row_exists hx hF) h
  · exact row_stores_single (i := .cFsw r r1 o) (rv32_float_row_exists hx hF) h
  · exact row_loads_single (i := .cFlwsp q o6) (rv32_float_row_exists hx hF) h
  · exact row_stores_single (i := .cFswsp q o6) (rv32_float_row_exists hx hF) h

end Sys2Proof.Proofs
end

