-- ==== Sys2Proof/Proofs/ReservationsAndCsrs.lean ====
section
/-! O37, O38, O40 and O41: load-reserved and store-conditional of either width, and the CSR instructions on the windows
of fcsr and on the counters. -/

namespace Sys2Proof.Proofs

open Sys2Proof.Machine Sys2Proof.Laws

/-! ### LR and SC -/

section

variable {s : State} {wd : AtomicWidth} {rd rs1 rs2 : Reg} {i : Instr}

/-- An address widened to the cell, as the reservation holds it (R45). -/
theorem address_cell (v : BitVec s.width) : v.setWidth 128 = BitVec.ofNat 128 v.toNat := (BitVec.ofNat_toNat 128 v).symm

/-- An accessible LR reads, extends and reserves (R413). -/
theorem loadReserve_reserves (h : accessibleAtomic s .load wd.bytes (s.rx rs1).toNat) :
    reserves s wd rd (s.rx rs1).toNat (loadReserve wd rd rs1 s) := by
  refine ⟨_, access_atomic_ok _ h, fun hrd => ?_, ?_, fun q hq => setX_other _ rd q _ hq, ?_, ?_, ?_, fun b => ?_, ?_,
    ?_⟩
  · rw [advance_getX, getX_setX_same _ rd _ hrd (width_le s), signExtend_eq_signExtended, read_valueAt]
  · rw [← address_cell]
    simp
  · rw [advance_pcAfter]
    simp [State.pcAfter, State.width]
  all_goals simp [keepsSystem]

theorem row_loadReserve (hwf : i.wellFormed s.cfg = true) :
    stopsAt s .load true wd.bytes (s.rx rs1).toNat (onRow i s (loadReserve wd rd rs1 s)) ∧
      (accessibleAtomic s .load wd.bytes (s.rx rs1).toNat →
        reserves s wd rd (s.rx rs1).toNat (onRow i s (loadReserve wd rd rs1 s))) := by
  rw [onRow_ok _ hwf]
  exact ⟨access_stops .., loadReserve_reserves⟩

/-- The state that an SC leaves, by whether it succeeds (R413). -/
def afterConditional (s : State) (wd : AtomicWidth) (rd rs1 rs2 : Reg) (ok : Bool) : State :=
  (({ (if ok then s.storeBytes wd.bytes (s.rx rs1).toNat ((s.rx rs2).setWidth 128) else s) with
      resv := none, draws := s.draws + 1 } : State).setX rd (boolValue s.width !ok)).advance 4

theorem storeConditional_ok (h : accessibleAtomic s .amo wd.bytes (s.rx rs1).toNat) :
    storeConditional wd rd rs1 rs2 s =
      .next (afterConditional s wd rd rs1 rs2 (scSucceeds s wd ((s.rx rs1).setWidth 128))) :=
  access_atomic_ok _ h

/-- What an SC changes in either case, apart from memory and rd (R413). -/
theorem afterConditional_frame (ok : Bool) :
    let t := afterConditional s wd rd rs1 rs2 ok
    t.resv = none ∧ keepsXBut s t rd ∧ t.pc = s.pcAfter 4 ∧ t.f = s.f ∧ t.fcsr = s.fcsr ∧
      t.cfg = s.cfg ∧ t.cycle = s.cycle ∧ t.time = s.time ∧ t.instret = s.instret := by
  cases ok
  all_goals
    refine ⟨?_, fun q hq => setX_other _ rd q _ hq, ?_, ?_, ?_, ?_, ?_, ?_, ?_⟩
    case refine_2 => simp [afterConditional, State.pcAfter, State.width]
    all_goals simp [afterConditional]

theorem afterConditional_stored : conditionalStored s (afterConditional s wd rd rs1 rs2 true) wd rd (s.rx rs1).toNat
    (s.rx rs2).toNat := by
  obtain ⟨hinside, houtside, hdirty, -⟩ :=
    storeBytes_storesBytes s wd.bytes (s.rx rs1).toNat ((s.rx rs2).setWidth 128)
  rw [BitVec.toNat_setWidth_of_le (width_le s)] at hinside
  refine ⟨fun hrd => ?_, fun k hk => ?_, fun b hb => ?_, fun b => ?_⟩
  · rw [afterConditional, advance_getX, getX_setX_same _ rd _ hrd (width_le s)]
    rfl
  · simpa [afterConditional] using hinside k hk
  · simpa [afterConditional] using houtside b hb
  · simpa [afterConditional] using hdirty b

theorem afterConditional_failed : conditionalFailed s (afterConditional s wd rd rs1 rs2 false) rd := by
  refine ⟨fun hrd => ?_, fun b => ?_, ?_⟩
  · rw [afterConditional, advance_getX, getX_setX_same _ rd _ hrd (width_le s)]
    rfl
  · simp [afterConditional]
  · simp [afterConditional]

/-- An accessible SC stores, or fails where it may (R413). -/
theorem storeConditional_conditional (h : accessibleAtomic s .amo wd.bytes (s.rx rs1).toNat) :
    conditional s wd rd (s.rx rs1).toNat (s.rx rs2).toNat (storeConditional wd rd rs1 rs2 s) := by
  rw [storeConditional_ok h]
  refine ⟨_, rfl, fun hresv => ?_, fun hresv => ?_, afterConditional_frame _⟩
  · have hfails : scSucceeds s wd ((s.rx rs1).setWidth 128) = false := by
      rw [address_cell, scSucceeds, decide_eq_false hresv, Bool.false_and]
    rw [hfails]
    exact afterConditional_failed
  · cases hok : scSucceeds s wd ((s.rx rs1).setWidth 128) with
    | true => exact .inl afterConditional_stored
    | false =>
      refine .inr ⟨?_, afterConditional_failed⟩
      rw [address_cell, scSucceeds, decide_eq_true hresv, Bool.true_and, Bool.not_eq_false'] at hok
      exact (Bool.and_eq_true_iff.mp hok).1

theorem row_storeConditional (hwf : i.wellFormed s.cfg = true) :
    stopsAt s .amo true wd.bytes (s.rx rs1).toNat (onRow i s (storeConditional wd rd rs1 rs2 s)) ∧
      (accessibleAtomic s .amo wd.bytes (s.rx rs1).toNat →
        conditional s wd rd (s.rx rs1).toNat (s.rx rs2).toNat (onRow i s (storeConditional wd rd rs1 rs2 s))) := by
  rw [onRow_ok _ hwf]
  exact ⟨access_stops .., storeConditional_conditional⟩

end

/-- Settles O37: by the outcomes of an access with the strict alignment and the state that LR leaves. -/
theorem loadReserved : Obligations.LoadReserved := by
  intro s rd rs1 aq rl hA
  refine ⟨fun hx => ?_, fun hx => ?_⟩
  · exact row_loadReserve (i := .lrW rd rs1 aq rl) (wd := .word) (by simp [Instr.wellFormed, hx, hA])
  · exact row_loadReserve (i := .lrD rd rs1 aq rl) (wd := .double) (by simp [Instr.wellFormed, hx, hA])

/-- Settles O38: by the two states that SC may leave. -/
theorem storeConditional : Obligations.StoreConditional := by
  intro s rd rs1 rs2 aq rl hA
  refine ⟨fun hx => ?_, fun hx => ?_⟩
  · exact row_storeConditional (i := .scW rd rs1 rs2 aq rl) (wd := .word) (by simp [Instr.wellFormed, hx, hA])
  · exact row_storeConditional (i := .scD rd rs1 rs2 aq rl) (wd := .double) (by simp [Instr.wellFormed, hx, hA])

/-! ### The windows of fcsr -/

section

variable {s : State} {k : Csr}

/-- The three CSRs that are windows of fcsr (R38-R40). -/
def isWindow : Csr → Bool
  | .fflags | .frm | .fcsr => true
  | _ => false

theorem isFpCsr_number {n : CsrNum} (h : isFpCsr n) : ∃ k, isWindow k = true ∧ n = csrNumber k := by
  obtain rfl | rfl | rfl := h
  · exact ⟨.fflags, rfl, rfl⟩
  · exact ⟨.frm, rfl, rfl⟩
  · exact ⟨.fcsr, rfl, rfl⟩

theorem csrOf_window (hk : isWindow k = true) (hF : s.cfg.extF = true) : csrOf s.cfg (csrNumber k) = some k := by
  refine csrOf_csrNumber ?_
  cases k with
  | fflags | frm | fcsr => exact hF
  | _ => cases hk

/-- fcsr from its two fields (R40). -/
theorem fcsr_append (a : BitVec 3) (b : BitVec 5) : a ++ b = BitVec.ofNat 8 (a.toNat * 32 + b.toNat) := by
  apply BitVec.eq_of_toNat_eq
  rw [toNat_append_add, BitVec.toNat_ofNat]
  omega

theorem csrValue_window (hk : isWindow k = true) : (s.csrValue s.width k).toNat = fpCsrRead (csrNumber k) s.fcsr := by
  have hw := width_ge s
  cases k with
  | fflags =>
    rw [State.csrValue, BitVec.toNat_setWidth_of_le (by omega), State.fflags, extractLsb_toNat_div, pow_zero,
      Nat.div_one]
    rfl
  | frm =>
    rw [State.csrValue, BitVec.toNat_setWidth_of_le (by omega), State.frm, extractLsb_toNat_div]
    exact Nat.mod_eq_of_lt (by omega)
  | fcsr => exact BitVec.toNat_setWidth_of_le (by omega)
  | _ => cases hk

theorem csrWrite_window (hk : isWindow k = true) {w : Nat} (v : BitVec w) :
    (s.csrWrite v k).fcsr = fpCsrWritten (csrNumber k) s.fcsr v.toNat := by
  cases k with
  | fflags =>
    have hfrm : s.frm.toNat = s.fcsr.toNat / 32 := by
      rw [State.frm, extractLsb_toNat_div]
      exact Nat.mod_eq_of_lt (by omega)
    show s.frm ++ v.setWidth 5 = _
    rw [fcsr_append, hfrm, BitVec.toNat_setWidth]
    rfl
  | frm =>
    have hflags : s.fflags.toNat = s.fcsr.toNat % 32 := by
      rw [State.fflags, extractLsb_toNat_div, pow_zero, Nat.div_one]
      rfl
    show v.setWidth 3 ++ s.fflags = _
    rw [fcsr_append, hflags, BitVec.toNat_setWidth]
    rfl
  | fcsr =>
    show v.setWidth 8 = BitVec.ofNat 8 (v.toNat % 256)
    apply BitVec.eq_of_toNat_eq
    rw [BitVec.toNat_setWidth, BitVec.toNat_ofNat]
    omega
  | _ => cases hk

/-- A CSR instruction on a window reads it and, when it writes, replaces it (R305). -/
theorem csrAccess_window {i : Instr} {rd : Reg} {reads writes : Bool} {new : BitVec s.width → BitVec s.width}
    (hk : isWindow k = true) (hF : s.cfg.extF = true) :
    swapsFcsr s rd (fpCsrRead (csrNumber k) s.fcsr)
      (if writes then fpCsrWritten (csrNumber k) s.fcsr (new (s.csrValue s.width k)).toNat else s.fcsr) (s.pcAfter 4)
      (csrAccess i (csrNumber k) rd reads writes s new) := by
  have hdraw : (if reads then s.csrDraw k else s) = s := by
    cases k <;> cases hk <;> exact ite_self s
  have hwritable : (writes && k.readOnly) = false := by
    cases k <;> cases hk <;> exact Bool.and_false _
  have hnext : csrAccess i (csrNumber k) rd reads writes s new =
      .next (((if writes then s.csrWrite (new (s.csrValue s.width k)) k else s).setX rd
        (s.csrValue s.width k)).advance 4) := by
    simp only [csrAccess, csrOf_window hk hF, hwritable, hdraw]
    rfl
  refine ⟨_, hnext, fun hrd => ?_, ?_⟩
  · rw [advance_getX, getX_setX_same _ rd _ hrd (width_le s), csrValue_window hk]
  · cases writes
    · refine ⟨fun q hq => setX_other s rd q _ hq, ?_, ?_, ?_, ⟨?_, ?_, ?_⟩, ?_⟩
      case refine_2 => simp [State.pcAfter]
      all_goals simp [keepsSystem]
    · refine ⟨fun q hq => ?_, ?_, ?_, ?_, ⟨?_, ?_, ?_⟩, ?_⟩
      case refine_1 =>
        rw [advance_x]
        exact (setX_other _ rd q _ hq).trans (by simp)
      case refine_2 =>
        rw [advance_fcsr, setX_fcsr]
        exact csrWrite_window hk _
      case refine_3 => simp [State.pcAfter]
      all_goals simp [keepsSystem]

end

/-- Settles O40: every window is read and written as a part of fcsr. -/
theorem floatCsrInstructions : Obligations.FloatCsrInstructions := by
  intro s rd rs1 zimm n hx hF hn old r put
  obtain ⟨k, hk, rfl⟩ := isFpCsr_number hn
  have hrow {i : Instr} (hwf : i.wellFormed s.cfg = true) {reads writes : Bool}
      {new : BitVec s.width → BitVec s.width} {fcsr : BitVec 8}
      (h : (if writes then put (new (s.csrValue s.width k)).toNat else s.fcsr) = fcsr) :
      swapsFcsr s rd old fcsr (s.pcAfter 4) (onRow i s (csrAccess i (csrNumber k) rd reads writes s new)) := by
    rw [onRow_ok _ hwf, ← h]
    exact csrAccess_window hk hF
  have hold : (s.csrValue s.width k).toNat = old := csrValue_window hk
  have hzimm : (zimm.setWidth s.width).toNat = zimm.toNat :=
    BitVec.toNat_setWidth_of_le (le_trans (by decide) (width_ge s))
  have hwrites {m : Nat} (q : BitVec m) (v : BitVec 8) :
      (if (q != 0) = true then v else s.fcsr) = if q = 0 then s.fcsr else v := by
    by_cases hq : q = 0 <;> simp [hq]
  refine ⟨hrow (i := .csrrw rd rs1 _) hx rfl, hrow (i := .csrrs rd rs1 _) hx ?_, hrow (i := .csrrc rd rs1 _) hx ?_,
    hrow (i := .csrrwi rd zimm _) hx ?_, hrow (i := .csrrsi rd zimm _) hx ?_, hrow (i := .csrrci rd zimm _) hx ?_⟩
  · rw [hwrites, BitVec.toNat_or, hold]
  · rw [hwrites, BitVec.toNat_and, hold]
  · rw [hzimm]
    rfl
  · rw [hwrites, BitVec.toNat_or, hold, hzimm]
  · rw [hwrites, BitVec.toNat_and, hold, BitVec.toNat_not, hzimm]

/-! ### The counters -/

section

variable {s : State} {k : Csr} {n : CsrNum} {rd : Reg} {i : Instr}

theorem isCounterCsr_number {c : Config} (h : isCounterCsr c n) :
    ∃ k, k.readOnly = true ∧ csrExists c k ∧ n = csrNumber k := by
  obtain rfl | rfl | rfl | ⟨hx, rfl | rfl | rfl⟩ := h
  · exact ⟨.cycle, rfl, trivial, rfl⟩
  · exact ⟨.time, rfl, trivial, rfl⟩
  · exact ⟨.instret, rfl, trivial, rfl⟩
  · exact ⟨.cycleh, rfl, hx, rfl⟩
  · exact ⟨.timeh, rfl, hx, rfl⟩
  · exact ⟨.instreth, rfl, hx, rfl⟩

/-- The state after a counter is read into rd (R41). -/
def afterCounterRead (s : State) (k : Csr) (rd : Reg) : State :=
  ((s.csrDraw k).setX rd ((s.csrDraw k).csrValue s.width k)).advance 4

/-- The high half of a counter, extended (R42). -/
theorem counterHigh_toNat {w : Nat} (hw : 32 ≤ w) (v : BitVec 64) :
    ((v.extractLsb 63 32).setWidth w).toNat = v.toNat / 2 ^ 32 := by
  rw [BitVec.toNat_setWidth_of_le hw, extractLsb_toNat_div]
  exact Nat.mod_eq_of_lt (by omega)

theorem counterOf_afterCounterRead (s : State) (rd : Reg) (k l : Csr) :
    counterOf (csrNumber l) (afterCounterRead s k rd) = counterOf (csrNumber l) (s.csrDraw k) := by
  simp [counterOf, afterCounterRead]

/-- A draw raises the counter it is made for, or leaves it (R41). -/
theorem counterOf_le_csrDraw (s : State) (k : Csr) :
    (counterOf (csrNumber k) s).toNat ≤ (counterOf (csrNumber k) (s.csrDraw k)).toNat := by
  cases k with
  | fflags | frm | fcsr => exact le_rfl
  | cycle | time | instret | cycleh | timeh | instreth => exact counterDraw_le s.cfg.counterRead s.draws _

/-- The value of a counter CSR is its half of the counter, the high one with XLEN = 32 (R41, R42). -/
theorem csrValue_counter (s : State) (hk : k.readOnly = true) {w : Nat} (hw : 32 ≤ w) :
    (s.csrValue w k).toNat =
      if csrNumber k = 0xC80 ∨ csrNumber k = 0xC81 ∨ csrNumber k = 0xC82 then (counterOf (csrNumber k) s).toNat / 2 ^ 32
      else (counterOf (csrNumber k) s).toNat % 2 ^ w := by
  cases k with
  | fflags | frm | fcsr => cases hk
  | cycle | time | instret => exact BitVec.toNat_setWidth ..
  | cycleh | timeh | instreth => exact counterHigh_toNat hw _

/-- A CSR instruction that does not write reads a counter as the statement says (R41, R42). -/
theorem csrAccess_counter (hk : k.readOnly = true) (hc : csrExists s.cfg k)
    {new : BitVec s.width → BitVec s.width} :
    readsCounter s (csrNumber k) rd (s.pcAfter 4) (csrAccess i (csrNumber k) rd true false s new) := by
  have hnext : csrAccess i (csrNumber k) rd true false s new = .next (afterCounterRead s k rd) := by
    simp only [csrAccess, csrOf_csrNumber hc]
    rfl
  refine ⟨_, hnext, ?_, fun hrd => ?_, fun h => ?_, fun h => ?_, fun h => ?_, fun q hq => ?_, ?_, ?_, ?_, ⟨?_, ?_, ?_⟩,
    ?_⟩
  case refine_1 =>
    rw [counterOf_afterCounterRead]
    exact counterOf_le_csrDraw s k
  case refine_2 =>
    rw [counterOf_afterCounterRead, afterCounterRead, advance_getX, getX_setX_same _ rd _ hrd (width_le s)]
    exact csrValue_counter (s.csrDraw k) hk (width_ge s)
  case refine_3 | refine_4 | refine_5 =>
    cases k <;> simp_all [afterCounterRead, State.csrDraw, csrNumber]
  case refine_6 => exact (setX_other _ rd q _ hq).trans (by simp)
  case refine_8 => simp [afterCounterRead, State.pcAfter]
  all_goals simp [afterCounterRead]

/-- A CSR instruction that would write a counter raises (R305). -/
theorem csrAccess_readOnly (hk : k.readOnly = true) (hc : csrExists s.cfg k) {reads : Bool}
    {new : BitVec s.width → BitVec s.width} :
    trapsWith s .illegalInstruction i.encode.info (csrAccess i (csrNumber k) rd reads true s new) := by
  simp only [csrAccess, csrOf_csrNumber hc, hk]
  rfl

end

/-- Settles O41: every counter is a half of a draw that is not below the last one. -/
theorem counterCsrs : Obligations.CounterCsrs := by
  intro s rd rs1 zimm n hx hn
  obtain ⟨k, hk, hc, rfl⟩ := isCounterCsr_number hn
  have hread {i : Instr} (hwf : i.wellFormed s.cfg = true) {new : BitVec s.width → BitVec s.width} :
      readsCounter s (csrNumber k) rd (s.pcAfter 4) (onRow i s (csrAccess i (csrNumber k) rd true false s new)) := by
    rw [onRow_ok _ hwf]
    exact csrAccess_counter hk hc
  have hwrite {i : Instr} (hwf : i.wellFormed s.cfg = true) {reads writes : Bool} (h : writes = true)
      {new : BitVec s.width → BitVec s.width} :
      trapsWith s .illegalInstruction i.encode.info
        (onRow i s (csrAccess i (csrNumber k) rd reads writes s new)) := by
    rw [onRow_ok _ hwf, h]
    exact csrAccess_readOnly hk hc
  refine ⟨hread (i := .csrrs rd 0 _) hx, hread (i := .csrrc rd 0 _) hx, hread (i := .csrrsi rd 0 _) hx,
    hread (i := .csrrci rd 0 _) hx, ?_, fun h => ?_, fun h => ?_⟩
  · exact List.forall_mem_cons.mpr ⟨hwrite (i := .csrrw rd rs1 _) hx rfl,
      List.forall_mem_singleton.mpr (hwrite (i := .csrrwi rd zimm _) hx rfl)⟩
  · exact List.forall_mem_cons.mpr ⟨hwrite (i := .csrrs rd rs1 _) hx (bne_iff_ne.mpr h),
      List.forall_mem_singleton.mpr (hwrite (i := .csrrc rd rs1 _) hx (bne_iff_ne.mpr h))⟩
  · exact List.forall_mem_cons.mpr ⟨hwrite (i := .csrrsi rd zimm _) hx (bne_iff_ne.mpr h),
      List.forall_mem_singleton.mpr (hwrite (i := .csrrci rd zimm _) hx (bne_iff_ne.mpr h))⟩

end Sys2Proof.Proofs
end

