-- ==== Sys2Proof/Proofs/FloatRows.lean ====
section
/-! O45, O46 and O47: the floating-point rows that complete with a named operation in a resolved rounding mode, those
that a bad mode makes illegal, and those that only move bits and signs. -/

namespace Sys2Proof.Proofs

open Sys2Proof.Machine Sys2Proof.Laws

/-! ### Rounding modes -/

section

variable {s : State} {i : Instr} {rm : RmField} {m : RoundingMode} {rd : Reg}

theorem decodeMode_of_lt : ∀ v : RmField, 4 < v.toNat → decodeMode v = none := by decide

/-- A field above 100 selects no mode (R39, R452). -/
theorem resolveMode_of_lt {frm : RmField} (h : 4 < modeField rm frm) : resolveMode rm frm = none := by
  unfold modeField at h
  unfold resolveMode
  split
  case isTrue hdyn => exact decodeMode_of_lt _ (by rwa [if_pos hdyn] at h)
  case isFalse hstatic => exact decodeMode_of_lt _ (by rwa [if_neg hstatic] at h)

/-- A row that selects no mode raises, whether or not it exists (R452). -/
theorem onRow_withMode_none (k : RoundingMode → Result) (h : resolveMode rm s.frm = none) :
    trapsWith s .illegalInstruction i.encode.info (onRow i s (withMode i rm s k)) := by
  rw [trapsWith, withMode_bad k h]
  cases hwf : i.wellFormed s.cfg with
  | true => exact onRow_ok _ hwf
  | false => exact onRow_bad _ hwf

/-- A row with a mode that answers a single completes with it (R456). -/
theorem onRow_withMode_setsS (hwf : i.wellFormed s.cfg = true) (hm : resolveMode rm s.frm = some m)
    (r : RoundingMode → Single × FpFlags) :
    setsS s rd (r m).1 (r m).2 (s.pcAfter 4) (onRow i s (withMode i rm s fun m => completeFpS rd (r m) s)) := by
  rw [onRow_ok _ hwf, withMode_ok _ hm]
  exact completeFpS_setsS rd (r m) s

/-- A row with a mode that answers a double completes with it (R456, R502). -/
theorem onRow_withMode_setsD (hwf : i.wellFormed s.cfg = true) (hm : resolveMode rm s.frm = some m)
    (r : RoundingMode → Double × FpFlags) :
    setsD s rd (r m).1 (r m).2 (s.pcAfter 4) (onRow i s (withMode i rm s fun m => completeFpD rd (r m) s)) := by
  rw [onRow_ok _ hwf, withMode_ok _ hm]
  exact completeFpD_setsD rd (r m) s

end

/-- Settles O46: a field above 100 resolves to no mode, and the row raises before anything is read. -/
theorem invalidRoundingModesRaise : Obligations.InvalidRoundingModesRaise := by
  intro s rd rs1 rs2 rs3 rm _ hbad
  have hnone := resolveMode_of_lt hbad
  refine ⟨fun _ => ?_, fun _ => ?_⟩
  all_goals
    simp only [List.forall_mem_cons]
    and_intros
    case refine_2 => exact List.forall_mem_nil _
    all_goals exact onRow_withMode_none _ hnone

/-- Settles O45: each row is its operation in the resolved mode. -/
theorem floatArithmeticInstructions : Obligations.FloatArithmeticInstructions := by
  intro s rd rs1 rs2 rs3 rm m hx hmode
  have hm := resolveMode_of_modeField hmode
  refine ⟨fun hF => ?_, fun hD => ?_⟩
  · have hwf : (s.cfg.is32or64 && s.cfg.extF) = true := by simp [hx, hF]
    exact ⟨onRow_withMode_setsS (i := .faddS rd rs1 rs2 rm) hwf hm _,
      onRow_withMode_setsS (i := .fsubS rd rs1 rs2 rm) hwf hm _,
      onRow_withMode_setsS (i := .fmulS rd rs1 rs2 rm) hwf hm _,
      onRow_withMode_setsS (i := .fdivS rd rs1 rs2 rm) hwf hm _,
      onRow_withMode_setsS (i := .fsqrtS rd rs1 rm) hwf hm _,
      onRow_withMode_setsS (i := .fmaddS rd rs1 rs2 rs3 rm) hwf hm _,
      onRow_withMode_setsS (i := .fmsubS rd rs1 rs2 rs3 rm) hwf hm _,
      onRow_withMode_setsS (i := .fnmsubS rd rs1 rs2 rs3 rm) hwf hm _,
      onRow_withMode_setsS (i := .fnmaddS rd rs1 rs2 rs3 rm) hwf hm _⟩
  · have hwf : (s.cfg.is32or64 && s.cfg.hasD) = true := by simp [hx, hD]
    exact ⟨onRow_withMode_setsD (i := .faddD rd rs1 rs2 rm) hwf hm _,
      onRow_withMode_setsD (i := .fsubD rd rs1 rs2 rm) hwf hm _,
      onRow_withMode_setsD (i := .fmulD rd rs1 rs2 rm) hwf hm _,
      onRow_withMode_setsD (i := .fdivD rd rs1 rs2 rm) hwf hm _,
      onRow_withMode_setsD (i := .fsqrtD rd rs1 rm) hwf hm _,
      onRow_withMode_setsD (i := .fmaddD rd rs1 rs2 rs3 rm) hwf hm _,
      onRow_withMode_setsD (i := .fmsubD rd rs1 rs2 rs3 rm) hwf hm _,
      onRow_withMode_setsD (i := .fnmsubD rd rs1 rs2 rs3 rm) hwf hm _,
      onRow_withMode_setsD (i := .fnmaddD rd rs1 rs2 rs3 rm) hwf hm _⟩

/-! ### Signs and moves -/

section

variable {s : State} {i : Instr} {rd : Reg} {F : FloatFormat}

/-- A magnitude under a sign, as a number (R471). -/
theorem fpWithSign_eq {n : Nat} (neg : Bool) (a : BitVec n) :
    fpWithSign F neg a =
      BitVec.ofNat n (neg.toNat * 2 ^ (F.expBits + F.fracBits) + a.toNat % 2 ^ (F.expBits + F.fracBits)) := by
  cases neg <;> simp [fpWithSign, fpAssemble, fpMag]

/-- The sign bit of a pattern that fills its format. -/
theorem fpSign_toNat {n : Nat} (h : n = F.expBits + F.fracBits + 1) (a : BitVec n) :
    (fpSign F a).toNat = a.toNat / 2 ^ (F.expBits + F.fracBits) := by
  rw [← signField_eq_toNat, signField, Nat.mod_eq_of_lt]
  rw [Nat.div_lt_iff_lt_mul (Nat.two_pow_pos _), ← pow_succ', ← h]
  exact a.isLt

theorem onRow_completeS_setsS (hwf : i.wellFormed s.cfg = true) {v w : Single} (h : v = w) :
    setsS s rd w 0 (s.pcAfter 4) (onRow i s (completeS 4 rd v s)) := by
  rw [onRow_ok _ hwf, ← h]
  exact completeS_setsS 4 rd v s

theorem onRow_completeD_setsD (hwf : i.wellFormed s.cfg = true) {v w : Double} (h : v = w) :
    setsD s rd w 0 (s.pcAfter 4) (onRow i s (completeD 4 rd v s)) := by
  rw [onRow_ok _ hwf, ← h]
  exact completeD_setsD 4 rd v s

theorem not_toNat (p : Bool) : (!p).toNat = 1 - p.toNat := by cases p <;> rfl

theorem xor_toNat (p q : Bool) : (p ^^ q).toNat = (p.toNat + q.toNat) % 2 := by cases p <;> cases q <;> rfl

end

/-- Settles O47: a sign over a magnitude, in numbers. -/
theorem signInjectionAndMoves : Obligations.SignInjectionAndMoves := by
  intro s rd rs1 rs2 hx
  refine ⟨fun hF => ?_, fun hD => ?_⟩
  · have hwf : (s.cfg.is32or64 && s.cfg.extF) = true := by simp [hx, hF]
    have hsign (v : Single) : (fpSign binary32 v).toNat = v.toNat / 2 ^ 31 := fpSign_toNat (by decide) v
    intro a b signed
    have hsigned {i : Instr} (hwf : i.wellFormed s.cfg = true) {neg : Bool} {k : Nat} (h : neg.toNat = k) :
        signed k (onRow i s (completeS 4 rd (fpWithSign binary32 neg (s.getSingle rs1)) s)) :=
      onRow_completeS_setsS hwf (by rw [fpWithSign_eq, h]; rfl)
    refine ⟨hsigned (i := .fsgnjS rd rs1 rs2) hwf (hsign _),
      hsigned (i := .fsgnjnS rd rs1 rs2) hwf (by rw [not_toNat, hsign]),
      hsigned (i := .fsgnjxS rd rs1 rs2) hwf (by rw [xor_toNat, hsign, hsign]), ?_,
      onRow_completeS_setsS (i := .fmvWX rd rs1) hwf (BitVec.ofNat_toNat ..).symm⟩
    rw [wordResult_eq_sextWord, BitVec.ofInt_natCast]
    exact onRow_completeX_setsX (i := .fmvXW rd rs1) hwf ..
  · have hwf : (s.cfg.is32or64 && s.cfg.hasD) = true := by simp [hx, hD]
    have hsign (v : Double) : (fpSign binary64 v).toNat = v.toNat / 2 ^ 63 := fpSign_toNat (by decide) v
    intro a b signed
    have hsigned {i : Instr} (hwf : i.wellFormed s.cfg = true) {neg : Bool} {k : Nat} (h : neg.toNat = k) :
        signed k (onRow i s (completeD 4 rd (fpWithSign binary64 neg (s.getF rs1)) s)) :=
      onRow_completeD_setsD hwf (by rw [fpWithSign_eq, h]; rfl)
    refine ⟨hsigned (i := .fsgnjD rd rs1 rs2) hwf (hsign _),
      hsigned (i := .fsgnjnD rd rs1 rs2) hwf (by rw [not_toNat, hsign]),
      hsigned (i := .fsgnjxD rd rs1 rs2) hwf (by rw [xor_toNat, hsign, hsign]), fun h64 => ?_⟩
    have hlong : (s.cfg.xlen == .rv64 && s.cfg.hasD) = true := by simp [h64, hD]
    refine ⟨?_, onRow_completeD_setsD (i := .fmvDX rd rs1) hlong (BitVec.ofNat_toNat ..).symm⟩
    rw [BitVec.ofNat_toNat]
    exact onRow_completeX_setsX (i := .fmvXD rd rs1) hlong ..

end Sys2Proof.Proofs
end

