-- ==== Sys2Proof/Proofs/FloatValues.lean ====
section
/-! The value of a pattern through its magnitude bits: `magnitudeValue` is strictly increasing, and linear within one
binade. O53 follows from the decoder's three cases. -/

namespace Sys2Proof.Proofs

open Sys2Proof.Machine Sys2Proof.Laws

/-! ### The formats -/

section

variable {F : FloatFormat} {n : Nat}

theorem isFormat_width (h : isFormat F n) : n = F.expBits + F.fracBits + 1 := by
  obtain ⟨rfl, rfl⟩ | ⟨rfl, rfl⟩ := h <;> rfl

theorem isFormat_two_pow_fracBits_even (h : isFormat F n) : 2 ^ F.fracBits % 2 = 0 := by
  obtain ⟨rfl, rfl⟩ | ⟨rfl, rfl⟩ := h <;> rfl

theorem isFormat_two_pow_expBits (h : isFormat F n) : 2 ^ F.expBits = 2 * F.bias + 2 := by
  obtain ⟨rfl, rfl⟩ | ⟨rfl, rfl⟩ := h <;> rfl

theorem isFormat_bias_pos (h : isFormat F n) : 1 ≤ F.bias := by
  obtain ⟨rfl, rfl⟩ | ⟨rfl, rfl⟩ := h <;> decide

theorem isFormat_infMag (h : isFormat F n) : F.infMag = (2 * F.bias + 1) * 2 ^ F.fracBits := by
  rw [FloatFormat.infMag, isFormat_two_pow_expBits h]
  rfl

theorem infMag_pos (h : isFormat F n) : 0 < F.infMag := by
  rw [isFormat_infMag h]
  exact Nat.mul_pos (Nat.succ_pos _) (Nat.two_pow_pos _)

theorem infMag_lt (F : FloatFormat) : F.infMag < 2 ^ (F.expBits + F.fracBits) := by
  rw [FloatFormat.infMag, pow_add]
  exact Nat.mul_lt_mul_of_pos_right (Nat.sub_lt (Nat.two_pow_pos _) one_pos) (Nat.two_pow_pos _)

end

/-! ### The value of a magnitude -/

section

variable {F : FloatFormat} {n : Nat}

/-- The value of magnitude bits (R451), also beyond the format's largest exponent. -/
noncomputable def magnitudeValue (F : FloatFormat) (k : ℕ) : ℝ :=
  if k / 2 ^ F.fracBits = 0 then (k : ℝ) * 2 ^ (F.minExp - F.fracBits)
  else ((2 ^ F.fracBits + k % 2 ^ F.fracBits : ℕ) : ℝ) *
    2 ^ (F.minExp + ((k / 2 ^ F.fracBits : ℕ) - 1) - F.fracBits)

/-- Within a binade, its upper end included, the value is a multiple of the binade's quantum. -/
theorem magnitudeValue_eq {k r : ℕ} (hlow : k = 0 ∨ 2 ^ F.fracBits ≤ r) (hhigh : r ≤ 2 * 2 ^ F.fracBits) :
    magnitudeValue F (k * 2 ^ F.fracBits + r) = r * (2 : ℝ) ^ (F.minExp + k - F.fracBits) := by
  have hpos : 0 < 2 ^ F.fracBits := Nat.two_pow_pos _
  rcases Nat.lt_or_ge r (2 ^ F.fracBits) with hlt | hge
  · obtain rfl : k = 0 := hlow.resolve_right (Nat.not_le.2 hlt)
    rw [magnitudeValue, Nat.zero_mul, Nat.zero_add, if_pos (Nat.div_eq_of_lt hlt), Nat.cast_zero, add_zero]
  obtain ⟨t, rfl⟩ := Nat.exists_eq_add_of_le hge
  have hsplit : k * 2 ^ F.fracBits + (2 ^ F.fracBits + t) = t + 2 ^ F.fracBits * (k + 1) := by ring
  have hnormal : t / 2 ^ F.fracBits + (k + 1) ≠ 0 := Nat.succ_ne_zero _
  rw [magnitudeValue, hsplit, Nat.add_mul_div_left _ _ hpos, Nat.add_mul_mod_self_left, if_neg hnormal]
  rcases Nat.lt_or_ge t (2 ^ F.fracBits) with ht | ht
  · rw [Nat.div_eq_of_lt ht, Nat.mod_eq_of_lt ht]
    congr 2
    push_cast
    ring
  · obtain rfl : t = 2 ^ F.fracBits := by omega
    have hexp : F.minExp + (((1 + (k + 1) : ℕ) : ℤ) - 1) - F.fracBits = F.minExp + k - F.fracBits + 1 := by
      push_cast
      ring
    rw [Nat.div_self hpos, Nat.mod_self, hexp, zpow_add_one₀ two_ne_zero]
    push_cast
    ring

/-- Every magnitude lies in a binade, below its upper end. -/
theorem exists_binade (F : FloatFormat) (j : ℕ) :
    ∃ k r, j = k * 2 ^ F.fracBits + r ∧ (k = 0 ∨ 2 ^ F.fracBits ≤ r) ∧ r < 2 * 2 ^ F.fracBits := by
  have hmod := Nat.mod_lt j (Nat.two_pow_pos F.fracBits)
  have hdiv := Nat.div_add_mod j (2 ^ F.fracBits)
  rcases hquot : j / 2 ^ F.fracBits with _ | k
  · rw [hquot] at hdiv
    exact ⟨0, j, by omega, .inl rfl, by omega⟩
  · refine ⟨k, 2 ^ F.fracBits + j % 2 ^ F.fracBits, ?_, .inr (by omega), by omega⟩
    rw [hquot] at hdiv
    calc j = 2 ^ F.fracBits * (k + 1) + j % 2 ^ F.fracBits := hdiv.symm
      _ = k * 2 ^ F.fracBits + (2 ^ F.fracBits + j % 2 ^ F.fracBits) := by ring

theorem magnitudeValue_zero (F : FloatFormat) : magnitudeValue F 0 = 0 := by simp [magnitudeValue]

theorem strictMono_magnitudeValue (F : FloatFormat) : StrictMono (magnitudeValue F) := by
  refine strictMono_nat_of_lt_succ fun j => ?_
  obtain ⟨k, r, rfl, hlow, hhigh⟩ := exists_binade F j
  rw [magnitudeValue_eq hlow hhigh.le, Nat.add_assoc, magnitudeValue_eq (hlow.imp_right (by omega)) (by omega)]
  push_cast
  have hquantum : (0 : ℝ) < 2 ^ (F.minExp + k - F.fracBits) := by positivity
  linarith

theorem magnitudeValue_nonneg (F : FloatFormat) (k : ℕ) : 0 ≤ magnitudeValue F k := by
  rw [← magnitudeValue_zero F]
  exact (strictMono_magnitudeValue F).monotone (Nat.zero_le k)

/-- The first magnitude beyond the format stands for the first power of two beyond it. -/
theorem magnitudeValue_infMag (h : isFormat F n) : magnitudeValue F F.infMag = 2 ^ (F.bias + 1) := by
  have hsplit : F.infMag = 2 * F.bias * 2 ^ F.fracBits + 2 ^ F.fracBits := by
    rw [isFormat_infMag h]
    ring
  rw [hsplit, magnitudeValue_eq (.inr le_rfl) (by omega), minExp_eq, Nat.cast_pow, Nat.cast_ofNat, ← zpow_natCast,
    ← zpow_natCast, ← zpow_add₀ two_ne_zero]
  congr 1
  push_cast
  ring

/-- The largest finite magnitude is one quantum below it. -/
theorem magnitudeValue_largest (h : isFormat F n) {k : ℕ} (hk : F.infMag = k + 1) :
    magnitudeValue F k = 2 ^ (F.bias + 1) - 2 ^ ((F.bias : ℤ) - F.fracBits) := by
  have hpos : 0 < 2 ^ F.fracBits := Nat.two_pow_pos _
  obtain ⟨b, hb⟩ := Nat.exists_eq_add_of_le (isFormat_bias_pos h)
  obtain ⟨t, ht⟩ : ∃ t, 2 * 2 ^ F.fracBits = t + 1 := ⟨2 * 2 ^ F.fracBits - 1, by omega⟩
  have hsplit : k = (2 * b + 1) * 2 ^ F.fracBits + t := by
    have hinf := isFormat_infMag h
    rw [hk, hb] at hinf
    linarith
  have htop : (2 : ℝ) ^ (F.bias + 1) = 2 * 2 ^ F.fracBits * 2 ^ ((F.bias : ℤ) - F.fracBits) := by
    rw [two_zpow_sub_natCast, zpow_natCast, pow_succ]
    field_simp
  have hquantum : F.minExp + ((2 * b + 1 : ℕ) : ℤ) - F.fracBits = (F.bias : ℤ) - F.fracBits := by
    rw [minExp_eq, hb]
    push_cast
    ring
  have ht' : 2 * (2 : ℝ) ^ F.fracBits = t + 1 := by exact_mod_cast ht
  rw [hsplit, magnitudeValue_eq (.inr (by omega)) (by omega), hquantum, htop, ht']
  ring

end

/-! ### The value of a pattern -/

section

variable {F : FloatFormat} {n : Nat} {b : BitVec n}

/-- A finite pattern stands for its magnitude under its sign. -/
theorem hasValue_iff {x : ℝ} :
    hasValue F b x ↔
      exponentField F b ≠ 2 ^ F.expBits - 1 ∧ x = (-1) ^ (fpSign F b).toNat * magnitudeValue F (fpMag F b) := by
  have hvalue : magnitudeValue F (fpMag F b) =
      if exponentField F b = 0 then (2 : ℝ) ^ (1 - (F.bias : ℤ)) * (fractionField F b / 2 ^ F.fracBits)
      else (2 : ℝ) ^ ((exponentField F b : ℤ) - F.bias) * (1 + fractionField F b / 2 ^ F.fracBits) := by
    rw [magnitudeValue, fpMag_div, fpMag_mod, two_zpow_sub_natCast, two_zpow_sub_natCast, minExp_eq]
    by_cases hsub : exponentField F b = 0
    · have hmag : fpMag F b = fractionField F b := by
        rw [← fpMag_mod, Nat.mod_eq_of_lt]
        exact (Nat.div_eq_zero_iff_lt (Nat.two_pow_pos _)).1 ((fpMag_div F b).trans hsub)
      rw [if_pos hsub, if_pos hsub, hmag]
      ring
    · have hscale : (1 - (F.bias : ℤ)) + ((exponentField F b : ℤ) - 1) = exponentField F b - F.bias := by ring
      rw [if_neg hsub, if_neg hsub, hscale]
      push_cast
      field_simp
  rw [hvalue, ← signField_eq_toNat]
  rfl

/-- A pattern is finite when its magnitude is below infinity's. -/
theorem finite_iff_fpMag_lt : exponentField F b ≠ 2 ^ F.expBits - 1 ↔ fpMag F b < F.infMag := by
  have hpos : 0 < 2 ^ F.fracBits := Nat.two_pow_pos _
  have hlt : exponentField F b < 2 ^ F.expBits := Nat.mod_lt _ (Nat.two_pow_pos _)
  rw [FloatFormat.infMag, ← Nat.div_lt_iff_lt_mul hpos, fpMag_div]
  omega

/-- Every pattern is a NaN, an infinity or finite. -/
theorem nan_or_infinity_or_value (F : FloatFormat) (b : BitVec n) :
    isNan F b ∨ isInfinity F b ∨ ∃ x, hasValue F b x := by
  by_cases hexp : exponentField F b = 2 ^ F.expBits - 1
  · by_cases hfrac : fractionField F b = 0
    · exact .inr (.inl ⟨hexp, hfrac⟩)
    · exact .inl ⟨hexp, hfrac⟩
  · exact .inr (.inr ⟨_, hexp, rfl⟩)

theorem fpDecode_of_isSignaling (h : isSignaling F b) : fpDecode F b = .nan true := by
  rw [fpDecode_of_isNan h.1, decide_eq_true h.2]

theorem fpDecode_of_isQuiet (h : isNan F b) (hquiet : ¬ isSignaling F b) : fpDecode F b = .nan false := by
  rw [fpDecode_of_isNan h, decide_eq_false fun hlow => hquiet ⟨h, hlow⟩]

theorem fpDecode_eq_nan_iff : (∃ q, fpDecode F b = .nan q) ↔ isNan F b := by
  refine ⟨fun ⟨q, hq⟩ => ?_, fun h => ⟨_, fpDecode_of_isNan h⟩⟩
  rcases nan_or_infinity_or_value F b with h | h | ⟨x, h⟩
  · exact h
  · rw [fpDecode_of_isInfinity h] at hq
    cases hq
  · obtain ⟨m, e, hdecode, -⟩ := fpDecode_of_hasValue h
    rw [hdecode] at hq
    cases hq

theorem fpDecode_eq_signaling_iff : fpDecode F b = .nan true ↔ isSignaling F b := by
  refine ⟨fun h => ?_, fpDecode_of_isSignaling⟩
  by_contra hquiet
  rw [fpDecode_of_isQuiet (fpDecode_eq_nan_iff.1 ⟨_, h⟩) hquiet] at h
  cases h

theorem fpDecode_eq_inf_iff {g : Bool} : fpDecode F b = .inf g ↔ isInfinity F b ∧ fpSign F b = g := by
  refine ⟨fun hg => ?_, fun ⟨h, hg⟩ => by rw [fpDecode_of_isInfinity h, hg]⟩
  rcases nan_or_infinity_or_value F b with h | h | ⟨x, h⟩
  · rw [fpDecode_of_isNan h] at hg
    cases hg
  · rw [fpDecode_of_isInfinity h] at hg
    exact ⟨h, FpValue.inf.inj hg⟩
  · obtain ⟨m, e, hdecode, -⟩ := fpDecode_of_hasValue h
    rw [hdecode] at hg
    cases hg

/-- What decodes to a finite number has the sign and the value decoded. -/
theorem hasValue_of_fpDecode {g : Bool} {k : ℕ} {e : ℤ} (hfinite : fpDecode F b = .finite g k e) :
    fpSign F b = g ∧ hasValue F b ((-1) ^ g.toNat * (k * (2 : ℝ) ^ e)) := by
  rcases nan_or_infinity_or_value F b with h | h | ⟨x, h⟩
  · rw [fpDecode_of_isNan h] at hfinite
    cases hfinite
  · rw [fpDecode_of_isInfinity h] at hfinite
    cases hfinite
  · obtain ⟨m, e', hdecode, hx⟩ := fpDecode_of_hasValue h
    rw [hdecode] at hfinite
    cases hfinite
    exact ⟨rfl, hx ▸ h⟩

theorem toNat_inj : ∀ p q : Bool, p.toNat = q.toNat ↔ p = q := by decide

theorem ite_eq_toNat (g : Bool) : (if g then 1 else 0) = g.toNat := by cases g <;> rfl

theorem signField_eq_ite (F : FloatFormat) (b : BitVec n) (g : Bool) :
    (signField F b = if g then 1 else 0) ↔ fpSign F b = g := by
  rw [signField_eq_toNat, ite_eq_toNat]
  exact toNat_inj _ _

end

/-- Settles O53, by the decoder's three cases. -/
theorem patternsStandForTheirValues : Obligations.PatternsStandForTheirValues := by
  intro F n b _
  refine ⟨fpDecode_eq_nan_iff, fpDecode_eq_signaling_iff, fun g => ?_, fun g k e h => ?_, fun hnan hinf => ?_⟩
  · rw [signField_eq_ite]
    exact fpDecode_eq_inf_iff
  · obtain ⟨hsign, hvalue⟩ := hasValue_of_fpDecode h
    rw [signField_eq_ite, mul_assoc, ite_eq_toNat]
    exact ⟨hvalue, hsign⟩
  · obtain ⟨x, hx⟩ := ((nan_or_infinity_or_value F b).resolve_left hnan).resolve_left hinf
    obtain ⟨m, e, hdecode, -⟩ := fpDecode_of_hasValue hx
    exact ⟨_, m, e, hdecode⟩

end Sys2Proof.Proofs
end

