-- ==== Sys2Proof/Proofs/CellRounding.lean ====
section
/-! R456 on magnitudes: a positive real number lies in a cell of an increasing sequence, between a term and the next, and
a mode takes it to one of the two. The thresholds of overflow and of tininess are read off the cell; a pattern that holds
the magnitude chosen is the number rounded. -/

namespace Sys2Proof.Proofs

open Sys2Proof.Machine Sys2Proof.Laws

/-! ### Cells -/

section

variable {V W : ℕ → ℝ} {rm : RoundingMode} {x y : ℝ} {c k M : ℕ}

/-- The mode takes x, in the cell of index c, to the upper end of the cell. -/
def roundsUpIn (V : ℕ → ℝ) (rm : RoundingMode) (c : ℕ) (x : ℝ) : Prop :=
  match rm with
  | .rne => V c + V (c + 1) < 2 * x ∨ (V c + V (c + 1) = 2 * x ∧ c % 2 = 1)
  | .rtz | .rdn => False
  | .rup => V c < x
  | .rmm => V c + V (c + 1) ≤ 2 * x

/-- x lies in the cell of index c and k is the end of it that the mode chooses. -/
structure RoundsInCell (V : ℕ → ℝ) (rm : RoundingMode) (x : ℝ) (c k : ℕ) : Prop where
  lower : V c ≤ x
  upper : x < V (c + 1)
  up : roundsUpIn V rm c x → k = c + 1
  down : ¬ roundsUpIn V rm c x → k = c

theorem RoundsInCell.le (h : RoundsInCell V rm x c k) : c ≤ k := by
  by_cases hup : roundsUpIn V rm c x
  · exact (h.up hup).symm ▸ Nat.le_succ c
  · exact (h.down hup).ge

theorem RoundsInCell.le_succ (h : RoundsInCell V rm x c k) : k ≤ c + 1 := by
  by_cases hup : roundsUpIn V rm c x
  · exact (h.up hup).le
  · exact (h.down hup).symm ▸ Nat.le_succ c

/-- The term chosen is x just when x is the lower end of the cell. -/
theorem RoundsInCell.eq_iff (h : RoundsInCell V rm x c k) : V k = x ↔ V c = x := by
  by_cases hup : roundsUpIn V rm c x
  · rw [h.up hup]
    refine iff_of_false h.upper.ne' fun heq => ?_
    have hup' : roundsUpIn V rm c (V c) := by rwa [← heq] at hup
    have hcell : V c < V (c + 1) := heq ▸ h.upper
    cases rm with
    | rne => rcases hup' with hlt | ⟨htie, -⟩ <;> linarith
    | rtz | rdn => exact hup'
    | rup => exact lt_irrefl _ hup'
    | rmm =>
      have hle : V c + V (c + 1) ≤ 2 * V c := hup'
      linarith
  · rw [h.down hup]

/-- A cell of another sequence with the same ends and the same parity. -/
theorem RoundsInCell.congr {d t : ℕ} (h : RoundsInCell V rm x c k) (hlow : W (d + c) = V c)
    (hhigh : W (d + c + 1) = V (c + 1)) (hd : d % 2 = 0) (ht : t = d + k) : RoundsInCell W rm x (d + c) t := by
  have hparity : (d + c) % 2 = c % 2 := by omega
  have hup : roundsUpIn W rm (d + c) x ↔ roundsUpIn V rm c x := by
    cases rm <;> simp only [roundsUpIn, hlow, hhigh, hparity]
  refine ⟨hlow ▸ h.lower, hhigh ▸ h.upper, fun hu => ?_, fun hu => ?_⟩
  · rw [ht, h.up (hup.1 hu), Nat.add_assoc]
  · rw [ht, h.down (mt hup.2 hu)]

/-- The mode takes x to the upper end b of the cell from a to b or beyond, for an upper end of even index. -/
def reaches (rm : RoundingMode) (a b x : ℝ) : Prop :=
  match rm with
  | .rne | .rmm => a + b ≤ 2 * x
  | .rtz | .rdn => b ≤ x
  | .rup => a < x

theorem reaches_of_le (h : y ≤ x) {a : ℝ} (hlt : a < y) : reaches rm a y x := by
  cases rm with
  | rne | rmm =>
    show a + y ≤ 2 * x
    linarith
  | rtz | rdn => exact h
  | rup => exact hlt.trans_le h

theorem not_reaches_of_le {a : ℝ} (h : x ≤ a) (hlt : a < y) : ¬ reaches rm a y x := by
  cases rm with
  | rne | rmm =>
    show ¬ a + y ≤ 2 * x
    linarith
  | rtz | rdn => exact not_le.2 (h.trans_lt hlt)
  | rup => exact not_lt.2 h

/-- The term chosen is at an even index or beyond just when x reaches that index. -/
theorem RoundsInCell.le_iff_reaches (h : RoundsInCell V rm x c k) (hV : StrictMono V) (hM : (M + 1) % 2 = 0) :
    M + 1 ≤ k ↔ reaches rm (V M) (V (M + 1)) x := by
  have hstep : V M < V (M + 1) := hV (Nat.lt_succ_self M)
  have hle := h.le
  have hle' := h.le_succ
  rcases Nat.lt_trichotomy c M with hlt | rfl | hgt
  · exact iff_of_false (by omega) (not_reaches_of_le (h.upper.le.trans (hV.monotone hlt)) hstep)
  · have hup : roundsUpIn V rm c x ↔ reaches rm (V c) (V (c + 1)) x := by
      have hodd : c % 2 = 1 := by omega
      cases rm with
      | rne => simp only [roundsUpIn, reaches, hodd, and_true, le_iff_lt_or_eq]
      | rtz | rdn => exact iff_of_false not_false h.upper.not_ge
      | rup | rmm => exact Iff.rfl
    rw [← hup]
    refine ⟨fun hk => ?_, fun hu => (h.up hu).ge⟩
    by_contra hu
    have := h.down hu
    omega
  · exact iff_of_true (by omega) (reaches_of_le ((hV.monotone hgt).trans h.lower) hstep)

/-! ### The term chosen is x rounded -/

/-- Of the terms of an increasing sequence, the one of index k is x > 0 rounded. -/
def isRoundedIn (V : ℕ → ℝ) (rm : RoundingMode) (x : ℝ) (k : ℕ) : Prop :=
  match rm with
  | .rne => ∀ j, |V k - x| < |V j - x| ∨ (|V k - x| = |V j - x| ∧ (j = k ∨ k % 2 = 0))
  | .rmm => ∀ j, |V k - x| < |V j - x| ∨ (|V k - x| = |V j - x| ∧ j ≤ k)
  | .rtz | .rdn => V k ≤ x ∧ ∀ j, V j ≤ x → j ≤ k
  | .rup => x ≤ V k ∧ ∀ j, x ≤ V j → k ≤ j

section

variable (hV : StrictMono V)

include hV

/-- The upper end of the cell is nearer than any other term, or as near as the lower end. -/
theorem upper_nearest (hupper : x < V (c + 1)) (hhalf : V c + V (c + 1) ≤ 2 * x) {j : ℕ} (hne : j ≠ c + 1) :
    |V (c + 1) - x| < |V j - x| ∨ (|V (c + 1) - x| = |V j - x| ∧ j ≤ c ∧ V c + V (c + 1) = 2 * x) := by
  rw [abs_of_pos (sub_pos.2 hupper)]
  rcases Nat.lt_or_gt_of_ne hne with hlt | hgt
  · have hj : V j ≤ V c := hV.monotone (Nat.le_of_lt_succ hlt)
    rw [abs_of_nonpos (by linarith)]
    refine (lt_or_ge (V (c + 1) - x) (-(V j - x))).imp_right fun hge => ⟨?_, Nat.le_of_lt_succ hlt, ?_⟩ <;> linarith
  · have hj : V (c + 1) < V j := hV hgt
    rw [abs_of_pos (by linarith)]
    exact .inl (by linarith)

/-- The lower end of the cell is nearer than any other term, or as near as the upper end. -/
theorem lower_nearest (hlower : V c ≤ x) (hhalf : 2 * x ≤ V c + V (c + 1)) {j : ℕ} (hne : j ≠ c) :
    |V c - x| < |V j - x| ∨ (|V c - x| = |V j - x| ∧ V c + V (c + 1) = 2 * x) := by
  rw [abs_of_nonpos (sub_nonpos.2 hlower)]
  rcases Nat.lt_or_gt_of_ne hne with hlt | hgt
  · have hj : V j < V c := hV hlt
    rw [abs_of_nonpos (by linarith)]
    exact .inl (by linarith)
  · have hj : V (c + 1) ≤ V j := hV.monotone hgt
    rw [abs_of_nonneg (by linarith)]
    refine (lt_or_ge (-(V c - x)) (V j - x)).imp_right fun hge => ⟨?_, ?_⟩ <;> linarith

end

theorem isRoundedIn_rne (h : RoundsInCell V .rne x c k) (hV : StrictMono V) : isRoundedIn V .rne x k := by
  intro j
  by_cases hup : roundsUpIn V .rne c x
  · rw [h.up hup]
    have hhalf : V c + V (c + 1) ≤ 2 * x := hup.elim le_of_lt fun ⟨htie, _⟩ => htie.le
    by_cases hj : j = c + 1
    · exact .inr ⟨by rw [hj], .inl hj⟩
    refine (upper_nearest hV h.upper hhalf hj).imp_right fun ⟨heq, _, htie⟩ => ⟨heq, .inr ?_⟩
    obtain hlt | ⟨-, hodd⟩ := hup
    · exact absurd htie hlt.ne
    · omega
  · rw [h.down hup]
    have hhalf : 2 * x ≤ V c + V (c + 1) := not_lt.1 fun hlt => hup (.inl hlt)
    by_cases hj : j = c
    · exact .inr ⟨by rw [hj], .inl hj⟩
    refine (lower_nearest hV h.lower hhalf hj).imp_right fun ⟨heq, htie⟩ => ⟨heq, .inr ?_⟩
    have hodd : ¬ c % 2 = 1 := fun hodd => hup (.inr ⟨htie, hodd⟩)
    omega

theorem isRoundedIn_rmm (h : RoundsInCell V .rmm x c k) (hV : StrictMono V) : isRoundedIn V .rmm x k := by
  intro j
  by_cases hup : V c + V (c + 1) ≤ 2 * x
  · rw [h.up hup]
    by_cases hj : j = c + 1
    · exact .inr ⟨by rw [hj], hj.le⟩
    · exact (upper_nearest hV h.upper hup hj).imp_right fun ⟨heq, hle, _⟩ => ⟨heq, hle.trans (Nat.le_succ c)⟩
  · rw [h.down hup]
    by_cases hj : j = c
    · exact .inr ⟨by rw [hj], hj.le⟩
    · exact (lower_nearest hV h.lower (not_le.1 hup).le hj).imp_right fun ⟨_, htie⟩ => absurd htie.le hup

theorem isRoundedIn_down (hV : StrictMono V) (hlower : V c ≤ x) (hupper : x < V (c + 1)) :
    V c ≤ x ∧ ∀ j, V j ≤ x → j ≤ c :=
  ⟨hlower, fun _ hj => Nat.le_of_lt_succ (hV.lt_iff_lt.1 (hj.trans_lt hupper))⟩

theorem isRoundedIn_up (h : RoundsInCell V .rup x c k) (hV : StrictMono V) : isRoundedIn V .rup x k := by
  by_cases hup : V c < x
  · rw [h.up hup]
    exact ⟨h.upper.le, fun j hj => hV.lt_iff_lt.1 (hup.trans_le hj)⟩
  · rw [h.down hup]
    have heq : V c = x := h.lower.antisymm (not_lt.1 hup)
    exact ⟨heq.ge, fun j hj => hV.le_iff_le.1 (heq.le.trans hj)⟩

theorem RoundsInCell.isRoundedIn (h : RoundsInCell V rm x c k) (hV : StrictMono V) : isRoundedIn V rm x k := by
  cases rm with
  | rne => exact isRoundedIn_rne h hV
  | rmm => exact isRoundedIn_rmm h hV
  | rup => exact isRoundedIn_up h hV
  | rtz | rdn =>
    rw [h.down not_false]
    exact isRoundedIn_down hV h.lower h.upper

end

/-! ### Signs -/

/-- The mode that rounds the magnitude of a number with the given sign. -/
def signedMode (rm : RoundingMode) (neg : Bool) : RoundingMode := if neg then mirror rm else rm

section

variable {F : FloatFormat} {rm : RoundingMode} {n : Nat} {b : BitVec n} {x : ℝ}

theorem abs_signed (g : Bool) (r : ℝ) : |(-1) ^ g.toNat * r| = |r| := by cases g <;> simp

theorem signed_sub (g : Bool) (r t : ℝ) : (-1) ^ g.toNat * r - (-1) ^ g.toNat * t = (-1) ^ g.toNat * (r - t) := by ring

/-- A finite value is a magnitude under the sign given, or a nonzero one under the other. -/
theorem same_or_opposite_sign (g : Bool) {u : BitVec n} {y : ℝ} (hy : hasValue F u y) :
    (∃ j, y = (-1) ^ g.toNat * magnitudeValue F j) ∨ ∃ r, 0 < r ∧ y = -((-1) ^ g.toNat * r) := by
  obtain ⟨-, rfl⟩ := hasValue_iff.1 hy
  by_cases hsign : fpSign F u = g
  · exact .inl ⟨fpMag F u, by rw [hsign]⟩
  rcases (magnitudeValue_nonneg F (fpMag F u)).eq_or_lt with hzero | hpos
  · exact .inl ⟨0, by rw [← hzero, magnitudeValue_zero, mul_zero, mul_zero]⟩
  · refine .inr ⟨_, hpos, ?_⟩
    rw [Bool.eq_not.2 hsign]
    cases g <;> simp

/-- A value of the other sign is farther off than zero. -/
theorem zero_nearer (hx : 0 < x) (g : Bool) {r : ℝ} (hr : 0 < r) :
    |magnitudeValue F 0 - x| < |-((-1) ^ g.toNat * r) - (-1) ^ g.toNat * x| := by
  have hother : -((-1) ^ g.toNat * r) - (-1) ^ g.toNat * x = -((-1) ^ g.toNat * (r + x)) := by ring
  rw [hother, abs_neg, abs_signed, magnitudeValue_zero, zero_sub, abs_neg, abs_of_pos hx, abs_of_pos (add_pos hr hx)]
  linarith

theorem fpMag_parity (heven : 2 ^ F.fracBits % 2 = 0) (b : BitVec n) : fractionField F b % 2 = fpMag F b % 2 := by
  rw [← fpMag_mod, Nat.mod_mod_of_dvd _ (Nat.dvd_of_mod_eq_zero heven)]

/-- A pattern that holds the magnitude rounded, under the sign of the number, is the number rounded (R456). -/
theorem isRounded_of_isRoundedIn (heven : 2 ^ F.fracBits % 2 = 0) (hx : 0 < x) {g : Bool}
    (h : isRoundedIn (magnitudeValue F) (signedMode rm g) x (fpMag F b)) :
    isRounded F rm ((-1) ^ g.toNat * x) b ((-1) ^ g.toNat * magnitudeValue F (fpMag F b)) := by
  have hmono := (strictMono_magnitudeValue F).monotone
  have hnonneg := magnitudeValue_nonneg F
  cases rm with
  | rne =>
    have hnearest : isRoundedIn (magnitudeValue F) .rne x (fpMag F b) := by cases g <;> exact h
    intro u y hy
    rw [signed_sub, abs_signed, fpMag_parity heven]
    rcases same_or_opposite_sign g hy with ⟨j, rfl⟩ | ⟨r, hr, rfl⟩
    · rw [signed_sub, abs_signed]
      exact (hnearest j).imp_right (And.imp_right (Or.imp_left fun hj => by rw [hj]))
    · refine .inl (lt_of_le_of_lt ?_ (zero_nearer (F := F) hx g hr))
      exact (hnearest 0).elim le_of_lt fun ⟨heq, _⟩ => heq.le
  | rmm =>
    have hnearest : isRoundedIn (magnitudeValue F) .rmm x (fpMag F b) := by cases g <;> exact h
    intro u y hy
    rw [signed_sub, abs_signed, abs_signed]
    rcases same_or_opposite_sign g hy with ⟨j, rfl⟩ | ⟨r, hr, rfl⟩
    · rw [signed_sub, abs_signed, abs_signed, abs_of_nonneg (hnonneg j), abs_of_nonneg (hnonneg _)]
      exact (hnearest j).imp_right (And.imp_right fun hj => hmono hj)
    · refine .inl (lt_of_le_of_lt ?_ (zero_nearer (F := F) hx g hr))
      exact (hnearest 0).elim le_of_lt fun ⟨heq, _⟩ => heq.le
  | rtz =>
    obtain ⟨hle, hmost⟩ : isRoundedIn (magnitudeValue F) .rtz x (fpMag F b) := by cases g <;> exact h
    simp only [isRounded, abs_signed, abs_of_nonneg (hnonneg _), abs_of_pos hx]
    refine ⟨hle, ?_, fun u y hy hyx => ?_⟩
    · have hprod : (-1) ^ g.toNat * magnitudeValue F (fpMag F b) * ((-1) ^ g.toNat * x) =
          magnitudeValue F (fpMag F b) * x := by cases g <;> simp
      rw [hprod]
      exact mul_nonneg (hnonneg _) hx.le
    · obtain ⟨-, rfl⟩ := hasValue_iff.1 hy
      rw [abs_signed, abs_of_nonneg (hnonneg _)] at hyx ⊢
      exact hmono (hmost _ hyx)
  | rdn =>
    cases g with
    | false =>
      obtain ⟨hle, hmost⟩ : isRoundedIn (magnitudeValue F) .rdn x (fpMag F b) := h
      refine ⟨by simpa using hle, fun u y hy hyx => ?_⟩
      rcases same_or_opposite_sign false hy with ⟨j, rfl⟩ | ⟨r, hr, rfl⟩
      · simpa using hmono (hmost j (by simpa using hyx))
      · have := hnonneg (fpMag F b)
        simp only [Bool.toNat_false, pow_zero, one_mul]
        linarith
    | true =>
      obtain ⟨hle, hleast⟩ : isRoundedIn (magnitudeValue F) .rup x (fpMag F b) := h
      refine ⟨by simpa using hle, fun u y hy hyx => ?_⟩
      rcases same_or_opposite_sign true hy with ⟨j, rfl⟩ | ⟨r, hr, rfl⟩
      · simpa using hmono (hleast j (by simpa using hyx))
      · simp only [Bool.toNat_true, pow_one, neg_mul, one_mul, neg_neg] at hyx
        linarith
  | rup =>
    cases g with
    | false =>
      obtain ⟨hle, hleast⟩ : isRoundedIn (magnitudeValue F) .rup x (fpMag F b) := h
      refine ⟨by simpa using hle, fun u y hy hyx => ?_⟩
      rcases same_or_opposite_sign false hy with ⟨j, rfl⟩ | ⟨r, hr, rfl⟩
      · simpa using hmono (hleast j (by simpa using hyx))
      · simp only [Bool.toNat_false, pow_zero, one_mul] at hyx
        linarith
    | true =>
      obtain ⟨hle, hmost⟩ : isRoundedIn (magnitudeValue F) .rdn x (fpMag F b) := h
      refine ⟨by simpa using hle, fun u y hy hyx => ?_⟩
      rcases same_or_opposite_sign true hy with ⟨j, rfl⟩ | ⟨r, hr, rfl⟩
      · simpa using hmono (hmost j (by simpa using hyx))
      · have := hnonneg (fpMag F b)
        simp only [Bool.toNat_true, pow_one, neg_mul, one_mul, neg_neg]
        linarith

end

end Sys2Proof.Proofs
end

