-- ==== Sys2Proof/Proofs/FloatRounding.lean ====
section
/-! O54. `fpRound` of R456. What it answers for the number m * 2^e is right for every real number that lies with it
between the same multiples of a power of two below the last bit that rounding looks at: for the number itself, and for a
quotient or a root of which it holds the leading bits and a sticky bit. -/

namespace Sys2Proof.Proofs

open Sys2Proof.Machine Sys2Proof.Laws

/-! ### Quanta -/

section

variable {rm : RoundingMode} {a b e Q : ℤ} {x y f : ℝ} {m q z : ℕ}

/-- The multiples of 2^Q. -/
noncomputable def quanta (Q : ℤ) (j : ℕ) : ℝ := j * (2 : ℝ) ^ Q

theorem strictMono_quanta (Q : ℤ) : StrictMono (quanta Q) := fun i j hij =>
  mul_lt_mul_of_pos_right (Nat.cast_lt.2 hij) (by positivity)

/-- A multiple of a power of two is a multiple of each smaller one. -/
theorem quanta_eq_quanta (h : a ≤ b) (j : ℕ) : quanta b j = quanta a (j * 2 ^ (b - a).toNat) := by
  have hsplit : (2 : ℝ) ^ b = (2 ^ (b - a).toNat : ℕ) * 2 ^ a := by
    rw [Nat.cast_pow, Nat.cast_ofNat, ← zpow_natCast, Int.toNat_sub_of_le h, ← zpow_add₀ two_ne_zero]
    congr 1
    ring
  rw [quanta, quanta, hsplit, Nat.cast_mul, mul_assoc]

/-- Twice a multiple of 2^a is a multiple of 2^(a+1). -/
theorem quanta_add_one (a : ℤ) (j : ℕ) : quanta (a + 1) j = 2 * quanta a j := by
  rw [quanta, quanta, zpow_add_one₀ two_ne_zero]
  ring

/-- The two ends of a cell of multiples of 2^Q add up to twice the midpoint. -/
theorem quanta_add_quanta_succ (Q : ℤ) (j : ℕ) : quanta Q j + quanta Q (j + 1) = 2 * quanta (Q - 1) (2 * j + 1) := by
  rw [← quanta_add_one, sub_add_cancel, quanta, quanta, quanta]
  push_cast
  ring

/-! ### `atQuantum` chooses the end of a cell -/

/-- An integer and a fraction are taken up as the number they make in its cell. -/
theorem roundsUpIn_quanta (hf : 0 ≤ f) : roundsUpIn (quanta Q) rm q ((q + f) * 2 ^ Q) ↔ roundsUp rm q f := by
  have hpos : (0 : ℝ) < 2 ^ Q := by positivity
  have hmid : quanta Q q + quanta Q (q + 1) = 2 * ((q + 1 / 2) * 2 ^ Q) := by
    rw [quanta, quanta]
    push_cast
    ring
  cases rm with
  | rne =>
    rw [roundsUpIn, roundsUp, hmid, mul_lt_mul_iff_right₀ two_pos, mul_lt_mul_iff_left₀ hpos, add_lt_add_iff_left,
      mul_right_inj' two_ne_zero, mul_left_inj' hpos.ne', add_right_inj, eq_comm (a := f)]
  | rtz | rdn => exact Iff.rfl
  | rup =>
    rw [roundsUpIn, roundsUp, quanta, mul_lt_mul_iff_left₀ hpos, lt_add_iff_pos_right]
    exact hf.lt_iff_ne'
  | rmm =>
    rw [roundsUpIn, roundsUp, hmid, mul_le_mul_iff_right₀ two_pos, mul_le_mul_iff_left₀ hpos, add_le_add_iff_left]

/-- An integer chosen by `roundsUp` is the end of the cell chosen. -/
theorem roundsInCell_quanta (hf : 0 ≤ f) (hlt : f < 1) (hup : roundsUp rm q f → z = q + 1)
    (hdown : ¬ roundsUp rm q f → z = q) : RoundsInCell (quanta Q) rm ((q + f) * 2 ^ Q) q z := by
  have hpos : (0 : ℝ) < 2 ^ Q := by positivity
  refine ⟨?_, ?_, fun h => hup ((roundsUpIn_quanta hf).1 h), fun h => hdown (mt (roundsUpIn_quanta hf).2 h)⟩
  · exact mul_le_mul_of_nonneg_right (le_add_of_nonneg_right hf) hpos.le
  · refine mul_lt_mul_of_pos_right ?_ hpos
    push_cast
    linarith

/-- `atQuantum` of a positive number chooses the end of its cell that the mode chooses. -/
theorem atQuantum_roundsInCell (rm : RoundingMode) (m : ℕ) (e Q : ℤ) :
    ∃ q, RoundsInCell (quanta Q) rm (m * 2 ^ e) q (atQuantum rm false m e Q).1 ∧
      ((atQuantum rm false m e Q).2 = true ↔ quanta Q q ≠ m * 2 ^ e) := by
  have hsplit : (m : ℝ) * 2 ^ e = m * 2 ^ (e - Q) * 2 ^ Q := by
    rw [mul_assoc, ← zpow_add₀ two_ne_zero, sub_add_cancel]
  have hpos : (2 : ℝ) ^ Q ≠ 0 := by positivity
  unfold atQuantum
  split
  case isTrue hle =>
    rw [hsplit, quanta_of_le m hle]
    refine ⟨m * 2 ^ (e - Q).toNat, ?_, by simp [quanta]⟩
    have hzero : ¬ roundsUp rm (m * 2 ^ (e - Q).toNat) 0 := fun h => ne_zero_of_roundsUp h rfl
    simpa using roundsInCell_quanta (Q := Q) le_rfl one_pos (fun h => absurd h hzero) fun _ => rfl
  case isFalse hlt =>
    rw [hsplit, quanta_of_lt m (not_le.1 hlt), div_two_pow_eq]
    obtain ⟨hup, hdown⟩ := roundShift_fst_cases rm m (Q - e).toNat
    refine ⟨_, roundsInCell_quanta (by positivity) (fraction_lt_one m _) hup hdown, ?_⟩
    rw [quanta, Ne, mul_left_inj' hpos, left_eq_add]
    exact decide_eq_true_iff.trans fraction_ne_zero_iff

/-! ### Numbers that no multiple of 2^a keeps apart -/

/-- Every multiple of 2^a lies on the same side of x and of y. -/
def agreesAt (a : ℤ) (x y : ℝ) : Prop :=
  ∀ j, (quanta a j ≤ x ↔ quanta a j ≤ y) ∧ (x ≤ quanta a j ↔ y ≤ quanta a j)

theorem agreesAt_refl (a : ℤ) (x : ℝ) : agreesAt a x x := fun _ => ⟨Iff.rfl, Iff.rfl⟩

theorem agreesAt_mono (h : agreesAt a x y) (hle : a ≤ b) : agreesAt b x y := fun j => by
  rw [quanta_eq_quanta hle]
  exact h _

/-- The end chosen for y is the end chosen for x, and is exact for both or for neither. -/
theorem roundsInCell_of_agreesAt (h : agreesAt (Q - 1) x y) (hy : RoundsInCell (quanta Q) rm y q z) :
    RoundsInCell (quanta Q) rm x q z ∧ (quanta Q q = x ↔ quanta Q q = y) := by
  have hend (j : ℕ) : (quanta Q j ≤ x ↔ quanta Q j ≤ y) ∧ (x ≤ quanta Q j ↔ y ≤ quanta Q j) :=
    agreesAt_mono h (by omega) j
  obtain ⟨hmidle, hlemid⟩ := h (2 * q + 1)
  have hup : roundsUpIn (quanta Q) rm q x ↔ roundsUpIn (quanta Q) rm q y := by
    cases rm with
    | rne =>
      simp only [roundsUpIn, quanta_add_quanta_succ, mul_lt_mul_iff_right₀ (two_pos (α := ℝ)),
        mul_right_inj' (two_ne_zero (α := ℝ)), le_antisymm_iff, ← not_le, hmidle, hlemid]
    | rtz | rdn => exact Iff.rfl
    | rup => simp only [roundsUpIn, ← not_le, hend]
    | rmm => simp only [roundsUpIn, quanta_add_quanta_succ, mul_le_mul_iff_right₀ (two_pos (α := ℝ)), hmidle]
  refine ⟨⟨(hend q).1.2 hy.lower, ?_, fun hu => hy.up (hup.1 hu), fun hu => hy.down (mt hup.2 hu)⟩, ?_⟩
  · exact not_le.1 (mt (hend (q + 1)).1.1 hy.upper.not_ge)
  · simp only [le_antisymm_iff, hend]

end

/-! ### Assembling a pattern -/

section

variable {F : FloatFormat} {n mag : Nat} {neg : Bool}

theorem fpAssemble_toNat (hn : n = F.expBits + F.fracBits + 1) (hmag : mag < 2 ^ (F.expBits + F.fracBits)) :
    (fpAssemble F n neg mag).toNat = 2 ^ (F.expBits + F.fracBits) * neg.toNat + mag := by
  have hn' : 2 ^ n = 2 ^ (F.expBits + F.fracBits) * 2 := by rw [hn, pow_succ]
  rw [fpAssemble, BitVec.toNat_ofNat, Nat.mod_eq_of_lt]
  · cases neg <;> simp
  · cases neg <;> simp <;> omega

theorem fpMag_fpAssemble (hn : n = F.expBits + F.fracBits + 1) (hmag : mag < 2 ^ (F.expBits + F.fracBits)) :
    fpMag F (fpAssemble F n neg mag) = mag := by
  rw [fpMag, fpAssemble_toNat hn hmag, Nat.mul_add_mod, Nat.mod_eq_of_lt hmag]

theorem fpSign_fpAssemble (hn : n = F.expBits + F.fracBits + 1) (hmag : mag < 2 ^ (F.expBits + F.fracBits)) :
    fpSign F (fpAssemble F n neg mag) = neg := by
  rw [← toNat_inj, ← signField_eq_toNat, signField, fpAssemble_toNat hn hmag,
    Nat.mul_add_div (Nat.two_pow_pos _), Nat.div_eq_of_lt hmag]
  cases neg <;> rfl

end

/-! ### Overflow and tininess as thresholds -/

section

variable {F : FloatFormat} {x : ℝ}

theorem signed_neg_iff (hx : 0 < x) (g : Bool) : (-1) ^ g.toNat * x < 0 ↔ g = true := by
  cases g <;> simp [hx, hx.le]

/-- A number overflows when its magnitude reaches the first power of two beyond the format (R456). -/
theorem overflows_iff (hx : 0 < x) (rm : RoundingMode) (g : Bool) :
    overflows F rm ((-1) ^ g.toNat * x) ↔
      reaches (signedMode rm g) (2 ^ (F.bias + 1) - 2 ^ ((F.bias : ℤ) - F.fracBits)) (2 ^ (F.bias + 1)) x := by
  have hhalf (top ulp : ℝ) : top - ulp / 2 ≤ x ↔ top - ulp + top ≤ 2 * x := by
    constructor <;> intro h <;> linarith
  cases rm with
  | rne | rmm =>
    simp only [overflows, abs_signed, abs_of_pos hx]
    rw [hhalf]
    cases g <;> rfl
  | rtz =>
    simp only [overflows, abs_signed, abs_of_pos hx]
    cases g <;> rfl
  | rdn | rup =>
    simp only [overflows, abs_signed, abs_of_pos hx, signed_neg_iff hx]
    cases g <;> rfl

/-- A number is tiny when its magnitude, the exponent unbounded, does not reach the smallest normal one (R456). -/
theorem isTiny_iff (hx : 0 < x) (rm : RoundingMode) (g : Bool) :
    isTiny F rm ((-1) ^ g.toNat * x) ↔
      ¬ reaches (signedMode rm g) (2 ^ F.minExp - 2 ^ (F.minExp - 1 - F.fracBits)) (2 ^ F.minExp) x := by
  have hulp : -(F.bias : ℤ) - F.fracBits = F.minExp - 1 - F.fracBits := by
    rw [minExp_eq]
    ring
  have hhalf (least ulp : ℝ) : x < least - ulp / 2 ↔ ¬ least - ulp + least ≤ 2 * x := by
    rw [not_le]
    constructor <;> intro h <;> linarith
  cases rm with
  | rne | rmm =>
    simp only [isTiny, abs_signed, abs_of_pos hx, hulp, ← minExp_eq]
    rw [hhalf]
    cases g <;> rfl
  | rtz =>
    simp only [isTiny, abs_signed, abs_of_pos hx, ← minExp_eq, ← not_le]
    cases g <;> rfl
  | rdn | rup =>
    simp only [isTiny, abs_signed, abs_of_pos hx, signed_neg_iff hx, hulp, ← minExp_eq, ← not_lt (b := x),
      ← not_le (a := (2 : ℝ) ^ F.minExp)]
    cases g <;> simp [signedMode, mirror, reaches]

end

/-! ### The parts of `fpRound` -/

section

variable {F : FloatFormat} {n : Nat} {rm : RoundingMode} {neg : Bool} {m : ℕ} {e a : ℤ} {x : ℝ}

/-- The exponent of the leading bit of m * 2^e. -/
def leadingExp (m : ℕ) (e : ℤ) : ℤ := m.log2 + e

/-- The exponent of the binade that m * 2^e is rounded in. -/
def baseExp (F : FloatFormat) (m : ℕ) (e : ℤ) : ℤ := max (leadingExp m e) F.minExp

/-- The magnitude that m * 2^e is rounded to, the exponent unbounded above. -/
def roundedMag (F : FloatFormat) (rm : RoundingMode) (neg : Bool) (m : ℕ) (e : ℤ) : ℕ :=
  (baseExp F m e - F.minExp).toNat * 2 ^ F.fracBits + (atQuantum rm neg m e (baseExp F m e - F.fracBits)).1

/-- The rounding to the format was inexact. -/
def roundedInexact (F : FloatFormat) (rm : RoundingMode) (neg : Bool) (m : ℕ) (e : ℤ) : Bool :=
  (atQuantum rm neg m e (baseExp F m e - F.fracBits)).2

/-- The rounding with unbounded exponent carried into the next binade. -/
def roundingCarries (F : FloatFormat) (rm : RoundingMode) (neg : Bool) (m : ℕ) (e : ℤ) : Bool :=
  decide ((atQuantum rm neg m e (leadingExp m e - F.fracBits)).1 = 2 ^ (F.fracBits + 1))

/-- The number rounded with unbounded exponent is below the smallest normal one. -/
def roundedTiny (F : FloatFormat) (rm : RoundingMode) (neg : Bool) (m : ℕ) (e : ℤ) : Bool :=
  decide ((if roundingCarries F rm neg m e then leadingExp m e + 1 else leadingExp m e) < F.minExp)

theorem fpRound_overflow (hm : m ≠ 0) (h : F.infMag ≤ roundedMag F rm neg m e) :
    fpRound F n rm neg m e = (fpAssemble F n neg (overflowMag F rm neg), flagOF ||| flagNX) := by
  rw [fpRound, if_neg hm]
  exact if_pos h

theorem fpRound_finite (hm : m ≠ 0) (h : ¬ F.infMag ≤ roundedMag F rm neg m e) :
    fpRound F n rm neg m e = (fpAssemble F n neg (roundedMag F rm neg m e),
      if roundedInexact F rm neg m e then (if roundedTiny F rm neg m e then flagUF ||| flagNX else flagNX) else 0) := by
  rw [fpRound, if_neg hm]
  exact if_neg h

theorem atQuantum_signedMode (rm : RoundingMode) (neg : Bool) (m : ℕ) (e Q : ℤ) :
    atQuantum rm neg m e Q = atQuantum (signedMode rm neg) false m e Q := by
  cases neg with
  | false => rfl
  | true => exact atQuantum_true rm m e Q

/-- The multiple of 2^(t - p) that 2^t is. -/
theorem quanta_sub_two_pow (t : ℤ) (p : ℕ) : quanta (t - p) (2 ^ p) = 2 ^ t := by
  have hp : (t - (t - p)).toNat = p := by omega
  have h := quanta_eq_quanta (a := t - p) (b := t) (by omega) 1
  rw [hp, one_mul] at h
  rw [← h, quanta, Nat.cast_one, one_mul]

theorem two_pow_leadingExp_le (hm : m ≠ 0) (e : ℤ) : (2 : ℝ) ^ leadingExp m e ≤ m * 2 ^ e := by
  rw [leadingExp, zpow_add₀ two_ne_zero, zpow_natCast]
  exact mul_le_mul_of_nonneg_right (by exact_mod_cast Nat.log2_self_le hm) (by positivity)

theorem lt_two_pow_leadingExp (m : ℕ) (e : ℤ) : (m : ℝ) * 2 ^ e < 2 ^ (leadingExp m e + 1) := by
  have hexp : leadingExp m e + 1 = ((m.log2 + 1 : ℕ) : ℤ) + e := by
    rw [leadingExp]
    push_cast
    ring
  rw [hexp, zpow_add₀ two_ne_zero, zpow_natCast]
  exact mul_lt_mul_of_pos_right (by exact_mod_cast Nat.lt_log2_self) (by positivity)

/-- What agrees with m * 2^e has the same leading bit. -/
theorem leadingExp_bounds (hm : m ≠ 0) (hagree : agreesAt a x (m * 2 ^ e)) (ha : a ≤ leadingExp m e) :
    (2 : ℝ) ^ leadingExp m e ≤ x ∧ x < 2 ^ (leadingExp m e + 1) := by
  have hone (t : ℤ) : quanta t 1 = 2 ^ t := by rw [quanta, Nat.cast_one, one_mul]
  constructor
  · rw [← hone]
    refine (agreesAt_mono hagree ha 1).1.2 ?_
    rw [hone]
    exact two_pow_leadingExp_le hm e
  · rw [← hone, ← not_le]
    refine mt (agreesAt_mono hagree (by omega) 1).1.1 ?_
    rw [hone, not_le]
    exact lt_two_pow_leadingExp m e

/-- The magnitude answered is the end of the cell of x that the mode chooses; inexactness is reported rightly. -/
theorem roundedMag_roundsInCell (heven : 2 ^ F.fracBits % 2 = 0) (hm : m ≠ 0) (hagree : agreesAt a x (m * 2 ^ e))
    (ha : a + F.fracBits < leadingExp m e) :
    ∃ c, RoundsInCell (magnitudeValue F) (signedMode rm neg) x c (roundedMag F rm neg m e) ∧
      (roundedInexact F rm neg m e = true ↔ magnitudeValue F (roundedMag F rm neg m e) ≠ x) := by
  obtain ⟨hleast, hmost⟩ := leadingExp_bounds hm hagree (by omega)
  have hbase : leadingExp m e ≤ baseExp F m e := le_max_left ..
  have hmin : F.minExp ≤ baseExp F m e := le_max_right ..
  obtain ⟨q, hcell, hexact⟩ :=
    atQuantum_roundsInCell (signedMode rm neg) m e (baseExp F m e - F.fracBits)
  rw [← atQuantum_signedMode] at hcell hexact
  obtain ⟨hcell', heq⟩ := roundsInCell_of_agreesAt (agreesAt_mono hagree (by omega)) hcell
  have hlt : q < 2 * 2 ^ F.fracBits := by
    refine (strictMono_quanta (baseExp F m e - F.fracBits)).lt_iff_lt.1 (hcell'.lower.trans_lt (hmost.trans_le ?_))
    have htwice : baseExp F m e - F.fracBits = baseExp F m e + 1 - ((F.fracBits + 1 : ℕ) : ℤ) := by
      push_cast
      ring
    rw [← pow_succ', htwice, quanta_sub_two_pow]
    exact zpow_le_zpow_right₀ one_le_two (by omega)
  have hge : (baseExp F m e - F.minExp).toNat = 0 ∨ 2 ^ F.fracBits ≤ q := by
    refine or_iff_not_imp_left.2 fun hk => Nat.le_of_lt_succ ?_
    have htop : baseExp F m e = leadingExp m e := by
      rw [baseExp, max_eq_left]
      rw [baseExp] at hk
      omega
    refine (strictMono_quanta (baseExp F m e - F.fracBits)).lt_iff_lt.1 (lt_of_le_of_lt ?_ hcell'.upper)
    rwa [quanta_sub_two_pow, htop]
  have hquantum : F.minExp + ((baseExp F m e - F.minExp).toNat : ℤ) - F.fracBits = baseExp F m e - F.fracBits := by
    omega
  have hlow := magnitudeValue_eq hge hlt.le
  have hhigh := magnitudeValue_eq (r := q + 1) (hge.imp_right (by omega)) hlt
  rw [hquantum] at hlow hhigh
  have hmag : RoundsInCell (magnitudeValue F) (signedMode rm neg) x _ (roundedMag F rm neg m e) :=
    hcell'.congr hlow hhigh (by rw [Nat.mul_mod, heven, Nat.mul_zero, Nat.zero_mod]) rfl
  refine ⟨_, hmag, ?_⟩
  rw [Ne, hmag.eq_iff, hlow]
  exact hexact.trans (not_congr heq.symm)

/-- Tininess is reported rightly. -/
theorem roundedTiny_iff (hm : m ≠ 0) (hx : 0 < x) (hagree : agreesAt a x (m * 2 ^ e))
    (ha : a + F.fracBits < leadingExp m e) :
    roundedTiny F rm neg m e = true ↔ isTiny F rm ((-1) ^ neg.toNat * x) := by
  obtain ⟨hleast, hmost⟩ := leadingExp_bounds hm hagree (by omega)
  have hulp : (2 : ℝ) ^ (F.minExp - 1 - F.fracBits) ≤ 2 ^ (F.minExp - 1) := zpow_le_zpow_right₀ one_le_two (by omega)
  have hulp_pos : (0 : ℝ) < 2 ^ (F.minExp - 1 - F.fracBits) := by positivity
  have hdouble : (2 : ℝ) ^ F.minExp = 2 * 2 ^ (F.minExp - 1) := by
    rw [← zpow_one_add₀ two_ne_zero]
    congr 1
    ring
  rw [isTiny_iff hx, roundedTiny, decide_eq_true_iff]
  rcases lt_trichotomy (leadingExp m e) (F.minExp - 1) with hlt | heq | hgt
  · have hbelow : x ≤ 2 ^ F.minExp - 2 ^ (F.minExp - 1 - F.fracBits) := by
      have hhalf : (2 : ℝ) ^ (leadingExp m e + 1) ≤ 2 ^ (F.minExp - 1) := zpow_le_zpow_right₀ one_le_two (by omega)
      linarith
    refine iff_of_true ?_ (not_reaches_of_le hbelow (by linarith))
    split_ifs <;> omega
  · obtain ⟨q, hcell, -⟩ := atQuantum_roundsInCell (signedMode rm neg) m e (leadingExp m e - F.fracBits)
    rw [← atQuantum_signedMode] at hcell
    obtain ⟨hcell', -⟩ := roundsInCell_of_agreesAt (agreesAt_mono hagree (by omega)) hcell
    obtain ⟨t, ht⟩ : ∃ t, 2 ^ (F.fracBits + 1) = t + 1 :=
      ⟨2 ^ (F.fracBits + 1) - 1, (Nat.sub_add_cancel Nat.one_le_two_pow).symm⟩
    have heven : (t + 1) % 2 = 0 := by rw [← ht, pow_succ, Nat.mul_mod_left]
    have hquantum : leadingExp m e - F.fracBits = F.minExp - ((F.fracBits + 1 : ℕ) : ℤ) := by
      rw [heq]
      push_cast
      ring
    have hend : quanta (leadingExp m e - F.fracBits) (t + 1) = 2 ^ F.minExp := by
      rw [← ht, hquantum, quanta_sub_two_pow]
    have hstart : quanta (leadingExp m e - F.fracBits) t = 2 ^ F.minExp - 2 ^ (F.minExp - 1 - F.fracBits) := by
      rw [← hend, heq, quanta, quanta]
      push_cast
      ring
    have hq : q < t + 1 := by
      refine (strictMono_quanta (leadingExp m e - F.fracBits)).lt_iff_lt.1 (hcell'.lower.trans_lt ?_)
      rw [hend]
      rwa [heq, sub_add_cancel] at hmost
    have hcarries : roundingCarries F rm neg m e = true ↔
        t + 1 ≤ (atQuantum rm neg m e (leadingExp m e - F.fracBits)).1 := by
      have hle := hcell'.le_succ
      rw [roundingCarries, decide_eq_true_iff, ht]
      omega
    rw [← hstart, ← hend, ← hcell'.le_iff_reaches (strictMono_quanta _) heven, ← hcarries]
    split_ifs with hc
    · exact iff_of_false (by omega) (not_not.2 hc)
    · exact iff_of_true (by omega) hc
  · have habove : (2 : ℝ) ^ F.minExp ≤ x := (zpow_le_zpow_right₀ one_le_two (by omega)).trans hleast
    refine iff_of_false ?_ (not_not.2 (reaches_of_le habove (by linarith)))
    split_ifs <;> omega

end

/-! ### The result -/

section

variable {F : FloatFormat} {n : Nat} {rm : RoundingMode} {neg : Bool} {m : ℕ} {e a : ℤ} {x : ℝ}

theorem fpAssemble_infMag (hn : n = F.expBits + F.fracBits + 1) : isInfinity F (fpAssemble F n neg F.infMag) := by
  rw [isInfinity, ← fpMag_div, ← fpMag_mod, fpMag_fpAssemble hn (infMag_lt F), FloatFormat.infMag]
  exact ⟨Nat.mul_div_cancel _ (Nat.two_pow_pos _), Nat.mul_mod_left ..⟩

/-- The magnitude below infinity's has the largest finite exponent and the largest fraction. -/
theorem fpAssemble_largest (h : isFormat F n) :
    exponentField F (fpAssemble F n neg (F.infMag - 1)) = 2 ^ F.expBits - 2 ∧
      fractionField F (fpAssemble F n neg (F.infMag - 1)) = 2 ^ F.fracBits - 1 := by
  have hpos : 0 < 2 ^ F.fracBits := Nat.two_pow_pos _
  have hmag : F.infMag - 1 = 2 ^ F.fracBits - 1 + 2 ^ F.fracBits * (2 * F.bias) := by
    have hsplit : F.infMag = 2 ^ F.fracBits + 2 ^ F.fracBits * (2 * F.bias) := by
      rw [isFormat_infMag h]
      ring
    omega
  have hlt : F.infMag - 1 < 2 ^ (F.expBits + F.fracBits) := (Nat.sub_le ..).trans_lt (infMag_lt F)
  have hsmall : 2 ^ F.fracBits - 1 < 2 ^ F.fracBits := Nat.sub_lt hpos one_pos
  rw [← fpMag_div, ← fpMag_mod, fpMag_fpAssemble (isFormat_width h) hlt, hmag, Nat.add_mul_div_left _ _ hpos,
    Nat.add_mul_mod_self_left, Nat.div_eq_of_lt hsmall, Nat.mod_eq_of_lt hsmall, isFormat_two_pow_expBits h]
  exact ⟨by omega, rfl⟩

theorem signField_fpAssemble {mag : Nat} (hn : n = F.expBits + F.fracBits + 1)
    (hmag : mag < 2 ^ (F.expBits + F.fracBits)) :
    signField F (fpAssemble F n neg mag) = neg.toNat := by
  rw [signField_eq_toNat, fpSign_fpAssemble hn hmag]

/-- The sign of a nonzero number under a sign bit. -/
theorem sign_of_signed (hx : 0 < x) (g : Bool) : (if (-1) ^ g.toNat * x < 0 then 1 else 0) = g.toNat := by
  cases g <;> simp [hx, hx.le]

/-- The answer to an overflow (R456). -/
theorem isOverflowResult_overflowMag (h : isFormat F n) (hx : 0 < x) :
    isOverflowResult F rm ((-1) ^ neg.toNat * x) (fpAssemble F n neg (overflowMag F rm neg)) := by
  have hn := isFormat_width h
  have hneg := signed_neg_iff hx neg
  have hinf := infMag_lt F
  have hlarge : F.infMag - 1 < 2 ^ (F.expBits + F.fracBits) := (Nat.sub_le ..).trans_lt hinf
  refine ⟨?_, ?_⟩
  · rw [sign_of_signed hx, signField_fpAssemble hn]
    cases rm <;> cases neg <;> assumption
  · split_ifs with hdown
    · have hmag : overflowMag F rm neg = F.infMag - 1 := by
        rcases hdown with rfl | ⟨rfl, hpos⟩ | ⟨rfl, hn⟩
        · rfl
        · rw [← not_lt, hneg] at hpos
          exact if_neg hpos
        · exact if_pos (hneg.1 hn)
      rw [hmag]
      exact fpAssemble_largest h
    · have hmag : overflowMag F rm neg = F.infMag := by
        simp only [← not_lt, hneg, not_or] at hdown
        cases rm <;> cases neg <;> simp_all [overflowMag]
      rw [hmag]
      exact fpAssemble_infMag hn

/-- What `fpRound` answers for m * 2^e is right for every number that agrees with it in the bits looked at (R456). -/
theorem roundsTo_fpRound_of_agreesAt (h : isFormat F n) (hm : m ≠ 0) (hx : 0 < x) (hagree : agreesAt a x (m * 2 ^ e))
    (ha : a + F.fracBits < leadingExp m e) :
    roundsTo F rm ((-1) ^ neg.toNat * x) (fpRound F n rm neg m e) := by
  have heven := isFormat_two_pow_fracBits_even h
  have hmono := strictMono_magnitudeValue F
  obtain ⟨c, hcell, hinexact⟩ := roundedMag_roundsInCell (rm := rm) (neg := neg) heven hm hagree ha
  obtain ⟨t, ht⟩ : ∃ t, F.infMag = t + 1 := Nat.exists_eq_succ_of_ne_zero (infMag_pos h).ne'
  have hinf_even : (t + 1) % 2 = 0 := by rw [← ht, isFormat_infMag h, Nat.mul_mod, heven, Nat.mul_zero, Nat.zero_mod]
  have hoverflow : overflows F rm ((-1) ^ neg.toNat * x) ↔ F.infMag ≤ roundedMag F rm neg m e := by
    rw [overflows_iff hx, ← magnitudeValue_largest h ht, ← magnitudeValue_infMag h, ht,
      hcell.le_iff_reaches hmono hinf_even]
  refine ⟨fun hover => ?_, fun hfinite => ?_⟩
  · rw [fpRound_overflow hm (hoverflow.1 hover)]
    exact ⟨isOverflowResult_overflowMag h hx, rfl⟩
  · have hlt : roundedMag F rm neg m e < F.infMag := not_le.1 (mt hoverflow.2 hfinite)
    have hmag := fpMag_fpAssemble (neg := neg) (isFormat_width h) (hlt.trans (infMag_lt F))
    have hsign := fpSign_fpAssemble (neg := neg) (isFormat_width h) (hlt.trans (infMag_lt F))
    have hvalue : (-1) ^ neg.toNat * magnitudeValue F (roundedMag F rm neg m e) = (-1) ^ neg.toNat * x ↔
        magnitudeValue F (roundedMag F rm neg m e) = x := mul_right_inj' (by positivity)
    have htiny := roundedTiny_iff (rm := rm) (neg := neg) hm hx hagree ha
    rw [fpRound_finite hm hlt.not_ge]
    refine ⟨(-1) ^ neg.toNat * magnitudeValue F (roundedMag F rm neg m e), ?_, ?_, ?_, fun hexact => ?_,
      fun hne hsmall => ?_, fun hne hlarge => ?_⟩
    · refine hasValue_iff.2 ⟨finite_iff_fpMag_lt.2 ?_, ?_⟩
      · rwa [hmag]
      · rw [hmag, hsign]
    · have hrounded := isRounded_of_isRoundedIn (b := fpAssemble F n neg (roundedMag F rm neg m e)) (rm := rm)
        (g := neg) heven hx (by rw [hmag]; exact hcell.isRoundedIn hmono)
      rwa [hmag] at hrounded
    · rw [sign_of_signed hx, signField_fpAssemble (isFormat_width h) (hlt.trans (infMag_lt F))]
    · exact if_neg (mt hinexact.1 (not_not.2 (hvalue.1 hexact)))
    · rw [if_pos (hinexact.2 (mt hvalue.2 hne)), if_pos (htiny.2 hsmall)]
    · rw [if_pos (hinexact.2 (mt hvalue.2 hne)), if_neg (mt htiny.1 hlarge)]

/-- `fpRound` rounds the number it is given. -/
theorem roundsTo_fpRound (h : isFormat F n) (hm : m ≠ 0) :
    roundsTo F rm ((-1) ^ neg.toNat * (m * (2 : ℝ) ^ e)) (fpRound F n rm neg m e) := by
  have hpos : (0 : ℝ) < m * 2 ^ e := mul_pos (by exact_mod_cast Nat.pos_of_ne_zero hm) (by positivity)
  exact roundsTo_fpRound_of_agreesAt (a := leadingExp m e - F.fracBits - 1) h hm hpos (agreesAt_refl _ _) (by omega)

end

/-- Settles O54: m * 2^e agrees with itself. -/
theorem roundingIsCorrect : Obligations.RoundingIsCorrect := by
  intro F n m g k e h hk
  rw [mul_assoc, ite_eq_toNat]
  exact roundsTo_fpRound h hk

end Sys2Proof.Proofs
end

