-- ==== Sys2Proof/Proofs/FloatArithmetic.lean ====
section
/-! O55, O56, O58 and O59: the operations on finite numbers are exact results rounded once. Sums and products are exact
numbers m * 2^e; of a quotient and of a square root `fpRound` is given the leading bits and a sticky bit. -/

namespace Sys2Proof.Proofs

open Sys2Proof.Machine Sys2Proof.Laws

/-! ### Exact numbers -/

section

variable {F : FloatFormat} {n : Nat} {rm : RoundingMode} {g h : Bool} {m k : ℕ} {e f : ℤ} {x y : ℝ}

/-- The real number that a sign, an integer and an exponent make up. -/
noncomputable def finiteValue (g : Bool) (m : ℕ) (e : ℤ) : ℝ := (-1) ^ g.toNat * (m * (2 : ℝ) ^ e)

theorem finiteValue_eq_zero : finiteValue g m e = 0 ↔ m = 0 := by
  have he : (2 : ℝ) ^ e ≠ 0 := by positivity
  cases g <;> simp [finiteValue, he]

theorem finiteValue_not (g : Bool) (m : ℕ) (e : ℤ) : finiteValue (!g) m e = -finiteValue g m e := by
  cases g <;> simp [finiteValue]

theorem finiteValue_xor (g h : Bool) (m : ℕ) (e : ℤ) :
    finiteValue (g ^^ h) m e = if h then -finiteValue g m e else finiteValue g m e := by
  cases h with
  | false => simp
  | true => rw [Bool.xor_true, finiteValue_not, if_pos rfl]

theorem signed_mul (g h : Bool) (x y : ℝ) :
    (-1) ^ (g ^^ h).toNat * (x * y) = (-1) ^ g.toNat * x * ((-1) ^ h.toNat * y) := by
  cases g <;> cases h <;> simp

theorem finiteValue_mul (g h : Bool) (m k : ℕ) (e f : ℤ) :
    finiteValue (g ^^ h) (m * k) (e + f) = finiteValue g m e * finiteValue h k f := by
  rw [finiteValue, finiteValue, finiteValue, ← signed_mul, zpow_add₀ two_ne_zero]
  push_cast
  ring

/-- A sum of signed integers at one exponent. -/
theorem finiteValue_natAbs (z : ℤ) (e : ℤ) : finiteValue (decide (z < 0)) z.natAbs e = z * 2 ^ e := by
  have habs : ((z.natAbs : ℕ) : ℝ) = |(z : ℝ)| := by rw [Nat.cast_natAbs, Int.cast_abs]
  rw [finiteValue, habs]
  rcases lt_or_ge z 0 with hneg | hpos
  · rw [decide_eq_true hneg, abs_of_neg (by exact_mod_cast hneg)]
    simp
  · rw [decide_eq_false hpos.not_gt, abs_of_nonneg (by exact_mod_cast hpos)]
    simp

/-- A finite pattern decodes to its sign and its value. -/
theorem decode_finite {b : BitVec n} (hb : hasValue F b x) :
    ∃ m e, fpDecode F b = .finite (fpSign F b) m e ∧ x = finiteValue (fpSign F b) m e :=
  fpDecode_of_hasValue hb

/-- The result is the number rounded, or the zero of the given sign. -/
def isExactOrRounded (F : FloatFormat) (rm : RoundingMode) (sign : Nat) (x : ℝ) (r : BitVec n × FpFlags) : Prop :=
  (x ≠ 0 → roundsTo F rm x r) ∧ (x = 0 → isZeroResult F sign r)

theorem isZeroResult_fpZero (hF : isFormat F n) (g : Bool) : isZeroResult F g.toNat (fpZero F n g) := by
  have hn := isFormat_width hF
  have hzero : 0 < 2 ^ (F.expBits + F.fracBits) := Nat.two_pow_pos _
  refine ⟨?_, ?_, signField_fpAssemble hn hzero, rfl⟩
  · rw [← fpMag_div, fpZero, fpMag_fpAssemble hn hzero, Nat.zero_div]
  · rw [← fpMag_mod, fpZero, fpMag_fpAssemble hn hzero, Nat.zero_mod]

theorem fpRound_zero (F : FloatFormat) (n : Nat) (rm : RoundingMode) (g : Bool) (e : ℤ) :
    fpRound F n rm g 0 e = fpZero F n g := if_pos rfl

theorem fpRound_isExactOrRounded (hF : isFormat F n) :
    isExactOrRounded F rm g.toNat (finiteValue g m e) (fpRound F n rm g m e) := by
  refine ⟨fun hx => roundsTo_fpRound hF (mt finiteValue_eq_zero.2 hx), fun hx => ?_⟩
  rw [finiteValue_eq_zero.1 hx, fpRound_zero]
  exact isZeroResult_fpZero hF g

/-! ### Sums -/

/-- A signed integer at a smaller exponent. -/
def scaledInt (g : Bool) (m : ℕ) (e q : ℤ) : ℤ := if g then -(m * 2 ^ (e - q).toNat : ℤ) else m * 2 ^ (e - q).toNat

/-- The exact sum at the smaller of the exponents. -/
def exactSum (g : Bool) (m : ℕ) (e : ℤ) (h : Bool) (k : ℕ) (f : ℤ) : ℤ :=
  scaledInt g m e (min e f) + scaledInt h k f (min e f)

theorem finiteValue_eq_scaledInt (g : Bool) (m : ℕ) (h : f ≤ e) : finiteValue g m e = scaledInt g m e f * 2 ^ f := by
  have hsplit : (2 : ℝ) ^ e = 2 ^ (e - f).toNat * 2 ^ f := by
    rw [← zpow_natCast, Int.toNat_sub_of_le h, ← zpow_add₀ two_ne_zero, sub_add_cancel]
  rw [finiteValue, hsplit, scaledInt]
  cases g <;> simp <;> ring

theorem finiteValue_add (g h : Bool) (m k : ℕ) (e f : ℤ) :
    finiteValue g m e + finiteValue h k f = exactSum g m e h k f * 2 ^ min e f := by
  rw [finiteValue_eq_scaledInt g m (min_le_left e f), finiteValue_eq_scaledInt h k (min_le_right e f), exactSum,
    Int.cast_add, add_mul]

theorem fpSum_of_eq_zero (hzero : exactSum g m e h k f = 0) :
    fpSum F n rm g m e h k f = fpZero F n (if g = h then g else decide (rm = .rdn)) := if_pos hzero

theorem fpSum_of_ne_zero (hne : exactSum g m e h k f ≠ 0) :
    fpSum F n rm g m e h k f =
      fpRound F n rm (decide (exactSum g m e h k f < 0)) (exactSum g m e h k f).natAbs (min e f) := if_neg hne

/-- The sum of two numbers, rounded once; an exact zero takes the common sign or the mode's (R456). -/
theorem fpSum_isExactOrRounded (hF : isFormat F n) :
    isExactOrRounded F rm (if g = h then g else decide (rm = .rdn)).toNat (finiteValue g m e + finiteValue h k f)
      (fpSum F n rm g m e h k f) := by
  have hpow : (2 : ℝ) ^ min e f ≠ 0 := by positivity
  rw [finiteValue_add]
  refine ⟨fun hx => ?_, fun hx => ?_⟩
  · rw [fpSum_of_ne_zero fun hzero => hx (by rw [hzero, Int.cast_zero, zero_mul])]
    rw [← finiteValue_natAbs] at hx ⊢
    exact (fpRound_isExactOrRounded hF).1 hx
  · rw [fpSum_of_eq_zero (by exact_mod_cast (mul_eq_zero.1 hx).resolve_right hpow)]
    exact isZeroResult_fpZero hF _

/-- The sign of an exact zero sum, in sign fields. -/
theorem zeroSumSign (g h : Bool) (rm : RoundingMode) :
    (if g.toNat = h.toNat then g.toNat else if rm = .rdn then 1 else 0) =
      (if g = h then g else decide (rm = .rdn)).toNat := by
  by_cases hsign : g = h
  · rw [if_pos (by rw [hsign]), if_pos hsign]
  · rw [if_neg (mt (toNat_inj g h).1 hsign), if_neg hsign]
    by_cases hrm : rm = .rdn <;> simp [hrm]

end

section

variable {F : FloatFormat} {n : Nat} {rm : RoundingMode} {a b c : BitVec n} {x y z : ℝ}

theorem fpAdd_isExactOrRounded (hF : isFormat F n) (ha : hasValue F a x) (hb : hasValue F b y) :
    isExactOrRounded F rm (if signField F a = signField F b then signField F a else if rm = .rdn then 1 else 0) (x + y)
      (fpAdd F rm a b) := by
  obtain ⟨m, e, hda, rfl⟩ := decode_finite ha
  obtain ⟨k, f, hdb, rfl⟩ := decode_finite hb
  rw [fpAdd, hda, hdb, signField_eq_toNat, signField_eq_toNat, zeroSumSign]
  exact fpSum_isExactOrRounded hF

theorem fpSub_isExactOrRounded (hF : isFormat F n) (ha : hasValue F a x) (hb : hasValue F b y) :
    isExactOrRounded F rm (if signField F a ≠ signField F b then signField F a else if rm = .rdn then 1 else 0) (x - y)
      (fpSub F rm a b) := by
  obtain ⟨m, e, hda, rfl⟩ := decode_finite ha
  obtain ⟨k, f, hdb, rfl⟩ := decode_finite hb
  have hflip : signField F a ≠ signField F b ↔ (fpSign F a).toNat = (!fpSign F b).toNat := by
    rw [signField_eq_toNat, signField_eq_toNat, Ne, toNat_inj, toNat_inj, Bool.eq_not]
  rw [fpSub, hda, hdb]
  simp only [hflip]
  rw [signField_eq_toNat, zeroSumSign, sub_eq_add_neg, ← finiteValue_not]
  exact fpSum_isExactOrRounded hF

theorem signField_add_mod (a b : BitVec n) :
    (signField F a + signField F b) % 2 = (fpSign F a ^^ fpSign F b).toNat := by
  rw [xor_toNat, signField_eq_toNat, signField_eq_toNat]

theorem fpMul_isExactOrRounded (hF : isFormat F n) (ha : hasValue F a x) (hb : hasValue F b y) :
    isExactOrRounded F rm ((signField F a + signField F b) % 2) (x * y) (fpMul F rm a b) := by
  obtain ⟨m, e, hda, rfl⟩ := decode_finite ha
  obtain ⟨k, f, hdb, rfl⟩ := decode_finite hb
  rw [fpMul, hda, hdb, signField_add_mod, ← finiteValue_mul]
  exact fpRound_isExactOrRounded hF

/-! ### Fused multiply-add -/

theorem negate_ite (g na : Bool) (m : ℕ) (e : ℤ) :
    (if na then (FpValue.finite g m e).negate else .finite g m e) = .finite (g ^^ na) m e := by
  cases na <;> simp [FpValue.negate]

/-- The sign of a product, negated or not. -/
theorem productSign_eq (a b : BitVec n) (np : Bool) :
    (signField F a + signField F b + if np then 1 else 0) % 2 = (fpSign F a ^^ fpSign F b ^^ np).toNat := by
  rw [signField_eq_toNat, signField_eq_toNat, ite_eq_toNat, xor_toNat, xor_toNat]
  omega

/-- The sign of an addend, negated or not. -/
theorem addendSign_eq (c : BitVec n) (na : Bool) :
    (signField F c + if na then 1 else 0) % 2 = (fpSign F c ^^ na).toNat := by
  rw [signField_eq_toNat, ite_eq_toNat, xor_toNat]

theorem fpFma_isExactOrRounded (hF : isFormat F n) (np na : Bool) (ha : hasValue F a x) (hb : hasValue F b y)
    (hc : hasValue F c z) :
    isExactOrRounded F rm
      (if (fpSign F a ^^ fpSign F b ^^ np) = (fpSign F c ^^ na) then (fpSign F a ^^ fpSign F b ^^ np)
        else decide (rm = .rdn)).toNat
      ((if np then -(x * y) else x * y) + (if na then -z else z)) (fpFma F rm np na a b c) := by
  obtain ⟨m, e, hda, rfl⟩ := decode_finite ha
  obtain ⟨k, f, hdb, rfl⟩ := decode_finite hb
  obtain ⟨l, i, hdc, rfl⟩ := decode_finite hc
  rw [fpFma, hda, hdb, hdc, negate_ite, ← finiteValue_mul, ← finiteValue_xor, ← finiteValue_xor]
  exact fpSum_isExactOrRounded hF

end

/-- Settles O55: sums and products of finite numbers are exact before they are rounded. -/
theorem sumsAndProductsAreRoundedOnce : Obligations.SumsAndProductsAreRoundedOnce := by
  intro F n m a b x y hF ha hb minusZero
  obtain ⟨hadd, hadd0⟩ := fpAdd_isExactOrRounded (rm := m) hF ha hb
  obtain ⟨hsub, hsub0⟩ := fpSub_isExactOrRounded (rm := m) hF ha hb
  obtain ⟨hmul, hmul0⟩ := fpMul_isExactOrRounded (rm := m) hF ha hb
  exact ⟨hadd, hadd0, hsub, hsub0, hmul, hmul0⟩

/-- Settles O56: a fused form is the sum of an exact product and the addend. -/
theorem fusedMultiplyAddRoundsOnce : Obligations.FusedMultiplyAddRoundsOnce := by
  intro F n m np na a b c x y z hF ha hb hc exact productSign addendSign
  have hsign : (if productSign = addendSign then productSign else if m = .rdn then 1 else 0) =
      (if (fpSign F a ^^ fpSign F b ^^ np) = (fpSign F c ^^ na) then (fpSign F a ^^ fpSign F b ^^ np)
        else decide (m = .rdn)).toNat := by
    rw [← zeroSumSign, ← productSign_eq, ← addendSign_eq]
  rw [hsign]
  exact fpFma_isExactOrRounded hF np na ha hb hc

end Sys2Proof.Proofs
end

