-- ==== Sys2Proof/Proofs/FloatQuotients.lean ====
section
/-! O58 and O59: quotients and square roots. `fpRound` is given the integer part, with at least three bits more than the
format holds, and a last bit that is set just when something was cut off. -/

namespace Sys2Proof.Proofs

open Sys2Proof.Machine Sys2Proof.Laws

/-! ### A sticky last bit -/

section

variable {F : FloatFormat} {n : Nat} {rm : RoundingMode} {g : Bool} {a : ℤ} {q s : ℕ} {x y : ℝ}

/-- Two numbers inside one cell of multiples of 2^a agree. -/
theorem agreesAt_of_cell (hx : quanta a q < x) (hx' : x < quanta a (q + 1)) (hy : quanta a q < y)
    (hy' : y < quanta a (q + 1)) : agreesAt a x y := by
  intro j
  have hmono := (strictMono_quanta a).monotone
  rcases Nat.lt_or_ge q j with hlt | hge
  · have hj : quanta a (q + 1) ≤ quanta a j := hmono hlt
    exact ⟨iff_of_false (by linarith) (by linarith), iff_of_true (by linarith) (by linarith)⟩
  · have hj : quanta a j ≤ quanta a q := hmono hge
    exact ⟨iff_of_true (by linarith) (by linarith), iff_of_false (by linarith) (by linarith)⟩

/-- x has the integer part q in multiples of 2^a, and s is 0 or 1 as that is all of x or not. -/
def isSticky (a : ℤ) (q s : ℕ) (x : ℝ) : Prop :=
  (s = 0 ∧ x = quanta a q) ∨ (s = 1 ∧ quanta a q < x ∧ x < quanta a (q + 1))

theorem agreesAt_of_isSticky (h : isSticky a q s x) : agreesAt a x ((2 * q + s : ℕ) * 2 ^ (a - 1)) := by
  have hhalf : (2 : ℝ) ^ a = 2 * 2 ^ (a - 1) := by
    rw [← zpow_one_add₀ two_ne_zero]
    congr 1
    ring
  obtain ⟨rfl, rfl⟩ | ⟨rfl, hlower, hupper⟩ := h
  · have hexact : ((2 * q + 0 : ℕ) : ℝ) * 2 ^ (a - 1) = quanta a q := by
      rw [quanta, hhalf]
      push_cast
      ring
    rw [hexact]
    exact agreesAt_refl a _
  · have hpos : (0 : ℝ) < 2 ^ (a - 1) := by positivity
    refine agreesAt_of_cell hlower hupper ?_ ?_
    all_goals
      rw [quanta, hhalf]
      push_cast
      linarith

/-- An integer part of enough bits, with its sticky bit, is rounded as the number it was cut from. -/
theorem roundsTo_fpRound_of_isSticky (hF : isFormat F n) (hq : 2 ^ (F.fracBits + 3) ≤ q) (h : isSticky a q s x) :
    roundsTo F rm ((-1) ^ g.toNat * x) (fpRound F n rm g (2 * q + s) (a - 1)) := by
  have hqpos : 0 < q := (Nat.two_pow_pos _).trans_le hq
  have hpos : 0 < quanta a q := mul_pos (by exact_mod_cast hqpos) (by positivity)
  have hx : 0 < x := by
    obtain ⟨-, rfl⟩ | ⟨-, hlower, -⟩ := h
    · exact hpos
    · exact hpos.trans hlower
  have hne : 2 * q + s ≠ 0 := by omega
  have hlog : F.fracBits + 4 ≤ (2 * q + s).log2 := by
    rw [Nat.le_log2 hne, pow_succ]
    omega
  refine roundsTo_fpRound_of_agreesAt hF hne hx (agreesAt_of_isSticky h) ?_
  rw [leadingExp]
  omega

end

/-! ### Quotients -/

section

variable {F : FloatFormat} {n : Nat} {rm : RoundingMode} {g h : Bool} {m k : ℕ} {e f : ℤ}

/-- The integer part of a quotient of integers, and whether there is a remainder. -/
theorem isSticky_div (a : ℤ) (N : ℕ) (hk : k ≠ 0) :
    isSticky a (N / k) (if N % k = 0 then 0 else 1) (N / k * 2 ^ a) := by
  have hkpos : (0 : ℝ) < k := by exact_mod_cast Nat.pos_of_ne_zero hk
  have hpos : (0 : ℝ) < 2 ^ a := by positivity
  have hsplit : (N : ℝ) / k = (N / k : ℕ) + (N % k : ℕ) / k := by
    have hdiv : (N : ℝ) = k * (N / k : ℕ) + (N % k : ℕ) := by exact_mod_cast (Nat.div_add_mod N k).symm
    rw [eq_comm, add_div' _ _ _ hkpos.ne', mul_comm, ← hdiv]
  rw [hsplit]
  split_ifs with hrem
  · refine .inl ⟨rfl, ?_⟩
    rw [hrem, Nat.cast_zero, zero_div, add_zero, quanta]
  · have hrem_pos : (0 : ℝ) < (N % k : ℕ) / k := div_pos (by exact_mod_cast Nat.pos_of_ne_zero hrem) hkpos
    have hrem_lt : ((N % k : ℕ) : ℝ) / k < 1 := by
      rw [div_lt_one hkpos]
      exact_mod_cast Nat.mod_lt N (Nat.pos_of_ne_zero hk)
    refine .inr ⟨rfl, mul_lt_mul_of_pos_right (by linarith) hpos, mul_lt_mul_of_pos_right ?_ hpos⟩
    push_cast
    linarith

/-- The shift of the dividend leaves enough bits in the quotient. -/
theorem two_pow_le_quotient (p : ℕ) (hm : m ≠ 0) (hk : k ≠ 0) : 2 ^ (p + 3) ≤ m * 2 ^ (p + 3 + k.log2 + 1) / k := by
  rw [Nat.le_div_iff_mul_le (Nat.pos_of_ne_zero hk)]
  calc 2 ^ (p + 3) * k ≤ 2 ^ (p + 3) * 2 ^ (k.log2 + 1) := Nat.mul_le_mul_left _ Nat.lt_log2_self.le
    _ = 2 ^ (p + 3 + k.log2 + 1) := by rw [← pow_add, ← Nat.add_assoc]
    _ ≤ m * 2 ^ (p + 3 + k.log2 + 1) := Nat.le_mul_of_pos_left _ (Nat.pos_of_ne_zero hm)

theorem fpRound_fpQuotient (hF : isFormat F n) (hm : m ≠ 0) (hk : k ≠ 0) :
    roundsTo F rm (finiteValue g m e / finiteValue h k f)
      (fpRound F n rm (g ^^ h) (fpQuotient F m e k f).1 (fpQuotient F m e k f).2) := by
  have hvalue : finiteValue g m e / finiteValue h k f =
      (-1) ^ (g ^^ h).toNat * (((m * 2 ^ (F.fracBits + 3 + k.log2 + 1) : ℕ) : ℝ) / k *
        2 ^ (e - f - ((F.fracBits + 3 + k.log2 + 1 : ℕ) : ℤ))) := by
    have hinv : ((-1 : ℝ) ^ h.toNat)⁻¹ = (-1) ^ h.toNat := by cases h <;> simp
    have hkne : (k : ℝ) ≠ 0 := by exact_mod_cast hk
    rw [finiteValue, finiteValue, ← one_mul (k : ℝ), mul_div_mul_comm, div_eq_mul_inv _ ((-1 : ℝ) ^ h.toNat), hinv]
    have hsign : (-1 : ℝ) ^ (g ^^ h).toNat = (-1) ^ g.toNat * (-1) ^ h.toNat := by cases g <;> cases h <;> simp
    rw [hsign, one_mul, two_zpow_sub_natCast, zpow_sub₀ two_ne_zero]
    push_cast
    field_simp
  rw [hvalue]
  exact roundsTo_fpRound_of_isSticky hF (two_pow_le_quotient F.fracBits hm hk) (isSticky_div _ _ hk)

end

/-! ### Square roots -/

section

variable {F : FloatFormat} {n : Nat} {rm : RoundingMode} {m r k : ℕ} {e : ℤ}

/-- The loop keeps the partial root below the root and ends less than one below it. -/
theorem sqrtLoop_spec (hlow : r * r ≤ m) (hhigh : m < (r + 2 ^ k) * (r + 2 ^ k)) :
    sqrtLoop m k r * sqrtLoop m k r ≤ m ∧ m < (sqrtLoop m k r + 1) * (sqrtLoop m k r + 1) := by
  induction k generalizing r with
  | zero => exact ⟨hlow, hhigh⟩
  | succ k ih =>
    rw [sqrtLoop]
    split
    case isTrue hle =>
      refine ih hle ?_
      have hdouble : r + 2 ^ k + 2 ^ k = r + 2 ^ (k + 1) := by
        rw [pow_succ]
        omega
      rwa [hdouble]
    case isFalse hgt => exact ih hlow (not_le.1 hgt)

theorem natSqrt_spec (m : ℕ) : natSqrt m * natSqrt m ≤ m ∧ m < (natSqrt m + 1) * (natSqrt m + 1) := by
  refine sqrtLoop_spec (Nat.zero_le m) ?_
  rw [Nat.zero_add, ← pow_add]
  exact Nat.lt_log2_self.trans_le (Nat.pow_le_pow_right two_pos (by omega))

/-- The integer part of a square root, and whether it is the root. -/
theorem isSticky_natSqrt (a : ℤ) (N : ℕ) :
    isSticky a (natSqrt N) (if natSqrt N * natSqrt N = N then 0 else 1) (Real.sqrt N * 2 ^ a) := by
  have hpos : (0 : ℝ) < 2 ^ a := by positivity
  obtain ⟨hlow, hhigh⟩ := natSqrt_spec N
  split_ifs with hsquare
  · refine .inl ⟨rfl, ?_⟩
    have hroot : Real.sqrt N = natSqrt N := by
      rw [Real.sqrt_eq_iff_mul_self_eq (by positivity) (by positivity)]
      exact_mod_cast hsquare.symm
    rw [hroot, quanta]
  · refine .inr ⟨rfl, mul_lt_mul_of_pos_right ?_ hpos, mul_lt_mul_of_pos_right ?_ hpos⟩
    · rw [Real.lt_sqrt (by positivity), sq]
      exact_mod_cast lt_of_le_of_ne hlow hsquare
    · rw [Real.sqrt_lt' (by positivity), sq]
      exact_mod_cast hhigh

/-- The shift of the radicand leaves enough bits in the root. -/
theorem two_pow_le_root (p : ℕ) (hm : m ≠ 0) (t : ℕ) : 2 ^ (p + 3) ≤ natSqrt (m * 2 ^ (2 * (p + 3) + t)) := by
  obtain ⟨-, hhigh⟩ := natSqrt_spec (m * 2 ^ (2 * (p + 3) + t))
  refine Nat.le_of_lt_succ (Nat.mul_self_lt_mul_self_iff.1 (lt_of_le_of_lt ?_ hhigh))
  calc 2 ^ (p + 3) * 2 ^ (p + 3) = 2 ^ (2 * (p + 3)) := by rw [← pow_add, two_mul]
    _ ≤ 2 ^ (2 * (p + 3) + t) := Nat.pow_le_pow_right two_pos (Nat.le_add_right _ _)
    _ ≤ m * 2 ^ (2 * (p + 3) + t) := Nat.le_mul_of_pos_left _ (Nat.pos_of_ne_zero hm)

theorem fpRound_fpRoot (hF : isFormat F n) (hm : m ≠ 0) :
    roundsTo F rm (Real.sqrt (m * 2 ^ e)) (fpRound F n rm false (fpRoot F m e).1 (fpRoot F m e).2) := by
  have hvalue : Real.sqrt (m * 2 ^ e) = (-1) ^ false.toNat *
      (Real.sqrt (m * 2 ^ (2 * (F.fracBits + 3) + (e % 2).toNat) : ℕ) *
        2 ^ ((e - ((2 * (F.fracBits + 3) + (e % 2).toNat : ℕ) : ℤ)) / 2)) := by
    obtain ⟨t, ht⟩ : ∃ t, e - ((2 * (F.fracBits + 3) + (e % 2).toNat : ℕ) : ℤ) = 2 * t :=
      ⟨(e - ((2 * (F.fracBits + 3) + (e % 2).toNat : ℕ) : ℤ)) / 2, by omega⟩
    have hexp : e = ((2 * (F.fracBits + 3) + (e % 2).toNat : ℕ) : ℤ) + (t + t) := by omega
    have hpow : (0 : ℝ) < 2 ^ t := by positivity
    rw [ht, Int.mul_ediv_cancel_left t two_ne_zero, Bool.toNat_false, pow_zero, one_mul]
    conv_lhs => rw [hexp, zpow_add₀ two_ne_zero, zpow_natCast, zpow_add₀ two_ne_zero, ← mul_assoc]
    rw [Real.sqrt_mul (by positivity), Real.sqrt_mul_self hpow.le]
    push_cast
    rfl
  rw [hvalue]
  exact roundsTo_fpRound_of_isSticky hF (two_pow_le_root F.fracBits hm _) (isSticky_natSqrt _ _)

end

/-! ### The obligations -/

/-- Settles O58: a quotient of integers with its sticky bit is rounded as the real quotient. -/
theorem quotientsAreRoundedOnce : Obligations.QuotientsAreRoundedOnce := by
  intro F n rm a b x y hF ha hb sign
  obtain ⟨m, e, hda, rfl⟩ := decode_finite ha
  obtain ⟨k, f, hdb, rfl⟩ := decode_finite hb
  have hsign : sign = (fpSign F a ^^ fpSign F b).toNat := signField_add_mod a b
  rw [fpDiv, hda, hdb, hsign]
  refine ⟨fun hx hy => ?_, fun hx hy => ?_, fun hx hy => ?_, fun hx hy => ?_⟩
  all_goals simp only [ne_eq, finiteValue_eq_zero] at hx hy
  · simp only [if_neg hx, if_neg hy]
    exact fpRound_fpQuotient hF hx hy
  · simp only [if_pos hx, if_neg hy]
    exact isZeroResult_fpZero hF _
  · simp only [if_neg hx, if_pos hy]
    exact ⟨fpAssemble_infMag (isFormat_width hF), signField_fpAssemble (isFormat_width hF) (infMag_lt F), trivial⟩
  · simp only [if_pos hx, if_pos hy]
    rfl

theorem finiteValue_pos_iff {g : Bool} {m : ℕ} {e : ℤ} : 0 < finiteValue g m e ↔ g = false ∧ m ≠ 0 := by
  have he : (0 : ℝ) < 2 ^ e := by positivity
  cases g <;> simp [finiteValue, he, Nat.pos_iff_ne_zero]

theorem finiteValue_neg_iff {g : Bool} {m : ℕ} {e : ℤ} : finiteValue g m e < 0 ↔ g = true ∧ m ≠ 0 := by
  have hflip := finiteValue_pos_iff (g := !g) (m := m) (e := e)
  rw [finiteValue_not, neg_pos] at hflip
  simpa using hflip

/-- Settles O59: an integer root with its sticky bit is rounded as the real root. -/
theorem squareRootsAreRoundedOnce : Obligations.SquareRootsAreRoundedOnce := by
  intro F n rm a x hF ha
  obtain ⟨m, e, hda, rfl⟩ := decode_finite ha
  rw [fpSqrt, hda, signField_eq_toNat]
  refine ⟨fun hx => ?_, fun hx => ?_, fun hx => ?_⟩
  · obtain ⟨hsign, hm⟩ := finiteValue_pos_iff.1 hx
    have hvalue : finiteValue false m e = m * 2 ^ e := by rw [finiteValue, Bool.toNat_false, pow_zero, one_mul]
    simp only [if_neg hm, hsign, Bool.false_eq_true, if_false, hvalue]
    exact fpRound_fpRoot hF hm
  · simp only [if_pos (finiteValue_eq_zero.1 hx)]
    exact isZeroResult_fpZero hF _
  · obtain ⟨hsign, hm⟩ := finiteValue_neg_iff.1 hx
    simp only [if_neg hm, hsign, if_true]
    rfl

end Sys2Proof.Proofs
end

