-- ==== Sys2Proof/Proofs/FloatSpecialValues.lean ====
section
/-! O57 and O60: NaNs and infinities in the arithmetic operations (R454, R456). Each operation is said once for each
kind of operand, as the result that the decoder's answers select. -/

namespace Sys2Proof.Proofs

open Sys2Proof.Machine Sys2Proof.Laws

/-! ### NaN results -/

section

variable {F : FloatFormat} {n : Nat} {u v : FpValue} {vs : List FpValue}

theorem signalingFlag_cons_of_ne (h : v ≠ .nan true) : signalingFlag (v :: vs) = signalingFlag vs := by
  cases v with
  | nan q =>
    cases q with
    | false => rfl
    | true => exact absurd rfl h
  | inf | finite => rfl

/-- A signaling NaN among the operands raises NV. -/
theorem signalingFlag_of_mem (h : .nan true ∈ vs) : signalingFlag vs = flagNV := by
  induction vs with
  | nil => cases h
  | cons v vs ih =>
    by_cases hv : v = .nan true
    · rw [hv]
      rfl
    · rw [signalingFlag_cons_of_ne hv]
      exact ih ((List.mem_cons.1 h).resolve_left fun heq => hv heq.symm)

/-- Without one there is no flag. -/
theorem signalingFlag_of_not_mem (h : .nan true ∉ vs) : signalingFlag vs = 0 := by
  induction vs with
  | nil => rfl
  | cons v vs ih =>
    obtain ⟨hv, hvs⟩ := not_or.1 (mt List.mem_cons.2 h)
    rw [signalingFlag_cons_of_ne fun heq => hv heq.symm]
    exact ih hvs

theorem fpNaN_of_mem (h : .nan true ∈ vs) : fpNaN F n vs = (fpCanonicalNaN F n, flagNV) := by
  rw [fpNaN, signalingFlag_of_mem h]

theorem fpNaN_of_not_mem (h : .nan true ∉ vs) : fpNaN F n vs = (fpCanonicalNaN F n, 0) := by
  rw [fpNaN, signalingFlag_of_not_mem h]

theorem negate_eq_nan_iff {q : Bool} : v.negate = .nan q ↔ v = .nan q := by cases v <;> simp [FpValue.negate]

theorem fpAddValues_nan (rm : RoundingMode) (h : (∃ q, u = .nan q) ∨ ∃ q, v = .nan q) :
    fpAddValues F n rm u v = fpNaN F n [u, v] := by
  obtain ⟨q, rfl⟩ | ⟨q, rfl⟩ := h
  · rfl
  · cases u <;> rfl

end

section

variable {F : FloatFormat} {n : Nat} {rm : RoundingMode} {a b c : BitVec n} {x y z : ℝ}

theorem not_isNan_of_isInfinity (h : isInfinity F a) : ¬ isNan F a := fun hnan => hnan.2 h.2

theorem not_isNan_of_hasValue (h : hasValue F a x) : ¬ isNan F a := fun hnan => h.1 hnan.1

theorem fpMul_nan (h : isNan F a ∨ isNan F b) : fpMul F rm a b = fpNaN F n [fpDecode F a, fpDecode F b] := by
  rw [fpMul]
  obtain h | h := h
  · rw [fpDecode_of_isNan h]
  · rw [fpDecode_of_isNan h]
    cases fpDecode F a <;> rfl

theorem fpDiv_nan (h : isNan F a ∨ isNan F b) : fpDiv F rm a b = fpNaN F n [fpDecode F a, fpDecode F b] := by
  rw [fpDiv]
  obtain h | h := h
  · rw [fpDecode_of_isNan h]
  · rw [fpDecode_of_isNan h]
    cases fpDecode F a <;> rfl

theorem nan_or_nan (h : isNan F a ∨ isNan F b) : (∃ q, fpDecode F a = .nan q) ∨ ∃ q, fpDecode F b = .nan q :=
  h.imp fpDecode_eq_nan_iff.2 fpDecode_eq_nan_iff.2

/-- With a NaN operand, every binary operation answers the NaN result. -/
theorem binary_nan (h : isNan F a ∨ isNan F b) {r : BitVec n × FpFlags}
    (hr : ∀ vs, (.nan true ∈ vs ↔ isSignaling F a ∨ isSignaling F b) → fpNaN F n vs = r) :
    fpAdd F rm a b = r ∧ fpSub F rm a b = r ∧ fpMul F rm a b = r ∧ fpDiv F rm a b = r := by
  have hmem : .nan true ∈ [fpDecode F a, fpDecode F b] ↔ isSignaling F a ∨ isSignaling F b := by
    simp [← fpDecode_eq_signaling_iff, eq_comm]
  have hmem' : .nan true ∈ [fpDecode F a, (fpDecode F b).negate] ↔ isSignaling F a ∨ isSignaling F b := by
    simp [← fpDecode_eq_signaling_iff, ← negate_eq_nan_iff (v := fpDecode F b), eq_comm]
  rw [fpAdd, fpAddValues_nan rm (nan_or_nan h), fpMul_nan h, fpDiv_nan h, fpSub, fpAddValues_nan rm
    ((nan_or_nan h).imp_right fun ⟨q, hq⟩ => ⟨q, negate_eq_nan_iff.2 hq⟩)]
  exact ⟨hr _ hmem, hr _ hmem', hr _ hmem, hr _ hmem⟩

/-! ### Infinite results -/

/-- An infinity of the given sign, without a flag. -/
def isInfiniteResult (F : FloatFormat) (sign : Nat) (r : BitVec n × FpFlags) : Prop :=
  isInfinity F r.1 ∧ signField F r.1 = sign ∧ r.2 = 0

theorem fpInfinity_isInfiniteResult (hF : isFormat F n) (g : Bool) : isInfiniteResult F g.toNat (fpInfinity F n g) :=
  ⟨fpAssemble_infMag (isFormat_width hF), signField_fpAssemble (isFormat_width hF) (infMag_lt F), rfl⟩

/-- A pattern of value zero has the integer zero. -/
theorem eq_zero_iff_of_decode {g : Bool} {m : ℕ} {e : ℤ} (h : fpDecode F a = .finite g m e) (ha : hasValue F a x) :
    m = 0 ↔ x = 0 := by
  obtain ⟨m', e', hda, rfl⟩ := decode_finite ha
  rw [h] at hda
  cases hda
  exact finiteValue_eq_zero.symm

/-- Two infinities. -/
theorem binary_inf_inf (hF : isFormat F n) (ha : isInfinity F a) (hb : isInfinity F b) :
    (if signField F a = signField F b then isInfiniteResult F (signField F a) (fpAdd F rm a b)
      else fpAdd F rm a b = fpInvalid F n) ∧
    (if signField F a = signField F b then fpSub F rm a b = fpInvalid F n
      else isInfiniteResult F (signField F a) (fpSub F rm a b)) ∧
    isInfiniteResult F ((signField F a + signField F b) % 2) (fpMul F rm a b) ∧ fpDiv F rm a b = fpInvalid F n := by
  rw [signField_add_mod, fpAdd, fpSub, fpMul, fpDiv, fpDecode_of_isInfinity ha, fpDecode_of_isInfinity hb]
  simp only [signField_eq_toNat, toNat_inj]
  refine ⟨?_, ?_, fpInfinity_isInfiniteResult hF _, trivial⟩
  · split_ifs with hsign
    · simp only [fpAddValues, if_pos hsign]
      exact fpInfinity_isInfiniteResult hF _
    · simp only [fpAddValues, if_neg hsign]
  · split_ifs with hsign
    · simp only [fpAddValues, FpValue.negate, hsign, Bool.eq_not_self, if_false]
    · simp only [fpAddValues, FpValue.negate, if_pos (Bool.eq_not.2 hsign)]
      exact fpInfinity_isInfiniteResult hF _

/-- An infinity and a finite number. -/
theorem binary_inf_finite (hF : isFormat F n) (ha : isInfinity F a) (hb : hasValue F b y) :
    isInfiniteResult F (signField F a) (fpAdd F rm a b) ∧ isInfiniteResult F (signField F a) (fpSub F rm a b) ∧
    isInfiniteResult F ((signField F a + signField F b) % 2) (fpDiv F rm a b) ∧
    (y = 0 → fpMul F rm a b = fpInvalid F n) ∧
    (y ≠ 0 → isInfiniteResult F ((signField F a + signField F b) % 2) (fpMul F rm a b)) := by
  obtain ⟨k, f, hdb, rfl⟩ := decode_finite hb
  rw [signField_add_mod, signField_eq_toNat, fpAdd, fpSub, fpMul, fpDiv, fpDecode_of_isInfinity ha, hdb, Ne,
    finiteValue_eq_zero]
  refine ⟨fpInfinity_isInfiniteResult hF _, fpInfinity_isInfiniteResult hF _, fpInfinity_isInfiniteResult hF _,
    fun hk => if_pos hk, fun hk => ?_⟩
  simp only [if_neg hk]
  exact fpInfinity_isInfiniteResult hF _

/-- A finite number and an infinity. -/
theorem binary_finite_inf (hF : isFormat F n) (ha : hasValue F a x) (hb : isInfinity F b) :
    isInfiniteResult F (signField F b) (fpAdd F rm a b) ∧ isInfiniteResult F (1 - signField F b) (fpSub F rm a b) ∧
    isZeroResult F ((signField F a + signField F b) % 2) (fpDiv F rm a b) ∧
    (x = 0 → fpMul F rm a b = fpInvalid F n) ∧
    (x ≠ 0 → isInfiniteResult F ((signField F a + signField F b) % 2) (fpMul F rm a b)) := by
  obtain ⟨m, e, hda, rfl⟩ := decode_finite ha
  rw [signField_add_mod, signField_eq_toNat, ← not_toNat, fpAdd, fpSub, fpMul, fpDiv, fpDecode_of_isInfinity hb, hda,
    Ne, finiteValue_eq_zero]
  refine ⟨fpInfinity_isInfiniteResult hF _, fpInfinity_isInfiniteResult hF _, isZeroResult_fpZero hF _,
    fun hm => if_pos hm, fun hm => ?_⟩
  simp only [if_neg hm]
  exact fpInfinity_isInfiniteResult hF _

/-! ### The fused forms -/

/-- The addend of a fused form, negated or not. -/
def addendValue (F : FloatFormat) (na : Bool) (c : BitVec n) : FpValue :=
  if na then (fpDecode F c).negate else fpDecode F c

theorem addendValue_eq_nan_iff {na q : Bool} : addendValue F na c = .nan q ↔ fpDecode F c = .nan q := by
  cases na with
  | false => exact Iff.rfl
  | true => exact negate_eq_nan_iff

theorem addendValue_of_isInfinity (na : Bool) (h : isInfinity F c) : addendValue F na c = .inf (fpSign F c ^^ na) := by
  rw [addendValue, fpDecode_of_isInfinity h]
  cases na <;> simp [FpValue.negate]

theorem addendValue_of_hasValue (na : Bool) (h : hasValue F c z) :
    ∃ m e, addendValue F na c = .finite (fpSign F c ^^ na) m e := by
  obtain ⟨m, e, hdc, -⟩ := decode_finite h
  exact ⟨m, e, by rw [addendValue, hdc, negate_ite]⟩

/-- Zero times an infinity. -/
def zeroTimesInfinity (F : FloatFormat) (a b : BitVec n) : Prop :=
  (isInfinity F a ∧ hasValue F b 0) ∨ (hasValue F a 0 ∧ isInfinity F b)

/-- An infinity times anything but zero and a NaN. -/
def infiniteProduct (F : FloatFormat) (a b : BitVec n) : Prop :=
  (isInfinity F a ∧ ¬ isNan F b ∧ ¬ hasValue F b 0) ∨ (isInfinity F b ∧ ¬ isNan F a ∧ ¬ hasValue F a 0)

variable {np na : Bool}

theorem fpFma_nan_factor (h : isNan F a ∨ isNan F b) :
    fpFma F rm np na a b c = fpNaN F n [fpDecode F a, fpDecode F b, addendValue F na c] := by
  rw [fpFma]
  obtain h | h := h
  · rw [fpDecode_of_isNan h]
    rfl
  · rw [fpDecode_of_isNan h]
    cases fpDecode F a <;> rfl

theorem fpFma_zeroTimesInfinity (h : zeroTimesInfinity F a b) : fpFma F rm np na a b c = fpInvalid F n := by
  rw [fpFma]
  obtain ⟨hinf, hzero⟩ | ⟨hzero, hinf⟩ := h
  all_goals
    obtain ⟨m, e, hdecode, -⟩ := decode_finite hzero
    rw [fpDecode_of_isInfinity hinf, hdecode]
    exact if_pos ((eq_zero_iff_of_decode hdecode hzero).2 rfl)

theorem fpFma_infiniteProduct (h : infiniteProduct F a b) :
    fpFma F rm np na a b c =
      fpAddValues F n rm (.inf (fpSign F a ^^ fpSign F b ^^ np)) (addendValue F na c) := by
  rw [fpFma]
  obtain ⟨hinf, hnan, hzero⟩ | ⟨hinf, hnan, hzero⟩ := h
  · obtain hb | ⟨y, hb⟩ := (nan_or_infinity_or_value F b).resolve_left hnan
    · rw [fpDecode_of_isInfinity hinf, fpDecode_of_isInfinity hb]
      rfl
    · obtain ⟨m, e, hdecode, -⟩ := decode_finite hb
      rw [fpDecode_of_isInfinity hinf, hdecode]
      exact if_neg fun hm => hzero ((eq_zero_iff_of_decode hdecode hb).1 hm ▸ hb)
  · obtain ha | ⟨x, ha⟩ := (nan_or_infinity_or_value F a).resolve_left hnan
    · rw [fpDecode_of_isInfinity hinf, fpDecode_of_isInfinity ha]
      rfl
    · obtain ⟨m, e, hdecode, -⟩ := decode_finite ha
      rw [fpDecode_of_isInfinity hinf, hdecode]
      exact if_neg fun hm => hzero ((eq_zero_iff_of_decode hdecode ha).1 hm ▸ ha)

theorem fpFma_finite_product (ha : hasValue F a x) (hb : hasValue F b y) :
    ∃ m e, fpFma F rm np na a b c =
      fpAddValues F n rm (.finite (fpSign F a ^^ fpSign F b ^^ np) m e) (addendValue F na c) := by
  obtain ⟨m, e, hda, -⟩ := decode_finite ha
  obtain ⟨k, f, hdb, -⟩ := decode_finite hb
  exact ⟨m * k, e + f, by rw [fpFma, hda, hdb]; rfl⟩

/-- A product that is not invalid and has no NaN factor is added as an infinity or a number. -/
theorem fpFma_eq_fpAddValues (ha : ¬ isNan F a) (hb : ¬ isNan F b) (hzero : ¬ zeroTimesInfinity F a b) :
    ∃ v, v ≠ .nan true ∧ fpFma F rm np na a b c = fpAddValues F n rm v (addendValue F na c) := by
  have hinfinite (h : infiniteProduct F a b) :
      ∃ v, v ≠ .nan true ∧ fpFma F rm np na a b c = fpAddValues F n rm v (addendValue F na c) :=
    ⟨.inf (fpSign F a ^^ fpSign F b ^^ np), nofun, fpFma_infiniteProduct h⟩
  rcases (nan_or_infinity_or_value F a).resolve_left ha with hinf | ⟨x, hx⟩
  · exact hinfinite (.inl ⟨hinf, hb, fun hy => hzero (.inl ⟨hinf, hy⟩)⟩)
  rcases (nan_or_infinity_or_value F b).resolve_left hb with hinf | ⟨y, hy⟩
  · exact hinfinite (.inr ⟨hinf, ha, fun hx => hzero (.inr ⟨hx, hinf⟩)⟩)
  obtain ⟨m, e, hfma⟩ := fpFma_finite_product (rm := rm) (np := np) (na := na) (c := c) hx hy
  exact ⟨.finite (fpSign F a ^^ fpSign F b ^^ np) m e, nofun, hfma⟩

/-- A signaling operand or zero times an infinity makes a fused form invalid. -/
theorem fpFma_invalid (h : isSignaling F a ∨ isSignaling F b ∨ isSignaling F c ∨ zeroTimesInfinity F a b) :
    fpFma F rm np na a b c = (fpCanonicalNaN F n, flagNV) := by
  by_cases hzero : zeroTimesInfinity F a b
  · exact fpFma_zeroTimesInfinity hzero
  by_cases hnan : isNan F a ∨ isNan F b
  · rw [fpFma_nan_factor hnan]
    refine fpNaN_of_mem ?_
    rcases h with h | h | h | h
    · simp [fpDecode_of_isSignaling h]
    · simp [fpDecode_of_isSignaling h]
    · simp [addendValue_eq_nan_iff.2 (fpDecode_of_isSignaling h)]
    · exact absurd h hzero
  obtain ⟨ha, hb⟩ := not_or.1 hnan
  have hc : isSignaling F c := by
    rcases h with h | h | h | h
    · exact absurd h.1 ha
    · exact absurd h.1 hb
    · exact h
    · exact absurd h hzero
  have hdecode := addendValue_eq_nan_iff (na := na).2 (fpDecode_of_isSignaling hc)
  obtain ⟨v, -, hfma⟩ := fpFma_eq_fpAddValues (rm := rm) (np := np) (na := na) (c := c) ha hb hzero
  rw [hfma, fpAddValues_nan rm (.inr ⟨_, hdecode⟩), hdecode]
  exact fpNaN_of_mem (by simp)

/-- A quiet NaN operand alone makes a fused form quiet. -/
theorem fpFma_quiet (h : isNan F a ∨ isNan F b ∨ isNan F c) (ha : ¬ isSignaling F a) (hb : ¬ isSignaling F b)
    (hc : ¬ isSignaling F c) (hzero : ¬ zeroTimesInfinity F a b) :
    fpFma F rm np na a b c = (fpCanonicalNaN F n, 0) := by
  rw [← fpDecode_eq_signaling_iff] at ha hb
  rw [← fpDecode_eq_signaling_iff, ← addendValue_eq_nan_iff (na := na)] at hc
  by_cases hnan : isNan F a ∨ isNan F b
  · rw [fpFma_nan_factor hnan]
    exact fpNaN_of_not_mem (by simp [Ne.symm ha, Ne.symm hb, Ne.symm hc])
  obtain ⟨hna, hnb⟩ := not_or.1 hnan
  obtain ⟨q, hq⟩ := fpDecode_eq_nan_iff.2 ((h.resolve_left hna).resolve_left hnb)
  obtain ⟨v, hv, hfma⟩ := fpFma_eq_fpAddValues (rm := rm) (np := np) (na := na) (c := c) hna hnb hzero
  rw [hfma, fpAddValues_nan rm (.inr ⟨q, addendValue_eq_nan_iff.2 hq⟩)]
  exact fpNaN_of_not_mem (by simp [Ne.symm hv, Ne.symm hc])

/-! ### Square roots -/

theorem fpSqrt_nan (h : isNan F a) : fpSqrt F rm a = fpNaN F n [fpDecode F a] := by
  rw [fpSqrt, fpDecode_of_isNan h]

theorem fpSqrt_inf (hF : isFormat F n) (h : isInfinity F a) :
    if signField F a = 1 then fpSqrt F rm a = (fpCanonicalNaN F n, flagNV)
    else isInfiniteResult F 0 (fpSqrt F rm a) := by
  rw [fpSqrt, fpDecode_of_isInfinity h]
  simp only [signField_eq_one_iff]
  split_ifs with hsign
  · rfl
  · exact fpInfinity_isInfiniteResult hF false

end

/-- Settles O60: by the kinds of the operands. -/
theorem nanAndInfinityRules : Obligations.NanAndInfinityRules := by
  refine ⟨by decide, by decide, ?_⟩
  intro F n m np na a b c hF invalid quiet infinite sign zeroTimesInfinity
  refine ⟨fun h => ?_, fun h ha hb => ?_, binary_inf_inf hF, fun y => binary_inf_finite hF,
    fun x => binary_finite_inf hF, fun h => ?_, fun h hquiet => ?_, fpSqrt_inf hF, fpFma_invalid, fpFma_quiet⟩
  · exact binary_nan (h.imp And.left And.left) fun vs hmem => fpNaN_of_mem (hmem.2 h)
  · exact binary_nan h fun vs hmem => fpNaN_of_not_mem (mt hmem.1 (not_or.2 ⟨ha, hb⟩))
  · exact (fpSqrt_nan h.1).trans (fpNaN_of_mem (by simp [fpDecode_of_isSignaling h]))
  · exact (fpSqrt_nan h).trans (fpNaN_of_not_mem (by simp [fpDecode_of_isQuiet h hquiet]))

/-- Settles O57: an infinite product meets the addend, or a finite one an infinite addend. -/
theorem fusedMultiplyAddOfInfinities : Obligations.FusedMultiplyAddOfInfinities := by
  intro F n m np na a b c hF r productSign addendSign infinite infiniteProduct
  have hproduct : productSign = (fpSign F a ^^ fpSign F b ^^ np).toNat := productSign_eq a b np
  have haddend : addendSign = (fpSign F c ^^ na).toNat := addendSign_eq c na
  rw [hproduct, haddend, Ne, toNat_inj]
  refine ⟨fun hab hc hne => ?_, fun hab hc heq => ?_, fun z hab hc => ?_, fun x y ha hb hc => ?_⟩
  · show fpFma F m np na a b c = _
    rw [fpFma_infiniteProduct hab, addendValue_of_isInfinity na hc]
    exact if_neg hne
  · show isInfiniteResult F _ (fpFma F m np na a b c)
    rw [fpFma_infiniteProduct hab, addendValue_of_isInfinity na hc, fpAddValues, if_pos heq]
    exact fpInfinity_isInfiniteResult hF _
  · show isInfiniteResult F _ (fpFma F m np na a b c)
    obtain ⟨k, e, hdc⟩ := addendValue_of_hasValue na hc
    rw [fpFma_infiniteProduct hab, hdc]
    exact fpInfinity_isInfiniteResult hF _
  · show isInfiniteResult F _ (fpFma F m np na a b c)
    obtain ⟨k, e, hfma⟩ := fpFma_finite_product (rm := m) (np := np) (na := na) (c := c) ha hb
    rw [hfma, addendValue_of_isInfinity na hc]
    exact fpInfinity_isInfiniteResult hF _

end Sys2Proof.Proofs
end

