-- ==== Sys2Proof/Proofs/FloatConversions.lean ====
section
/-! O51 and O52: conversions from integers and between the formats. -/

namespace Sys2Proof.Proofs

open Sys2Proof.Machine Sys2Proof.Laws

/-! ### From integers -/

/-- An integer is rounded; zero gives +0 (R483). -/
theorem isOfInt_fpOfInt {F : FloatFormat} {n : Nat} (hF : isFormat F n) (rm : RoundingMode) (z : ℤ) :
    isOfInt F rm z (fpOfInt F n rm z) := by
  obtain ⟨hrounded, hzero⟩ := fpRound_isExactOrRounded (rm := rm) (g := decide (z < 0)) (m := z.natAbs) (e := 0) hF
  rw [finiteValue_natAbs, zpow_zero, mul_one] at hrounded hzero
  refine ⟨fun hz => ?_, fun hz => hrounded (by exact_mod_cast hz)⟩
  have hsign : (decide (z < 0)).toNat = 0 := by simp [hz]
  rw [← hsign]
  exact hzero (by exact_mod_cast hz)

theorem isFormat_binary32 : isFormat binary32 32 := .inl ⟨rfl, rfl⟩

theorem isFormat_binary64 : isFormat binary64 64 := .inr ⟨rfl, rfl⟩

section

variable {s : State} {i : Instr} {rm : RmField} {m : RoundingMode} {rd : Reg} {z t : ℤ}

/-- A row that converts an integer to a single. -/
theorem onRow_ofInt_setsS (hwf : i.wellFormed s.cfg = true) (hm : resolveMode rm s.frm = some m) (hz : z = t) :
    ∃ v : Single × FpFlags, isOfInt binary32 m t v ∧ setsS s rd v.1 v.2 (s.pcAfter 4)
      (onRow i s (withMode i rm s fun m => completeFpS rd (fpOfInt binary32 32 m z) s)) :=
  ⟨_, hz ▸ isOfInt_fpOfInt isFormat_binary32 m z, onRow_withMode_setsS hwf hm _⟩

/-- A row that converts an integer to a double. -/
theorem onRow_ofInt_setsD (hwf : i.wellFormed s.cfg = true) (hm : resolveMode rm s.frm = some m) (hz : z = t) :
    ∃ v : Double × FpFlags, isOfInt binary64 m t v ∧ setsD s rd v.1 v.2 (s.pcAfter 4)
      (onRow i s (withMode i rm s fun m => completeFpD rd (fpOfInt binary64 64 m z) s)) :=
  ⟨_, hz ▸ isOfInt_fpOfInt isFormat_binary64 m z, onRow_withMode_setsD hwf hm _⟩

end

/-- Settles O51: every row rounds the integer that its operand stands for. -/
theorem integerToFloat : Obligations.IntegerToFloat := by
  intro s rd rs1 rm m hx hmode x single double
  have hm := resolveMode_of_modeField hmode
  have hlow : (((s.rx rs1).setWidth 32).toNat : ℤ) = (x % 2 ^ 32 : ℕ) := by rw [BitVec.toNat_setWidth]
  have hall (h64 : s.cfg.xlen = .rv64) : (((s.rx rs1).setWidth 64).toNat : ℤ) = x := by
    rw [BitVec.toNat_setWidth_of_le]
    rw [State.width, h64]
    exact le_rfl
  refine ⟨fun hF => ?_, fun hD => ?_⟩
  · have hwf : (s.cfg.is32or64 && s.cfg.extF) = true := by simp [hx, hF]
    refine ⟨onRow_ofInt_setsS (i := .fcvtSW rd rs1 rm) hwf hm (BitVec.toInt_setWidth ..),
      onRow_ofInt_setsS (i := .fcvtSWu rd rs1 rm) hwf hm hlow, fun h64 => ?_⟩
    have hlong : (s.cfg.xlen == .rv64 && s.cfg.extF) = true := by simp [h64, hF]
    exact ⟨onRow_ofInt_setsS (i := .fcvtSL rd rs1 rm) hlong hm (BitVec.toInt_setWidth ..),
      onRow_ofInt_setsS (i := .fcvtSLu rd rs1 rm) hlong hm (hall h64)⟩
  · have hwf : (s.cfg.is32or64 && s.cfg.hasD) = true := by simp [hx, hD]
    refine ⟨onRow_ofInt_setsD (i := .fcvtDW rd rs1 rm) hwf hm (BitVec.toInt_setWidth ..),
      onRow_ofInt_setsD (i := .fcvtDWu rd rs1 rm) hwf hm hlow, fun h64 => ?_⟩
    have hlong : (s.cfg.xlen == .rv64 && s.cfg.hasD) = true := by simp [h64, hD]
    exact ⟨onRow_ofInt_setsD (i := .fcvtDL rd rs1 rm) hlong hm (BitVec.toInt_setWidth ..),
      onRow_ofInt_setsD (i := .fcvtDLu rd rs1 rm) hlong hm (hall h64)⟩

/-! ### Between the formats -/

/-- A conversion by the kind of the pattern (R526, R527). -/
theorem isConversion_fpConvert {F G : FloatFormat} {n k : Nat} (hG : isFormat G k) (rm : RoundingMode) (a : BitVec n) :
    isConversion F G rm a (fpConvert F G k rm a) := by
  refine ⟨fun h => ?_, fun h => ?_, fun h hquiet => ?_, fun h => ?_, fun x hx => ?_⟩
  · rw [fpConvert, fpDecode_of_isNan h]
    rfl
  · rw [fpConvert, fpDecode_of_isSignaling h]
    rfl
  · rw [fpConvert, fpDecode_of_isQuiet h hquiet]
    rfl
  · rw [fpConvert, fpDecode_of_isInfinity h, signField_eq_toNat F a]
    exact fpInfinity_isInfiniteResult hG _
  · obtain ⟨m, e, hdecode, rfl⟩ := decode_finite hx
    obtain ⟨hrounded, hzero⟩ := fpRound_isExactOrRounded (rm := rm) (g := fpSign F a) (m := m) (e := e) hG
    rw [fpConvert, hdecode, signField_eq_toNat F a]
    exact ⟨hzero, hrounded⟩

section

variable {F : FloatFormat} {n : Nat} {rm : RoundingMode} {g : Bool} {m : ℕ} {e : ℤ} {x : ℝ}

/-- Numbers up to half of the largest power of two do not overflow. -/
theorem not_overflows_of_le (hx : 0 < x) (hle : x ≤ 2 ^ F.bias) : ¬ overflows F rm ((-1) ^ g.toNat * x) := by
  have hdouble : (2 : ℝ) ^ (F.bias + 1) = 2 ^ F.bias + 2 ^ F.bias := by
    rw [pow_succ]
    ring
  have hulp : (2 : ℝ) ^ ((F.bias : ℤ) - F.fracBits) ≤ 2 ^ F.bias := by
    rw [← zpow_natCast]
    exact zpow_le_zpow_right₀ one_le_two (by omega)
  have hpos : (0 : ℝ) < 2 ^ ((F.bias : ℤ) - F.fracBits) := by positivity
  rw [overflows_iff hx]
  exact not_reaches_of_le (by linarith) (by linarith)

/-- A number of the format's precision and range is rounded to itself. -/
theorem fpRound_exact (hF : isFormat F n) (hm : m ≠ 0) (hquantum : baseExp F m e - F.fracBits ≤ e)
    (hrange : leadingExp m e + 1 ≤ F.bias) :
    hasValue F (fpRound F n rm g m e).1 (finiteValue g m e) ∧ (fpRound F n rm g m e).2 = 0 := by
  have hpos : (0 : ℝ) < m * 2 ^ e := mul_pos (by exact_mod_cast Nat.pos_of_ne_zero hm) (by positivity)
  have hle : (m : ℝ) * 2 ^ e ≤ 2 ^ F.bias := by
    refine (lt_two_pow_leadingExp m e).le.trans ?_
    rw [← zpow_natCast]
    exact zpow_le_zpow_right₀ one_le_two hrange
  obtain ⟨v, hv, -, -, hexact, htiny, hlarge⟩ :=
    (roundsTo_fpRound (rm := rm) (neg := g) (e := e) hF hm).2 (not_overflows_of_le hpos hle)
  have hflags : (fpRound F n rm g m e).2 = flagOF ||| flagNX ∨ (fpRound F n rm g m e).2 = 0 := by
    by_cases hover : F.infMag ≤ roundedMag F rm g m e
    · rw [fpRound_overflow hm hover]
      exact .inl rfl
    · have hnot : roundedInexact F rm g m e = false := by rw [roundedInexact, atQuantum, if_pos hquantum]
      rw [fpRound_finite hm hover, hnot]
      exact .inr rfl
  have heq : v = finiteValue g m e := by
    by_contra hne
    have hinexact : (fpRound F n rm g m e).2 = flagUF ||| flagNX ∨ (fpRound F n rm g m e).2 = flagNX :=
      (em (isTiny F rm (finiteValue g m e))).imp (htiny hne) (hlarge hne)
    rcases hflags with h | h <;> rw [h] at hinexact <;> exact absurd hinexact (by decide)
  exact ⟨heq ▸ hv, hexact heq⟩

theorem hasValue_zero_of_isZeroResult (hF : isFormat F n) {sign : Nat} {r : BitVec n × FpFlags}
    (h : isZeroResult F sign r) : hasValue F r.1 0 := by
  obtain ⟨hexp, hfrac, -, -⟩ := h
  refine ⟨?_, ?_⟩
  · rw [hexp, isFormat_two_pow_expBits hF]
    omega
  · rw [if_pos hexp, hfrac, Nat.cast_zero, zero_div, mul_zero, mul_zero]

/-- The integer and the exponent of a finite pattern are within the format's precision and range. -/
theorem decode_bounds (hF : isFormat F n) {a : BitVec n} (h : fpDecode F a = .finite g m e) :
    m < 2 ^ (F.fracBits + 1) ∧ F.minExp - F.fracBits ≤ e ∧ e ≤ F.bias - F.fracBits := by
  have hpos : 0 < 2 ^ F.fracBits := Nat.two_pow_pos _
  have hfrac : fpMag F a % 2 ^ F.fracBits < 2 ^ F.fracBits := Nat.mod_lt _ hpos
  have hexp : fpMag F a / 2 ^ F.fracBits < 2 ^ F.expBits := by
    rw [fpMag_div]
    exact Nat.mod_lt _ (Nat.two_pow_pos _)
  have hbias := isFormat_bias_pos hF
  rw [isFormat_two_pow_expBits hF] at hexp
  rw [fpDecode, isFormat_two_pow_expBits hF] at h
  have hmin := minExp_eq F
  rw [pow_succ]
  generalize fpMag F a % 2 ^ F.fracBits = frac at *
  generalize fpMag F a / 2 ^ F.fracBits = expo at *
  generalize 2 ^ F.fracBits = top at *
  split_ifs at h
  all_goals
    cases h
    exact ⟨by omega, by omega, by omega⟩

end

/-- A single is a double without rounding (R527). -/
theorem fpConvert_widening (rm : RoundingMode) {a : Single} {x : ℝ} (h : hasValue binary32 a x) :
    hasValue binary64 (fpConvert binary32 binary64 64 rm a).1 x ∧ (fpConvert binary32 binary64 64 rm a).2 = 0 := by
  obtain ⟨m, e, hdecode, rfl⟩ := decode_finite h
  obtain ⟨hm, hlow, hhigh⟩ := decode_bounds isFormat_binary32 hdecode
  rw [fpConvert, hdecode]
  by_cases hzero : m = 0
  · have hresult := (fpRound_isExactOrRounded (rm := rm) (g := fpSign binary32 a) (m := m) (e := e)
      isFormat_binary64).2 (finiteValue_eq_zero.2 hzero)
    rw [finiteValue_eq_zero.2 hzero]
    exact ⟨hasValue_zero_of_isZeroResult isFormat_binary64 hresult, hresult.2.2.2⟩
  · have hlog : m.log2 < 24 := (Nat.log2_lt hzero).2 hm
    have hmin32 : binary32.minExp = -126 := by decide
    have hmin64 : binary64.minExp = -1022 := by decide
    have hbias32 : binary32.bias = 127 := by decide
    have hbias64 : binary64.bias = 1023 := by decide
    have hfrac32 : binary32.fracBits = 23 := rfl
    have hfrac64 : binary64.fracBits = 52 := rfl
    refine fpRound_exact isFormat_binary64 hzero ?_ ?_
    · rw [baseExp, leadingExp]
      omega
    · rw [leadingExp]
      omega

/-- Settles O52: a single has the precision and the range of a double. -/
theorem formatConversions : Obligations.FormatConversions := by
  intro s rd rs1 rm m hx hD hmode
  have hm := resolveMode_of_modeField hmode
  have hwf : (s.cfg.is32or64 && s.cfg.hasD) = true := by simp [hx, hD]
  exact ⟨⟨_, isConversion_fpConvert isFormat_binary32 m _, onRow_withMode_setsS (i := .fcvtSD rd rs1 rm) hwf hm _⟩,
    ⟨_, isConversion_fpConvert isFormat_binary64 m _, fun x h => fpConvert_widening m h,
      onRow_withMode_setsD (i := .fcvtDS rd rs1 rm) hwf hm _⟩⟩

end Sys2Proof.Proofs
end

