-- ==== Sys2Proof/Proofs/FloatComparisons.lean ====
section
/-! O48 and O49: `fpOrder` orders the patterns that are not NaNs as their values, infinities included; the comparisons,
the minimum and the maximum follow. Classification reads off the decoder's cases. -/

namespace Sys2Proof.Proofs

open Sys2Proof.Machine Sys2Proof.Laws

/-! ### NaNs and infinities by their magnitudes -/

section

variable {F : FloatFormat} {n : Nat} {a b : BitVec n}

/-- The magnitude of a pattern from its fields. -/
theorem fpMag_eq (F : FloatFormat) (a : BitVec n) :
    fpMag F a = exponentField F a * 2 ^ F.fracBits + fractionField F a := by
  rw [← fpMag_div, ← fpMag_mod, Nat.mul_comm]
  exact (Nat.div_add_mod ..).symm

theorem fpMag_of_exponentField (h : exponentField F a = 2 ^ F.expBits - 1) :
    fpMag F a = F.infMag + fractionField F a := by
  rw [fpMag_eq, h]
  rfl

theorem fpMag_of_isInfinity (h : isInfinity F a) : fpMag F a = F.infMag := by
  rw [fpMag_of_exponentField h.1, h.2, Nat.add_zero]

theorem fpIsNaN_iff : fpIsNaN F a = true ↔ isNan F a := by
  rw [fpIsNaN, decide_eq_true_iff, isNan]
  by_cases hexp : exponentField F a = 2 ^ F.expBits - 1
  · rw [fpMag_of_exponentField hexp, Nat.lt_add_right_iff_pos, Nat.pos_iff_ne_zero]
    exact ⟨fun h => ⟨hexp, h⟩, And.right⟩
  · exact iff_of_false (finite_iff_fpMag_lt.1 hexp).not_gt fun h => hexp h.1

theorem fpIsNaN_eq_false (h : ¬ isNan F a) : fpIsNaN F a = false := Bool.eq_false_iff.2 (mt fpIsNaN_iff.1 h)

/-! ### Orders and values -/

/-- The value of a signed magnitude. -/
noncomputable def signedValue (F : FloatFormat) (o : ℤ) : ℝ :=
  if o < 0 then -magnitudeValue F o.natAbs else magnitudeValue F o.natAbs

theorem strictMono_signedValue (F : FloatFormat) : StrictMono (signedValue F) := by
  refine strictMono_int_of_lt_succ fun o => ?_
  have hmono := strictMono_magnitudeValue F
  rcases lt_or_ge o 0 with hneg | hpos
  · have hlt : magnitudeValue F (o + 1).natAbs < magnitudeValue F o.natAbs := hmono (by omega)
    rcases lt_or_ge (o + 1) 0 with hneg' | hzero
    · rw [signedValue, signedValue, if_pos hneg, if_pos hneg']
      exact neg_lt_neg hlt
    · have hnonneg := magnitudeValue_nonneg F (o + 1).natAbs
      rw [signedValue, signedValue, if_pos hneg, if_neg hzero.not_gt]
      linarith
  · rw [signedValue, signedValue, if_neg hpos.not_gt, if_neg (by omega)]
    exact hmono (by omega)

/-- The extended value that an order stands for. -/
noncomputable def extendedValue (F : FloatFormat) (o : ℤ) : EReal :=
  if o = F.infMag then ⊤ else if o = -F.infMag then ⊥ else (signedValue F o : ℝ)

theorem strictMonoOn_extendedValue (F : FloatFormat) :
    StrictMonoOn (extendedValue F) (Set.Icc (-F.infMag : ℤ) F.infMag) := by
  rintro o ⟨hlow, -⟩ t ⟨-, hhigh⟩ hlt
  rw [extendedValue, if_neg (hlt.trans_le hhigh).ne]
  by_cases ho : o = -F.infMag
  · rw [if_pos ho, bot_lt_iff_ne_bot, extendedValue]
    split_ifs with htop hbot
    · exact top_ne_bot
    · omega
    · exact EReal.coe_ne_bot _
  · rw [if_neg ho, extendedValue]
    split_ifs with htop hbot
    · exact EReal.coe_lt_top _
    · omega
    · exact EReal.coe_lt_coe_iff.2 (strictMono_signedValue F hlt)

theorem signedValue_fpOrder (F : FloatFormat) (a : BitVec n) :
    signedValue F (fpOrder F a) = (-1) ^ (fpSign F a).toNat * magnitudeValue F (fpMag F a) := by
  rw [fpOrder, signedValue]
  cases fpSign F a with
  | false => simp
  | true =>
    rcases Nat.eq_zero_or_pos (fpMag F a) with hzero | hpos
    · simp [hzero, magnitudeValue_zero]
    · simp [hpos]

/-- The order of a pattern with an extended value is in range and stands for the value. -/
theorem fpOrder_of_hasExtendedValue (hF : isFormat F n) {x : EReal} (h : hasExtendedValue F a x) :
    fpOrder F a ∈ Set.Icc (-F.infMag : ℤ) F.infMag ∧ x = extendedValue F (fpOrder F a) := by
  obtain ⟨y, hy, rfl⟩ | ⟨hinf, rfl⟩ := h
  · have hlt := finite_iff_fpMag_lt.1 hy.1
    have hrange : -(F.infMag : ℤ) < fpOrder F a ∧ fpOrder F a < F.infMag := by
      rw [fpOrder]
      constructor <;> split_ifs <;> omega
    refine ⟨⟨hrange.1.le, hrange.2.le⟩, ?_⟩
    rw [extendedValue, if_neg hrange.2.ne, if_neg hrange.1.ne', signedValue_fpOrder]
    exact congrArg _ (hasValue_iff.1 hy).2
  · have hpos := infMag_pos hF
    simp only [signField_eq_one_iff, fpOrder, fpMag_of_isInfinity hinf]
    cases fpSign F a with
    | false => simp [extendedValue]
    | true =>
      have hne : -(F.infMag : ℤ) ≠ F.infMag := by omega
      simp [extendedValue, hne]

section

variable (hF : isFormat F n) {x y : EReal} (ha : hasExtendedValue F a x) (hb : hasExtendedValue F b y)

include hF ha hb

theorem fpOrder_lt_iff : fpOrder F a < fpOrder F b ↔ x < y := by
  obtain ⟨hrange, rfl⟩ := fpOrder_of_hasExtendedValue hF ha
  obtain ⟨hrange', rfl⟩ := fpOrder_of_hasExtendedValue hF hb
  exact ((strictMonoOn_extendedValue F).lt_iff_lt hrange hrange').symm

theorem fpOrder_le_iff : fpOrder F a ≤ fpOrder F b ↔ x ≤ y := by
  obtain ⟨hrange, rfl⟩ := fpOrder_of_hasExtendedValue hF ha
  obtain ⟨hrange', rfl⟩ := fpOrder_of_hasExtendedValue hF hb
  exact ((strictMonoOn_extendedValue F).le_iff_le hrange hrange').symm

theorem fpOrder_eq_iff : fpOrder F a = fpOrder F b ↔ x = y := by
  obtain ⟨hrange, rfl⟩ := fpOrder_of_hasExtendedValue hF ha
  obtain ⟨hrange', rfl⟩ := fpOrder_of_hasExtendedValue hF hb
  exact ((strictMonoOn_extendedValue F).injOn.eq_iff hrange hrange').symm

end

theorem not_isNan_of_hasExtendedValue {x : EReal} (h : hasExtendedValue F a x) : ¬ isNan F a := by
  obtain ⟨y, hy, -⟩ | ⟨hinf, -⟩ := h
  · exact not_isNan_of_hasValue hy
  · exact not_isNan_of_isInfinity hinf

/-! ### Comparisons -/

/-- A comparison that is false on a NaN and decides a relation of the orders (R479-R481). -/
theorem isComparison_of_order {loud p : Bool} {fl : FpFlags} {holds : EReal → EReal → Prop}
    (hp : ∀ x y, hasExtendedValue F a x → hasExtendedValue F b y → (p = true ↔ holds x y))
    (hNV : isSignaling F a ∨ isSignaling F b ∨ (loud = true ∧ (isNan F a ∨ isNan F b)) → fl = flagNV)
    (hquiet : ¬ isSignaling F a → ¬ isSignaling F b → (loud = true → ¬ isNan F a ∧ ¬ isNan F b) → fl = 0) :
    isComparison F loud holds a b (!fpIsNaN F a && !fpIsNaN F b && p).toNat fl := by
  refine ⟨fun h => ?_, hNV, hquiet, fun x y ha hb => ?_⟩
  · obtain h | h := h <;> simp [fpIsNaN_iff.2 h]
  · rw [fpIsNaN_eq_false (not_isNan_of_hasExtendedValue ha), fpIsNaN_eq_false (not_isNan_of_hasExtendedValue hb),
      ← hp x y ha hb]
    cases p <;> simp

theorem signalingFlag_pair_of_signaling (h : isSignaling F a ∨ isSignaling F b) :
    signalingFlag [fpDecode F a, fpDecode F b] = flagNV := by
  refine signalingFlag_of_mem ?_
  obtain h | h := h <;> simp [fpDecode_of_isSignaling h]

theorem signalingFlag_pair_of_quiet (ha : ¬ isSignaling F a) (hb : ¬ isSignaling F b) :
    signalingFlag [fpDecode F a, fpDecode F b] = 0 := by
  rw [← fpDecode_eq_signaling_iff] at ha hb
  exact signalingFlag_of_not_mem (by simp [Ne.symm ha, Ne.symm hb])

theorem nanFlag_of_nan (h : isNan F a ∨ isNan F b) : nanFlag F a b = flagNV := by
  obtain h | h := h <;> simp [nanFlag, fpIsNaN_iff.2 h]

theorem nanFlag_of_not_nan (ha : ¬ isNan F a) (hb : ¬ isNan F b) : nanFlag F a b = 0 := by
  simp [nanFlag, fpIsNaN_eq_false ha, fpIsNaN_eq_false hb]

theorem isComparison_fpEq (hF : isFormat F n) (a b : BitVec n) :
    isComparison F false (fun x y => x = y) a b (fpEq F a b).1.toNat (fpEq F a b).2 := by
  refine isComparison_of_order (fun x y ha hb => ?_) (fun h => ?_) fun ha hb _ => signalingFlag_pair_of_quiet ha hb
  · rw [decide_eq_true_iff]
    exact fpOrder_eq_iff hF ha hb
  · exact signalingFlag_pair_of_signaling (h.imp_right fun h => h.resolve_right fun ⟨hloud, _⟩ => nomatch hloud)

/-- The flag of a signaling comparison. -/
theorem nanFlag_loud (a b : BitVec n) :
    (isSignaling F a ∨ isSignaling F b ∨ (true = true ∧ (isNan F a ∨ isNan F b)) → nanFlag F a b = flagNV) ∧
    (¬ isSignaling F a → ¬ isSignaling F b → (true = true → ¬ isNan F a ∧ ¬ isNan F b) → nanFlag F a b = 0) := by
  refine ⟨fun h => nanFlag_of_nan ?_, fun _ _ h => nanFlag_of_not_nan (h rfl).1 (h rfl).2⟩
  rcases h with h | h | ⟨-, h⟩
  · exact .inl h.1
  · exact .inr h.1
  · exact h

theorem isComparison_fpLt (hF : isFormat F n) (a b : BitVec n) :
    isComparison F true (fun x y => x < y) a b (fpLt F a b).1.toNat (fpLt F a b).2 := by
  refine isComparison_of_order (fun x y ha hb => ?_) (nanFlag_loud a b).1 (nanFlag_loud a b).2
  rw [decide_eq_true_iff]
  exact fpOrder_lt_iff hF ha hb

theorem isComparison_fpLe (hF : isFormat F n) (a b : BitVec n) :
    isComparison F true (fun x y => x ≤ y) a b (fpLe F a b).1.toNat (fpLe F a b).2 := by
  refine isComparison_of_order (fun x y ha hb => ?_) (nanFlag_loud a b).1 (nanFlag_loud a b).2
  rw [decide_eq_true_iff]
  exact fpOrder_le_iff hF ha hb

/-! ### Minimum and maximum -/

theorem fpMinMax_flags (ed : FminmaxEdition) (pick : BitVec n → BitVec n → BitVec n) (a b : BitVec n) :
    (fpMinMax F ed pick a b).2 = signalingFlag [fpDecode F a, fpDecode F b] := by
  simp only [fpMinMax]
  split_ifs <;> rfl

/-- NaN operands of the minimum and the maximum (R474, D21): what the statement says of them holds for any choice between
two numbers that is right for numbers. -/
theorem isExtremum_fpMinMax {ed : FminmaxEdition} {largest : Bool} {pick : BitVec n → BitVec n → BitVec n}
    (hpick : ∀ x y : EReal, hasExtendedValue F a x → hasExtendedValue F b y →
      (x < y → pick a b = if largest then b else a) ∧ (y < x → pick a b = if largest then a else b) ∧
      (x = y → (pick a b = a ∨ pick a b = b) ∧
        (signField F a ≠ signField F b → signField F (pick a b) = if largest then 0 else 1))) :
    isExtremum F ed largest a b (fpMinMax F ed pick a b).1 (fpMinMax F ed pick a b).2 := by
  rw [fpMinMax_flags]
  have hedition (h : ed = .ieee201x ∨ ¬ (isSignaling F a ∨ isSignaling F b)) :
      ¬ (ed = .v22 ∧ signalingFlag [fpDecode F a, fpDecode F b] ≠ 0) := by
    rintro ⟨hed, hflag⟩
    obtain h | h := h
    · rw [hed] at h
      cases h
    · obtain ⟨ha, hb⟩ := not_or.1 h
      exact hflag (signalingFlag_pair_of_quiet ha hb)
  refine ⟨signalingFlag_pair_of_signaling, signalingFlag_pair_of_quiet, fun ha hb => ?_, fun hed hsig => ?_,
    fun ha hb hed => ?_, fun ha hb hed => ?_, fun x y hx hy => ?_⟩
  · simp only [fpMinMax, fpIsNaN_iff.2 ha, fpIsNaN_iff.2 hb, if_true, ite_self]
  · have hflag : signalingFlag [fpDecode F a, fpDecode F b] ≠ 0 := by
      rw [signalingFlag_pair_of_signaling hsig]
      decide
    simp only [fpMinMax, if_pos (And.intro hed hflag)]
  · have hnot := hedition (hed.imp_right fun hquiet => not_or.2 ⟨hquiet, fun h => hb h.1⟩)
    simp only [fpMinMax, if_neg hnot, fpIsNaN_iff.2 ha, fpIsNaN_eq_false hb, if_true, Bool.false_eq_true, if_false]
  · have hnot := hedition (hed.imp_right fun hquiet => not_or.2 ⟨fun h => ha h.1, hquiet⟩)
    simp only [fpMinMax, if_neg hnot, fpIsNaN_iff.2 hb, fpIsNaN_eq_false ha, if_true, Bool.false_eq_true, if_false]
  · have ha := not_isNan_of_hasExtendedValue hx
    have hb := not_isNan_of_hasExtendedValue hy
    have hnot := hedition (.inr (not_or.2 ⟨fun h => ha h.1, fun h => hb h.1⟩))
    simp only [fpMinMax, if_neg hnot, fpIsNaN_eq_false ha, fpIsNaN_eq_false hb, Bool.false_eq_true, if_false]
    exact hpick x y hx hy

/-- With signs that differ, one sign bit tells the other. -/
theorem fpSign_of_signField_ne (h : signField F a ≠ signField F b) : fpSign F b = !fpSign F a := by
  rw [signField_eq_toNat, signField_eq_toNat, Ne, toNat_inj] at h
  exact Bool.eq_not.2 (Ne.symm h)

theorem isExtremum_fpMin (hF : isFormat F n) (ed : FminmaxEdition) (a b : BitVec n) :
    isExtremum F ed false a b (fpMin F ed a b).1 (fpMin F ed a b).2 := by
  refine isExtremum_fpMinMax fun x y hx hy => ?_
  have hlt := fpOrder_lt_iff hF hx hy
  have hgt := fpOrder_lt_iff hF hy hx
  refine ⟨fun h => if_pos (hlt.2 h), fun h => ?_, fun h => ?_⟩
  · simp only [fpSmaller, if_neg (mt hlt.1 h.not_gt), if_pos (hgt.2 h), Bool.false_eq_true, if_false]
  · simp only [fpSmaller, if_neg (mt hlt.1 h.not_lt), if_neg (mt hgt.1 h.not_gt), Bool.false_eq_true, if_false]
    refine ⟨ite_eq_or_eq .., fun hne => ?_⟩
    have hother := fpSign_of_signField_ne hne
    rw [signField_eq_one_iff]
    split_ifs with hsign
    · exact hsign
    · rw [hother, Bool.eq_false_iff.2 hsign]
      rfl

theorem isExtremum_fpMax (hF : isFormat F n) (ed : FminmaxEdition) (a b : BitVec n) :
    isExtremum F ed true a b (fpMax F ed a b).1 (fpMax F ed a b).2 := by
  refine isExtremum_fpMinMax fun x y hx hy => ?_
  have hlt := fpOrder_lt_iff hF hx hy
  have hgt := fpOrder_lt_iff hF hy hx
  refine ⟨fun h => ?_, fun h => if_pos (hgt.2 h), fun h => ?_⟩
  · simp only [fpLarger, if_neg (mt hgt.1 h.not_gt), if_pos (hlt.2 h), if_true]
  · simp only [fpLarger, if_neg (mt hgt.1 h.not_gt), if_neg (mt hlt.1 h.not_lt), if_true]
    refine ⟨(ite_eq_or_eq ..).symm, fun hne => ?_⟩
    have hother := fpSign_of_signField_ne hne
    rw [signField_eq_toNat]
    split_ifs with hsign
    · rw [hother, hsign]
      rfl
    · rw [Bool.eq_false_iff.2 hsign]
      rfl

/-! ### Classification -/

theorem fpDecode_of_subnormal (hF : isFormat F n) (h : exponentField F a = 0) :
    fpDecode F a = .finite (fpSign F a) (fractionField F a) (F.minExp - F.fracBits) := by
  have hexp : (0 : ℕ) ≠ 2 ^ F.expBits - 1 := by
    rw [isFormat_two_pow_expBits hF]
    omega
  simp only [fpDecode, fpMag_div, fpMag_mod, h, if_neg hexp, if_true]

theorem fpDecode_of_normal (h : exponentField F a ≠ 0) (hfinite : exponentField F a ≠ 2 ^ F.expBits - 1) :
    fpDecode F a = .finite (fpSign F a) (2 ^ F.fracBits + fractionField F a)
      (F.minExp + (exponentField F a - 1) - F.fracBits) := by
  simp only [fpDecode, fpMag_div, fpMag_mod, if_neg h, if_neg hfinite]

theorem fpClass_eq_classNumber (hF : isFormat F n) (a : BitVec n) : fpClass F a = classNumber F a := by
  have hpos : 0 < 2 ^ F.fracBits := Nat.two_pow_pos _
  have hfrac : fractionField F a < 2 ^ F.fracBits := Nat.mod_lt _ hpos
  simp only [classNumber, signField_eq_one_iff]
  by_cases hexp : exponentField F a = 2 ^ F.expBits - 1
  · rw [if_pos hexp]
    by_cases hzero : fractionField F a = 0
    · rw [fpClass, fpDecode_of_isInfinity ⟨hexp, hzero⟩, if_pos hzero]
    · rw [fpClass, fpDecode_of_isNan ⟨hexp, hzero⟩, if_neg hzero]
      simp only [decide_eq_true_iff]
  · rw [if_neg hexp]
    by_cases hsub : exponentField F a = 0
    · rw [if_pos hsub, fpClass, fpDecode_of_subnormal hF hsub]
      simp only [if_pos hfrac]
    · have hne : 2 ^ F.fracBits + fractionField F a ≠ 0 := by omega
      have hge : ¬ 2 ^ F.fracBits + fractionField F a < 2 ^ F.fracBits := by omega
      rw [if_neg hsub, fpClass, fpDecode_of_normal hsub hexp]
      simp only [if_neg hne, if_neg hge]

theorem one_shiftLeft_eq (w k : ℕ) : 1#w <<< k = BitVec.ofNat w (2 ^ k) := by
  apply BitVec.eq_of_toNat_eq
  rw [BitVec.toNat_shiftLeft, BitVec.toNat_ofNat, BitVec.toNat_ofNat, Nat.shiftLeft_eq, Nat.mod_mul_mod, one_mul]

end

/-! ### The rows -/

section

variable {s : State} {i : Instr} {rd : Reg}

theorem boolValue_eq_ofNat (w : ℕ) (p : Bool) : boolValue w p = BitVec.ofNat w p.toNat := by cases p <;> rfl

/-- A comparison row answers 1 or 0 and its flags. -/
theorem onRow_comparison (hwf : i.wellFormed s.cfg = true) {F : FloatFormat} {n : ℕ} {a b : BitVec n} {loud : Bool}
    {holds : EReal → EReal → Prop} {r : Bool × FpFlags} (h : isComparison F loud holds a b r.1.toNat r.2) :
    ∃ v fl, isComparison F loud holds a b v fl ∧
      setsXFlags s rd (BitVec.ofNat s.width v) fl (s.pcAfter 4)
        (onRow i s (completeFpX rd (boolValue s.width r.1) r.2 s)) := by
  refine ⟨_, _, h, ?_⟩
  rw [onRow_ok _ hwf, ← boolValue_eq_ofNat]
  exact completeFpX_setsXFlags ..

theorem onRow_extremum_setsS (hwf : i.wellFormed s.cfg = true) {ed : FminmaxEdition} {largest : Bool} {a b : Single}
    {r : Single × FpFlags} (h : isExtremum binary32 ed largest a b r.1 r.2) :
    ∃ v fl, isExtremum binary32 ed largest a b v fl ∧
      setsS s rd v fl (s.pcAfter 4) (onRow i s (completeFpS rd r s)) := by
  refine ⟨_, _, h, ?_⟩
  rw [onRow_ok _ hwf]
  exact completeFpS_setsS rd r s

theorem onRow_extremum_setsD (hwf : i.wellFormed s.cfg = true) {ed : FminmaxEdition} {largest : Bool} {a b : Double}
    {r : Double × FpFlags} (h : isExtremum binary64 ed largest a b r.1 r.2) :
    ∃ v fl, isExtremum binary64 ed largest a b v fl ∧
      setsD s rd v fl (s.pcAfter 4) (onRow i s (completeFpD rd r s)) := by
  refine ⟨_, _, h, ?_⟩
  rw [onRow_ok _ hwf]
  exact completeFpD_setsD rd r s

theorem onRow_class (hwf : i.wellFormed s.cfg = true) {F : FloatFormat} {n : ℕ} (hF : isFormat F n) (a : BitVec n) :
    setsX s rd (BitVec.ofNat s.width (2 ^ classNumber F a)) (s.pcAfter 4)
      (onRow i s (completeX 4 rd (1#s.width <<< fpClass F a) s)) := by
  rw [← fpClass_eq_classNumber hF, ← one_shiftLeft_eq]
  exact onRow_completeX_setsX hwf ..

end

/-- Settles O48: the choice between two numbers goes by `fpOrder`. -/
theorem minimumAndMaximum : Obligations.MinimumAndMaximum := by
  intro s rd rs1 rs2 hx
  refine ⟨fun hF => ?_, fun hD => ?_⟩
  · have hwf : (s.cfg.is32or64 && s.cfg.extF) = true := by simp [hx, hF]
    exact ⟨onRow_extremum_setsS (i := .fminS rd rs1 rs2) hwf (isExtremum_fpMin isFormat_binary32 ..),
      onRow_extremum_setsS (i := .fmaxS rd rs1 rs2) hwf (isExtremum_fpMax isFormat_binary32 ..)⟩
  · have hwf : (s.cfg.is32or64 && s.cfg.hasD) = true := by simp [hx, hD]
    exact ⟨onRow_extremum_setsD (i := .fminD rd rs1 rs2) hwf (isExtremum_fpMin isFormat_binary64 ..),
      onRow_extremum_setsD (i := .fmaxD rd rs1 rs2) hwf (isExtremum_fpMax isFormat_binary64 ..)⟩

/-- Settles O49: the comparisons go by `fpOrder`, the classes by the decoder. -/
theorem comparisonsAndClassification : Obligations.ComparisonsAndClassification := by
  intro s rd rs1 rs2 hx
  refine ⟨fun hF => ?_, fun hD => ?_⟩
  · have hwf : (s.cfg.is32or64 && s.cfg.extF) = true := by simp [hx, hF]
    exact ⟨onRow_comparison (i := .feqS rd rs1 rs2) hwf (isComparison_fpEq isFormat_binary32 ..),
      onRow_comparison (i := .fltS rd rs1 rs2) hwf (isComparison_fpLt isFormat_binary32 ..),
      onRow_comparison (i := .fleS rd rs1 rs2) hwf (isComparison_fpLe isFormat_binary32 ..),
      onRow_class (i := .fclassS rd rs1) hwf isFormat_binary32 _⟩
  · have hwf : (s.cfg.is32or64 && s.cfg.hasD) = true := by simp [hx, hD]
    exact ⟨onRow_comparison (i := .feqD rd rs1 rs2) hwf (isComparison_fpEq isFormat_binary64 ..),
      onRow_comparison (i := .fltD rd rs1 rs2) hwf (isComparison_fpLt isFormat_binary64 ..),
      onRow_comparison (i := .fleD rd rs1 rs2) hwf (isComparison_fpLe isFormat_binary64 ..),
      onRow_class (i := .fclassD rd rs1) hwf isFormat_binary64 _⟩

end Sys2Proof.Proofs
end
